-- ==== Sys2Proof/Word.lean ====
section
/-! DEFINITION. The word types of the block: bytes, 16-bit and 32-bit values, 4-bit code lengths
(00_scope.md R10, R11; 10_state.md R28, R37). -/

namespace Sys2Proof

/-- A byte, 0..255 (R10). -/
abbrev Byte := BitVec 8

/-- A 16-bit unsigned value: a transparency key, an Adler-32 sum (10_state.md R33, R38). -/
abbrev Half := BitVec 16

/-- A 32-bit unsigned value: a chunk length, type or CRC, an image dimension (10_state.md R28, R30). -/
abbrev Word := BitVec 32

/-- A Huffman code length, an entry of `LL_LEN`, `D_LEN` or `CL_LEN` (10_state.md R37). -/
abbrev CodeLen := BitVec 4

end Sys2Proof
end

