-- ==== Sys2Proof/Config.lean ====
section
/-! DEFINITION. What is fixed for the machine (00_scope.md R6 to R8, 10_state.md R42) and the free values
(60_exceptions.md R392, 44_inflate_blocks.md R245, 10_state.md R40). -/

namespace Sys2Proof

namespace Config

/-- The value `FAULT_OFFSET` takes at the n-th fault entry: unspecified for every kind (60_exceptions.md R392,
93_implementation_defined.md I5, "any value"). No body: nothing can evaluate it. Log entry 5. -/
opaque freeFaultOffset : Nat → Nat

/-- The values `CL_LEN` takes when a static block rewrites it: the n-th free value, for each symbol. That it is rewritten is
44_inflate_blocks.md R245; no rule states the values, but that they are in `0..7` (10_state.md R37). No body: nothing can
evaluate it. Log entry 17. -/
opaque freeClLen : Nat → Nat → BitVec 3

/-- The bytes `CURROW` holds when a pass starts: the n-th free value, for each byte of the row. That it has the
`rowbytes(PASS_W)` entries of the new pass is 10_state.md R40; no rule states their values. No body: nothing can evaluate it.
Log entry 18. -/
opaque freeRowByte : Nat → Nat → Byte

/-- `MAX_PIXELS` is constrained to `1 <= MAX_PIXELS < 2^30` (00_scope.md R6). -/
def maxPixelsLimit : Nat := 2 ^ 30

/-- `WINDOW_MAX` (00_scope.md R8): no rule checks it, since no longer distance can be encoded (45_inflate_symbols.md R274). -/
def windowMax : Nat := 32768

/-- The output pixel format (10_state.md R42): channels, and bits per channel. -/
structure OutFormat where
  channels : Nat
  bitsPerChannel : Nat
  deriving DecidableEq, Repr

/-- `OUT_FMT`, a constant: 4 channels of 8 bits in the order R, G, B, A (10_state.md R42). -/
def outFormat : OutFormat := ⟨4, 8⟩

end Config

end Sys2Proof
end

