-- ==== Sys2Proof/Syntax.lean ====
section
/-! DEFINITION. The stream elements, host command and primitives of the block: one constructor per row of
spec/opcode_table.json, in the table's order. Operands are those of the row's rule (its "Operands:" line): what an
element reads through the readers (extra bits, payload fields, row bytes) is read by its meaning, in the rule's order
(log entry 15). -/

namespace Sys2Proof

/-- Which alphabet a code-length vector belongs to (44_inflate_blocks.md R242, `kind`). -/
inductive CodeKind
  | ll | d | cl
  deriving DecidableEq, Repr

/-- One constructor per row of the opcode table. -/
inductive Instr
  -- container layer (41_container.md)
  | sig
  | ihdr | plte | trns | idat | iend
  | anc (type : Word)
  | crit (type : Word)
  -- zlib layer (43_zlib_wrapper.md)
  | zhdr | ztrl
  -- block headers (44_inflate_blocks.md), operand BFINAL
  | blkStored (final : Bool)
  | blkFixed (final : Bool)
  | blkDyn (final : Bool)
  | blkRsvd (final : Bool)
  -- literal/length alphabet (45_inflate_symbols.md)
  | lit (value : Byte)
  | eob
  | len257 | len258 | len259 | len260 | len261 | len262 | len263 | len264 | len265 | len266
  | len267 | len268 | len269 | len270 | len271 | len272 | len273 | len274 | len275 | len276
  | len277 | len278 | len279 | len280 | len281 | len282 | len283 | len284 | len285
  | ll286 | ll287
  -- distance alphabet
  | dist0 | dist1 | dist2 | dist3 | dist4 | dist5 | dist6 | dist7 | dist8 | dist9
  | dist10 | dist11 | dist12 | dist13 | dist14 | dist15 | dist16 | dist17 | dist18 | dist19
  | dist20 | dist21 | dist22 | dist23 | dist24 | dist25 | dist26 | dist27 | dist28 | dist29
  | dist30 | dist31
  -- code-length alphabet
  | clLen (value : CodeLen)
  | clRep | clZ3 | clZ11
  -- rows and passes (46_scanline.md)
  | filtNone | filtSub | filtUp | filtAvg | filtPaeth
  | filtRsvd (ft : Byte)
  | ilaceNone
  | pass1 | pass2 | pass3 | pass4 | pass5 | pass6 | pass7
  -- pixel conversion (47_pixel_convert.md)
  | cvtG1 | cvtG2 | cvtG4 | cvtG8 | cvtG16 | cvtRgb8 | cvtRgb16 | cvtP1
  | cvtP2 | cvtP4 | cvtP8 | cvtGa8 | cvtGa16 | cvtRgba8 | cvtRgba16
  -- host command (48_host_control.md)
  | decode (stream : List Byte) (maxPixels : Nat) (verifyAdler : Bool)
  -- primitives (40, 42, 43, 44, 45)
  | readExact (n : Nat)
  | readU8 | readU32BE | atEnd
  | getbit
  | getbits (n : Nat)
  | alignByte
  | crcInit
  | crcUpdate (b : Byte)
  | crcCheck (expected : Word)
  | adlerInit
  | adlerUpdate (b : Byte)
  | emit (b : Byte)
  | buildCode (lens : List CodeLen)
  | checkCode (lens : List CodeLen) (kind : CodeKind)
  | decodeSym (lens : List CodeLen)
  deriving DecidableEq, Repr

end Sys2Proof
end

