-- ==== Sys2Proof/Decode.lean ====
section
/-! DEFINITION. Encoding of the stream elements (30_encoding.md): the byte-order helpers, the decoder from the selecting
value of each format to an element, total and rejecting by name, the encoder written from the same tables, the code words
of the fixed Huffman code (R117), and `decodeTableWord`. -/

namespace Sys2Proof

/-! ### Assembly of multi-byte values (00_scope.md R11) -/

/-- `BE16(b0,b1)` (R11). -/
def be16 (b0 b1 : Byte) : Nat := b0.toNat * 256 + b1.toNat

/-- `BE32(b0,b1,b2,b3)` (R11): the first byte on the wire is the most significant (20_memory.md R74). -/
def be32 (b0 b1 b2 b3 : Byte) : Nat :=
  b0.toNat * 2 ^ 24 + b1.toNat * 2 ^ 16 + b2.toNat * 2 ^ 8 + b3.toNat

/-- `LE16(b0,b1)` (R11). -/
def le16 (b0 b1 : Byte) : Nat := b0.toNat + b1.toNat * 256

/-- The `n` big-endian bytes of `v` (the wire form `BE32` reads back for `n = 4`). -/
def bytesBE : Nat → Nat → List Byte
  | 0, _ => []
  | n + 1, v => BitVec.ofNat 8 (v / 256 ^ n) :: bytesBE n v

/-! ### Container layer (R101 to R104) -/

/-- The eight signature bytes (R101). -/
def signature : List Byte := [0x89, 0x50, 0x4E, 0x47, 0x0D, 0x0A, 0x1A, 0x0A]

/-- The signature as a 64-bit big-endian value (R101). -/
def signatureWord : Nat := 0x89504E470D0A1A0A

/-- Type tags as `BE32` (R103). -/
def tagIHDR : Word := 0x49484452
/-- Type tag of the palette chunk (R103). -/
def tagPLTE : Word := 0x504C5445
/-- Type tag of the transparency chunk (R103). -/
def tagTRNS : Word := 0x74524E53
/-- Type tag of the image-data chunk (R103). -/
def tagIDAT : Word := 0x49444154
/-- Type tag of the end chunk (R103). -/
def tagIEND : Word := 0x49454E44

/-- The five tags the block knows, compared exactly on all 32 bits (R103). -/
def isKnownTag (t : Word) : Bool :=
  t == tagIHDR || t == tagPLTE || t == tagTRNS || t == tagIDAT || t == tagIEND

/-- The ancillary bit, bit 29 of the type (bit 5 of its first byte), R103. -/
def isAncillary (t : Word) : Bool := t.getLsbD 29

/-- Chunk selection by type alone, in the order of R104. -/
def decodeChunkType (t : Word) : Instr :=
  if t = tagIHDR then .ihdr
  else if t = tagPLTE then .plte
  else if t = tagTRNS then .trns
  else if t = tagIDAT then .idat
  else if t = tagIEND then .iend
  else if isAncillary t then .anc t
  else .crit t

/-! ### Formats, and why a selecting value is rejected -/

/-- The format of an element (30_encoding.md R100): which value selects it. `ilace` carries the step of the pass sequence,
0 for the single pass of a non-interlaced image and 1..7 for `PASS1`..`PASS7`, which share one match (R121). -/
inductive Format
  | sig | chunk | zhdr | ztrl | bhdr | llsym | dsym | clsym | row
  | ilace (step : Fin 8)
  | depthCtype
  | cmd | prim
  deriving DecidableEq, Repr

/-- Why a selecting value is no element of its format. -/
inductive Reject
  /-- The value does not fit the selecting field. -/
  | fieldTooWide
  /-- Not a symbol of the alphabet: literal/length 288 and above, distance 32, code-length 19 (R113 to R116). -/
  | symbolOutsideAlphabet
  /-- Interlace method above 1 (R105), or a step the method does not have (R121). -/
  | interlace
  /-- (depth, colour type) is none of the fifteen legal pairs (R107). -/
  | pairing
  /-- The host command and the primitives have no encoding in any stream (48_host_control.md R360, 40_stream_reader.md). -/
  | noEncoding
  deriving DecidableEq, Repr

/-! ### Deflate layer (R110 to R117) -/

/-- Literal/length symbols 257..287 in order (R114). -/
def llSymbolsFrom257 : List Instr :=
  [.len257, .len258, .len259, .len260, .len261, .len262, .len263, .len264, .len265, .len266,
   .len267, .len268, .len269, .len270, .len271, .len272, .len273, .len274, .len275, .len276,
   .len277, .len278, .len279, .len280, .len281, .len282, .len283, .len284, .len285] ++ [.ll286, .ll287]

/-- Distance symbols 0..31 in order (R115). -/
def distSymbols : List Instr :=
  [.dist0, .dist1, .dist2, .dist3, .dist4, .dist5, .dist6, .dist7, .dist8, .dist9,
   .dist10, .dist11, .dist12, .dist13, .dist14, .dist15, .dist16, .dist17, .dist18, .dist19,
   .dist20, .dist21, .dist22, .dist23, .dist24, .dist25, .dist26, .dist27, .dist28, .dist29,
   .dist30, .dist31]

/-- The literal/length alphabet (R114). -/
def decodeLL (sym : Nat) : Except Reject Instr :=
  if sym < 256 then .ok (.lit (BitVec.ofNat 8 sym))
  else if sym = 256 then .ok .eob
  else match llSymbolsFrom257[sym - 257]? with
    | some i => .ok i
    | none => .error .symbolOutsideAlphabet

/-- The distance alphabet (R115). -/
def decodeDist (sym : Nat) : Except Reject Instr :=
  match distSymbols[sym]? with
  | some i => .ok i
  | none => .error .symbolOutsideAlphabet

/-- The code-length alphabet (R116). -/
def decodeCL (sym : Nat) : Except Reject Instr :=
  if sym < 16 then .ok (.clLen (BitVec.ofNat 4 sym))
  else if sym = 16 then .ok .clRep
  else if sym = 17 then .ok .clZ3
  else if sym = 18 then .ok .clZ11
  else .error .symbolOutsideAlphabet

/-- The block header `v = getbits(3)`: `v[0] = BFINAL`, `v[2:1] = BTYPE` (R110). -/
def decodeBlockHeader (v : Nat) : Except Reject Instr :=
  let final := v % 2 == 1
  if v < 8 then
    match v / 2 with
    | 0 => .ok (.blkStored final)
    | 1 => .ok (.blkFixed final)
    | 2 => .ok (.blkDyn final)
    | _ => .ok (.blkRsvd final)
  else .error .fieldTooWide

/-! ### Scanline and pixel layers (R107, R119, R121) -/

/-- The filter-type byte, the whole byte compared (R119). -/
def decodeFilter (ft : Nat) : Except Reject Instr :=
  match ft with
  | 0 => .ok .filtNone
  | 1 => .ok .filtSub
  | 2 => .ok .filtUp
  | 3 => .ok .filtAvg
  | 4 => .ok .filtPaeth
  | _ => if ft < 256 then .ok (.filtRsvd (BitVec.ofNat 8 ft)) else .error .fieldTooWide

/-- The pass element of a step of the sequence (R121). -/
def passInstr : Fin 8 → Instr
  | 0 => .ilaceNone
  | 1 => .pass1
  | 2 => .pass2
  | 3 => .pass3
  | 4 => .pass4
  | 5 => .pass5
  | 6 => .pass6
  | 7 => .pass7

/-- Interlace method 0 selects the one pass 0, method 1 the seven passes 1..7 (R121). -/
def decodeIlace (step : Fin 8) (method : Nat) : Except Reject Instr :=
  if (method = 0 ∧ step = 0) ∨ (method = 1 ∧ step ≠ 0) then .ok (passInstr step)
  else .error .interlace

/-- The conversion operation of `BE16(depth, ctype)`: the fifteen legal pairs (R107). -/
def decodeDepthCtype (v : Nat) : Except Reject Instr :=
  match v with
  | 0x0100 => .ok .cvtG1
  | 0x0200 => .ok .cvtG2
  | 0x0400 => .ok .cvtG4
  | 0x0800 => .ok .cvtG8
  | 0x1000 => .ok .cvtG16
  | 0x0802 => .ok .cvtRgb8
  | 0x1002 => .ok .cvtRgb16
  | 0x0103 => .ok .cvtP1
  | 0x0203 => .ok .cvtP2
  | 0x0403 => .ok .cvtP4
  | 0x0803 => .ok .cvtP8
  | 0x0804 => .ok .cvtGa8
  | 0x1004 => .ok .cvtGa16
  | 0x0806 => .ok .cvtRgba8
  | 0x1006 => .ok .cvtRgba16
  | _ => .error .pairing

/-! ### The decoder -/

/-- The element a selecting value selects in a format (R100 to R122). `SIG`, `ZHDR` and `ZTRL` are positional: their place in
the stream selects them, and their own requirements are checked by their meanings (log entry 16). -/
def decode : Format → Nat → Except Reject Instr
  | .sig, _ => .ok .sig
  | .chunk, v => if v < 2 ^ 32 then .ok (decodeChunkType (BitVec.ofNat 32 v)) else .error .fieldTooWide
  | .zhdr, _ => .ok .zhdr
  | .ztrl, _ => .ok .ztrl
  | .bhdr, v => decodeBlockHeader v
  | .llsym, v => decodeLL v
  | .dsym, v => decodeDist v
  | .clsym, v => decodeCL v
  | .row, v => decodeFilter v
  | .ilace step, v => decodeIlace step v
  | .depthCtype, v => decodeDepthCtype v
  | .cmd, _ => .error .noEncoding
  | .prim, _ => .error .noEncoding

/-- The encoder: the format and the selecting value of an element (R101 to R121), `none` for the command and the primitives,
which have no encoding. For the positional `ZHDR` and `ZTRL` the value is a word the format admits (R108, R109). -/
def encode : Instr → Option (Format × Nat)
  | .sig => some (.sig, signatureWord)
  | .ihdr => some (.chunk, tagIHDR.toNat)
  | .plte => some (.chunk, tagPLTE.toNat)
  | .trns => some (.chunk, tagTRNS.toNat)
  | .idat => some (.chunk, tagIDAT.toNat)
  | .iend => some (.chunk, tagIEND.toNat)
  | .anc t => some (.chunk, t.toNat)
  | .crit t => some (.chunk, t.toNat)
  | .zhdr => some (.zhdr, 0x7801)
  | .ztrl => some (.ztrl, 0)
  | .blkStored f => some (.bhdr, f.toNat)
  | .blkFixed f => some (.bhdr, 2 + f.toNat)
  | .blkDyn f => some (.bhdr, 4 + f.toNat)
  | .blkRsvd f => some (.bhdr, 6 + f.toNat)
  | .lit v => some (.llsym, v.toNat)
  | .eob => some (.llsym, 256)
  | .len257 => some (.llsym, 257)
  | .len258 => some (.llsym, 258)
  | .len259 => some (.llsym, 259)
  | .len260 => some (.llsym, 260)
  | .len261 => some (.llsym, 261)
  | .len262 => some (.llsym, 262)
  | .len263 => some (.llsym, 263)
  | .len264 => some (.llsym, 264)
  | .len265 => some (.llsym, 265)
  | .len266 => some (.llsym, 266)
  | .len267 => some (.llsym, 267)
  | .len268 => some (.llsym, 268)
  | .len269 => some (.llsym, 269)
  | .len270 => some (.llsym, 270)
  | .len271 => some (.llsym, 271)
  | .len272 => some (.llsym, 272)
  | .len273 => some (.llsym, 273)
  | .len274 => some (.llsym, 274)
  | .len275 => some (.llsym, 275)
  | .len276 => some (.llsym, 276)
  | .len277 => some (.llsym, 277)
  | .len278 => some (.llsym, 278)
  | .len279 => some (.llsym, 279)
  | .len280 => some (.llsym, 280)
  | .len281 => some (.llsym, 281)
  | .len282 => some (.llsym, 282)
  | .len283 => some (.llsym, 283)
  | .len284 => some (.llsym, 284)
  | .len285 => some (.llsym, 285)
  | .ll286 => some (.llsym, 286)
  | .ll287 => some (.llsym, 287)
  | .dist0 => some (.dsym, 0)
  | .dist1 => some (.dsym, 1)
  | .dist2 => some (.dsym, 2)
  | .dist3 => some (.dsym, 3)
  | .dist4 => some (.dsym, 4)
  | .dist5 => some (.dsym, 5)
  | .dist6 => some (.dsym, 6)
  | .dist7 => some (.dsym, 7)
  | .dist8 => some (.dsym, 8)
  | .dist9 => some (.dsym, 9)
  | .dist10 => some (.dsym, 10)
  | .dist11 => some (.dsym, 11)
  | .dist12 => some (.dsym, 12)
  | .dist13 => some (.dsym, 13)
  | .dist14 => some (.dsym, 14)
  | .dist15 => some (.dsym, 15)
  | .dist16 => some (.dsym, 16)
  | .dist17 => some (.dsym, 17)
  | .dist18 => some (.dsym, 18)
  | .dist19 => some (.dsym, 19)
  | .dist20 => some (.dsym, 20)
  | .dist21 => some (.dsym, 21)
  | .dist22 => some (.dsym, 22)
  | .dist23 => some (.dsym, 23)
  | .dist24 => some (.dsym, 24)
  | .dist25 => some (.dsym, 25)
  | .dist26 => some (.dsym, 26)
  | .dist27 => some (.dsym, 27)
  | .dist28 => some (.dsym, 28)
  | .dist29 => some (.dsym, 29)
  | .dist30 => some (.dsym, 30)
  | .dist31 => some (.dsym, 31)
  | .clLen v => some (.clsym, v.toNat)
  | .clRep => some (.clsym, 16)
  | .clZ3 => some (.clsym, 17)
  | .clZ11 => some (.clsym, 18)
  | .filtNone => some (.row, 0)
  | .filtSub => some (.row, 1)
  | .filtUp => some (.row, 2)
  | .filtAvg => some (.row, 3)
  | .filtPaeth => some (.row, 4)
  | .filtRsvd ft => some (.row, ft.toNat)
  | .ilaceNone => some (.ilace 0, 0)
  | .pass1 => some (.ilace 1, 1)
  | .pass2 => some (.ilace 2, 1)
  | .pass3 => some (.ilace 3, 1)
  | .pass4 => some (.ilace 4, 1)
  | .pass5 => some (.ilace 5, 1)
  | .pass6 => some (.ilace 6, 1)
  | .pass7 => some (.ilace 7, 1)
  | .cvtG1 => some (.depthCtype, 0x0100)
  | .cvtG2 => some (.depthCtype, 0x0200)
  | .cvtG4 => some (.depthCtype, 0x0400)
  | .cvtG8 => some (.depthCtype, 0x0800)
  | .cvtG16 => some (.depthCtype, 0x1000)
  | .cvtRgb8 => some (.depthCtype, 0x0802)
  | .cvtRgb16 => some (.depthCtype, 0x1002)
  | .cvtP1 => some (.depthCtype, 0x0103)
  | .cvtP2 => some (.depthCtype, 0x0203)
  | .cvtP4 => some (.depthCtype, 0x0403)
  | .cvtP8 => some (.depthCtype, 0x0803)
  | .cvtGa8 => some (.depthCtype, 0x0804)
  | .cvtGa16 => some (.depthCtype, 0x1004)
  | .cvtRgba8 => some (.depthCtype, 0x0806)
  | .cvtRgba16 => some (.depthCtype, 0x1006)
  | .decode _ _ _ => none
  | .readExact _ => none
  | .readU8 => none
  | .readU32BE => none
  | .atEnd => none
  | .getbit => none
  | .getbits _ => none
  | .alignByte => none
  | .crcInit => none
  | .crcUpdate _ => none
  | .crcCheck _ => none
  | .adlerInit => none
  | .adlerUpdate _ => none
  | .emit _ => none
  | .buildCode _ => none
  | .checkCode _ _ => none
  | .decodeSym _ => none

/-! ### Bits on the wire -/

/-- The `w` bits of a code word in reading order, first bit the most significant (20_memory.md R76). -/
def codeBits (w v : Nat) : List Bool :=
  (List.range w).map fun k => v.testBit (w - 1 - k)

/-- The fixed code word of a literal/length symbol (R117). -/
def fixedLLWord (s : Nat) : List Bool :=
  if s < 144 then codeBits 8 (0x30 + s)
  else if s < 256 then codeBits 9 (0x190 + (s - 144))
  else if s < 280 then codeBits 7 (s - 256)
  else codeBits 8 (0xC0 + (s - 280))

/-- The fixed code word of a distance symbol (R117). -/
def fixedDistWord (s : Nat) : List Bool := codeBits 5 s

/-- Packing bits into bytes, `k` bits of value `acc` already in the current byte: bit number `k` of the stream is bit `k mod 8`
of byte `k / 8` (20_memory.md R75), the last byte padded with zeros. -/
def packBitsFrom (acc k : Nat) : List Bool → List Byte
  | [] => if k = 0 then [] else [BitVec.ofNat 8 acc]
  | b :: rest =>
    if k = 7 then BitVec.ofNat 8 (acc + b.toNat * 2 ^ k) :: packBitsFrom 0 0 rest
    else packBitsFrom (acc + b.toNat * 2 ^ k) (k + 1) rest

/-- Bits in reading order to bytes (20_memory.md R75). -/
def packBits (bits : List Bool) : List Byte := packBitsFrom 0 0 bits

/-! ### Words of the opcode table -/

/-- The format in which a word of the opcode table is read, and its selecting value (log entry 9). The table gives a row's
selecting value and not its format, and one value may select an element in several formats; the choice here is by width, then
by the order written. Words of 24 and 32 bits below the chunk types are the symbols whose operand table the reader's `fields`
widened (98_reader.md). -/
def tableFormat (nbits w : Nat) : Option (Format × Nat) :=
  if nbits ≤ 8 then
    if w ≤ 6 ∧ w % 2 = 0 then some (.bhdr, w)
    else if 16 ≤ w ∧ w ≤ 18 then some (.clsym, w)
    else if w ≤ 3 then some (.row, w)
    else if w < 32 then some (.dsym, w)
    else some (.row, w)
  else if nbits ≤ 16 then
    if w = 6 ∨ w = 7 then some (.dsym, w)
    else if w < 288 then some (.llsym, w)
    else if w = 0x0800 then some (.zhdr, w)
    else if (decodeDepthCtype w).toOption.isSome then some (.depthCtype, w)
    else if w &&& 0x0F20 = 0x0800 then some (.zhdr, w)
    else none
  else if nbits ≤ 24 then
    if w = 8 then some (.dsym, w) else if w < 288 then some (.llsym, w) else none
  else if nbits ≤ 32 then
    if w = 9 then some (.dsym, w)
    else if w = 271 ∨ w = 272 then some (.llsym, w)
    else some (.chunk, w)
  else if w = signatureWord then some (.sig, w)
  else none

/-- The element the decoder reads from a word of the opcode table. -/
def decodeTableWord (nbits w : Nat) : Option Instr :=
  match tableFormat nbits w with
  | some (f, v) => (decode f v).toOption
  | none => none

end Sys2Proof
end

