-- ==== Sys2Proof/WellFormed.lean ====
section
/-! DEFINITION. Which instructions are well formed: the checks on operands that the types do not make. -/

namespace Sys2Proof

/-- The size of each alphabet (00_scope.md R8). -/
def alphabetSize : CodeKind → Nat
  | .ll => 288
  | .d => 32
  | .cl => 19

/-- The well-formedness check: an unknown chunk's type agrees with its class and is none of the five known tags
(30_encoding.md R104); a reserved filter byte is 5..255 (R119); `MAX_PIXELS` is in `1 .. 2^30 - 1` (00_scope.md R6);
`getbits` reads 0..16 bits (40_stream_reader.md R147); a code-length vector is no longer than its alphabet (00_scope.md R8). -/
def Instr.wf : Instr → Bool
  | .sig => true
  | .ihdr => true
  | .plte => true
  | .trns => true
  | .idat => true
  | .iend => true
  | .anc t => isAncillary t && !isKnownTag t
  | .crit t => !isAncillary t && !isKnownTag t
  | .zhdr => true
  | .ztrl => true
  | .blkStored _ => true
  | .blkFixed _ => true
  | .blkDyn _ => true
  | .blkRsvd _ => true
  | .lit _ => true
  | .eob => true
  | .len257 | .len258 | .len259 | .len260 | .len261 | .len262 | .len263 | .len264
  | .len265 | .len266 | .len267 | .len268 | .len269 | .len270 | .len271 | .len272
  | .len273 | .len274 | .len275 | .len276 | .len277 | .len278 | .len279 | .len280
  | .len281 | .len282 | .len283 | .len284 | .len285 | .ll286 | .ll287 => true
  | .dist0 | .dist1 | .dist2 | .dist3 | .dist4 | .dist5 | .dist6 | .dist7
  | .dist8 | .dist9 | .dist10 | .dist11 | .dist12 | .dist13 | .dist14 | .dist15
  | .dist16 | .dist17 | .dist18 | .dist19 | .dist20 | .dist21 | .dist22 | .dist23
  | .dist24 | .dist25 | .dist26 | .dist27 | .dist28 | .dist29 | .dist30 | .dist31 => true
  | .clLen _ => true
  | .clRep | .clZ3 | .clZ11 | .filtNone | .filtSub | .filtUp | .filtAvg | .filtPaeth => true
  | .filtRsvd ft => decide (5 ≤ ft.toNat)
  | .ilaceNone | .pass1 | .pass2 | .pass3 | .pass4 | .pass5 | .pass6 | .pass7 => true
  | .cvtG1 | .cvtG2 | .cvtG4 | .cvtG8 | .cvtG16 | .cvtRgb8 | .cvtRgb16 | .cvtP1
  | .cvtP2 | .cvtP4 | .cvtP8 | .cvtGa8 | .cvtGa16 | .cvtRgba8 | .cvtRgba16 => true
  | .decode _ maxPixels _ => decide (1 ≤ maxPixels ∧ maxPixels < Config.maxPixelsLimit)
  | .readExact _ => true
  | .readU8 | .readU32BE | .atEnd | .getbit => true
  | .getbits n => decide (n ≤ 16)
  | .alignByte | .crcInit => true
  | .crcUpdate _ => true
  | .crcCheck _ => true
  | .adlerInit => true
  | .adlerUpdate _ => true
  | .emit _ => true
  | .buildCode lens => decide (lens.length ≤ 288)
  | .checkCode lens kind => decide (lens.length ≤ alphabetSize kind)
  | .decodeSym lens => decide (lens.length ≤ 288)

end Sys2Proof
end

