-- ==== Sys2Proof/Machine/State.lean ====
section
/-! DEFINITION. The state of the block (10_state.md), as plain data, the reasons a step can stop, and the state after reset
(10_state.md R48, 70_reset_and_hazards.md R430). -/

namespace Sys2Proof.Machine

/-- `PHASE` (10_state.md R21). -/
inductive Phase
  | idle | container | inflate | recon | done | faulted
  deriving DecidableEq, Repr

/-- `PSTATE`, the chunk parser's state (10_state.md R22). -/
inductive PState
  | expectSignature | expectHeader | readingChunks | done
  deriving DecidableEq, Repr

/-- The seventeen fault kinds, in the order of their codes 1..17 (60_exceptions.md R380). -/
inductive FaultKind
  | invalidSignature | missingHeader | unsupportedFormat | chunkCorrupt | invalidChunkOrder
  | unsupportedCriticalChunk | truncatedInput | truncatedCompressedData | truncatedPixelData
  | trailingData | invalidBackReference | decompressionChecksumError | invalidFilterType
  | paletteIndexOutOfRange | imageTooLarge | malformedChunk | invalidCompressedData
  deriving DecidableEq, Repr

/-- Where the driver of phase INFLATE stands (43_zlib_wrapper.md R210; 44_inflate_blocks.md R231, R239, R244;
45_inflate_symbols.md R266): what is read next. Log entry 7. -/
inductive InflateStage
  | zhdr | block | codeLengths | huffman | distance | trailer | finished
  deriving DecidableEq, Repr

/-- Where the driver of phase RECON stands (46_scanline.md R290, 47_pixel_convert.md R324): the next pass, the next row of the
pass, the next pixel of the row, or the end. Log entry 7. -/
inductive ReconStage
  | pass (step : Fin 8)
  | row | pixel | finished
  deriving DecidableEq, Repr

/-- The value the last executed primitive returned (log entry 8). `codes` is the result of `buildCode`: for each symbol its
code length and its code word. -/
inductive Ret
  | none
  | bytes (v : List Byte)
  | nat (v : Nat)
  | bool (v : Bool)
  | codes (v : List (Nat × Nat))
  deriving DecidableEq, Repr

/-- A palette entry, an (R, G, B) triplet of bytes (10_state.md R32). -/
structure Rgb where
  r : Byte
  g : Byte
  b : Byte
  deriving DecidableEq, Repr

/-- `TRNS_KEY[0..2]` (10_state.md R33). -/
structure TrnsKey where
  k0 : Half
  k1 : Half
  k2 : Half
  deriving DecidableEq, Repr

/-- An allocated byte array (`FRAME`, `OUT`; 10_state.md R41, R42): its size, and its bytes that are not 0, as a list of
(address, byte) cells with rising addresses. An unlisted address below the size reads 0, the value of every byte at
allocation (R41); an address at or above the size does not exist. Log entry 12. -/
structure Memory where
  size : Nat
  cells : List Host.Cell
  deriving DecidableEq, Repr

/-- The array of size 0: `FRAME` not allocated, `OUT` empty (R48). -/
def Memory.empty : Memory := ⟨0, []⟩

/-- A DECODE command at the host port (48_host_control.md R360). -/
structure Command where
  stream : List Byte
  maxPixels : Nat
  verifyAdler : Bool
  deriving DecidableEq, Repr

/-- Why the machine stops with a fault of the MODEL (the spec's own faults are fault entry, a next state, 60_exceptions.md
R390). Neither is reached in a run (20_memory.md R85, 60_exceptions.md R383); both are safe: the model stops. Log entry 10. -/
inductive Fault
  /-- An access outside the current length of a space. Raised by the readers of `CURROW`, `PREV`, `OBUF`, `PLT`, `TRNS_A` and
  the chunk payload and by the writer of `FRAME`. Safe. -/
  | outsideSpace
  /-- The selecting value at the fetch position is no element of its format. Raised by the fetch. Safe. -/
  | noElement
  deriving DecidableEq, Repr

/-- Why an instruction has no meaning here. -/
inductive Refusal
  /-- Raised by an arm of `exec` whose instruction has no meaning yet. Safe. -/
  | notModelled (mnemonic : String)
  /-- Raised by DECODE with `MAX_PIXELS` outside `1 .. 2^30 - 1`: "the command is outside this spec and a model refuses it"
  (48_host_control.md R361). Safe. Log entry 11. -/
  | maxPixelsOutOfRange
  /-- Raised by DECODE while a decode runs on this instance: treatment `refuse` (93_implementation_defined.md I9). Safe. Log
  entry 11. -/
  | decodeWhileRunning
  deriving DecidableEq, Repr

/-- The state of the block (10_state.md), with the model's own fields last. -/
structure State where
  -- control state and program counter (R21 to R26)
  phase : Phase
  pstate : PState
  cur : Nat
  bp : Nat
  rpos : Nat
  -- chunk record and CRC (R28, R29)
  ckLen : Word
  ckType : Word
  ckPay : List Byte
  ckCrc : Word
  crcAcc : Word
  -- image header (R30)
  ihWidth : Word
  ihHeight : Word
  ihDepth : Byte
  ihCtype : Byte
  ihIlace : Bool
  -- palette and transparency (R32, R33)
  plt : List Rgb
  pltN : BitVec 9
  trnsKey : TrnsKey
  trnsA : List Byte
  trnsN : BitVec 9
  -- flags (R34)
  havePlte : Bool
  haveTrns : Bool
  seenIdat : Bool
  idatClosed : Bool
  -- inflate (R35 to R39)
  zbuf : List Byte
  bfinal : Bool
  btype : BitVec 2
  hlit : Nat
  hdist : Nat
  hclen : Nat
  llLen : List CodeLen
  dLen : List CodeLen
  clLen : List CodeLen
  clSeq : List CodeLen
  mlen : Nat
  adlerA : Half
  adlerB : Half
  obuf : List Byte
  -- reconstruction (R40, R41)
  pass : BitVec 3
  passW : Word
  passH : Word
  row : Word
  ft : Byte
  prev : List Byte
  currow : List Byte
  col : Nat
  frame : Memory
  -- output, status, configuration (R42 to R44)
  outValid : Bool
  outW : Word
  outH : Word
  out : Memory
  faultKind : Option FaultKind
  faultOffset : Nat
  cfgMaxPixels : Nat
  cfgVerifyAdler : Bool
  -- the model's own (log entries 1, 2, 5, 7, 8, 17, 18)
  input : List Byte
  cmd : Option Command
  resetLine : Bool
  istage : InflateStage
  rstage : ReconStage
  ret : Ret
  freeCount : Nat
  deriving DecidableEq, Repr

/-- The state right after reset (R48, R430): the table's values; where the table says "unspecified", the values of log entries
3 and 4. -/
def State.reset : State where
  phase := .idle
  pstate := .expectSignature
  cur := 0
  bp := 0
  rpos := 0
  ckLen := 0
  ckType := 0
  ckPay := []
  ckCrc := 0
  crcAcc := 0
  ihWidth := 0
  ihHeight := 0
  ihDepth := 0
  ihCtype := 0
  ihIlace := false
  plt := List.replicate 256 ⟨0, 0, 0⟩
  pltN := 0
  trnsKey := ⟨0, 0, 0⟩
  trnsA := List.replicate 256 0
  trnsN := 0
  havePlte := false
  haveTrns := false
  seenIdat := false
  idatClosed := false
  zbuf := []
  bfinal := false
  btype := 0
  hlit := 0
  hdist := 0
  hclen := 0
  llLen := List.replicate 288 0
  dLen := List.replicate 32 0
  clLen := List.replicate 19 0
  clSeq := []
  mlen := 0
  adlerA := 1
  adlerB := 0
  obuf := []
  pass := 0
  passW := 0
  passH := 0
  row := 0
  ft := 0
  prev := []
  currow := []
  col := 0
  frame := Memory.empty
  outValid := false
  outW := 0
  outH := 0
  out := Memory.empty
  faultKind := none
  faultOffset := 0
  cfgMaxPixels := 1
  cfgVerifyAdler := true
  input := []
  cmd := none
  resetLine := false
  istage := .zhdr
  rstage := .pass 0
  ret := .none
  freeCount := 0

end Sys2Proof.Machine
end

