-- ==== Sys2Proof/Machine/Flags.lean ====
section
/-! DEFINITION. The flag computations: the run-of-image-data flag (41_container.md R171), the CRC-32 register (42_crc32.md)
and the two Adler-32 sums (43_zlib_wrapper.md R211 to R213). The block has no arithmetic condition codes (10_state.md R34). -/

namespace Sys2Proof.Machine

/-! ### IDAT_CLOSED -/

/-- `IDAT_CLOSED <- 1` when a chunk other than an image-data chunk is read after the first image-data chunk (R171). -/
def closeIdatRun (s : State) : State :=
  if s.seenIdat then { s with idatClosed := true } else s

/-! ### CRC-32 -/

/-- The bit-reversed generator polynomial (R202). -/
def crcPoly : Word := 0xEDB88320

/-- One of the eight shifts of `CRC.UPDATE` (R202). -/
def crcShift (c : Word) : Word :=
  if c.getLsbD 0 then (c >>> 1) ^^^ crcPoly else c >>> 1

/-- `n` shifts (R202 repeats eight times). -/
def crcShifts : Nat → Word → Word
  | 0, c => c
  | n + 1, c => crcShifts n (crcShift c)

/-- The register after `CRC.UPDATE(b)`; `b` enters at the low 8 bits (R202). -/
def crcByte (c : Word) (b : Byte) : Word :=
  crcShifts 8 (c ^^^ b.setWidth 32)

/-- The register before the first byte (R201). -/
def crcStart : Word := 0xFFFFFFFF

/-- `CRC32(s)` of a byte sequence (R204). -/
def crc32 (bytes : List Byte) : Word := bytes.foldl crcByte crcStart ^^^ 0xFFFFFFFF

/-- `CRC.INIT` (R201). -/
def crcInit (s : State) : State := { s with crcAcc := crcStart }

/-- `CRC.UPDATE(b)` (R202). -/
def crcUpdate (b : Byte) (s : State) : State := { s with crcAcc := crcByte s.crcAcc b }

/-- `CRC.UPDATE` over a sequence in stream order (R204). -/
def crcUpdates : List Byte → State → State
  | [], s => s
  | b :: rest, s => crcUpdates rest (crcUpdate b s)

/-! ### Adler-32 -/

/-- The modulus, the largest prime below `2^16` (R212). -/
def adlerMod : Nat := 65521

/-- The two sums after `ADLER.UPDATE(b)`; the second uses the new first (R212). -/
def adlerByte (a b : Half) (byte : Byte) : Half × Half :=
  let a' := (a.toNat + byte.toNat) % adlerMod
  let b' := (b.toNat + a') % adlerMod
  (BitVec.ofNat 16 a', BitVec.ofNat 16 b')

/-- The two sums over a byte sequence, from `ADLER.INIT` (R213). -/
def adlerSums (bytes : List Byte) : Half × Half :=
  bytes.foldl (fun p byte => adlerByte p.1 p.2 byte) (1, 0)

/-- `ADLER_B * 65536 + ADLER_A` (R213). -/
def adlerValue (a b : Half) : Nat := b.toNat * 65536 + a.toNat

/-- `ADLER32(s)` (R213). -/
def adler32 (bytes : List Byte) : Nat := adlerValue (adlerSums bytes).1 (adlerSums bytes).2

/-- `ADLER.INIT` (R211). -/
def adlerInit (s : State) : State := { s with adlerA := 1, adlerB := 0 }

/-- `ADLER.UPDATE(b)` (R212). -/
def adlerUpdate (byte : Byte) (s : State) : State :=
  { s with
    adlerA := (adlerByte s.adlerA s.adlerB byte).1
    adlerB := (adlerByte s.adlerA s.adlerB byte).2 }

end Sys2Proof.Machine
end

