-- ==== Sys2Proof/Machine/Ops.lean ====
section
/-! DEFINITION. The named operations: results of operations and `require`/`raise` (00_scope.md R13); fault entry and the ways
out of it (60_exceptions.md R390, R393); the byte arrays `FRAME` and `OUT`; the byte reader and the bit reader
(40_stream_reader.md); `emit` and `copy` (45_inflate_symbols.md). -/

namespace Sys2Proof.Machine

/-! ### Results of operations -/

/-- What an operation gives: a value and the state, a raised fault kind with the state at that moment (R13), or a stop of the
model (log entry 10). -/
inductive Res (α : Type)
  | ok (value : α) (s : State)
  | raise (k : FaultKind) (s : State)
  | stop (f : Fault)
  deriving DecidableEq, Repr

/-- Sequencing: no statement after a `raise` is executed (R13). -/
def Res.bind {α β : Type} (r : Res α) (f : α → State → Res β) : Res β :=
  match r with
  | .ok v s => f v s
  | .raise k s => .raise k s
  | .stop x => .stop x

/-- `require cond else K` (R13). -/
def require (cond : Prop) [Decidable cond] (k : FaultKind) (s : State) : Res Unit :=
  if cond then .ok () s else .raise k s

/-! ### Fault entry, and the ways out of FAULTED -/

/-- The code of a fault kind, the value of `FAULT_KIND` (60_exceptions.md R380). -/
def FaultKind.code : FaultKind → BitVec 5
  | .invalidSignature => 1
  | .missingHeader => 2
  | .unsupportedFormat => 3
  | .chunkCorrupt => 4
  | .invalidChunkOrder => 5
  | .unsupportedCriticalChunk => 6
  | .truncatedInput => 7
  | .truncatedCompressedData => 8
  | .truncatedPixelData => 9
  | .trailingData => 10
  | .invalidBackReference => 11
  | .decompressionChecksumError => 12
  | .invalidFilterType => 13
  | .paletteIndexOutOfRange => 14
  | .imageTooLarge => 15
  | .malformedChunk => 16
  | .invalidCompressedData => 17

/-- The code of a phase (10_state.md R21). -/
def Phase.code : Phase → BitVec 3
  | .idle => 0
  | .container => 1
  | .inflate => 2
  | .recon => 3
  | .done => 4
  | .faulted => 5

/-- The code of a parser state (10_state.md R22). -/
def PState.code : PState → BitVec 2
  | .expectSignature => 0
  | .expectHeader => 1
  | .readingChunks => 2
  | .done => 3

/-- `FAULT_KIND` as the host reads it: 0 when no fault has been raised (10_state.md R43). -/
def faultCode (s : State) : BitVec 5 :=
  match s.faultKind with
  | none => 0
  | some k => k.code

/-- Fault entry, `raise K` (60_exceptions.md R390): the kind recorded, any value in `FAULT_OFFSET` (R392, a free value, log
entry 5), the output cleared, `FRAME` and every intermediate buffer discarded (10_state.md R49, log entry 6), and the phase
FAULTED. The command has ended, so `IN` is given back (48_host_control.md R367, log entry 1). There is no saved cursor, no
vector and no mode. -/
def raiseFault (k : FaultKind) (s : State) : State :=
  { s with
    faultKind := some k
    faultOffset := Config.freeFaultOffset s.freeCount
    freeCount := s.freeCount + 1
    outValid := false
    outW := 0
    outH := 0
    out := Memory.empty
    frame := Memory.empty
    ckPay := []
    zbuf := []
    obuf := []
    prev := []
    currow := []
    clSeq := []
    input := []
    phase := .faulted }

/-- Hardware reset (70_reset_and_hazards.md R430): every register and memory at its reset value. The counter of free values
goes on, and a command at the host port stays there (log entry 2). -/
def hardwareReset (s : State) : State :=
  { State.reset with cmd := s.cmd, freeCount := s.freeCount }

/-- The start step of DECODE (48_host_control.md R361): the arguments sampled, every register and memory at its value of
10_state.md R48, `PSTATE` and `PHASE`. There is no return from a fault (R393): this and reset are the ways out of FAULTED. -/
def startDecode (stream : List Byte) (maxPixels : Nat) (verifyAdler : Bool) (s : State) : State :=
  { State.reset with
    cfgMaxPixels := maxPixels
    cfgVerifyAdler := verifyAdler
    pstate := .expectSignature
    phase := .container
    input := stream
    cmd := s.cmd
    resetLine := s.resetLine
    freeCount := s.freeCount }

/-- The end of an element: the next state, fault entry where a fault was raised, or a stop of the model. -/
def finish {α : Type} (r : Res α) : Host.Outcome State Fault Refusal :=
  match r with
  | .ok _ s => .next s
  | .raise k s => .next (raiseFault k s)
  | .stop f => .fault f

/-- The end of a primitive that returns a value: the value is kept in `ret` (log entry 8). -/
def finishRet {α : Type} (wrap : α → Ret) (r : Res α) : Host.Outcome State Fault Refusal :=
  finish (r.bind fun v s => .ok () { s with ret := wrap v })

/-! ### Byte arrays (20_memory.md R70, R81, R85) -/

/-- The byte at an address among the listed cells; 0 where none is listed (10_state.md R41: all bytes 0 when allocated). -/
def lookupCell : List Host.Cell → Nat → Byte
  | [], _ => 0
  | (k, b) :: rest, a => if k = a then b else lookupCell rest a

/-- Writing one byte into the cells, in canonical form: rising addresses, no listed 0. -/
def insertCell (a : Nat) (b : Byte) : List Host.Cell → List Host.Cell
  | [] => if b = 0 then [] else [(a, b)]
  | (k, c) :: rest =>
    if a < k then if b = 0 then (k, c) :: rest else (a, b) :: (k, c) :: rest
    else if a = k then if b = 0 then rest else (a, b) :: rest
    else (k, c) :: insertCell a b rest

/-- The cells are in canonical form: addresses from `lo` up, strictly rising, below `hi`, no listed 0. -/
def cellsWf (lo hi : Nat) : List Host.Cell → Bool
  | [] => true
  | (k, b) :: rest => decide (lo ≤ k ∧ k < hi) && b != 0 && cellsWf (k + 1) hi rest

/-- The canonical form of an array (log entry 12). -/
def Memory.wf (m : Memory) : Bool := cellsWf 0 m.size m.cells

/-- `MemRead` of one byte; an address at or above the size does not exist (20_memory.md R85). -/
def Memory.read (m : Memory) (a : Nat) : Option Byte :=
  if a < m.size then some (lookupCell m.cells a) else none

/-- `MemWrite` of one byte below the size. -/
def Memory.write (m : Memory) (a : Nat) (b : Byte) : Memory :=
  { m with cells := insertCell a b m.cells }

/-- `MemWrite` of a byte sequence at rising addresses (20_memory.md R79, R83). -/
def Memory.writes (m : Memory) (a : Nat) : List Byte → Memory
  | [] => m
  | b :: rest => Memory.writes (m.write a b) (a + 1) rest

/-- A fresh array, all bytes 0 (10_state.md R41). -/
def Memory.alloc (size : Nat) : Memory := ⟨size, []⟩

/-- One byte of a byte sequence; outside its length the model stops (R85, log entry 10). -/
def readByte (l : List Byte) (i : Nat) (s : State) : Res Byte :=
  match l[i]? with
  | some b => .ok b s
  | none => .stop .outsideSpace

/-! ### Byte reader over IN (40_stream_reader.md R140 to R145) -/

/-- `readExact(n)` (R141). -/
def readExact (n : Nat) (s : State) : Res (List Byte) :=
  (require (n ≤ s.input.length - s.cur) .truncatedInput s).bind fun _ s =>
    .ok ((s.input.drop s.cur).take n) { s with cur := s.cur + n }

/-- `readU8()` (R142). -/
def readU8 (s : State) : Res Nat :=
  (readExact 1 s).bind fun v s => (readByte v 0 s).bind fun b s => .ok b.toNat s

/-- `readU32BE()` (R143): all or nothing, most significant byte first. -/
def readU32BE (s : State) : Res Nat :=
  (readExact 4 s).bind fun v s =>
    (readByte v 0 s).bind fun b0 s => (readByte v 1 s).bind fun b1 s =>
    (readByte v 2 s).bind fun b2 s => (readByte v 3 s).bind fun b3 s =>
    .ok (be32 b0 b1 b2 b3) s

/-- `atEnd()` (R144): reads nothing and changes nothing. -/
def atEnd (s : State) : Bool := s.cur == s.input.length

/-! ### Bit reader over ZBUF (40_stream_reader.md R146 to R149) -/

/-- `getbit()` (R146): bits of a byte least significant first (20_memory.md R75). -/
def getbit (s : State) : Res Nat :=
  match s.zbuf[s.bp / 8]? with
  | some byte => .ok ((byte.toNat >>> (s.bp % 8)) % 2) { s with bp := s.bp + 1 }
  | none => .raise .truncatedCompressedData s

/-- `getbits(n)` (R147): the first bit read is bit 0 of the value (20_memory.md R76). -/
def getbits : Nat → State → Res Nat
  | 0, s => .ok 0 s
  | n + 1, s =>
    (getbit s).bind fun b s => (getbits n s).bind fun rest s => .ok (b + 2 * rest) s

/-- `alignByte()` (R148): to the next byte boundary, the skipped bits unexamined. -/
def alignByte (s : State) : State := { s with bp := 8 * ((s.bp + 7) / 8) }

/-! ### Output of the decompressor (45_inflate_symbols.md R260, R261, R267) -/

/-- `emit(b)` (R261): append to `OBUF`, and `ADLER.UPDATE(b)`. -/
def emit (b : Byte) (s : State) : State :=
  adlerUpdate b { s with obuf := s.obuf ++ [b] }

/-- The byte-serial loop of `copy` (R267): the length of `OBUF` is taken anew for every byte. -/
def copyBytes (dist : Nat) : Nat → State → Res Unit
  | 0, s => .ok () s
  | n + 1, s =>
    (readByte s.obuf (s.obuf.length - dist) s).bind fun b s => copyBytes dist n (emit b s)

/-- `copy(length, dist)` (R267): the test is made once, before any byte is copied (R269). -/
def copy (length dist : Nat) (s : State) : Res Unit :=
  (require (dist ≤ s.obuf.length) .invalidBackReference s).bind fun _ s => copyBytes dist length s

end Sys2Proof.Machine
end

