-- ==== Sys2Proof/Machine/Operands.lean ====
section
/-! DEFINITION. Operand forms: lengths and distances (30_encoding.md R114, R115), the legal header pairs (R107), geometry of
rows and passes (10_state.md R31, 46_scanline.md R291 to R293), samples and their scaling (47_pixel_convert.md R321, R323),
and the fixed code lengths (R117). -/

namespace Sys2Proof.Machine

/-! ### Lengths and distances (45_inflate_symbols.md R264, R266) -/

/-- `LBASE`, indexed by symbol - 257 (R264). -/
def lengthBase : List Nat :=
  [3, 4, 5, 6, 7, 8, 9, 10, 11, 13, 15, 17, 19, 23, 27, 31, 35, 43, 51, 59, 67, 83, 99, 115, 131, 163, 195, 227, 258]

/-- `LEXTRA`, indexed by symbol - 257 (R264). -/
def lengthExtra : List Nat :=
  [0, 0, 0, 0, 0, 0, 0, 0, 1, 1, 1, 1, 2, 2, 2, 2, 3, 3, 3, 3, 4, 4, 4, 4, 5, 5, 5, 5, 0]

/-- `DBASE` (R266). -/
def distBase : List Nat :=
  [1, 2, 3, 4, 5, 7, 9, 13, 17, 25, 33, 49, 65, 97, 129, 193, 257, 385, 513, 769, 1025, 1537, 2049, 3073, 4097, 6145,
   8193, 12289, 16385, 24577]

/-- `DEXTRA` (R266). -/
def distExtra : List Nat :=
  [0, 0, 0, 0, 1, 1, 2, 2, 3, 3, 4, 4, 5, 5, 6, 6, 7, 7, 8, 8, 9, 9, 10, 10, 11, 11, 12, 12, 13, 13]

/-! ### Fixed code lengths (44_inflate_blocks.md R235) -/

/-- `LL_LEN` of a static block (R235). -/
def fixedLLLens : List CodeLen :=
  List.replicate 144 8 ++ List.replicate 112 9 ++ List.replicate 24 7 ++ List.replicate 8 8

/-- `D_LEN` of a static block (R235). -/
def fixedDistLens : List CodeLen := List.replicate 32 5

/-- `CL_LEN` as a static block leaves it: 19 entries in `0..7` (R245, 10_state.md R37), the n-th free value. Log entry 17. -/
def freeClLens (n : Nat) : List CodeLen := (List.range 19).map fun sym => (Config.freeClLen n sym).setWidth 4

/-- The order in which code-length-code lengths are sent (R237). -/
def clOrder : List Nat := [16, 17, 18, 0, 8, 7, 9, 6, 10, 5, 11, 4, 12, 3, 13, 2, 14, 1, 15]

/-! ### Image header (30_encoding.md R105, R107) -/

/-- The fifteen legal (depth, colour type) pairs (R107). -/
def legalPairs : List (Nat × Nat) :=
  [(1, 0), (2, 0), (4, 0), (8, 0), (16, 0), (8, 2), (16, 2), (1, 3), (2, 3), (4, 3), (8, 3), (8, 4), (16, 4), (8, 6), (16, 6)]

/-- Whether a header's pair is legal (R107). -/
def legalPair (depth ctype : Byte) : Bool := legalPairs.contains (depth.toNat, ctype.toNat)

/-- `CHANNELS` of a colour type; no other code has one (10_state.md R31). -/
def channels (ctype : Byte) : Option Nat :=
  match ctype.toNat with
  | 0 => some 1
  | 2 => some 3
  | 3 => some 1
  | 4 => some 2
  | 6 => some 4
  | _ => none

/-- `BITSPP = CHANNELS * IH_DEPTH` (R31). -/
def bitspp (s : State) : Option Nat := (channels s.ihCtype).map (· * s.ihDepth.toNat)

/-- `BPP = max(1, floor(BITSPP / 8))`, the filter distance in bytes (R31). -/
def bppOf (bits : Nat) : Nat := max 1 (bits / 8)

/-- `rowbytes(w) = ceil(w * BITSPP / 8)` (46_scanline.md R291). -/
def rowbytesOf (bits w : Nat) : Nat := (w * bits + 7) / 8

/-- An operation that needs `BITSPP`; a header without one is reached by no run (log entry 10). -/
def withBitspp {α : Type} (s : State) (f : Nat → Res α) : Res α :=
  match bitspp s with
  | some bits => f bits
  | none => .stop .noElement

/-! ### Passes (30_encoding.md R121, 46_scanline.md R292, R293) -/

/-- The parameters of a pass: first column and row, column and row step (R121). -/
structure PassParams where
  x0 : Nat
  y0 : Nat
  dx : Nat
  dy : Nat
  deriving DecidableEq, Repr

/-- The pass table; pass 0 is the whole image (R121). -/
def passParams : Fin 8 → PassParams
  | 0 => ⟨0, 0, 1, 1⟩
  | 1 => ⟨0, 0, 8, 8⟩
  | 2 => ⟨4, 0, 8, 8⟩
  | 3 => ⟨0, 4, 4, 8⟩
  | 4 => ⟨2, 0, 4, 4⟩
  | 5 => ⟨0, 2, 2, 4⟩
  | 6 => ⟨1, 0, 2, 2⟩
  | 7 => ⟨0, 1, 1, 2⟩

/-- How many columns or rows of an image a pass has: `(W > x0) ? ceil((W - x0) / dx) : 0` (R292). -/
def passExtent (extent start step : Nat) : Nat :=
  if start < extent then (extent - start + step - 1) / step else 0

/-- Width of a pass in pixels (R292). -/
def passWidth (p : Fin 8) (s : State) : Nat :=
  passExtent s.ihWidth.toNat (passParams p).x0 (passParams p).dx

/-- Height of a pass in rows (R292). -/
def passHeight (p : Fin 8) (s : State) : Nat :=
  passExtent s.ihHeight.toNat (passParams p).y0 (passParams p).dy

/-- The passes the interlace method selects, in increasing number (R121). -/
def passSteps (s : State) : List (Fin 8) :=
  if s.ihIlace then [1, 2, 3, 4, 5, 6, 7] else [0]

/-- The bytes a pass takes in `OBUF`: none if it is empty (R292, R293). -/
def passBytes (bits : Nat) (s : State) (p : Fin 8) : Nat :=
  if passWidth p s = 0 ∨ passHeight p s = 0 then 0
  else passHeight p s * (1 + rowbytesOf bits (passWidth p s))

/-- `need`, the required length of the decompressed stream (R293). -/
def needBytes (bits : Nat) (s : State) : Nat := ((passSteps s).map (passBytes bits s)).sum

/-- The step after a pass: the next of the seven, or the end of the sequence (R304). -/
def stageAfterPass (p : Fin 8) : ReconStage :=
  match p with
  | 0 => .finished
  | 1 => .pass 2
  | 2 => .pass 3
  | 3 => .pass 4
  | 4 => .pass 5
  | 5 => .pass 6
  | 6 => .pass 7
  | 7 => .finished

/-! ### Samples (47_pixel_convert.md R321, R323) -/

/-- `sample(n)` of `CURROW` at depth `d` (R321): 16-bit samples most significant byte first, samples below 8 bits packed
most-significant-bit-first. -/
def sample (d n : Nat) (s : State) : Res Nat :=
  if d = 8 then (readByte s.currow n s).bind fun b s => .ok b.toNat s
  else if d = 16 then
    (readByte s.currow (2 * n) s).bind fun hi s =>
    (readByte s.currow (2 * n + 1) s).bind fun lo s => .ok (be16 hi lo) s
  else
    (readByte s.currow (n * d / 8) s).bind fun b s =>
      .ok ((b.toNat >>> (8 - d - n * d % 8)) % 2 ^ d) s

/-- `scale8(v, d)` (R323): replication for 1, 2, 4 bits, the high byte for 16, unchanged for 8. -/
def scale8 (v d : Nat) : Byte :=
  match d with
  | 1 => BitVec.ofNat 8 (v * 255)
  | 2 => BitVec.ofNat 8 (v * 85)
  | 4 => BitVec.ofNat 8 (v * 17)
  | 16 => BitVec.ofNat 8 (v >>> 8)
  | _ => BitVec.ofNat 8 v

end Sys2Proof.Machine
end

