-- ==== Sys2Proof/Machine/Huffman.lean ====
section
/-! DEFINITION. Canonical Huffman codes: `buildCode`, `checkCode`, `decodeSym` (44_inflate_blocks.md R241 to R243). -/

namespace Sys2Proof.Machine

/-- `count[b]` of R241; `count[0]` is set to 0 there. -/
def codeCount (lens : List CodeLen) (b : Nat) : Nat :=
  if b = 0 then 0 else lens.countP fun l => l.toNat == b

/-- The second loop of R241: from `c` and `count[b-1], count[b], ..` the values `next[b], next[b+1], ..`. -/
def nextCodes : Nat → List Nat → List Nat
  | _, [] => []
  | c, n :: rest => (c + n) * 2 :: nextCodes ((c + n) * 2) rest

/-- The third loop of R241, in increasing symbol number: each symbol with its code length and its code word (0 where it has
none). `next` lists `next[1], next[2], ..`. -/
def assignCodes : List Nat → List CodeLen → List (Nat × Nat)
  | _, [] => []
  | next, l :: rest =>
    if l = 0 then (0, 0) :: assignCodes next rest
    else (l.toNat, next.getD (l.toNat - 1) 0) :: assignCodes (next.modify (l.toNat - 1) (· + 1)) rest

/-- `buildCode(len)` (R241): for each symbol its code length and its code word; a length of 0 means no code. -/
def buildCode (lens : List CodeLen) : List (Nat × Nat) :=
  assignCodes (nextCodes 0 ((List.range 15).map (codeCount lens))) lens

/-- `K` of R242: the code space taken, in units of `2^-15`. -/
def codeSpace (lens : List CodeLen) : Nat :=
  (lens.map fun l => if l = 0 then 0 else 2 ^ (15 - l.toNat)).sum

/-- The exception of R242: exactly one symbol has a code, and that code has one bit. -/
def singleOneBitCode (lens : List CodeLen) : Bool :=
  lens.countP (fun l => l != 0) == 1 && lens.countP (fun l => l == 1) == 1

/-- `checkCode(len, kind)` (R242). -/
def checkCode (lens : List CodeLen) (kind : CodeKind) (s : State) : Res Unit :=
  (require (codeSpace lens ≤ 2 ^ 15) .invalidCompressedData s).bind fun _ s =>
    require (codeSpace lens = 2 ^ 15 ∨ codeSpace lens = 0 ∨ (kind ≠ .cl ∧ singleOneBitCode lens = true))
      .invalidCompressedData s

/-- The loop of `decodeSym` (R243) with `n` lengths left to try, `len` the number of bits read so far and `c` their value. -/
def decodeFrom (codes : List (Nat × Nat)) : Nat → Nat → Nat → State → Res Nat
  | 0, _, _, s => .raise .invalidCompressedData s
  | n + 1, len, c, s =>
    (getbit s).bind fun b s =>
      match codes.findIdx? (fun e => e.1 == len + 1 && e.2 == 2 * c + b) with
      | some sym => .ok sym s
      | none => decodeFrom codes n (len + 1) (2 * c + b) s

/-- `decodeSym(len)` (R243): the first bit read is the most significant of the code word; at most 15 bits. -/
def decodeSym (lens : List CodeLen) (s : State) : Res Nat :=
  decodeFrom (buildCode lens) 15 0 0 s

/-- A length vector of the right size: `L` continued with zeros (44_inflate_blocks.md R240). -/
def padLens (n : Nat) (lens : List CodeLen) : List CodeLen :=
  (lens ++ List.replicate n 0).take n

end Sys2Proof.Machine
end

