-- ==== Sys2Proof/Machine/Blocks.lean ====
section
/-! DEFINITION. Deflate blocks (44_inflate_blocks.md): the meanings of `BLK.STORED`, `BLK.FIXED`, `BLK.DYN`, `BLK.RSVD`. Their
operand is the final-block flag the header carries. -/

namespace Sys2Proof.Machine

/-- `BHDR` writes its two registers (R230). -/
def enterBlock (final : Bool) (btype : BitVec 2) (s : State) : State :=
  { s with bfinal := final, btype := btype }

/-- What follows a completed block: the trailer if `BFINAL` is 1, else the next block (R231; 43_zlib_wrapper.md R210). -/
def endBlock (s : State) : State :=
  { s with istage := if s.bfinal then .trailer else .block }

/-- `repeat n times: emit(getbits(8))` (R234). -/
def storedBytes : Nat → State → Res Unit
  | 0, s => .ok () s
  | n + 1, s => (getbits 8 s).bind fun b s => storedBytes n (emit (BitVec.ofNat 8 b) s)

/-- `BLK.STORED` (R233, R234). -/
def execBlkStored (final : Bool) (s : State) : Host.Outcome State Fault Refusal :=
  finish <|
    (getbits 16 (alignByte (enterBlock final 0 s))).bind fun len s =>
    (getbits 16 s).bind fun nlen s =>
    (require (len ^^^ nlen = 0xFFFF) .invalidCompressedData s).bind fun _ s =>
    (storedBytes len s).bind fun _ s =>
    .ok () (endBlock s)

/-- `BLK.FIXED` (R235): the fixed code lengths are installed; no bits are read. All three length files are rewritten (R245);
what `CL_LEN` then holds is a free value (log entry 17). `HuffmanData` follows (R244). -/
def execBlkFixed (final : Bool) (s : State) : Host.Outcome State Fault Refusal :=
  .next { enterBlock final 1 s with
    llLen := fixedLLLens
    dLen := fixedDistLens
    clLen := freeClLens s.freeCount
    freeCount := s.freeCount + 1
    istage := .huffman }

/-- The loop of `BLK.DYN` (2) (R237): one 3-bit length for each of the given code-length symbols. -/
def readClLens : List Nat → State → Res Unit
  | [], s => .ok () s
  | sym :: rest, s =>
    (getbits 3 s).bind fun v s =>
      readClLens rest { s with clLen := s.clLen.set sym (BitVec.ofNat 4 v) }

/-- `BLK.DYN` (1) and (2) (R236, R237): the counts and the code-length code; the code-length sequence follows (R239), from the
empty list `L`. -/
def execBlkDyn (final : Bool) (s : State) : Host.Outcome State Fault Refusal :=
  finish <|
    (getbits 5 (enterBlock final 2 s)).bind fun hlit s =>
    (getbits 5 { s with hlit := hlit + 257 }).bind fun hdist s =>
    (getbits 4 { s with hdist := hdist + 1 }).bind fun hclen s =>
    (require (s.hlit ≤ 286) .invalidCompressedData { s with hclen := hclen + 4 }).bind fun _ s =>
    (readClLens (clOrder.take s.hclen) { s with clLen := List.replicate 19 0 }).bind fun _ s =>
    (checkCode s.clLen .cl s).bind fun _ s =>
    .ok () { s with clSeq := [], istage := .codeLengths }

/-- `BLK.RSVD` (R232). -/
def execBlkRsvd (final : Bool) (s : State) : Host.Outcome State Fault Refusal :=
  finish (.raise (α := Unit) .invalidCompressedData (enterBlock final 3 s))

/-- The two assignments of `BLK.DYN` (4) (R240) from the complete sequence `L`: entries beyond the counts are 0. -/
def assignLengths (s : State) : State :=
  { s with
    llLen := padLens 288 (s.clSeq.take s.hlit)
    dLen := padLens 32 ((s.clSeq.drop s.hlit).take s.hdist) }

/-- `BLK.DYN` (4) (R240): the codes are installed, then the three checks in order. It runs when the code-length sequence is
complete, as a step of the sequencer (log entry 7). `HuffmanData` follows. -/
def installCodes (s : State) : Res Unit :=
  (require ((assignLengths s).llLen.getD 256 0 ≠ 0) .invalidCompressedData (assignLengths s)).bind fun _ s =>
  (checkCode s.llLen .ll s).bind fun _ s =>
  (checkCode s.dLen .d s).bind fun _ s =>
  .ok () { s with istage := .huffman }

end Sys2Proof.Machine
end

