-- ==== Sys2Proof/Machine/Scanline.lean ====
section
/-! DEFINITION. Scanline reconstructor (46_scanline.md): the five filters, and the meanings of `FILT.*`, `ILACE.NONE` and
`PASS1` to `PASS7`. -/

namespace Sys2Proof.Machine

/-! ### The filter equations (R297 to R301), on bytes, results modulo 256 -/

/-- `Paeth(a, b, c)` (R301): signed intermediates, ties to `a`, then `b`, then `c`. -/
def paeth (a b c : Byte) : Byte :=
  let p : Int := a.toNat + b.toNat - c.toNat
  let pa := (p - a.toNat).natAbs
  let pb := (p - b.toNat).natAbs
  let pc := (p - c.toNat).natAbs
  if pa ≤ pb ∧ pa ≤ pc then a else if pb ≤ pc then b else c

/-- `FILT.NONE` for one byte (R297). -/
def filterNone (x _a _b _c : Byte) : Byte := x

/-- `FILT.SUB` for one byte (R298). -/
def filterSub (x a _b _c : Byte) : Byte := x + a

/-- `FILT.UP` for one byte (R299). -/
def filterUp (x _a b _c : Byte) : Byte := x + b

/-- `FILT.AVG` for one byte (R300): the sum in full before the halving, which rounds down. -/
def filterAvg (x a b _c : Byte) : Byte := x + BitVec.ofNat 8 ((a.toNat + b.toNat) / 2)

/-- `FILT.PAETH` for one byte (R301). -/
def filterPaeth (x a b c : Byte) : Byte := x + paeth a b c

/-! ### A row (R296, R306) -/

/-- The byte `bpp` places back in a row: 0 for the first `bpp` bytes (R306). -/
def leftByte (bpp i : Nat) (row : List Byte) : Byte :=
  if bpp ≤ i then row.getD (i - bpp) 0 else 0

/-- The reconstructed bytes of a row from byte `done.length` on, `done` being reconstructed already (R306). -/
def unfilter (f : Byte → Byte → Byte → Byte → Byte) (bpp : Nat) (prev : List Byte) : List Byte → List Byte → List Byte
  | done, [] => done
  | done, x :: rest =>
    let i := done.length
    unfilter f bpp prev
      (done ++ [f x (leftByte bpp i done) (prev.getD i 0) (leftByte bpp i prev)]) rest

/-- The filtered bytes of the row, `rowbytes(PASS_W)` bytes of `OBUF` at `RPOS` (R296). Within `need` they are present and
`PREV` has as many (R294, R295); elsewhere the model stops (log entry 10). -/
def rawRow (bits : Nat) (s : State) : Res (List Byte) :=
  let rb := rowbytesOf bits s.passW.toNat
  if s.rpos + rb ≤ s.obuf.length ∧ rb ≤ s.prev.length then
    .ok ((s.obuf.drop s.rpos).take rb) { s with rpos := s.rpos + rb }
  else .stop .outsideSpace

/-- The rest of the row fetch and the reconstruction (R296, R306) with the filter `f` of type `ft`; the row is then converted
from its first pixel (R290). -/
def filterRow (ft : Byte) (f : Byte → Byte → Byte → Byte → Byte) (s : State) : Res Unit :=
  withBitspp s fun bits =>
    (rawRow bits { s with ft := ft }).bind fun raw s =>
      .ok () { s with
        currow := unfilter f (bppOf bits) s.prev [] raw
        col := 0
        rstage := .pixel }

/-- `FILT.NONE` (R297). -/
def execFiltNone (s : State) : Host.Outcome State Fault Refusal := finish (filterRow 0 filterNone s)

/-- `FILT.SUB` (R298). -/
def execFiltSub (s : State) : Host.Outcome State Fault Refusal := finish (filterRow 1 filterSub s)

/-- `FILT.UP` (R299). -/
def execFiltUp (s : State) : Host.Outcome State Fault Refusal := finish (filterRow 2 filterUp s)

/-- `FILT.AVG` (R300). -/
def execFiltAvg (s : State) : Host.Outcome State Fault Refusal := finish (filterRow 3 filterAvg s)

/-- `FILT.PAETH` (R301). -/
def execFiltPaeth (s : State) : Host.Outcome State Fault Refusal := finish (filterRow 4 filterPaeth s)

/-- `FILT.RSVD` (R302): raised before any byte of the row is reconstructed. -/
def execFiltRsvd (ft : Byte) (s : State) : Host.Outcome State Fault Refusal :=
  finish (.raise (α := Unit) .invalidFilterType { s with ft := ft })

/-! ### Passes -/

/-- `CURROW` as a pass finds it: `len` bytes (10_state.md R40), the n-th free value. Log entry 18. -/
def freeRow (n len : Nat) : List Byte := (List.range len).map (Config.freeRowByte n)

/-- Start of pass `p` (R295): the zero row above its first row, of `rowbytes(pw)` bytes. `CURROW` too has the `rowbytes(pw)`
entries of the new pass (10_state.md R40, 20_memory.md R70). What they hold until the first row is reconstructed no rule states
and none reads: a free value (DESIGN CHOICE, log entry 18). -/
def startPass (bits : Nat) (p : Fin 8) (s : State) : State :=
  { s with
    pass := BitVec.ofNat 3 p.val
    passW := BitVec.ofNat 32 (passWidth p s)
    passH := BitVec.ofNat 32 (passHeight p s)
    prev := List.replicate (rowbytesOf bits (passWidth p s)) 0
    currow := freeRow s.freeCount (rowbytesOf bits (passWidth p s))
    freeCount := s.freeCount + 1
    row := 0
    rstage := .row }

/-- A pass element (R292, R295): an empty pass is skipped and changes nothing but the sequence. -/
def passElement (p : Fin 8) (s : State) : Res Unit :=
  withBitspp s fun bits =>
    if passWidth p s = 0 ∨ passHeight p s = 0 then .ok () { s with rstage := stageAfterPass p }
    else .ok () (startPass bits p s)

/-- `ILACE.NONE` (R292): the one pass of a non-interlaced image. -/
def execIlaceNone (s : State) : Host.Outcome State Fault Refusal := finish (passElement 0 s)

/-- `PASS1` (R292, R295). -/
def execPass1 (s : State) : Host.Outcome State Fault Refusal := finish (passElement 1 s)

/-- `PASS2` (R292, R295). -/
def execPass2 (s : State) : Host.Outcome State Fault Refusal := finish (passElement 2 s)

/-- `PASS3` (R292, R295). -/
def execPass3 (s : State) : Host.Outcome State Fault Refusal := finish (passElement 3 s)

/-- `PASS4` (R292, R295). -/
def execPass4 (s : State) : Host.Outcome State Fault Refusal := finish (passElement 4 s)

/-- `PASS5` (R292, R295). -/
def execPass5 (s : State) : Host.Outcome State Fault Refusal := finish (passElement 5 s)

/-- `PASS6` (R292, R295). -/
def execPass6 (s : State) : Host.Outcome State Fault Refusal := finish (passElement 6 s)

/-- `PASS7` (R292, R295). -/
def execPass7 (s : State) : Host.Outcome State Fault Refusal := finish (passElement 7 s)

end Sys2Proof.Machine
end

