-- ==== Sys2Proof/Machine/Control.lean ====
section
/-! DEFINITION. Host control (48_host_control.md): the meaning of DECODE, and the steps of the sequencer between the phases,
rows and passes (R363 to R365; 46_scanline.md R303, R304). -/

namespace Sys2Proof.Machine

/-- A decode runs on this instance (10_state.md R21, 60_exceptions.md R405). -/
def decodeRuns (s : State) : Bool :=
  match s.phase with
  | .container => true
  | .inflate => true
  | .recon => true
  | .idle => false
  | .done => false
  | .faulted => false

/-- `DECODE` (R360, R361): the start step. A model refuses `MAX_PIXELS` outside `1 .. 2^30 - 1` (R361), and a command while a
decode runs (R370, 93_implementation_defined.md I9). Log entry 11. -/
def execDecode (stream : List Byte) (maxPixels : Nat) (verifyAdler : Bool) (s : State) :
    Host.Outcome State Fault Refusal :=
  if decodeRuns s = true then .refused .decodeWhileRunning
  else if 1 ≤ maxPixels ∧ maxPixels < Config.maxPixelsLimit then
    .next (startDecode stream maxPixels verifyAdler s)
  else .refused .maxPixelsOutOfRange

/-- Entering INFLATE (R363), after the trailing-data check (41_container.md R183). -/
def enterInflate (s : State) : Res Unit :=
  (require (atEnd s = true) .trailingData s).bind fun _ s =>
    .ok () { s with phase := .inflate, bp := 0, istage := .zhdr }

/-- The first pass of the sequence the interlace method selects (30_encoding.md R121). -/
def firstPass (s : State) : Fin 8 := if s.ihIlace then 1 else 0

/-- Entering RECON (R364; 46_scanline.md R290, R294): the length check once, before the frame is allocated. -/
def enterRecon (s : State) : Res Unit :=
  withBitspp s fun bits =>
    (require (needBytes bits s ≤ s.obuf.length) .truncatedPixelData { s with phase := .recon, rpos := 0 }).bind
      fun _ s =>
        .ok () { s with
          frame := Memory.alloc (s.ihWidth.toNat * s.ihHeight.toNat * 4)
          rstage := .pass (firstPass s) }

/-- The end of a row: `PREV <- CURROW` and the next row of the pass (46_scanline.md R303, R290). After the last row `ROW` is
`PASS_H`, until the next pass starts or, after the last pass, until the next DECODE or reset: no rule states its value after the loop over the rows
has ended (DESIGN CHOICE, log entry 19). -/
def endRow (s : State) : State :=
  { s with prev := s.currow, row := s.row + 1, rstage := .row }

/-- The end of a pass, after its last row (46_scanline.md R304). -/
def endPass (s : State) : State :=
  { s with rstage := stageAfterPass s.pass.toFin }

/-- Commit (R365). The command has ended, so `IN` is given back (R367, log entry 1). The intermediate buffers are dead from
here on and stand as they are (10_state.md R49, log entry 6). -/
def commit (s : State) : State :=
  { s with
    outW := s.ihWidth
    outH := s.ihHeight
    out := s.frame
    outValid := true
    input := []
    phase := .done }

end Sys2Proof.Machine
end

