-- ==== Sys2Proof/Machine/Pixel.lean ====
section
/-! DEFINITION. Pixel-format converter (47_pixel_convert.md): the fifteen conversion operations, each on the pixel `col` of the
row, with the pixel write that follows it (R324, R340). -/

namespace Sys2Proof.Machine

/-- An output pixel, RGBA8 (R320). -/
structure Rgba where
  r : Byte
  g : Byte
  b : Byte
  a : Byte
  deriving DecidableEq, Repr

/-- The pass whose number `PASS` holds. -/
def currentPass (s : State) : Fin 8 := s.pass.toFin

/-- The image column of pixel `col` of the pass (R340). -/
def pixelX (s : State) : Nat := (passParams (currentPass s)).x0 + s.col * (passParams (currentPass s)).dx

/-- The image row of row `ROW` of the pass (R340). -/
def pixelY (s : State) : Nat := (passParams (currentPass s)).y0 + s.row.toNat * (passParams (currentPass s)).dy

/-- The address of the pixel in `FRAME`: `(Y * W + X) * 4` (R340; 20_memory.md R81). -/
def pixelAddress (s : State) : Nat := (pixelY s * s.ihWidth.toNat + pixelX s) * 4

/-- The pixel write (R340): four bytes R, G, B, A; an address outside `FRAME` stops the model (log entry 10). The next pixel of
the row follows (R324). -/
def writePixel (p : Rgba) (s : State) : Res Unit :=
  if pixelAddress s + 4 ≤ s.frame.size then
    .ok () { s with
      frame := s.frame.writes (pixelAddress s) [p.r, p.g, p.b, p.a]
      col := s.col + 1 }
  else .stop .outsideSpace

/-- The grayscale alpha rule (R331): the unscaled sample against the full 16-bit key. -/
def grayAlpha (g : Nat) (s : State) : Byte :=
  if s.haveTrns = true ∧ g = s.trnsKey.k0.toNat then 0 else 255

/-- The truecolour alpha rule (R333): all three unscaled samples match. -/
def rgbAlpha (r g b : Nat) (s : State) : Byte :=
  if s.haveTrns = true ∧ r = s.trnsKey.k0.toNat ∧ g = s.trnsKey.k1.toNat ∧ b = s.trnsKey.k2.toNat then 0 else 255

/-- Gray at depth `d` (R325 to R329): scaled colour, alpha by R331. -/
def convertGray (d : Nat) (s : State) : Res Rgba :=
  (sample d s.col s).bind fun g s =>
    .ok ⟨scale8 g d, scale8 g d, scale8 g d, grayAlpha g s⟩ s

/-- Truecolour at depth `d` (R332, R334). -/
def convertRgb (d : Nat) (s : State) : Res Rgba :=
  (sample d (3 * s.col) s).bind fun r s =>
  (sample d (3 * s.col + 1) s).bind fun g s =>
  (sample d (3 * s.col + 2) s).bind fun b s =>
    .ok ⟨scale8 r d, scale8 g d, scale8 b d, rgbAlpha r g b s⟩ s

/-- The alpha of palette index `i`: its transparency entry, or opaque (R335). -/
def paletteAlpha (i : Nat) (s : State) : Res Byte :=
  if i < s.trnsN.toNat then readByte s.trnsA i s else .ok 255 s

/-- Palette lookup (R335): the index, unscaled, against the number of entries the palette chunk supplied. -/
def paletteLookup (i : Nat) (s : State) : Res Rgba :=
  (require (i < s.pltN.toNat) .paletteIndexOutOfRange s).bind fun _ s =>
    match s.plt[i]? with
    | some c => (paletteAlpha i s).bind fun a s => .ok ⟨c.r, c.g, c.b, a⟩ s
    | none => .stop .outsideSpace

/-- Palette index at depth `d` (R336 to R339). -/
def convertPalette (d : Nat) (s : State) : Res Rgba :=
  (sample d s.col s).bind fun i s => paletteLookup i s

/-- Gray and alpha at depth `d` (R341, R342). -/
def convertGrayAlpha (d : Nat) (s : State) : Res Rgba :=
  (sample d (2 * s.col) s).bind fun g s =>
  (sample d (2 * s.col + 1) s).bind fun a s =>
    .ok ⟨scale8 g d, scale8 g d, scale8 g d, scale8 a d⟩ s

/-- Truecolour and alpha at depth `d` (R343, R344). -/
def convertRgba (d : Nat) (s : State) : Res Rgba :=
  (sample d (4 * s.col) s).bind fun r s =>
  (sample d (4 * s.col + 1) s).bind fun g s =>
  (sample d (4 * s.col + 2) s).bind fun b s =>
  (sample d (4 * s.col + 3) s).bind fun a s =>
    .ok ⟨scale8 r d, scale8 g d, scale8 b d, scale8 a d⟩ s

/-- `CVT.G1` (R325). -/
def execCvtG1 (s : State) : Host.Outcome State Fault Refusal := finish ((convertGray 1 s).bind writePixel)

/-- `CVT.G2` (R326). -/
def execCvtG2 (s : State) : Host.Outcome State Fault Refusal := finish ((convertGray 2 s).bind writePixel)

/-- `CVT.G4` (R327). -/
def execCvtG4 (s : State) : Host.Outcome State Fault Refusal := finish ((convertGray 4 s).bind writePixel)

/-- `CVT.G8` (R328). -/
def execCvtG8 (s : State) : Host.Outcome State Fault Refusal := finish ((convertGray 8 s).bind writePixel)

/-- `CVT.G16` (R329). -/
def execCvtG16 (s : State) : Host.Outcome State Fault Refusal := finish ((convertGray 16 s).bind writePixel)

/-- `CVT.RGB8` (R332). -/
def execCvtRgb8 (s : State) : Host.Outcome State Fault Refusal := finish ((convertRgb 8 s).bind writePixel)

/-- `CVT.RGB16` (R334). -/
def execCvtRgb16 (s : State) : Host.Outcome State Fault Refusal := finish ((convertRgb 16 s).bind writePixel)

/-- `CVT.P1` (R336). -/
def execCvtP1 (s : State) : Host.Outcome State Fault Refusal := finish ((convertPalette 1 s).bind writePixel)

/-- `CVT.P2` (R337). -/
def execCvtP2 (s : State) : Host.Outcome State Fault Refusal := finish ((convertPalette 2 s).bind writePixel)

/-- `CVT.P4` (R338). -/
def execCvtP4 (s : State) : Host.Outcome State Fault Refusal := finish ((convertPalette 4 s).bind writePixel)

/-- `CVT.P8` (R339). -/
def execCvtP8 (s : State) : Host.Outcome State Fault Refusal := finish ((convertPalette 8 s).bind writePixel)

/-- `CVT.GA8` (R341). -/
def execCvtGa8 (s : State) : Host.Outcome State Fault Refusal := finish ((convertGrayAlpha 8 s).bind writePixel)

/-- `CVT.GA16` (R342). -/
def execCvtGa16 (s : State) : Host.Outcome State Fault Refusal := finish ((convertGrayAlpha 16 s).bind writePixel)

/-- `CVT.RGBA8` (R343). -/
def execCvtRgba8 (s : State) : Host.Outcome State Fault Refusal := finish ((convertRgba 8 s).bind writePixel)

/-- `CVT.RGBA16` (R344). -/
def execCvtRgba16 (s : State) : Host.Outcome State Fault Refusal := finish ((convertRgba 16 s).bind writePixel)

end Sys2Proof.Machine
end

