-- ==== Sys2Proof/Machine/Container.lean ====
section
/-! DEFINITION. Container layer (41_container.md): the chunk record, which the fetch reads before a chunk's element runs, and
the meanings of `SIG`, `IHDR`, `PLTE`, `TRNS`, `IDAT`, `IEND`, `ANC`, `CRIT`. The operands of a chunk's meaning are the
registers `CK_LEN` and `CK_PAY`, written by `ReadChunk`. -/

namespace Sys2Proof.Machine

/-! ### The checksum of a chunk, and the chunk record -/

/-- `CRC.CHECK(expected)` (42_crc32.md R203): all 32 bits compared. -/
def crcCheck (expected : Word) (s : State) : Res Unit :=
  require (s.crcAcc ^^^ 0xFFFFFFFF = expected) .chunkCorrupt s

/-- `ReadChunk` (R170): the whole record is read and its checksum verified before the type is looked at. The checksum is
taken in `CRC_ACC` over type and payload (42_crc32.md R200, R205). -/
def readChunk (s : State) : Res Unit :=
  (readU32BE s).bind fun len s =>
  (readExact 4 { s with ckLen := BitVec.ofNat 32 len }).bind fun t s =>
  (readByte t 0 s).bind fun t0 s => (readByte t 1 s).bind fun t1 s =>
  (readByte t 2 s).bind fun t2 s => (readByte t 3 s).bind fun t3 s =>
  (readExact len { s with ckType := BitVec.ofNat 32 (be32 t0 t1 t2 t3) }).bind fun pay s =>
  (readU32BE { s with ckPay := pay }).bind fun crc s =>
    crcCheck (BitVec.ofNat 32 crc) (crcUpdates (t ++ pay) (crcInit { s with ckCrc := BitVec.ofNat 32 crc }))

/-- The payload, `CK_LEN` bytes (10_state.md R28); a record that no `ReadChunk` leaves stops the model (log entry 10). -/
def payload (s : State) : Res (List Byte) :=
  if s.ckPay.length = s.ckLen.toNat then .ok s.ckPay s else .stop .outsideSpace

/-! ### Signature -/

/-- `SIG` (R160). -/
def execSig (s : State) : Host.Outcome State Fault Refusal :=
  finish <|
    (readExact 8 s).bind fun v s =>
    (require (v = signature) .invalidSignature s).bind fun _ s =>
    .ok () { s with pstate := .expectHeader }

/-! ### Header chunk -/

/-- The four bytes of a payload from index `i`, as `BE32` (R11). -/
def payloadBE32 (pay : List Byte) (i : Nat) (s : State) : Res Nat :=
  (readByte pay i s).bind fun b0 s => (readByte pay (i + 1) s).bind fun b1 s =>
  (readByte pay (i + 2) s).bind fun b2 s => (readByte pay (i + 3) s).bind fun b3 s =>
  .ok (be32 b0 b1 b2 b3) s

/-- The header chunk handler (R166): five checks in order, the product of the sizes in unbounded arithmetic. -/
def headerHandler (s : State) : Res Unit :=
  (require (s.ckLen = 13) .malformedChunk s).bind fun _ s =>
  (payload s).bind fun pay s =>
  (payloadBE32 pay 0 s).bind fun w s => (payloadBE32 pay 4 s).bind fun h s =>
  (readByte pay 8 s).bind fun d s => (readByte pay 9 s).bind fun c s =>
  (readByte pay 10 s).bind fun cm s => (readByte pay 11 s).bind fun fm s =>
  (readByte pay 12 s).bind fun il s =>
  (require (w ≠ 0 ∧ h ≠ 0) .malformedChunk s).bind fun _ s =>
  (require (legalPair d c = true) .unsupportedFormat s).bind fun _ s =>
  (require (cm = 0 ∧ fm = 0 ∧ il.toNat ≤ 1) .unsupportedFormat s).bind fun _ s =>
  (require (w * h ≤ s.cfgMaxPixels) .imageTooLarge s).bind fun _ s =>
  .ok () { s with
    ihWidth := BitVec.ofNat 32 w
    ihHeight := BitVec.ofNat 32 h
    ihDepth := d
    ihCtype := c
    ihIlace := decide (il = 1) }

/-- `IHDR`: the header in state `ExpectHeader` (R166), then `ReadingChunks` (R161); a second one is out of order (R172), after
the flag of R171. -/
def execIhdr (s : State) : Host.Outcome State Fault Refusal :=
  finish <|
    if s.pstate = .expectHeader then
      (headerHandler s).bind fun _ s => .ok () { s with pstate := .readingChunks }
    else .raise .invalidChunkOrder (closeIdatRun s)

/-! ### Palette and transparency -/

/-- The (R, G, B) triplets of a payload (R173). -/
def rgbTriplets : List Byte → List Rgb
  | r :: g :: b :: rest => ⟨r, g, b⟩ :: rgbTriplets rest
  | _ => []

/-- A register file of which the first entries are written and the others kept. -/
def overwriteFront {α : Type} (new old : List α) : List α := new ++ old.drop new.length

/-- `PLTE` (R171, R173). -/
def execPlte (s : State) : Host.Outcome State Fault Refusal :=
  let s := closeIdatRun s
  finish <|
    (require (s.seenIdat = false) .invalidChunkOrder s).bind fun _ s =>
    (require (s.ihCtype = 3) .invalidChunkOrder s).bind fun _ s =>
    (require (s.havePlte = false) .invalidChunkOrder s).bind fun _ s =>
    (require (s.ckLen ≠ 0 ∧ s.ckLen.toNat % 3 = 0 ∧ s.ckLen.toNat ≤ 768) .malformedChunk s).bind fun _ s =>
    (payload s).bind fun pay s =>
    .ok () { s with
      pltN := BitVec.ofNat 9 (s.ckLen.toNat / 3)
      plt := overwriteFront (rgbTriplets pay) s.plt
      havePlte := true }

/-- A 16-bit big-endian value of a payload (20_memory.md R78). -/
def payloadBE16 (pay : List Byte) (i : Nat) (s : State) : Res Half :=
  (readByte pay i s).bind fun b0 s => (readByte pay (i + 1) s).bind fun b1 s =>
  .ok (BitVec.ofNat 16 (be16 b0 b1)) s

/-- The part of `TRNS` that depends on the colour type (R175): the key of a gray image, the three keys of a truecolour
image, the alpha entries of a palette image. -/
def transparencyTable (s : State) : Res Unit :=
  if s.ihCtype = 0 then
    (require (s.ckLen = 2) .malformedChunk s).bind fun _ s =>
    (payload s).bind fun pay s => (payloadBE16 pay 0 s).bind fun k0 s =>
    .ok () { s with trnsKey := { s.trnsKey with k0 := k0 } }
  else if s.ihCtype = 2 then
    (require (s.ckLen = 6) .malformedChunk s).bind fun _ s =>
    (payload s).bind fun pay s => (payloadBE16 pay 0 s).bind fun k0 s =>
    (payloadBE16 pay 2 s).bind fun k1 s => (payloadBE16 pay 4 s).bind fun k2 s =>
    .ok () { s with trnsKey := ⟨k0, k1, k2⟩ }
  else if s.ihCtype = 3 then
    (require (s.ckLen.toNat ≤ s.pltN.toNat) .malformedChunk s).bind fun _ s =>
    (payload s).bind fun pay s =>
    .ok () { s with
      trnsN := BitVec.ofNat 9 s.ckLen.toNat
      trnsA := overwriteFront pay s.trnsA }
  else .ok () s

/-- `TRNS` (R171, R175). -/
def execTrns (s : State) : Host.Outcome State Fault Refusal :=
  let s := closeIdatRun s
  finish <|
    (require (s.seenIdat = false) .invalidChunkOrder s).bind fun _ s =>
    (require (s.haveTrns = false) .invalidChunkOrder s).bind fun _ s =>
    (require (¬ (s.ihCtype = 3 ∧ s.havePlte = false)) .invalidChunkOrder s).bind fun _ s =>
    (require (s.ihCtype ≠ 4 ∧ s.ihCtype ≠ 6) .malformedChunk s).bind fun _ s =>
    (transparencyTable s).bind fun _ s =>
    .ok () { s with haveTrns := true }

/-! ### Image data, end, unknown chunks -/

/-- `IDAT` (R177). -/
def execIdat (s : State) : Host.Outcome State Fault Refusal :=
  finish <|
    (require (s.idatClosed = false) .invalidChunkOrder s).bind fun _ s =>
    (require (¬ (s.ihCtype = 3 ∧ s.havePlte = false)) .invalidChunkOrder s).bind fun _ s =>
    (payload s).bind fun pay s =>
    .ok () { s with zbuf := s.zbuf ++ pay, seenIdat := true }

/-- `IEND` (R171, R180). -/
def execIend (s : State) : Host.Outcome State Fault Refusal :=
  let s := closeIdatRun s
  finish <|
    (require (s.ckLen = 0) .malformedChunk s).bind fun _ s =>
    .ok () { s with pstate := .done }

/-- `ANC`, an unknown ancillary chunk (R181): no register but `IDAT_CLOSED` changes. Its type has no effect. -/
def execAnc (_type : Word) (s : State) : Host.Outcome State Fault Refusal :=
  .next (closeIdatRun s)

/-- `CRIT`, an unknown critical chunk (R181). -/
def execCrit (_type : Word) (s : State) : Host.Outcome State Fault Refusal :=
  finish (.raise (α := Unit) .unsupportedCriticalChunk (closeIdatRun s))

end Sys2Proof.Machine
end

