-- ==== Sys2Proof/Machine/Primitives.lean ====
section
/-! DEFINITION. The meanings of the primitives, the rows of the opcode table that other elements invoke (40_stream_reader.md,
42_crc32.md, 43_zlib_wrapper.md, 44_inflate_blocks.md, 45_inflate_symbols.md). A primitive that returns a value leaves it in
`ret` (log entry 8). -/

namespace Sys2Proof.Machine

/-- `readExact(n)` (R141). -/
def execReadExact (n : Nat) (s : State) : Host.Outcome State Fault Refusal :=
  finishRet Ret.bytes (readExact n s)

/-- `readU8()` (R142). -/
def execReadU8 (s : State) : Host.Outcome State Fault Refusal := finishRet Ret.nat (readU8 s)

/-- `readU32BE()` (R143). -/
def execReadU32BE (s : State) : Host.Outcome State Fault Refusal := finishRet Ret.nat (readU32BE s)

/-- `atEnd()` (R144). -/
def execAtEnd (s : State) : Host.Outcome State Fault Refusal := .next { s with ret := .bool (atEnd s) }

/-- `getbit()` (R146). -/
def execGetbit (s : State) : Host.Outcome State Fault Refusal := finishRet Ret.nat (getbit s)

/-- `getbits(n)` (R147). -/
def execGetbits (n : Nat) (s : State) : Host.Outcome State Fault Refusal := finishRet Ret.nat (getbits n s)

/-- `alignByte()` (R148). -/
def execAlignByte (s : State) : Host.Outcome State Fault Refusal := .next (alignByte s)

/-- `CRC.INIT` (R201). -/
def execCrcInit (s : State) : Host.Outcome State Fault Refusal := .next (crcInit s)

/-- `CRC.UPDATE(b)` (R202). -/
def execCrcUpdate (b : Byte) (s : State) : Host.Outcome State Fault Refusal := .next (crcUpdate b s)

/-- `CRC.CHECK(expected)` (R203). -/
def execCrcCheck (expected : Word) (s : State) : Host.Outcome State Fault Refusal := finish (crcCheck expected s)

/-- `ADLER.INIT` (R211). -/
def execAdlerInit (s : State) : Host.Outcome State Fault Refusal := .next (adlerInit s)

/-- `ADLER.UPDATE(b)` (R212). -/
def execAdlerUpdate (b : Byte) (s : State) : Host.Outcome State Fault Refusal := .next (adlerUpdate b s)

/-- `emit(b)` (R261). -/
def execEmit (b : Byte) (s : State) : Host.Outcome State Fault Refusal := .next (emit b s)

/-- `buildCode(len)` (R241). -/
def execBuildCode (lens : List CodeLen) (s : State) : Host.Outcome State Fault Refusal :=
  .next { s with ret := .codes (buildCode lens) }

/-- `checkCode(len, kind)` (R242). -/
def execCheckCode (lens : List CodeLen) (kind : CodeKind) (s : State) : Host.Outcome State Fault Refusal :=
  finish (checkCode lens kind s)

/-- `decodeSym(len)` (R243). -/
def execDecodeSym (lens : List CodeLen) (s : State) : Host.Outcome State Fault Refusal :=
  finishRet Ret.nat (decodeSym lens s)

end Sys2Proof.Machine
end

