-- ==== Sys2Proof/Machine/Symbols.lean ====
section
/-! DEFINITION. Inflate symbols (45_inflate_symbols.md): the meanings of the literal/length, distance and code-length symbols. -/

namespace Sys2Proof.Machine

/-! ### Literals and end of block -/

/-- `LIT` (R262): `emit(s)`; no extra bits, no fault. -/
def execLit (value : Byte) (s : State) : Host.Outcome State Fault Refusal :=
  .next (emit value s)

/-- `EOB` (R263): the block has ended; no byte, no further bit. -/
def execEob (s : State) : Host.Outcome State Fault Refusal :=
  .next (endBlock s)

/-! ### Lengths -/

/-- `LENsss` (R264): base and extra bits from the row of the symbol; a distance symbol follows. -/
def lengthSymbol (sym : Nat) (s : State) : Res Unit :=
  (getbits (lengthExtra.getD (sym - 257) 0) s).bind fun extra s =>
    .ok () { s with mlen := lengthBase.getD (sym - 257) 0 + extra, istage := .distance }

/-- `LEN257` (R264). -/
def execLen257 (s : State) : Host.Outcome State Fault Refusal := finish (lengthSymbol 257 s)

/-- `LEN258` (R264). -/
def execLen258 (s : State) : Host.Outcome State Fault Refusal := finish (lengthSymbol 258 s)

/-- `LEN259` (R264). -/
def execLen259 (s : State) : Host.Outcome State Fault Refusal := finish (lengthSymbol 259 s)

/-- `LEN260` (R264). -/
def execLen260 (s : State) : Host.Outcome State Fault Refusal := finish (lengthSymbol 260 s)

/-- `LEN261` (R264). -/
def execLen261 (s : State) : Host.Outcome State Fault Refusal := finish (lengthSymbol 261 s)

/-- `LEN262` (R264). -/
def execLen262 (s : State) : Host.Outcome State Fault Refusal := finish (lengthSymbol 262 s)

/-- `LEN263` (R264). -/
def execLen263 (s : State) : Host.Outcome State Fault Refusal := finish (lengthSymbol 263 s)

/-- `LEN264` (R264). -/
def execLen264 (s : State) : Host.Outcome State Fault Refusal := finish (lengthSymbol 264 s)

/-- `LEN265` (R264). -/
def execLen265 (s : State) : Host.Outcome State Fault Refusal := finish (lengthSymbol 265 s)

/-- `LEN266` (R264). -/
def execLen266 (s : State) : Host.Outcome State Fault Refusal := finish (lengthSymbol 266 s)

/-- `LEN267` (R264). -/
def execLen267 (s : State) : Host.Outcome State Fault Refusal := finish (lengthSymbol 267 s)

/-- `LEN268` (R264). -/
def execLen268 (s : State) : Host.Outcome State Fault Refusal := finish (lengthSymbol 268 s)

/-- `LEN269` (R264). -/
def execLen269 (s : State) : Host.Outcome State Fault Refusal := finish (lengthSymbol 269 s)

/-- `LEN270` (R264). -/
def execLen270 (s : State) : Host.Outcome State Fault Refusal := finish (lengthSymbol 270 s)

/-- `LEN271` (R264). -/
def execLen271 (s : State) : Host.Outcome State Fault Refusal := finish (lengthSymbol 271 s)

/-- `LEN272` (R264). -/
def execLen272 (s : State) : Host.Outcome State Fault Refusal := finish (lengthSymbol 272 s)

/-- `LEN273` (R264). -/
def execLen273 (s : State) : Host.Outcome State Fault Refusal := finish (lengthSymbol 273 s)

/-- `LEN274` (R264). -/
def execLen274 (s : State) : Host.Outcome State Fault Refusal := finish (lengthSymbol 274 s)

/-- `LEN275` (R264). -/
def execLen275 (s : State) : Host.Outcome State Fault Refusal := finish (lengthSymbol 275 s)

/-- `LEN276` (R264). -/
def execLen276 (s : State) : Host.Outcome State Fault Refusal := finish (lengthSymbol 276 s)

/-- `LEN277` (R264). -/
def execLen277 (s : State) : Host.Outcome State Fault Refusal := finish (lengthSymbol 277 s)

/-- `LEN278` (R264). -/
def execLen278 (s : State) : Host.Outcome State Fault Refusal := finish (lengthSymbol 278 s)

/-- `LEN279` (R264). -/
def execLen279 (s : State) : Host.Outcome State Fault Refusal := finish (lengthSymbol 279 s)

/-- `LEN280` (R264). -/
def execLen280 (s : State) : Host.Outcome State Fault Refusal := finish (lengthSymbol 280 s)

/-- `LEN281` (R264). -/
def execLen281 (s : State) : Host.Outcome State Fault Refusal := finish (lengthSymbol 281 s)

/-- `LEN282` (R264). -/
def execLen282 (s : State) : Host.Outcome State Fault Refusal := finish (lengthSymbol 282 s)

/-- `LEN283` (R264). -/
def execLen283 (s : State) : Host.Outcome State Fault Refusal := finish (lengthSymbol 283 s)

/-- `LEN284` (R264). -/
def execLen284 (s : State) : Host.Outcome State Fault Refusal := finish (lengthSymbol 284 s)

/-- `LEN285` (R264). -/
def execLen285 (s : State) : Host.Outcome State Fault Refusal := finish (lengthSymbol 285 s)

/-- `LL286` (R265): a reserved symbol. -/
def execLl286 (s : State) : Host.Outcome State Fault Refusal :=
  finish (.raise (α := Unit) .invalidCompressedData s)

/-- `LL287` (R265): a reserved symbol. -/
def execLl287 (s : State) : Host.Outcome State Fault Refusal :=
  finish (.raise (α := Unit) .invalidCompressedData s)

/-! ### Distances -/

/-- `DISTss` and the copy it completes (R266, R267): base and extra bits from the row of the symbol, then `copy(length, dist)`;
the next symbol follows. -/
def distanceSymbol (sym : Nat) (s : State) : Res Unit :=
  (getbits (distExtra.getD sym 0) s).bind fun extra s =>
  (copy s.mlen (distBase.getD sym 0 + extra) s).bind fun _ s =>
    .ok () { s with istage := .huffman }

/-- `DIST0` (R266, R267). -/
def execDist0 (s : State) : Host.Outcome State Fault Refusal := finish (distanceSymbol 0 s)

/-- `DIST1` (R266, R267). -/
def execDist1 (s : State) : Host.Outcome State Fault Refusal := finish (distanceSymbol 1 s)

/-- `DIST2` (R266, R267). -/
def execDist2 (s : State) : Host.Outcome State Fault Refusal := finish (distanceSymbol 2 s)

/-- `DIST3` (R266, R267). -/
def execDist3 (s : State) : Host.Outcome State Fault Refusal := finish (distanceSymbol 3 s)

/-- `DIST4` (R266, R267). -/
def execDist4 (s : State) : Host.Outcome State Fault Refusal := finish (distanceSymbol 4 s)

/-- `DIST5` (R266, R267). -/
def execDist5 (s : State) : Host.Outcome State Fault Refusal := finish (distanceSymbol 5 s)

/-- `DIST6` (R266, R267). -/
def execDist6 (s : State) : Host.Outcome State Fault Refusal := finish (distanceSymbol 6 s)

/-- `DIST7` (R266, R267). -/
def execDist7 (s : State) : Host.Outcome State Fault Refusal := finish (distanceSymbol 7 s)

/-- `DIST8` (R266, R267). -/
def execDist8 (s : State) : Host.Outcome State Fault Refusal := finish (distanceSymbol 8 s)

/-- `DIST9` (R266, R267). -/
def execDist9 (s : State) : Host.Outcome State Fault Refusal := finish (distanceSymbol 9 s)

/-- `DIST10` (R266, R267). -/
def execDist10 (s : State) : Host.Outcome State Fault Refusal := finish (distanceSymbol 10 s)

/-- `DIST11` (R266, R267). -/
def execDist11 (s : State) : Host.Outcome State Fault Refusal := finish (distanceSymbol 11 s)

/-- `DIST12` (R266, R267). -/
def execDist12 (s : State) : Host.Outcome State Fault Refusal := finish (distanceSymbol 12 s)

/-- `DIST13` (R266, R267). -/
def execDist13 (s : State) : Host.Outcome State Fault Refusal := finish (distanceSymbol 13 s)

/-- `DIST14` (R266, R267). -/
def execDist14 (s : State) : Host.Outcome State Fault Refusal := finish (distanceSymbol 14 s)

/-- `DIST15` (R266, R267). -/
def execDist15 (s : State) : Host.Outcome State Fault Refusal := finish (distanceSymbol 15 s)

/-- `DIST16` (R266, R267). -/
def execDist16 (s : State) : Host.Outcome State Fault Refusal := finish (distanceSymbol 16 s)

/-- `DIST17` (R266, R267). -/
def execDist17 (s : State) : Host.Outcome State Fault Refusal := finish (distanceSymbol 17 s)

/-- `DIST18` (R266, R267). -/
def execDist18 (s : State) : Host.Outcome State Fault Refusal := finish (distanceSymbol 18 s)

/-- `DIST19` (R266, R267). -/
def execDist19 (s : State) : Host.Outcome State Fault Refusal := finish (distanceSymbol 19 s)

/-- `DIST20` (R266, R267). -/
def execDist20 (s : State) : Host.Outcome State Fault Refusal := finish (distanceSymbol 20 s)

/-- `DIST21` (R266, R267). -/
def execDist21 (s : State) : Host.Outcome State Fault Refusal := finish (distanceSymbol 21 s)

/-- `DIST22` (R266, R267). -/
def execDist22 (s : State) : Host.Outcome State Fault Refusal := finish (distanceSymbol 22 s)

/-- `DIST23` (R266, R267). -/
def execDist23 (s : State) : Host.Outcome State Fault Refusal := finish (distanceSymbol 23 s)

/-- `DIST24` (R266, R267). -/
def execDist24 (s : State) : Host.Outcome State Fault Refusal := finish (distanceSymbol 24 s)

/-- `DIST25` (R266, R267). -/
def execDist25 (s : State) : Host.Outcome State Fault Refusal := finish (distanceSymbol 25 s)

/-- `DIST26` (R266, R267). -/
def execDist26 (s : State) : Host.Outcome State Fault Refusal := finish (distanceSymbol 26 s)

/-- `DIST27` (R266, R267). -/
def execDist27 (s : State) : Host.Outcome State Fault Refusal := finish (distanceSymbol 27 s)

/-- `DIST28` (R266, R267). -/
def execDist28 (s : State) : Host.Outcome State Fault Refusal := finish (distanceSymbol 28 s)

/-- `DIST29` (R266, R267). -/
def execDist29 (s : State) : Host.Outcome State Fault Refusal := finish (distanceSymbol 29 s)

/-- `DIST30` (R268): a reserved symbol. -/
def execDist30 (s : State) : Host.Outcome State Fault Refusal :=
  finish (.raise (α := Unit) .invalidCompressedData s)

/-- `DIST31` (R268): a reserved symbol. -/
def execDist31 (s : State) : Host.Outcome State Fault Refusal :=
  finish (.raise (α := Unit) .invalidCompressedData s)

/-! ### Code-length symbols -/

/-- `repeat r times: append(L, v)`, if `L` stays within `HLIT + HDIST` (R271 to R273). -/
def appendLengths (r : Nat) (v : CodeLen) (s : State) : Res Unit :=
  (require (s.clSeq.length + r ≤ s.hlit + s.hdist) .invalidCompressedData s).bind fun _ s =>
    .ok () { s with clSeq := s.clSeq ++ List.replicate r v }

/-- `CL.LEN` (R270): `append(L, s)`. -/
def execClLen (value : CodeLen) (s : State) : Host.Outcome State Fault Refusal :=
  .next { s with clSeq := s.clSeq ++ [value] }

/-- `CL.REP` (R271): the emptiness test comes before the extra bits are read. -/
def execClRep (s : State) : Host.Outcome State Fault Refusal :=
  finish <|
    match s.clSeq.getLast? with
    | none => .raise .invalidCompressedData s
    | some v => (getbits 2 s).bind fun extra s => appendLengths (3 + extra) v s

/-- `CL.Z3` (R272). -/
def execClZ3 (s : State) : Host.Outcome State Fault Refusal :=
  finish <| (getbits 3 s).bind fun extra s => appendLengths (3 + extra) 0 s

/-- `CL.Z11` (R273). -/
def execClZ11 (s : State) : Host.Outcome State Fault Refusal :=
  finish <| (getbits 7 s).bind fun extra s => appendLengths (11 + extra) 0 s

end Sys2Proof.Machine
end

