-- ==== Sys2Proof/Machine/Zlib.lean ====
section
/-! DEFINITION. The zlib wrapper (43_zlib_wrapper.md): the meanings of `ZHDR` and `ZTRL`. -/

namespace Sys2Proof.Machine

/-- `ZHDR` (R214): `CM`, `CINFO`, `FCHECK`, `FDICT` in this order; `FLEVEL` ignored. A block follows (R210). -/
def execZhdr (s : State) : Host.Outcome State Fault Refusal :=
  finish <|
    (getbits 8 s).bind fun cmf s => (getbits 8 s).bind fun flg s =>
    (require (cmf % 16 = 8) .invalidCompressedData s).bind fun _ s =>
    (require (cmf / 16 ≤ 7) .invalidCompressedData s).bind fun _ s =>
    (require ((cmf * 256 + flg) % 31 = 0) .invalidCompressedData s).bind fun _ s =>
    (require (flg / 32 % 2 = 0) .invalidCompressedData s).bind fun _ s =>
    .ok () { s with istage := .block }

/-- The four trailer bytes as `BE32`, the first the most significant (R216). -/
def trailerValue (b0 b1 b2 b3 : Nat) : Nat :=
  b0 * 2 ^ 24 + b1 * 2 ^ 16 + b2 * 2 ^ 8 + b3

/-- `ZTRL` (R215, R216): at the byte boundary the four bytes are read and must be present; they are compared only if
`CFG_VERIFY_ADLER` is set. The phase has then ended (R210). -/
def execZtrl (s : State) : Host.Outcome State Fault Refusal :=
  finish <|
    (getbits 8 (alignByte s)).bind fun b0 s => (getbits 8 s).bind fun b1 s =>
    (getbits 8 s).bind fun b2 s => (getbits 8 s).bind fun b3 s =>
    (require (s.cfgVerifyAdler = false ∨ trailerValue b0 b1 b2 b3 = adlerValue s.adlerA s.adlerB)
      .decompressionChecksumError s).bind fun _ s =>
    .ok () { s with istage := .finished }

end Sys2Proof.Machine
end

