-- ==== Sys2Proof/Machine/Dispatch.lean ====
section
/-! DEFINITION. Dispatch: one arm per constructor of `Instr`, each one call of its meaning. -/

namespace Sys2Proof.Machine

/-- The effect of an element, command or primitive on the state. -/
def exec (i : Instr) (s : State) : Host.Outcome State Fault Refusal :=
  match i with
  | .sig => Sys2Proof.Machine.execSig s
  | .ihdr => Sys2Proof.Machine.execIhdr s
  | .plte => Sys2Proof.Machine.execPlte s
  | .trns => Sys2Proof.Machine.execTrns s
  | .idat => Sys2Proof.Machine.execIdat s
  | .iend => Sys2Proof.Machine.execIend s
  | .anc type => Sys2Proof.Machine.execAnc type s
  | .crit type => Sys2Proof.Machine.execCrit type s
  | .zhdr => Sys2Proof.Machine.execZhdr s
  | .ztrl => Sys2Proof.Machine.execZtrl s
  | .blkStored final => Sys2Proof.Machine.execBlkStored final s
  | .blkFixed final => Sys2Proof.Machine.execBlkFixed final s
  | .blkDyn final => Sys2Proof.Machine.execBlkDyn final s
  | .blkRsvd final => Sys2Proof.Machine.execBlkRsvd final s
  | .lit value => Sys2Proof.Machine.execLit value s
  | .eob => Sys2Proof.Machine.execEob s
  | .len257 => Sys2Proof.Machine.execLen257 s
  | .len258 => Sys2Proof.Machine.execLen258 s
  | .len259 => Sys2Proof.Machine.execLen259 s
  | .len260 => Sys2Proof.Machine.execLen260 s
  | .len261 => Sys2Proof.Machine.execLen261 s
  | .len262 => Sys2Proof.Machine.execLen262 s
  | .len263 => Sys2Proof.Machine.execLen263 s
  | .len264 => Sys2Proof.Machine.execLen264 s
  | .len265 => Sys2Proof.Machine.execLen265 s
  | .len266 => Sys2Proof.Machine.execLen266 s
  | .len267 => Sys2Proof.Machine.execLen267 s
  | .len268 => Sys2Proof.Machine.execLen268 s
  | .len269 => Sys2Proof.Machine.execLen269 s
  | .len270 => Sys2Proof.Machine.execLen270 s
  | .len271 => Sys2Proof.Machine.execLen271 s
  | .len272 => Sys2Proof.Machine.execLen272 s
  | .len273 => Sys2Proof.Machine.execLen273 s
  | .len274 => Sys2Proof.Machine.execLen274 s
  | .len275 => Sys2Proof.Machine.execLen275 s
  | .len276 => Sys2Proof.Machine.execLen276 s
  | .len277 => Sys2Proof.Machine.execLen277 s
  | .len278 => Sys2Proof.Machine.execLen278 s
  | .len279 => Sys2Proof.Machine.execLen279 s
  | .len280 => Sys2Proof.Machine.execLen280 s
  | .len281 => Sys2Proof.Machine.execLen281 s
  | .len282 => Sys2Proof.Machine.execLen282 s
  | .len283 => Sys2Proof.Machine.execLen283 s
  | .len284 => Sys2Proof.Machine.execLen284 s
  | .len285 => Sys2Proof.Machine.execLen285 s
  | .ll286 => Sys2Proof.Machine.execLl286 s
  | .ll287 => Sys2Proof.Machine.execLl287 s
  | .dist0 => Sys2Proof.Machine.execDist0 s
  | .dist1 => Sys2Proof.Machine.execDist1 s
  | .dist2 => Sys2Proof.Machine.execDist2 s
  | .dist3 => Sys2Proof.Machine.execDist3 s
  | .dist4 => Sys2Proof.Machine.execDist4 s
  | .dist5 => Sys2Proof.Machine.execDist5 s
  | .dist6 => Sys2Proof.Machine.execDist6 s
  | .dist7 => Sys2Proof.Machine.execDist7 s
  | .dist8 => Sys2Proof.Machine.execDist8 s
  | .dist9 => Sys2Proof.Machine.execDist9 s
  | .dist10 => Sys2Proof.Machine.execDist10 s
  | .dist11 => Sys2Proof.Machine.execDist11 s
  | .dist12 => Sys2Proof.Machine.execDist12 s
  | .dist13 => Sys2Proof.Machine.execDist13 s
  | .dist14 => Sys2Proof.Machine.execDist14 s
  | .dist15 => Sys2Proof.Machine.execDist15 s
  | .dist16 => Sys2Proof.Machine.execDist16 s
  | .dist17 => Sys2Proof.Machine.execDist17 s
  | .dist18 => Sys2Proof.Machine.execDist18 s
  | .dist19 => Sys2Proof.Machine.execDist19 s
  | .dist20 => Sys2Proof.Machine.execDist20 s
  | .dist21 => Sys2Proof.Machine.execDist21 s
  | .dist22 => Sys2Proof.Machine.execDist22 s
  | .dist23 => Sys2Proof.Machine.execDist23 s
  | .dist24 => Sys2Proof.Machine.execDist24 s
  | .dist25 => Sys2Proof.Machine.execDist25 s
  | .dist26 => Sys2Proof.Machine.execDist26 s
  | .dist27 => Sys2Proof.Machine.execDist27 s
  | .dist28 => Sys2Proof.Machine.execDist28 s
  | .dist29 => Sys2Proof.Machine.execDist29 s
  | .dist30 => Sys2Proof.Machine.execDist30 s
  | .dist31 => Sys2Proof.Machine.execDist31 s
  | .clLen value => Sys2Proof.Machine.execClLen value s
  | .clRep => Sys2Proof.Machine.execClRep s
  | .clZ3 => Sys2Proof.Machine.execClZ3 s
  | .clZ11 => Sys2Proof.Machine.execClZ11 s
  | .filtNone => Sys2Proof.Machine.execFiltNone s
  | .filtSub => Sys2Proof.Machine.execFiltSub s
  | .filtUp => Sys2Proof.Machine.execFiltUp s
  | .filtAvg => Sys2Proof.Machine.execFiltAvg s
  | .filtPaeth => Sys2Proof.Machine.execFiltPaeth s
  | .filtRsvd ft => Sys2Proof.Machine.execFiltRsvd ft s
  | .ilaceNone => Sys2Proof.Machine.execIlaceNone s
  | .pass1 => Sys2Proof.Machine.execPass1 s
  | .pass2 => Sys2Proof.Machine.execPass2 s
  | .pass3 => Sys2Proof.Machine.execPass3 s
  | .pass4 => Sys2Proof.Machine.execPass4 s
  | .pass5 => Sys2Proof.Machine.execPass5 s
  | .pass6 => Sys2Proof.Machine.execPass6 s
  | .pass7 => Sys2Proof.Machine.execPass7 s
  | .cvtG1 => Sys2Proof.Machine.execCvtG1 s
  | .cvtG2 => Sys2Proof.Machine.execCvtG2 s
  | .cvtG4 => Sys2Proof.Machine.execCvtG4 s
  | .cvtG8 => Sys2Proof.Machine.execCvtG8 s
  | .cvtG16 => Sys2Proof.Machine.execCvtG16 s
  | .cvtRgb8 => Sys2Proof.Machine.execCvtRgb8 s
  | .cvtRgb16 => Sys2Proof.Machine.execCvtRgb16 s
  | .cvtP1 => Sys2Proof.Machine.execCvtP1 s
  | .cvtP2 => Sys2Proof.Machine.execCvtP2 s
  | .cvtP4 => Sys2Proof.Machine.execCvtP4 s
  | .cvtP8 => Sys2Proof.Machine.execCvtP8 s
  | .cvtGa8 => Sys2Proof.Machine.execCvtGa8 s
  | .cvtGa16 => Sys2Proof.Machine.execCvtGa16 s
  | .cvtRgba8 => Sys2Proof.Machine.execCvtRgba8 s
  | .cvtRgba16 => Sys2Proof.Machine.execCvtRgba16 s
  | .decode stream maxPixels verifyAdler => Sys2Proof.Machine.execDecode stream maxPixels verifyAdler s
  | .readExact n => Sys2Proof.Machine.execReadExact n s
  | .readU8 => Sys2Proof.Machine.execReadU8 s
  | .readU32BE => Sys2Proof.Machine.execReadU32BE s
  | .atEnd => Sys2Proof.Machine.execAtEnd s
  | .getbit => Sys2Proof.Machine.execGetbit s
  | .getbits n => Sys2Proof.Machine.execGetbits n s
  | .alignByte => Sys2Proof.Machine.execAlignByte s
  | .crcInit => Sys2Proof.Machine.execCrcInit s
  | .crcUpdate b => Sys2Proof.Machine.execCrcUpdate b s
  | .crcCheck expected => Sys2Proof.Machine.execCrcCheck expected s
  | .adlerInit => Sys2Proof.Machine.execAdlerInit s
  | .adlerUpdate b => Sys2Proof.Machine.execAdlerUpdate b s
  | .emit b => Sys2Proof.Machine.execEmit b s
  | .buildCode lens => Sys2Proof.Machine.execBuildCode lens s
  | .checkCode lens kind => Sys2Proof.Machine.execCheckCode lens kind s
  | .decodeSym lens => Sys2Proof.Machine.execDecodeSym lens s

end Sys2Proof.Machine
end

