-- ==== Sys2Proof/Machine/Fetch.lean ====
section
/-! DEFINITION. Fetching the next element: the drivers of the phases (41_container.md R161, 43_zlib_wrapper.md R210,
44_inflate_blocks.md R231, R239, R244, 46_scanline.md R290, 47_pixel_convert.md R324, 48_host_control.md R360), and where an
element stands so that it is fetched next. -/

namespace Sys2Proof.Machine

/-- The element a selecting value selects, or a stop of the model (log entry 10). -/
def decoded (f : Format) (v : Nat) (s : State) : Res (Option Instr) :=
  match decode f v with
  | .ok i => .ok (some i) s
  | .error _ => .stop .noElement

/-- The driver of phase CONTAINER (R161): the chunk record is read and checked before its type is looked at (R170), and in
state `ExpectHeader` a type other than the header's is a fault (R165). -/
def fetchContainer (s : State) : Res (Option Instr) :=
  match s.pstate with
  | .expectSignature => .ok (some .sig) s
  | .expectHeader =>
    (readChunk s).bind fun _ s =>
    (require (s.ckType = tagIHDR) .missingHeader s).bind fun _ s => decoded .chunk s.ckType.toNat s
  | .readingChunks => (readChunk s).bind fun _ s => decoded .chunk s.ckType.toNat s
  | .done => (enterInflate s).bind fun _ s => .ok none s

/-- The driver of phase INFLATE (R210, R231, R239, R244): the selecting value is read through the bit reader. -/
def fetchInflate (s : State) : Res (Option Instr) :=
  match s.istage with
  | .zhdr => .ok (some .zhdr) s
  | .block => (getbits 3 s).bind fun v s => decoded .bhdr v s
  | .codeLengths =>
    if s.clSeq.length < s.hlit + s.hdist then (decodeSym s.clLen s).bind fun v s => decoded .clsym v s
    else (installCodes s).bind fun _ s => .ok none s
  | .huffman => (decodeSym s.llLen s).bind fun v s => decoded .llsym v s
  | .distance => (decodeSym s.dLen s).bind fun v s => decoded .dsym v s
  | .trailer => .ok (some .ztrl) s
  | .finished => (enterRecon s).bind fun _ s => .ok none s

/-- `IH_ILACE` as the interlace method (30_encoding.md R105). -/
def ilaceMethod (s : State) : Nat := s.ihIlace.toNat

/-- The driver of phase RECON (R290, R324): the next pass, the filter-type byte of the next row (R296), the conversion of the
next pixel by the header's pair (30_encoding.md R107), and the steps between them. -/
def fetchRecon (s : State) : Res (Option Instr) :=
  match s.rstage with
  | .pass p => decoded (.ilace p) (ilaceMethod s) s
  | .row =>
    if s.row.toNat < s.passH.toNat then
      (readByte s.obuf s.rpos s).bind fun ft s => decoded .row ft.toNat { s with rpos := s.rpos + 1 }
    else .ok none (endPass s)
  | .pixel =>
    if s.col < s.passW.toNat then decoded .depthCtype (be16 s.ihDepth s.ihCtype) s
    else .ok none (endRow s)
  | .finished => .ok none (commit s)

/-- What runs next: the reset line first, then a command at the host port, then the driver of the phase; where no decode runs
the block waits (R432; 60_exceptions.md R405). Log entries 1, 2, 7. -/
def fetch (s : State) : Res (Option Instr) :=
  if s.resetLine = true then .ok none (hardwareReset s)
  else match s.cmd with
    | some c => .ok (some (.decode c.stream c.maxPixels c.verifyAdler)) { s with cmd := none }
    | none =>
      match s.phase with
      | .idle => .ok none s
      | .container => fetchContainer s
      | .inflate => fetchInflate s
      | .recon => fetchRecon s
      | .done => .ok none s
      | .faulted => .ok none s

/-! ### Placing an element where the fetch reads it (log entry 9) -/

/-- Zero bytes after a placed element. -/
def zeroPadding : List Byte := List.replicate 32 0

/-- A complete code-length code: 13 symbols of 4 bits and 6 of 5 bits. -/
def placedClLens : List CodeLen := List.replicate 13 4 ++ List.replicate 6 5

/-- The code word of a symbol, as bits in reading order. -/
def codeWord (lens : List CodeLen) (sym : Nat) : List Bool :=
  match (buildCode lens)[sym]? with
  | some (len, code) => codeBits len code
  | none => []

/-- No command at the port, no reset, and the given phase. -/
def placeIn (phase : Phase) (s : State) : State :=
  { s with resetLine := false, cmd := none, phase := phase }

/-- An element of phase CONTAINER at the start of the input. -/
def placeInput (pstate : PState) (bytes : List Byte) (s : State) : State :=
  { placeIn .container s with pstate := pstate, input := bytes ++ zeroPadding, cur := 0 }

/-- An element of phase INFLATE at the start of `ZBUF`. -/
def placeBits (istage : InflateStage) (bytes : List Byte) (s : State) : State :=
  { placeIn .inflate s with istage := istage, zbuf := bytes ++ zeroPadding, bp := 0 }

/-- An empty chunk record of a type, with its CRC (30_encoding.md R102). -/
def emptyChunk (type : Nat) : List Byte :=
  bytesBE 4 0 ++ bytesBE 4 type ++ bytesBE 4 (crc32 (bytesBE 4 type)).toNat

/-- A state in which the fetch finds the element with this selecting value of this format. -/
def placeWord : Format → Nat → State → State
  | .sig, v, s => placeInput .expectSignature (bytesBE 8 v) s
  | .chunk, v, s =>
    placeInput (if v = tagIHDR.toNat then .expectHeader else .readingChunks) (emptyChunk v) s
  | .zhdr, v, s => placeBits .zhdr (bytesBE 2 v) s
  | .ztrl, v, s => placeBits .trailer (bytesBE 4 v) s
  | .bhdr, v, s => placeBits .block [BitVec.ofNat 8 v] s
  | .llsym, v, s => { placeBits .huffman (packBits (fixedLLWord v)) s with llLen := fixedLLLens }
  | .dsym, v, s => { placeBits .distance (packBits (fixedDistWord v)) s with dLen := fixedDistLens }
  | .clsym, v, s =>
    { placeBits .codeLengths (packBits (codeWord placedClLens v)) s with
      clLen := placedClLens, clSeq := [], hlit := 257, hdist := 1 }
  | .row, v, s =>
    { placeIn .recon s with
      rstage := .row, row := 0, passH := 1, passW := 0, obuf := BitVec.ofNat 8 v :: zeroPadding, rpos := 0 }
  | .ilace p, v, s => { placeIn .recon s with rstage := .pass p, ihIlace := decide (v = 1) }
  | .depthCtype, v, s =>
    { placeIn .recon s with
      rstage := .pixel
      ihDepth := BitVec.ofNat 8 (v / 256)
      ihCtype := BitVec.ofNat 8 v
      ihWidth := 1
      pass := 0
      passW := 1
      row := 0
      col := 0
      currow := zeroPadding
      frame := Memory.alloc 4 }
  | .cmd, _, s => s
  | .prim, _, s => s

end Sys2Proof.Machine
end

