-- ==== Sys2Proof/Machine/Step.lean ====
section
/-! DEFINITION. The step: fetch the next element and run it; a step of the sequencer runs no element; a fault raised while
fetching is fault entry (60_exceptions.md R390). And the placing of a word of the opcode table as the next element. -/

namespace Sys2Proof.Machine

/-- One step of the block (10_state.md R20: one agent, one step at a time). -/
def step (s : State) : Host.Outcome State Fault Refusal :=
  match fetch s with
  | .ok (some i) s' => exec i s'
  | .ok none s' => .next s'
  | .raise k s' => .next (raiseFault k s')
  | .stop f => .fault f

/-- The state with a word of the opcode table placed where the step fetches its next element (log entry 9). -/
def State.withFetchWord (s : State) (nbits w : Nat) : State :=
  match tableFormat nbits w with
  | some (f, v) => placeWord f v s
  | none => s

end Sys2Proof.Machine
end

