-- ==== Sys2Proof/Safety.lean ====
section
/-! DEFINITION. The words claims are stated in: outcomes, bits and fields of the compressed data, chunk records, the spec's
tables as the spec prints them, and the invariants of the state. -/

namespace Sys2Proof.Safety

open Sys2Proof.Machine

/-- The outcome of a step or of an element. -/
abbrev Result := Host.Outcome State Fault Refusal

/-! ### Outcomes -/

/-- What the host can tell after fault entry (60_exceptions.md R390, R391; 48_host_control.md R366). -/
structure Faulted (k : FaultKind) (t : State) : Prop where
  phase : t.phase = .faulted
  kind : t.faultKind = some k
  outValid : t.outValid = false
  outW : t.outW = 0
  outH : t.outH = 0
  out : t.out = Memory.empty

/-- The element raises `k`: it answers the next state, in which fault entry has happened. -/
def Raises (o : Result) (k : FaultKind) : Prop := ∃ t, o = .next t ∧ Faulted k t

/-- Every register and memory for which the reset table states a value (10_state.md R48) has it; `PHASE` differs between reset
and DECODE and is stated apart. -/
structure ResetValues (t : State) : Prop where
  pstate : t.pstate = .expectSignature
  cursors : t.cur = 0 ∧ t.bp = 0 ∧ t.rpos = 0
  chunk : t.ckLen = 0 ∧ t.ckType = 0 ∧ t.ckCrc = 0 ∧ t.ckPay = []
  counts : t.pltN = 0 ∧ t.trnsN = 0
  flags : t.havePlte = false ∧ t.haveTrns = false ∧ t.seenIdat = false ∧ t.idatClosed = false
  buffers : t.zbuf = [] ∧ t.obuf = [] ∧ t.frame = Memory.empty
  adler : t.adlerA = 1 ∧ t.adlerB = 0
  output : t.outValid = false ∧ t.outW = 0 ∧ t.outH = 0 ∧ t.out = Memory.empty
  fault : t.faultKind = none ∧ t.faultOffset = 0

/-- No command at the host port and no hardware reset: the block runs on its own. -/
def Quiet (s : State) : Prop := s.cmd = none ∧ s.resetLine = false

/-- A decode is in progress (10_state.md R21). -/
def Running (s : State) : Prop := s.phase = .container ∨ s.phase = .inflate ∨ s.phase = .recon

/-- The decode has ended (10_state.md R21). -/
def Ended (s : State) : Prop := s.phase = .done ∨ s.phase = .faulted

/-- Two states that differ at most in the unspecified `FAULT_OFFSET` (60_exceptions.md R392). -/
def SameButOffset (s t : State) : Prop := t = { s with faultOffset := t.faultOffset }

/-- Two states that differ at most in the counter of free values. -/
def SameButCounter (s t : State) : Prop := t = { s with freeCount := t.freeCount }

/-- Two states that differ at most in what is unspecified: `FAULT_OFFSET` (60_exceptions.md R392), the counter of free values,
while no code-length sequence is being read `CL_LEN` (44_inflate_blocks.md R245), and while no row is being converted `CURROW`
(10_state.md R40). -/
structure SameButFree (s t : State) : Prop where
  same : t = { s with faultOffset := t.faultOffset, freeCount := t.freeCount, clLen := t.clLen, currow := t.currow }
  clLen : s.istage = .codeLengths → t.clLen = s.clLen
  currow : s.rstage = .pixel → t.currow = s.currow

/-- Two outcomes of one kind: one stop, or next states in the given relation. -/
inductive SameOutcome (same : State → State → Prop) : Result → Result → Prop
  | next {s t : State} (h : same s t) : SameOutcome same (.next s) (.next t)
  | fault (f : Fault) : SameOutcome same (.fault f) (.fault f)
  | refused (r : Refusal) : SameOutcome same (.refused r) (.refused r)

/-! ### Bits of the compressed data (20_memory.md R75, R76) -/

/-- Bit number `k` of a byte sequence is bit `k mod 8` of byte `k / 8`, and it is `b` (R75). -/
def BitIs (z : List Byte) (k : Nat) (b : Bool) : Prop :=
  ∃ byte, z[k / 8]? = some byte ∧ byte.getLsbD (k % 8) = b

/-- From bit position `bp` on, the sequence holds these bits in reading order. -/
def BitsAt (z : List Byte) (bp : Nat) (bits : List Bool) : Prop :=
  ∀ k b, bits[k]? = some b → BitIs z (bp + k) b

/-- From bit position `bp` on stands a fixed-width field of `n` bits with value `v`, least significant bit first (R76). -/
def FieldAt (z : List Byte) (bp n v : Nat) : Prop :=
  v < 2 ^ n ∧ ∀ k, k < n → BitIs z (bp + k) (v.testBit k)

/-! ### Chunk records (30_encoding.md R102) -/

/-- The next bytes of `IN` are a record with this declared length, type, payload and stored CRC. -/
def RecordAt (s : State) (len type : Word) (pay : List Byte) (crc : Word) : Prop :=
  pay.length = len.toNat ∧
  ∃ rest, s.input.drop s.cur =
    bytesBE 4 len.toNat ++ bytesBE 4 type.toNat ++ pay ++ bytesBE 4 crc.toNat ++ rest

/-- The state after the record has been read and its checksum taken (41_container.md R170, 42_crc32.md R205). -/
def afterRecord (s : State) (len type : Word) (pay : List Byte) (crc : Word) : State :=
  { s with
    cur := s.cur + 12 + len.toNat
    ckLen := len
    ckType := type
    ckPay := pay
    ckCrc := crc
    crcAcc := crc32 (bytesBE 4 type.toNat ++ pay) ^^^ 0xFFFFFFFF }

/-- One of the eight steps of `CRC.UPDATE` as the rule writes it (42_crc32.md R202). -/
def crcStepSpec (c : Word) : Word := if c.getLsbD 0 = true then (c >>> 1) ^^^ 0xEDB88320 else c >>> 1

/-- Entry `T[n]` of the table-driven form: the eight-step loop applied to `n` (42_crc32.md R202). -/
def crcTable (n : Byte) : Word := crcStepSpec^[8] (n.setWidth 32)

/-- The fifteen legal (depth, colour type) pairs (30_encoding.md R107). -/
def legalPairTable : List (Byte × Byte) :=
  [(1, 0), (2, 0), (4, 0), (8, 0), (16, 0), (8, 2), (16, 2), (1, 3), (2, 3), (4, 3), (8, 3), (8, 4), (16, 4), (8, 6), (16, 6)]

/-! ### Tables of the deflate layer -/

/-- The first rows of `lengthTable`. -/
def lengthTableLow : List (Instr × Nat × Nat) :=
  [(.len257, 0, 3), (.len258, 0, 4), (.len259, 0, 5), (.len260, 0, 6), (.len261, 0, 7), (.len262, 0, 8), (.len263, 0, 9),
   (.len264, 0, 10), (.len265, 1, 11), (.len266, 1, 13), (.len267, 1, 15), (.len268, 1, 17), (.len269, 2, 19),
   (.len270, 2, 23), (.len271, 2, 27)]

/-- The last rows of `lengthTable`. -/
def lengthTableHigh : List (Instr × Nat × Nat) :=
  [(.len272, 2, 31), (.len273, 3, 35), (.len274, 3, 43), (.len275, 3, 51), (.len276, 3, 59), (.len277, 4, 67),
   (.len278, 4, 83), (.len279, 4, 99), (.len280, 4, 115), (.len281, 5, 131), (.len282, 5, 163), (.len283, 5, 195),
   (.len284, 5, 227), (.len285, 0, 258)]

/-- Symbol, extra bits, base (30_encoding.md R114), with the element it selects. -/
def lengthTable : List (Instr × Nat × Nat) :=
  lengthTableLow ++ lengthTableHigh

/-- The first rows of `distanceTable`. -/
def distanceTableLow : List (Instr × Nat × Nat) :=
  [(.dist0, 0, 1), (.dist1, 0, 2), (.dist2, 0, 3), (.dist3, 0, 4), (.dist4, 1, 5), (.dist5, 1, 7), (.dist6, 2, 9),
   (.dist7, 2, 13), (.dist8, 3, 17), (.dist9, 3, 25), (.dist10, 4, 33), (.dist11, 4, 49), (.dist12, 5, 65),
   (.dist13, 5, 97), (.dist14, 6, 129)]

/-- The last rows of `distanceTable`. -/
def distanceTableHigh : List (Instr × Nat × Nat) :=
  [(.dist15, 6, 193), (.dist16, 7, 257), (.dist17, 7, 385), (.dist18, 8, 513), (.dist19, 8, 769), (.dist20, 9, 1025),
   (.dist21, 9, 1537), (.dist22, 10, 2049), (.dist23, 10, 3073), (.dist24, 11, 4097), (.dist25, 11, 6145),
   (.dist26, 12, 8193), (.dist27, 12, 12289), (.dist28, 13, 16385), (.dist29, 13, 24577)]

/-- Symbol, extra bits, base (30_encoding.md R115), with the element it selects. -/
def distanceTable : List (Instr × Nat × Nat) :=
  distanceTableLow ++ distanceTableHigh

/-- The code-length symbols with a repeat count: extra bits and base (30_encoding.md R116). -/
def zeroRunTable : List (Instr × Nat × Nat) := [(.clZ3, 3, 3), (.clZ11, 7, 11)]

/-! ### Huffman codes (44_inflate_blocks.md R241, R242) -/

/-- `next[b]` of R241 before any symbol is assigned: the first code word of length `b`. -/
def firstCode (lens : List CodeLen) : Nat → Nat
  | 0 => 0
  | b + 1 => (firstCode lens b + (if b = 0 then 0 else lens.countP fun l => l.toNat == b)) * 2

/-- The code word of symbol `sym`, of length `len`: the first code word of that length, plus the number of earlier symbols
of the same length (R241). -/
def canonicalCode (lens : List CodeLen) (sym : Nat) : Nat :=
  firstCode lens (lens.getD sym 0).toNat + (lens.take sym).countP fun l => l == lens.getD sym 0

/-- `K` of R242. -/
def kraftSum (lens : List CodeLen) : Nat :=
  ((lens.filter (· ≠ 0)).map fun l => 2 ^ (15 - l.toNat)).sum

/-- Exactly one symbol has a code, and its length is 1 (R242). -/
def OnlyOneBitCode (lens : List CodeLen) : Prop :=
  ∃ sym : Nat, lens[sym]? = some 1 ∧ ∀ (other : Nat) (l : CodeLen), lens[other]? = some l → other ≠ sym → l = 0

/-- The length vectors `checkCode` accepts (R242): complete, empty, or, for the literal/length and the distance code, a single
one-bit code. -/
def CodeAccepted (lens : List CodeLen) (kind : CodeKind) : Prop :=
  kraftSum lens = 2 ^ 15 ∨ kraftSum lens = 0 ∨
    (kraftSum lens ≤ 2 ^ 15 ∧ (kind = .ll ∨ kind = .d) ∧ OnlyOneBitCode lens)

/-! ### Rows and passes (46_scanline.md) -/

/-- `Paeth(a, b, c)` on integers, as the rule writes it (R301). -/
def paethSpec (a b c : Int) : Int :=
  if |a + b - c - a| ≤ |a + b - c - b| ∧ |a + b - c - a| ≤ |a + b - c - c| then a
  else if |a + b - c - b| ≤ |a + b - c - c| then b
  else c

/-- The reconstructed byte of filter type `ft` from `x`, `a`, `b`, `c`, all as numbers (R297 to R301, R306). -/
def filterSpec (ft : Nat) (x a b c : Nat) : Nat :=
  match ft with
  | 0 => x
  | 1 => (x + a) % 256
  | 2 => (x + b) % 256
  | 3 => (x + (a + b) / 2) % 256
  | _ => (x + (paethSpec a b c).toNat) % 256

/-- The filter elements and their types (30_encoding.md R119). -/
def filterTable : List (Instr × Nat) :=
  [(.filtNone, 0), (.filtSub, 1), (.filtUp, 2), (.filtAvg, 3), (.filtPaeth, 4)]

/-- Byte `i` of a row, as a number. -/
def rowByte (row : List Byte) (i : Nat) : Nat := (row.getD i 0).toNat

/-- The pass elements, each with its number, first column, first row, column step, row step (30_encoding.md R121). -/
def passTable : List (Instr × Fin 8 × Nat × Nat × Nat × Nat) :=
  [(.ilaceNone, 0, 0, 0, 1, 1), (.pass1, 1, 0, 0, 8, 8), (.pass2, 2, 4, 0, 8, 8), (.pass3, 3, 0, 4, 4, 8),
   (.pass4, 4, 2, 0, 4, 4), (.pass5, 5, 0, 2, 2, 4), (.pass6, 6, 1, 0, 2, 2), (.pass7, 7, 0, 1, 1, 2)]

/-- `(W > x0) ? ceil((W - x0) / dx) : 0` (R292). -/
def passSpan (extent start step : Nat) : Nat :=
  if extent > start then (extent - start + (step - 1)) / step else 0

/-! ### Pixels (47_pixel_convert.md) -/

/-- Bit number `o` of a row from its start, most significant bit of each byte first (30_encoding.md R120). -/
def rowBit (row : List Byte) (o : Nat) : Nat := ((row.getD (o / 8) 0).getLsbD (7 - o % 8)).toNat

/-- The `n` bits of a row from bit `o` on, as a number, the first the most significant. -/
def bitsFrom (row : List Byte) (o : Nat) : Nat → Nat
  | 0 => 0
  | n + 1 => 2 * bitsFrom row o n + rowBit row (o + n)

/-- Sample `n` of a row at depth `d`: the `d` bits from bit `n * d` on (R321, 30_encoding.md R120). -/
def sampleSpec (d n : Nat) (row : List Byte) : Nat := bitsFrom row (n * d) d

/-- `scale8(v, d)` as the rule lists it (R323). -/
def scaleSpec (v d : Nat) : Nat :=
  if d = 1 then v * 255 else if d = 2 then v * 85 else if d = 4 then v * 17 else if d = 8 then v else v / 256

/-- The elements of colour type 0, with their depth (30_encoding.md R107). -/
def grayTable : List (Instr × Nat) := [(.cvtG1, 1), (.cvtG2, 2), (.cvtG4, 4), (.cvtG8, 8), (.cvtG16, 16)]

/-- The elements of colour type 2, with their depth (30_encoding.md R107). -/
def rgbTable : List (Instr × Nat) := [(.cvtRgb8, 8), (.cvtRgb16, 16)]

/-- The elements of colour type 3, with their depth (30_encoding.md R107). -/
def paletteTable : List (Instr × Nat) := [(.cvtP1, 1), (.cvtP2, 2), (.cvtP4, 4), (.cvtP8, 8)]

/-- The elements of colour type 4, with their depth (30_encoding.md R107). -/
def grayAlphaTable : List (Instr × Nat) := [(.cvtGa8, 8), (.cvtGa16, 16)]

/-- The elements of colour type 6, with their depth (30_encoding.md R107). -/
def rgbaTable : List (Instr × Nat) := [(.cvtRgba8, 8), (.cvtRgba16, 16)]

/-- The conversion can run: the row holds the `n` samples of pixel `col`, the pixel's four bytes lie inside `FRAME`, and
`FRAME` is in canonical form. -/
def PixelReady (d n : Nat) (s : State) : Prop :=
  (s.col + 1) * n * d ≤ 8 * s.currow.length ∧ pixelAddress s + 4 ≤ s.frame.size ∧ s.frame.wf = true

/-- The pixel write and its frame (R340): the four bytes at the pixel's address, no other byte of `FRAME`, and no other
register but the position in the row. -/
def PixelWritten (s t : State) (r g b a : Nat) : Prop :=
  t = { s with frame := t.frame, col := s.col + 1 } ∧ t.frame.size = s.frame.size ∧
  (t.frame.read (pixelAddress s)).map BitVec.toNat = some r ∧
  (t.frame.read (pixelAddress s + 1)).map BitVec.toNat = some g ∧
  (t.frame.read (pixelAddress s + 2)).map BitVec.toNat = some b ∧
  (t.frame.read (pixelAddress s + 3)).map BitVec.toNat = some a ∧
  ∀ addr, addr < pixelAddress s ∨ pixelAddress s + 4 ≤ addr → t.frame.read addr = s.frame.read addr

/-! ### Invariants: what every step keeps -/

/-- `FRAME` and `OUT` are in canonical form (log entry 12). -/
structure MemoryInv (s : State) : Prop where
  frame : s.frame.wf = true
  out : s.out.wf = true

/-- What the host reads in each phase (48_host_control.md R366, 10_state.md R42, R43, 60_exceptions.md R392), with the size of
`FRAME` (10_state.md R41) that makes it so at commit. -/
structure OutputInv (s : State) : Prop where
  noResult : s.phase ≠ .done → s.outValid = false ∧ s.outW = 0 ∧ s.outH = 0 ∧ s.out = Memory.empty
  result : s.phase = .done → s.outValid = true ∧ s.out.size = s.outW.toNat * s.outH.toNat * 4
  noFault : s.phase ≠ .faulted → s.faultKind = none ∧ s.faultOffset = 0
  fault : s.phase = .faulted → s.faultKind ≠ none
  frame : s.phase = .recon → s.frame.size = s.ihWidth.toNat * s.ihHeight.toNat * 4

/-- Each cursor is bounded by the length of the sequence it indexes (10_state.md R23); `IN`, borrowed for one command, is held
only while a decode runs (48_host_control.md R367). -/
structure CursorInv (s : State) : Prop where
  cur : Running s → s.cur ≤ s.input.length
  givenBack : ¬ Running s → s.input = []
  bp : s.phase = .inflate → s.bp ≤ 8 * s.zbuf.length
  rpos : s.phase = .recon → s.rpos ≤ s.obuf.length

/-- The Adler-32 registers cover exactly the bytes appended to `OBUF` (43_zlib_wrapper.md R218). In DONE this rests on `OBUF`
standing after commit, the model's choice (log entry 6). -/
def AdlerInv (s : State) : Prop := s.phase ≠ .faulted → (s.adlerA, s.adlerB) = adlerSums s.obuf

/-- The header has been accepted. -/
def HeaderRead (s : State) : Prop :=
  (s.phase = .container ∧ (s.pstate = .readingChunks ∨ s.pstate = .done)) ∨ s.phase = .inflate ∨ s.phase = .recon

/-- From its acceptance on the header is a legal one within the ceiling (41_container.md R166, 00_scope.md R6). -/
structure HeaderInv (s : State) : Prop where
  ceiling : Running s → 1 ≤ s.cfgMaxPixels ∧ s.cfgMaxPixels < 2 ^ 30
  size : HeaderRead s → s.ihWidth ≠ 0 ∧ s.ihHeight ≠ 0 ∧ s.ihWidth.toNat * s.ihHeight.toNat ≤ s.cfgMaxPixels
  pair : HeaderRead s → (s.ihDepth, s.ihCtype) ∈ legalPairTable

/-- The register files have their sizes (10_state.md R32, R33, R37), and the counts of valid entries are within them. -/
structure TableInv (s : State) : Prop where
  plt : s.plt.length = 256
  trnsA : s.trnsA.length = 256
  pltN : s.pltN.toNat ≤ 256
  trnsN : s.trnsN.toNat ≤ s.pltN.toNat
  noPlte : s.havePlte = false → s.pltN = 0
  llLen : s.llLen.length = 288
  dLen : s.dLen.length = 32
  clLen : s.clLen.length = 19

/-- While code lengths or a distance are expected, the counts are in range (10_state.md R36, 45_inflate_symbols.md R264). -/
structure InflateInv (s : State) : Prop where
  counts : s.phase = .inflate → s.istage = .codeLengths →
    257 ≤ s.hlit ∧ s.hlit ≤ 286 ∧ 1 ≤ s.hdist ∧ s.hdist ≤ 32 ∧ s.clSeq.length ≤ s.hlit + s.hdist
  length : s.phase = .inflate → s.istage = .distance → 3 ≤ s.mlen ∧ s.mlen ≤ 258

/-- The bytes that the passes from `p` on take in `OBUF` (46_scanline.md R293). -/
def bytesFrom (bits : Nat) (s : State) (p : Nat) : Nat :=
  (((passSteps s).filter fun q => p ≤ q.val).map (passBytes bits s)).sum

/-- In phase RECON the bytes still needed are there (46_scanline.md R294), and the registers of the pass and the row fit the
pass: `PREV` and `CURROW` have `rowbytes(PASS_W)` entries (10_state.md R40), and after its last row `ROW` is `PASS_H` (log entry
19). -/
structure ReconInv (s : State) : Prop where
  pass : ∀ p bits, s.phase = .recon → s.rstage = .pass p → bitspp s = some bits →
    p ∈ passSteps s ∧ s.rpos + bytesFrom bits s p.val ≤ s.obuf.length
  row : ∀ bits, s.phase = .recon → s.rstage = .row ∨ s.rstage = .pixel → bitspp s = some bits →
    currentPass s ∈ passSteps s ∧ s.passW.toNat = passWidth (currentPass s) s ∧
    s.passH.toNat = passHeight (currentPass s) s ∧ s.passW ≠ 0 ∧ s.prev.length = rowbytesOf bits s.passW.toNat ∧
    s.currow.length = rowbytesOf bits s.passW.toNat ∧
    s.row.toNat + (if s.rstage = .pixel then 1 else 0) ≤ s.passH.toNat ∧
    s.rpos + (s.passH.toNat - s.row.toNat - (if s.rstage = .pixel then 1 else 0)) *
      (1 + rowbytesOf bits s.passW.toNat) + bytesFrom bits s ((currentPass s).val + 1) ≤ s.obuf.length
  pixel : ∀ bits, s.phase = .recon → s.rstage = .pixel → bitspp s = some bits →
    s.col ≤ s.passW.toNat

/-- Everything every step keeps. -/
structure Inv (s : State) : Prop where
  memory : MemoryInv s
  output : OutputInv s
  cursors : CursorInv s
  adler : AdlerInv s
  header : HeaderInv s
  tables : TableInv s
  inflate : InflateInv s
  recon : ReconInv s

/-! ### Phases and fault kinds -/

/-- The phase a kind is raised in (60_exceptions.md R380). -/
def phaseOfKind : FaultKind → Phase
  | .invalidSignature | .missingHeader | .unsupportedFormat | .chunkCorrupt | .invalidChunkOrder
  | .unsupportedCriticalChunk | .truncatedInput | .trailingData | .imageTooLarge | .malformedChunk => .container
  | .truncatedCompressedData | .invalidBackReference | .decompressionChecksumError | .invalidCompressedData => .inflate
  | .truncatedPixelData | .invalidFilterType | .paletteIndexOutOfRange => .recon

/-- The phase that follows a phase on success (48_host_control.md R362). -/
def phaseAfter : Phase → Phase
  | .idle => .idle
  | .container => .inflate
  | .inflate => .recon
  | .recon => .done
  | .done => .done
  | .faulted => .faulted

end Sys2Proof.Safety
end

