-- ==== Sys2Proof/Certificates/Slice0/Obligations.lean ====
section
/-! DEFINITION. The statements for the provers. The words they use are those of Sys2Proof/Safety.lean. The fields `istage`,
`rstage` and `ret` are the model's names for where a driver of the spec's pseudocode stands and for the value a primitive returns
(log entries 7, 8); `clSeq`, `mlen` and `col` are variables of that pseudocode. -/

open Sys2Proof Sys2Proof.Machine Sys2Proof.Safety

/-! ### Encoding -/

/-- O1. Decoding an encoded well-formed element gives it back, for every element that has an encoding and every value of its
operands (30_encoding.md). -/
def Obligations.DecodeOfEncode : Prop :=
  ∀ (i : Instr) (f : Format) (v : Nat), i.wf = true → encode i = some (f, v) → decode f v = .ok i

/-- O2. In every format selected by value, a word selects at most one element, that element is well formed, and the encoder
gives the word back: no two words select one element and no operand bit is dropped (30_encoding.md). The positional formats are
left out: any value stands for them (log entry 16). -/
def Obligations.EncodeOfDecode : Prop :=
  ∀ (f : Format) (v : Nat) (i : Instr), f ≠ .sig → f ≠ .zhdr → f ≠ .ztrl → decode f v = .ok i →
    i.wf = true ∧ encode i = some (f, v)

/-- O3. A few words written out from the spec's encodings select the element they stand for (R103, R104, R107, R110, R114 to
R116, R119, R121). -/
def Obligations.DecodeSpecWords : Prop :=
  decode .chunk 0x74524E53 = .ok .trns ∧ decode .chunk 0x74455874 = .ok (.anc 0x74455874) ∧
  decode .chunk 0x49444174 = .ok (.crit 0x49444174) ∧ decode .bhdr 0b101 = .ok (.blkDyn true) ∧
  decode .llsym 0x61 = .ok (.lit 0x61) ∧ decode .llsym 265 = .ok .len265 ∧ decode .dsym 29 = .ok .dist29 ∧
  decode .clsym 16 = .ok .clRep ∧ decode .row 4 = .ok .filtPaeth ∧ decode .row 5 = .ok (.filtRsvd 5) ∧
  decode (.ilace 4) 1 = .ok .pass4 ∧ decode .depthCtype 0x1006 = .ok .cvtRgba16

/-- O4. The fixed code of a static block (R117): each of the 288 literal/length symbols and each of the 32 distance symbols is
read from the code word of the rule's table, and exactly its bits are consumed. -/
def Obligations.FixedCodeWords : Prop :=
  (∀ (s : State) (sym : Nat), sym < 288 → BitsAt s.zbuf s.bp (fixedLLWord sym) →
    decodeSym fixedLLLens s = .ok sym { s with bp := s.bp + (fixedLLWord sym).length }) ∧
  (∀ (s : State) (sym : Nat), sym < 32 → BitsAt s.zbuf s.bp (fixedDistWord sym) →
    decodeSym fixedDistLens s = .ok sym { s with bp := s.bp + 5 })

/-! ### Huffman codes -/

/-- O5. `buildCode` gives every symbol with a code its canonical code word, and for an accepted vector no code word begins
with another (R241); `checkCode` passes exactly the accepted length vectors and changes nothing (R242). -/
def Obligations.CodeConstruction : Prop :=
  (∀ (lens : List CodeLen) (s : State), ∃ codes,
    exec (.buildCode lens) s = .next { s with ret := .codes codes } ∧ codes.length = lens.length ∧
    ∀ sym, sym < lens.length → codes[sym]? =
      some (if lens.getD sym 0 = 0 then (0, 0) else ((lens.getD sym 0).toNat, canonicalCode lens sym))) ∧
  (∀ (lens : List CodeLen) (kind : CodeKind) (sym other : Nat), CodeAccepted lens kind →
    sym < lens.length → other < lens.length → sym ≠ other → lens.getD sym 0 ≠ 0 → lens.getD other 0 ≠ 0 →
    ¬ codeBits (lens.getD sym 0).toNat (canonicalCode lens sym) <+:
      codeBits (lens.getD other 0).toNat (canonicalCode lens other)) ∧
  (∀ (lens : List CodeLen) (kind : CodeKind) (s : State),
    (CodeAccepted lens kind → exec (.checkCode lens kind) s = .next s) ∧
    (¬ CodeAccepted lens kind → Raises (exec (.checkCode lens kind) s) .invalidCompressedData))

/-- O6. The canonical code of an accepted length vector is prefix-free and is read back: with the code word of a symbol next in
`ZBUF`, `decodeSym` completes, returns that symbol and consumes exactly its bits (R241 to R243). -/
def Obligations.CanonicalCodeDecodes : Prop :=
  ∀ (lens : List CodeLen) (kind : CodeKind) (s : State) (sym : Nat),
    CodeAccepted lens kind → sym < lens.length → lens.getD sym 0 ≠ 0 →
    BitsAt s.zbuf s.bp (codeBits (lens.getD sym 0).toNat (canonicalCode lens sym)) →
    exec (.decodeSym lens) s =
      .next { s with bp := s.bp + (lens.getD sym 0).toNat, ret := .nat sym }

/-- O7. Where the next bits begin with no code word, `decodeSym` faults: after 15 bits, or where the data ends before (R243). -/
def Obligations.UndecodableSymbol : Prop :=
  ∀ (lens : List CodeLen) (s : State), s.bp ≤ 8 * s.zbuf.length →
    (∀ sym, sym < lens.length → lens.getD sym 0 ≠ 0 →
      ¬ BitsAt s.zbuf s.bp (codeBits (lens.getD sym 0).toNat (canonicalCode lens sym))) →
    (s.bp + 15 ≤ 8 * s.zbuf.length → Raises (exec (.decodeSym lens) s) .invalidCompressedData) ∧
    (8 * s.zbuf.length < s.bp + 15 → Raises (exec (.decodeSym lens) s) .truncatedCompressedData)

/-! ### Readers and checksums -/

/-- O8. The byte reader: `readExact`, `readU8`, `readU32BE` return the next bytes and move the cursor past them, or raise
`TruncatedInput` with the cursor where it was (R141 to R143); `atEnd` only looks. -/
def Obligations.ByteReader : Prop :=
  (∀ (n : Nat) (s : State), s.cur + n ≤ s.input.length → ∃ v,
    exec (.readExact n) s = .next { s with cur := s.cur + n, ret := .bytes v } ∧ v.length = n ∧
    ∀ k, k < n → v[k]? = s.input[s.cur + k]?) ∧
  (∀ (n : Nat) (s : State), s.cur ≤ s.input.length → s.input.length < s.cur + n → ∃ t,
    exec (.readExact n) s = .next t ∧ Faulted .truncatedInput t ∧ t.cur = s.cur) ∧
  (∀ (s : State) (b : Byte), s.input[s.cur]? = some b →
    exec .readU8 s = .next { s with cur := s.cur + 1, ret := .nat b.toNat }) ∧
  (∀ s : State, s.cur = s.input.length → ∃ t,
    exec .readU8 s = .next t ∧ Faulted .truncatedInput t ∧ t.cur = s.cur) ∧
  (∀ (s : State) (b0 b1 b2 b3 : Byte), s.input[s.cur]? = some b0 → s.input[s.cur + 1]? = some b1 →
    s.input[s.cur + 2]? = some b2 → s.input[s.cur + 3]? = some b3 →
    exec .readU32BE s = .next { s with
      cur := s.cur + 4
      ret := .nat (b0.toNat * 2 ^ 24 + b1.toNat * 2 ^ 16 + b2.toNat * 2 ^ 8 + b3.toNat) }) ∧
  (∀ s : State, s.cur ≤ s.input.length → s.input.length < s.cur + 4 → ∃ t,
    exec .readU32BE s = .next t ∧ Faulted .truncatedInput t ∧ t.cur = s.cur) ∧
  (∀ s : State, exec .atEnd s = .next { s with ret := .bool (decide (s.cur = s.input.length)) })

/-- O9. The bit reader: `getbit` and `getbits` return the next bits, least significant first, and move the bit cursor past
them, or raise `TruncatedCompressedData` (R146, R147); `alignByte` moves it to the next byte boundary (R148). -/
def Obligations.BitReader : Prop :=
  (∀ (s : State) (b : Bool), BitIs s.zbuf s.bp b →
    exec .getbit s = .next { s with bp := s.bp + 1, ret := .nat b.toNat }) ∧
  (∀ s : State, 8 * s.zbuf.length ≤ s.bp → Raises (exec .getbit s) .truncatedCompressedData) ∧
  (∀ (s : State) (n v : Nat), FieldAt s.zbuf s.bp n v →
    exec (.getbits n) s = .next { s with bp := s.bp + n, ret := .nat v }) ∧
  (∀ (s : State) (n : Nat), s.bp ≤ 8 * s.zbuf.length → 8 * s.zbuf.length < s.bp + n →
    Raises (exec (.getbits n) s) .truncatedCompressedData) ∧
  (∀ s : State, ∃ p, exec .alignByte s = .next { s with bp := p } ∧ p % 8 = 0 ∧ s.bp ≤ p ∧ p < s.bp + 8)

/-- O10. The CRC operations: the start value (R201), the update as the eight-step loop and as the table form (R202), the check
with the final inversion (R203). -/
def Obligations.CrcOperations : Prop :=
  (∀ s : State, exec .crcInit s = .next { s with crcAcc := 0xFFFFFFFF }) ∧
  (∀ (b : Byte) (s : State),
    exec (.crcUpdate b) s = .next { s with crcAcc := crcStepSpec^[8] (s.crcAcc ^^^ b.setWidth 32) } ∧
    exec (.crcUpdate b) s = .next { s with
      crcAcc := crcTable (s.crcAcc.setWidth 8 ^^^ b) ^^^ (s.crcAcc >>> 8) }) ∧
  (∀ (e : Word) (s : State),
    (s.crcAcc ^^^ 0xFFFFFFFF = e → exec (.crcCheck e) s = .next s) ∧
    (s.crcAcc ^^^ 0xFFFFFFFF ≠ e → Raises (exec (.crcCheck e) s) .chunkCorrupt)) ∧
  crcTable 0 = 0 ∧ crcTable 1 = 0x77073096 ∧ crcTable 2 = 0xEE0E612C ∧ crcTable 255 = 0x2D02EF8D

/-- O11. Check values of the two checksum functions (R204, R213; 95_test_vectors.md). -/
def Obligations.ChecksumValues : Prop :=
  crc32 [] = 0 ∧ crc32 [0x31, 0x32, 0x33, 0x34, 0x35, 0x36, 0x37, 0x38, 0x39] = 0xCBF43926 ∧
  crc32 [0x49, 0x45, 0x4E, 0x44] = 0xAE426082 ∧ adler32 [] = 1 ∧ adler32 [0x61] = 0x00620062 ∧
  adler32 [0x57, 0x69, 0x6B, 0x69, 0x70, 0x65, 0x64, 0x69, 0x61] = 0x11E60398

/-- O12. A change of any single byte always changes the CRC-32 (R207). -/
def Obligations.CrcDetectsOneByte : Prop :=
  ∀ (before after : List Byte) (b b' : Byte), b ≠ b' →
    crc32 (before ++ b :: after) ≠ crc32 (before ++ b' :: after)

/-- O13. The Adler-32 operations: the start values (R211), the update modulo 65521 with the new first sum in the second, and
the range of both (R212). -/
def Obligations.AdlerOperations : Prop :=
  (∀ s : State, exec .adlerInit s = .next { s with adlerA := 1, adlerB := 0 }) ∧
  (∀ (b : Byte) (s : State), ∃ a' b',
    exec (.adlerUpdate b) s = .next { s with adlerA := a', adlerB := b' } ∧
    a'.toNat = (s.adlerA.toNat + b.toNat) % 65521 ∧ b'.toNat = (s.adlerB.toNat + a'.toNat) % 65521 ∧
    a'.toNat ≤ 65520 ∧ b'.toNat ≤ 65520)

/-! ### Container -/

/-- O14. `SIG` (R160): passes on the eight signature bytes, `TruncatedInput` with fewer than eight bytes left whatever they
are, `InvalidSignature` on eight others. -/
def Obligations.SignatureElement : Prop :=
  ∀ s : State, s.cur ≤ s.input.length →
    ((s.input.drop s.cur).take 8 = [0x89, 0x50, 0x4E, 0x47, 0x0D, 0x0A, 0x1A, 0x0A] →
      exec .sig s = .next { s with cur := s.cur + 8, pstate := .expectHeader }) ∧
    (s.input.length < s.cur + 8 → Raises (exec .sig s) .truncatedInput) ∧
    (s.cur + 8 ≤ s.input.length →
      (s.input.drop s.cur).take 8 ≠ [0x89, 0x50, 0x4E, 0x47, 0x0D, 0x0A, 0x1A, 0x0A] →
      Raises (exec .sig s) .invalidSignature)

/-- O15. Reading a chunk record (R170) and the first chunk (R165): a complete record with the right CRC runs the element its
type selects, in the state with the record read, and `MissingHeader` where the header is expected and the type is another; a
wrong CRC is `ChunkCorrupt` whatever the type; a record that is not complete is `TruncatedInput`. -/
def Obligations.ChunkRecord : Prop :=
  ∀ s : State, Quiet s → s.phase = .container → s.pstate = .readingChunks ∨ s.pstate = .expectHeader →
    s.cur ≤ s.input.length →
    (∀ (len type : Word) (pay : List Byte) (crc : Word), RecordAt s len type pay crc →
      (crc ≠ crc32 (bytesBE 4 type.toNat ++ pay) → Raises (step s) .chunkCorrupt) ∧
      (crc = crc32 (bytesBE 4 type.toNat ++ pay) →
        (s.pstate = .expectHeader → type ≠ 0x49484452 → Raises (step s) .missingHeader) ∧
        (s.pstate = .readingChunks ∨ type = 0x49484452 →
          ∀ i, decode .chunk type.toNat = .ok i → step s = exec i (afterRecord s len type pay crc)))) ∧
    (∀ len : Word, (∃ rest, s.input.drop s.cur = bytesBE 4 len.toNat ++ rest) →
      s.input.length < s.cur + 12 + len.toNat → Raises (step s) .truncatedInput) ∧
    (s.input.length < s.cur + 12 → Raises (step s) .truncatedInput)

/-- O16. The header chunk (R166): the five checks in the rule's order (R386), then the header registers; the product of width
and height is exact. -/
def Obligations.HeaderChunk : Prop :=
  ∀ s : State, s.pstate = .expectHeader →
    (s.ckLen ≠ 13 → Raises (exec .ihdr s) .malformedChunk) ∧
    (∀ (w h : Word) (d c cm fm il : Byte), s.ckLen = 13 →
      s.ckPay = bytesBE 4 w.toNat ++ bytesBE 4 h.toNat ++ [d, c, cm, fm, il] →
      (w = 0 ∨ h = 0 → Raises (exec .ihdr s) .malformedChunk) ∧
      (w ≠ 0 → h ≠ 0 →
        ((d, c) ∉ legalPairTable → Raises (exec .ihdr s) .unsupportedFormat) ∧
        ((d, c) ∈ legalPairTable →
          (¬ (cm = 0 ∧ fm = 0 ∧ il ≤ 1) → Raises (exec .ihdr s) .unsupportedFormat) ∧
          (cm = 0 ∧ fm = 0 ∧ il ≤ 1 →
            (s.cfgMaxPixels < w.toNat * h.toNat → Raises (exec .ihdr s) .imageTooLarge) ∧
            (w.toNat * h.toNat ≤ s.cfgMaxPixels →
              exec .ihdr s = .next { s with
                ihWidth := w
                ihHeight := h
                ihDepth := d
                ihCtype := c
                ihIlace := decide (il = 1)
                pstate := .readingChunks })))))

/-- O17. The palette chunk (R173): its checks in the rule's order, then the entries; entries beyond the palette keep their
values. -/
def Obligations.PaletteChunk : Prop :=
  ∀ s : State, s.ckPay.length = s.ckLen.toNat →
    (s.seenIdat = true ∨ s.ihCtype ≠ 3 ∨ s.havePlte = true → Raises (exec .plte s) .invalidChunkOrder) ∧
    (s.seenIdat = false → s.ihCtype = 3 → s.havePlte = false →
      (s.ckLen = 0 ∨ s.ckLen.toNat % 3 ≠ 0 ∨ 768 < s.ckLen.toNat → Raises (exec .plte s) .malformedChunk) ∧
      (s.ckLen ≠ 0 → s.ckLen.toNat % 3 = 0 → s.ckLen.toNat ≤ 768 → ∃ n table,
        exec .plte s = .next { s with pltN := n, plt := table, havePlte := true } ∧
        n.toNat = s.ckLen.toNat / 3 ∧
        (∀ i, i < n.toNat → table[i]? =
          some ⟨s.ckPay.getD (3 * i) 0, s.ckPay.getD (3 * i + 1) 0, s.ckPay.getD (3 * i + 2) 0⟩) ∧
        ∀ i, n.toNat ≤ i → table[i]? = s.plt[i]?))

/-- O18. The transparency chunk (R175): the position checks, the colour types with alpha, and for each other colour type the
size check and the table it writes, in the rule's order; a colour type the rule names nowhere (no header has one) writes the
flag only. -/
def Obligations.TransparencyChunk : Prop :=
  ∀ s : State, s.ckPay.length = s.ckLen.toNat →
    (s.seenIdat = true ∨ s.haveTrns = true ∨ (s.ihCtype = 3 ∧ s.havePlte = false) →
      Raises (exec .trns s) .invalidChunkOrder) ∧
    (s.seenIdat = false → s.haveTrns = false → ¬ (s.ihCtype = 3 ∧ s.havePlte = false) →
      (s.ihCtype = 4 ∨ s.ihCtype = 6 → Raises (exec .trns s) .malformedChunk) ∧
      (s.ihCtype = 0 →
        (s.ckLen ≠ 2 → Raises (exec .trns s) .malformedChunk) ∧
        (∀ b0 b1, s.ckPay = [b0, b1] → s.ckLen = 2 →
          exec .trns s = .next { s with trnsKey := { s.trnsKey with k0 := b0 ++ b1 }, haveTrns := true })) ∧
      (s.ihCtype = 2 →
        (s.ckLen ≠ 6 → Raises (exec .trns s) .malformedChunk) ∧
        (∀ b0 b1 b2 b3 b4 b5, s.ckPay = [b0, b1, b2, b3, b4, b5] → s.ckLen = 6 →
          exec .trns s = .next { s with trnsKey := ⟨b0 ++ b1, b2 ++ b3, b4 ++ b5⟩, haveTrns := true })) ∧
      (s.ihCtype ∉ [0, 2, 3, 4, 6] → exec .trns s = .next { s with haveTrns := true }) ∧
      (s.ihCtype = 3 → s.pltN.toNat ≤ 256 →
        (s.pltN.toNat < s.ckLen.toNat → Raises (exec .trns s) .malformedChunk) ∧
        (s.ckLen.toNat ≤ s.pltN.toNat → ∃ n table,
          exec .trns s = .next { s with trnsN := n, trnsA := table, haveTrns := true } ∧
          n.toNat = s.ckLen.toNat ∧ (∀ i, i < n.toNat → table[i]? = s.ckPay[i]?) ∧
          ∀ i, n.toNat ≤ i → table[i]? = s.trnsA[i]?)))

/-- O19. The image-data chunk (R177): the two order checks, then its payload at the end of `ZBUF`. -/
def Obligations.ImageDataChunk : Prop :=
  ∀ s : State, s.ckPay.length = s.ckLen.toNat →
    (s.idatClosed = true ∨ (s.ihCtype = 3 ∧ s.havePlte = false) → Raises (exec .idat s) .invalidChunkOrder) ∧
    (s.idatClosed = false → ¬ (s.ihCtype = 3 ∧ s.havePlte = false) →
      exec .idat s = .next { s with zbuf := s.zbuf ++ s.ckPay, seenIdat := true })

/-- O20. The remaining chunks: a second header (R172), the end chunk (R180), unknown chunks: every type but the five known ones
is of the class bit 29 of the type tells, skipped or a fault (R181); the ones that complete close a run of image data (R171). -/
def Obligations.OtherChunks : Prop :=
  (∀ s : State, s.pstate = .readingChunks → Raises (exec .ihdr s) .invalidChunkOrder) ∧
  (∀ s : State, s.ckLen ≠ 0 → Raises (exec .iend s) .malformedChunk) ∧
  (∀ s : State, s.ckLen = 0 →
    exec .iend s = .next { s with idatClosed := s.idatClosed || s.seenIdat, pstate := .done }) ∧
  (∀ (t : Word) (s : State), exec (.anc t) s = .next { s with idatClosed := s.idatClosed || s.seenIdat }) ∧
  (∀ (t : Word) (s : State), Raises (exec (.crit t) s) .unsupportedCriticalChunk) ∧
  ∀ t : Word, t ∉ [0x49484452, 0x504C5445, 0x74524E53, 0x49444154, 0x49454E44] →
    decode .chunk t.toNat = .ok (if t.getLsbD 29 = true then .anc t else .crit t)

/-- O21. After the end chunk (R183, R363): a single further byte is `TrailingData`; at the end of the input phase INFLATE is
entered at bit 0. -/
def Obligations.EndOfContainer : Prop :=
  ∀ s : State, Quiet s → s.phase = .container → s.pstate = .done →
    (s.cur ≠ s.input.length → Raises (step s) .trailingData) ∧
    (s.cur = s.input.length → step s = .next { s with phase := .inflate, bp := 0, istage := .zhdr })

/-! ### Zlib wrapper and blocks -/

/-- O22. `ZHDR` (R214): the two bytes must be present; then the four requirements; then the first block follows. -/
def Obligations.ZlibHeader : Prop :=
  ∀ s : State,
    (s.bp ≤ 8 * s.zbuf.length → 8 * s.zbuf.length < s.bp + 16 → Raises (exec .zhdr s) .truncatedCompressedData) ∧
    (∀ cmf flg, FieldAt s.zbuf s.bp 8 cmf → FieldAt s.zbuf (s.bp + 8) 8 flg →
      (cmf % 16 = 8 ∧ cmf / 16 ≤ 7 ∧ (cmf * 256 + flg) % 31 = 0 ∧ flg.testBit 5 = false →
        exec .zhdr s = .next { s with bp := s.bp + 16, istage := .block }) ∧
      (¬ (cmf % 16 = 8 ∧ cmf / 16 ≤ 7 ∧ (cmf * 256 + flg) % 31 = 0 ∧ flg.testBit 5 = false) →
        Raises (exec .zhdr s) .invalidCompressedData))

/-- O23. `ZTRL` (R215, R216): at the next byte boundary, the four bytes must be present in either configuration; they are
compared, big-endian, with the Adler-32 of the output only if verification is on. -/
def Obligations.ZlibTrailer : Prop :=
  ∀ (s : State) (p : Nat), p % 8 = 0 → s.bp ≤ p → p < s.bp + 8 →
    (s.bp ≤ 8 * s.zbuf.length → 8 * s.zbuf.length < p + 32 → Raises (exec .ztrl s) .truncatedCompressedData) ∧
    (∀ b0 b1 b2 b3, FieldAt s.zbuf p 8 b0 → FieldAt s.zbuf (p + 8) 8 b1 → FieldAt s.zbuf (p + 16) 8 b2 →
      FieldAt s.zbuf (p + 24) 8 b3 →
      (s.cfgVerifyAdler = false ∨
          b0 * 2 ^ 24 + b1 * 2 ^ 16 + b2 * 2 ^ 8 + b3 = s.adlerB.toNat * 65536 + s.adlerA.toNat →
        exec .ztrl s = .next { s with bp := p + 32, istage := .finished }) ∧
      (s.cfgVerifyAdler = true →
          b0 * 2 ^ 24 + b1 * 2 ^ 16 + b2 * 2 ^ 8 + b3 ≠ s.adlerB.toNat * 65536 + s.adlerA.toNat →
        Raises (exec .ztrl s) .decompressionChecksumError))

/-- O24. `BLK.STORED` (R233, R234): from the next byte boundary `LEN` and `NLEN`, their complement check, then `LEN` bytes
appended to `OBUF`, each in the Adler-32; missing bytes raise `TruncatedCompressedData`. -/
def Obligations.StoredBlock : Prop :=
  ∀ (s : State) (final : Bool) (p : Nat), p % 8 = 0 → s.bp ≤ p → p < s.bp + 8 →
    (s.bp ≤ 8 * s.zbuf.length → 8 * s.zbuf.length < p + 32 →
      Raises (exec (.blkStored final) s) .truncatedCompressedData) ∧
    (∀ len nlen, FieldAt s.zbuf p 16 len → FieldAt s.zbuf (p + 16) 16 nlen →
      (len ^^^ nlen ≠ 0xFFFF → Raises (exec (.blkStored final) s) .invalidCompressedData) ∧
      (len ^^^ nlen = 0xFFFF → 8 * s.zbuf.length < p + 32 + 8 * len →
        Raises (exec (.blkStored final) s) .truncatedCompressedData) ∧
      (len ^^^ nlen = 0xFFFF → ∀ data rest, data.length = len → s.zbuf.drop (p / 8 + 4) = data ++ rest →
        exec (.blkStored final) s = .next { s with
          bp := p + 32 + 8 * len
          bfinal := final
          btype := 0
          obuf := s.obuf ++ data
          adlerA := (data.foldl (fun ab b => adlerByte ab.1 ab.2 b) (s.adlerA, s.adlerB)).1
          adlerB := (data.foldl (fun ab b => adlerByte ab.1 ab.2 b) (s.adlerA, s.adlerB)).2
          istage := if final then .trailer else .block }))

/-- O25. `BLK.FIXED` (R235): no bits are read; every entry of the two length files is the rule's; both codes are complete. The
code-length file is rewritten too (R245), 19 entries of at most 7 that depend on nothing but the model's counter of free
values: that they are a free value is the model's choice (log entry 17). -/
def Obligations.FixedBlock : Prop :=
  ∃ cl : Nat → List CodeLen, (∀ n, (cl n).length = 19 ∧ ∀ len ∈ cl n, len.toNat ≤ 7) ∧
  ∀ (s : State) (final : Bool), ∃ ll d,
    exec (.blkFixed final) s =
      .next { s with
        bfinal := final
        btype := 1
        llLen := ll
        dLen := d
        clLen := cl s.freeCount
        freeCount := s.freeCount + 1
        istage := .huffman } ∧
    ll.length = 288 ∧ d.length = 32 ∧
    (∀ sym, sym < 144 → ll[sym]? = some 8) ∧ (∀ sym, 144 ≤ sym → sym < 256 → ll[sym]? = some 9) ∧
    (∀ sym, 256 ≤ sym → sym < 280 → ll[sym]? = some 7) ∧ (∀ sym, 280 ≤ sym → sym < 288 → ll[sym]? = some 8) ∧
    (∀ sym, sym < 32 → d[sym]? = some 5) ∧ kraftSum ll = 2 ^ 15 ∧ kraftSum d = 2 ^ 15

/-- O26. `BLK.DYN`, counts and code-length code (R236, R237): the three counts, `HLIT` above 286 rejected, the 3-bit lengths in
the rule's order with all others 0, `checkCode`; missing bits raise `TruncatedCompressedData`; the code-length sequence follows
from the empty list. -/
def Obligations.DynamicHeader : Prop :=
  (∀ (s : State) (final : Bool), s.bp ≤ 8 * s.zbuf.length → 8 * s.zbuf.length < s.bp + 14 →
    Raises (exec (.blkDyn final) s) .truncatedCompressedData) ∧
  ∀ (s : State) (final : Bool) (hl hd hc : Nat), FieldAt s.zbuf s.bp 5 hl → FieldAt s.zbuf (s.bp + 5) 5 hd →
    FieldAt s.zbuf (s.bp + 10) 4 hc →
    (286 < hl + 257 → Raises (exec (.blkDyn final) s) .invalidCompressedData) ∧
    (hl + 257 ≤ 286 →
      (s.bp + 14 ≤ 8 * s.zbuf.length → 8 * s.zbuf.length < s.bp + 14 + 3 * (hc + 4) →
        Raises (exec (.blkDyn final) s) .truncatedCompressedData) ∧
      (∀ (cl : List CodeLen), cl.length = 19 →
        (∀ i, i < hc + 4 →
          FieldAt s.zbuf (s.bp + 14 + 3 * i) 3
            (cl.getD ([16, 17, 18, 0, 8, 7, 9, 6, 10, 5, 11, 4, 12, 3, 13, 2, 14, 1, 15].getD i 0) 0).toNat) →
        (∀ i, hc + 4 ≤ i → i < 19 →
          cl.getD ([16, 17, 18, 0, 8, 7, 9, 6, 10, 5, 11, 4, 12, 3, 13, 2, 14, 1, 15].getD i 0) 0 = 0) →
        (¬ CodeAccepted cl .cl → Raises (exec (.blkDyn final) s) .invalidCompressedData) ∧
        (CodeAccepted cl .cl →
          exec (.blkDyn final) s = .next { s with
            bp := s.bp + 14 + 3 * (hc + 4)
            bfinal := final
            btype := 2
            hlit := hl + 257
            hdist := hd + 1
            hclen := hc + 4
            clLen := cl
            clSeq := []
            istage := .codeLengths })))

/-- O27. `BLK.DYN`, installing the codes when the sequence is complete (R240): every entry of both files is written, entries
beyond the counts with 0; the three checks; then the data. -/
def Obligations.InstallCodes : Prop :=
  ∀ (s : State) (ll d : List CodeLen), Quiet s → s.phase = .inflate → s.istage = .codeLengths →
    s.hlit ≤ 288 → s.hdist ≤ 32 → s.clSeq.length = s.hlit + s.hdist →
    ll.length = 288 → d.length = 32 →
    (∀ sym, sym < 288 → ll[sym]? = some (if sym < s.hlit then s.clSeq.getD sym 0 else 0)) →
    (∀ sym, sym < 32 → d[sym]? = some (if sym < s.hdist then s.clSeq.getD (s.hlit + sym) 0 else 0)) →
    (ll.getD 256 0 = 0 ∨ ¬ CodeAccepted ll .ll ∨ ¬ CodeAccepted d .d → Raises (step s) .invalidCompressedData) ∧
    (ll.getD 256 0 ≠ 0 → CodeAccepted ll .ll → CodeAccepted d .d →
      step s = .next { s with llLen := ll, dLen := d, istage := .huffman })

/-- O28. The reserved elements raise their fault in every state: block type 3 (R232), symbols 286 and 287 (R265), distance
symbols 30 and 31 (R268), filter types 5 to 255 (R302). -/
def Obligations.ReservedElements : Prop :=
  ∀ s : State,
    (∀ final, Raises (exec (.blkRsvd final) s) .invalidCompressedData) ∧
    Raises (exec .ll286 s) .invalidCompressedData ∧ Raises (exec .ll287 s) .invalidCompressedData ∧
    Raises (exec .dist30 s) .invalidCompressedData ∧ Raises (exec .dist31 s) .invalidCompressedData ∧
    (∀ ft, Raises (exec (.filtRsvd ft) s) .invalidFilterType)

/-! ### Symbols -/

/-- O29. The code-length symbols (R270 to R273): one length; a repeat of the last one, with the emptiness test first; runs of
zeros; a run that would pass `HLIT + HDIST` is rejected after its extra bits; missing extra bits raise
`TruncatedCompressedData`. -/
def Obligations.CodeLengthSymbols : Prop :=
  (∀ (v : CodeLen) (s : State), exec (.clLen v) s = .next { s with clSeq := s.clSeq ++ [v] }) ∧
  (∀ s : State, s.clSeq = [] → Raises (exec .clRep s) .invalidCompressedData) ∧
  (∀ (s : State) (sofar : List CodeLen) (last : CodeLen) (e : Nat), s.clSeq = sofar ++ [last] →
    FieldAt s.zbuf s.bp 2 e →
    (s.clSeq.length + (3 + e) ≤ s.hlit + s.hdist →
      exec .clRep s = .next { s with bp := s.bp + 2, clSeq := s.clSeq ++ List.replicate (3 + e) last }) ∧
    (s.hlit + s.hdist < s.clSeq.length + (3 + e) → Raises (exec .clRep s) .invalidCompressedData)) ∧
  (∀ s : State, s.clSeq ≠ [] → s.bp ≤ 8 * s.zbuf.length → 8 * s.zbuf.length < s.bp + 2 →
    Raises (exec .clRep s) .truncatedCompressedData) ∧
  (∀ row ∈ zeroRunTable, ∀ s : State, s.bp ≤ 8 * s.zbuf.length → 8 * s.zbuf.length < s.bp + row.2.1 →
    Raises (exec row.1 s) .truncatedCompressedData) ∧
  (∀ row ∈ zeroRunTable, ∀ (s : State) (e : Nat), FieldAt s.zbuf s.bp row.2.1 e →
    (s.clSeq.length + (row.2.2 + e) ≤ s.hlit + s.hdist →
      exec row.1 s = .next { s with
        bp := s.bp + row.2.1
        clSeq := s.clSeq ++ List.replicate (row.2.2 + e) 0 }) ∧
    (s.hlit + s.hdist < s.clSeq.length + (row.2.2 + e) → Raises (exec row.1 s) .invalidCompressedData))

/-- O30. Literals (R262) and `emit` (R261) append one byte, in the Adler-32 of R212; `EOB` (R263) ends the block and emits
nothing. -/
def Obligations.LiteralsAndEndOfBlock : Prop :=
  (∀ (b : Byte) (s : State), ∃ a' b',
    a'.toNat = (s.adlerA.toNat + b.toNat) % 65521 ∧ b'.toNat = (s.adlerB.toNat + a'.toNat) % 65521 ∧
    exec (.lit b) s = .next { s with obuf := s.obuf ++ [b], adlerA := a', adlerB := b' } ∧
    exec (.emit b) s = .next { s with obuf := s.obuf ++ [b], adlerA := a', adlerB := b' }) ∧
  (∀ s : State, exec .eob s = .next { s with istage := if s.bfinal then .trailer else .block })

/-- O31. The length symbols (R264): for every row of the table, the length is the base plus the extra bits; a distance symbol
follows; missing extra bits raise `TruncatedCompressedData`. -/
def Obligations.LengthSymbols : Prop :=
  ∀ row ∈ lengthTable, ∀ s : State,
    (∀ e, FieldAt s.zbuf s.bp row.2.1 e →
      exec row.1 s = .next { s with bp := s.bp + row.2.1, mlen := row.2.2 + e, istage := .distance }) ∧
    (s.bp ≤ 8 * s.zbuf.length → 8 * s.zbuf.length < s.bp + row.2.1 →
      Raises (exec row.1 s) .truncatedCompressedData)

/-- O32. The distance symbols and the copy (R266, R267, R441): for every row of the table, a distance beyond the output raises
`InvalidBackReference`; with the distance inside the output, `OBUF` grows by the length; each new byte equals the one `dist`
before it, also where the copy reads its own bytes; the old bytes stay; the Adler-32 takes in the new bytes; nothing else
changes but the bit cursor. -/
def Obligations.DistanceSymbols : Prop :=
  ∀ row ∈ distanceTable, ∀ (s : State) (e : Nat), FieldAt s.zbuf s.bp row.2.1 e →
    (s.obuf.length < row.2.2 + e → Raises (exec row.1 s) .invalidBackReference) ∧
    (row.2.2 + e ≤ s.obuf.length → ∃ new,
      exec row.1 s = .next { s with
        bp := s.bp + row.2.1
        obuf := s.obuf ++ new
        adlerA := (new.foldl (fun ab b => adlerByte ab.1 ab.2 b) (s.adlerA, s.adlerB)).1
        adlerB := (new.foldl (fun ab b => adlerByte ab.1 ab.2 b) (s.adlerA, s.adlerB)).2
        istage := .huffman } ∧
      new.length = s.mlen ∧
      ∀ k, k < s.mlen → (s.obuf ++ new)[s.obuf.length + k]? = (s.obuf ++ new)[s.obuf.length + k - (row.2.2 + e)]?)

/-- O33. Back-references that fault (R269): a distance beyond the output so far, where nothing has been emitted every distance;
missing extra bits and an illegal distance symbol are reported first, whatever the output. -/
def Obligations.BackReferenceFaults : Prop :=
  (∀ row ∈ distanceTable, ∀ s : State,
    (∀ e, FieldAt s.zbuf s.bp row.2.1 e → s.obuf.length < row.2.2 + e ∨ s.obuf = [] →
      Raises (exec row.1 s) .invalidBackReference) ∧
    (s.bp ≤ 8 * s.zbuf.length → 8 * s.zbuf.length < s.bp + row.2.1 →
      Raises (exec row.1 s) .truncatedCompressedData)) ∧
  ∀ s : State, Raises (exec .dist30 s) .invalidCompressedData ∧ Raises (exec .dist31 s) .invalidCompressedData

/-! ### Rows and passes -/

/-- O34. The five filters (R297 to R301) on the row fetched from `OBUF` (R296), byte by byte by the definitions of R306. -/
def Obligations.FilterRows : Prop :=
  ∀ row ∈ filterTable, ∀ (s : State) (bits rb : Nat), bitspp s = some bits →
    rb = (s.passW.toNat * bits + 7) / 8 → s.rpos + rb ≤ s.obuf.length → s.prev.length = rb → ∃ cur,
    exec row.1 s = .next { s with
      ft := BitVec.ofNat 8 row.2
      rpos := s.rpos + rb
      currow := cur
      col := 0
      rstage := .pixel } ∧
    cur.length = rb ∧
    ∀ k, k < rb → rowByte cur k =
      filterSpec row.2 (rowByte s.obuf (s.rpos + k))
        (if max 1 (bits / 8) ≤ k then rowByte cur (k - max 1 (bits / 8)) else 0)
        (rowByte s.prev k)
        (if max 1 (bits / 8) ≤ k then rowByte s.prev (k - max 1 (bits / 8)) else 0)

/-- O35. The pass elements (R292, R295): the size of the pass from the table of R121; an empty pass is skipped; a pass that is
not empty starts with the zero row above its first row. `CURROW` has the entries of the new pass too (R40), bytes that depend on
nothing but the model's counter of free values: that they are a free value is the model's choice (log entry 18). -/
def Obligations.PassElements : Prop :=
  ∃ cr : Nat → Nat → List Byte, (∀ n len, (cr n len).length = len) ∧
  ∀ row ∈ passTable, ∀ (s : State) (bits pw ph : Nat), bitspp s = some bits →
    pw = passSpan s.ihWidth.toNat row.2.2.1 row.2.2.2.2.1 →
    ph = passSpan s.ihHeight.toNat row.2.2.2.1 row.2.2.2.2.2 →
    (pw ≠ 0 → ph ≠ 0 →
      exec row.1 s = .next { s with
        pass := BitVec.ofNat 3 row.2.1.val
        passW := BitVec.ofNat 32 pw
        passH := BitVec.ofNat 32 ph
        prev := List.replicate ((pw * bits + 7) / 8) 0
        currow := cr s.freeCount ((pw * bits + 7) / 8)
        freeCount := s.freeCount + 1
        row := 0
        rstage := .row } ∧ pw < 2 ^ 32 ∧ ph < 2 ^ 32) ∧
    (pw = 0 ∨ ph = 0 →
      exec row.1 s = .next { s with
        rstage := if row.2.1 = 0 ∨ row.2.1 = 7 then .finished else .pass (row.2.1 + 1) })

/-- O36. The passes of either interlace method cover every pixel of the image exactly once (R304, R365): every column and row
of the image is that of exactly one pixel of exactly one pass. -/
def Obligations.PassesCoverImage : Prop :=
  ∀ (s : State) (x y : Nat), x < s.ihWidth.toNat → y < s.ihHeight.toNat →
    ∃ (p : Fin 8) (i j : Nat), (p ∈ passSteps s ∧ i < passWidth p s ∧ j < passHeight p s ∧
        (passParams p).x0 + i * (passParams p).dx = x ∧ (passParams p).y0 + j * (passParams p).dy = y) ∧
      ∀ (p' : Fin 8) (i' j' : Nat), p' ∈ passSteps s → i' < passWidth p' s → j' < passHeight p' s →
        (passParams p').x0 + i' * (passParams p').dx = x → (passParams p').y0 + j' * (passParams p').dy = y →
        p' = p ∧ i' = i ∧ j' = j

/-- O37. Entering RECON (R294, R364): the required length, the sum of R293 over the passes that are not empty, is compared
once; then `FRAME` is allocated with all bytes 0 and the first pass follows. -/
def Obligations.EnterRecon : Prop :=
  ∀ (s : State) (bits need : Nat), Quiet s → s.phase = .inflate → s.istage = .finished → bitspp s = some bits →
    need = ((if s.ihIlace then [1, 2, 3, 4, 5, 6, 7] else [0]).map fun p : Fin 8 =>
      if passWidth p s = 0 ∨ passHeight p s = 0 then 0
      else passHeight p s * (1 + (passWidth p s * bits + 7) / 8)).sum →
    (s.obuf.length < need → Raises (step s) .truncatedPixelData) ∧
    (need ≤ s.obuf.length → ∃ frame,
      step s = .next { s with
        phase := .recon
        rpos := 0
        frame := frame
        rstage := .pass (if s.ihIlace then 1 else 0) } ∧
      frame.size = s.ihWidth.toNat * s.ihHeight.toNat * 4 ∧ ∀ a, a < frame.size → frame.read a = some 0)

/-- O38. The steps between rows, between passes and at the end: after the last pixel of a row `PREV` takes the reconstructed row
(R303); after the last row of a pass the next pass of the sequence is next, or the end after pass 0 or 7, and nothing else
changes (R304, R290); after the last pass the frame is committed to the host (R365) and `IN` is given back
(R367). That the intermediate buffers stand after commit, and that `ROW` is `PASS_H` after the last row of a pass, are the
model's choices (log entries 6, 19). -/
def Obligations.RowEndAndCommit : Prop :=
  (∀ s : State, Quiet s → s.phase = .recon → s.rstage = .pixel → s.passW.toNat ≤ s.col →
    step s = .next { s with prev := s.currow, row := s.row + 1, rstage := .row }) ∧
  (∀ s : State, Quiet s → s.phase = .recon → s.rstage = .row → s.passH.toNat ≤ s.row.toNat →
    step s = .next { s with
      rstage := if s.pass = 0 ∨ s.pass = 7 then .finished else .pass (currentPass s + 1) }) ∧
  (∀ s : State, Quiet s → s.phase = .recon → s.rstage = .finished →
    step s = .next { s with
      outW := s.ihWidth
      outH := s.ihHeight
      out := s.frame
      outValid := true
      input := []
      phase := .done })

/-! ### Pixels -/

/-- O39. Sample extraction (R321): at every depth, sample `n` of the row is the `d` bits from bit `n * d` on, most significant
first, and extracting it changes nothing. -/
def Obligations.SampleBits : Prop :=
  ∀ d ∈ [1, 2, 4, 8, 16], ∀ (n : Nat) (s : State), (n + 1) * d ≤ 8 * s.currow.length →
    sample d n s = .ok (sampleSpec d n s.currow) s

/-- O40. The five grayscale conversions (R325 to R329) with the alpha rule (R331) and the pixel write (R340). -/
def Obligations.GrayPixels : Prop :=
  ∀ row ∈ grayTable, ∀ s : State, PixelReady row.2 1 s → ∃ t, exec row.1 s = .next t ∧
    PixelWritten s t
      (scaleSpec (sampleSpec row.2 s.col s.currow) row.2)
      (scaleSpec (sampleSpec row.2 s.col s.currow) row.2)
      (scaleSpec (sampleSpec row.2 s.col s.currow) row.2)
      (if s.haveTrns = true ∧ sampleSpec row.2 s.col s.currow = s.trnsKey.k0.toNat then 0 else 255)

/-- O41. The two truecolour conversions (R332, R334) with the alpha rule (R333) and the pixel write (R340). -/
def Obligations.RgbPixels : Prop :=
  ∀ row ∈ rgbTable, ∀ s : State, PixelReady row.2 3 s → ∃ t, exec row.1 s = .next t ∧
    PixelWritten s t
      (scaleSpec (sampleSpec row.2 (3 * s.col) s.currow) row.2)
      (scaleSpec (sampleSpec row.2 (3 * s.col + 1) s.currow) row.2)
      (scaleSpec (sampleSpec row.2 (3 * s.col + 2) s.currow) row.2)
      (if s.haveTrns = true ∧ sampleSpec row.2 (3 * s.col) s.currow = s.trnsKey.k0.toNat ∧
          sampleSpec row.2 (3 * s.col + 1) s.currow = s.trnsKey.k1.toNat ∧
          sampleSpec row.2 (3 * s.col + 2) s.currow = s.trnsKey.k2.toNat then 0 else 255)

/-- O42. The four palette conversions (R336 to R339): the lookup of R335 with its fault, raised before the pixel is written,
and the pixel write (R340). -/
def Obligations.PalettePixels : Prop :=
  ∀ row ∈ paletteTable, ∀ (s : State) (i : Nat), PixelReady row.2 1 s → i = sampleSpec row.2 s.col s.currow →
    (s.pltN.toNat ≤ i → Raises (exec row.1 s) .paletteIndexOutOfRange) ∧
    (∀ (c : Rgb) (alpha : Byte), i < s.pltN.toNat → s.plt[i]? = some c →
      (i < s.trnsN.toNat → s.trnsA[i]? = some alpha) → (s.trnsN.toNat ≤ i → alpha = 255) →
      ∃ t, exec row.1 s = .next t ∧ PixelWritten s t c.r.toNat c.g.toNat c.b.toNat alpha.toNat)

/-- O43. The four conversions with an alpha channel (R341 to R344) with the pixel write (R340). -/
def Obligations.AlphaPixels : Prop :=
  (∀ row ∈ grayAlphaTable, ∀ s : State, PixelReady row.2 2 s → ∃ t, exec row.1 s = .next t ∧
    PixelWritten s t
      (scaleSpec (sampleSpec row.2 (2 * s.col) s.currow) row.2)
      (scaleSpec (sampleSpec row.2 (2 * s.col) s.currow) row.2)
      (scaleSpec (sampleSpec row.2 (2 * s.col) s.currow) row.2)
      (scaleSpec (sampleSpec row.2 (2 * s.col + 1) s.currow) row.2)) ∧
  (∀ row ∈ rgbaTable, ∀ s : State, PixelReady row.2 4 s → ∃ t, exec row.1 s = .next t ∧
    PixelWritten s t
      (scaleSpec (sampleSpec row.2 (4 * s.col) s.currow) row.2)
      (scaleSpec (sampleSpec row.2 (4 * s.col + 1) s.currow) row.2)
      (scaleSpec (sampleSpec row.2 (4 * s.col + 2) s.currow) row.2)
      (scaleSpec (sampleSpec row.2 (4 * s.col + 3) s.currow) row.2))

/-! ### Host control, reset, faults -/

/-- O44. `DECODE` (R361): where no decode runs and `MAX_PIXELS` is in range, the start step, with the arguments sampled, every
value of the reset table and phase CONTAINER; with `MAX_PIXELS` out of range a model refuses the command. -/
def Obligations.DecodeStart : Prop :=
  ∀ (stream : List Byte) (maxPixels : Nat) (verify : Bool) (s : State), ¬ Running s →
    (1 ≤ maxPixels → maxPixels < 2 ^ 30 → ∃ t, exec (.decode stream maxPixels verify) s = .next t ∧
      t.phase = .container ∧ t.input = stream ∧ t.cfgMaxPixels = maxPixels ∧ t.cfgVerifyAdler = verify ∧ ResetValues t) ∧
    (¬ (1 ≤ maxPixels ∧ maxPixels < 2 ^ 30) →
      exec (.decode stream maxPixels verify) s = .refused .maxPixelsOutOfRange)

/-- O45. Nothing is carried over (R431), and what the model keeps (log entries 2, 3, 5, 11): whatever two states of one instance a
command finds, the states it starts in agree in every register and memory, and in all but the counter of free values; a command while a decode runs is refused (the treatment of 93_implementation_defined.md I9); reset gives the one
state after reset, with the command at the port and the counter kept. -/
def Obligations.NothingCarriedOver : Prop :=
  (∀ (stream : List Byte) (maxPixels : Nat) (verify : Bool) (s s' : State), ¬ Running s → ¬ Running s' →
    s.cmd = s'.cmd → s.resetLine = s'.resetLine →
    SameOutcome SameButCounter (exec (.decode stream maxPixels verify) s) (exec (.decode stream maxPixels verify) s')) ∧
  (∀ (stream : List Byte) (maxPixels : Nat) (verify : Bool) (s : State), Running s →
    exec (.decode stream maxPixels verify) s = .refused .decodeWhileRunning) ∧
  (∀ s : State, s.resetLine = true →
    step s = .next { State.reset with cmd := s.cmd, freeCount := s.freeCount })

/-- O46. Hardware reset (R430): at any time, also in the middle of a decode, the next step gives every register and memory its
value of the reset table, phase IDLE and no fault; so does `State.reset`. -/
def Obligations.HardwareReset : Prop :=
  (∀ s : State, s.resetLine = true → ∃ t, step s = .next t ∧ t.phase = .idle ∧ faultCode t = 0 ∧ ResetValues t) ∧
  State.reset.phase = .idle ∧ faultCode State.reset = 0 ∧ ResetValues State.reset

/-- O47. Fault entry (R390, R391): whichever element or sequencing step leads into FAULTED, the host then reads a fault kind
and an empty, invalid output, `IN` is given back (R367), and `FRAME` and the intermediate buffers are empty (their being
empty, not only unobservable, is the model's choice, log entry 6). -/
def Obligations.FaultEntry : Prop :=
  ∀ s t : State, s.phase ≠ .faulted → step s = .next t → t.phase = .faulted →
    (∃ k, Faulted k t) ∧ 1 ≤ (faultCode t).toNat ∧ (faultCode t).toNat ≤ 17 ∧ t.frame = Memory.empty ∧
    t.zbuf = [] ∧ t.obuf = [] ∧ t.prev = [] ∧ t.currow = [] ∧ t.ckPay = [] ∧ t.input = []

/-- O48. Where no decode runs the block executes nothing (R432, R393): with no command and no reset the state stays as it is;
the only ways out of FAULTED and DONE are a command and reset. That the dead buffers too stand there is the model's choice (log
entry 6). -/
def Obligations.WaitsForDecode : Prop :=
  ∀ s : State, Quiet s → ¬ Running s → step s = .next s

/-- O49. Phase sequence (R362): on its own the block only stays in its phase, goes on to the next one in the order CONTAINER,
INFLATE, RECON, DONE, or ends in FAULTED. -/
def Obligations.PhaseSequence : Prop :=
  ∀ s t : State, Quiet s → step s = .next t →
    t.phase = s.phase ∨ t.phase = phaseAfter s.phase ∨ (Running s ∧ t.phase = .faulted)

/-- O50. Each fault kind is raised in one phase only (R380): in the phase the table gives it; `TruncatedPixelData` on the entry
to RECON. -/
def Obligations.FaultKindsByPhase : Prop :=
  ∀ (s t : State) (k : FaultKind), Quiet s → s.phase ≠ .faulted → step s = .next t → t.phase = .faulted →
    t.faultKind = some k →
    (phaseOfKind k = s.phase ∧ k ≠ .truncatedPixelData) ∨
      (k = .truncatedPixelData ∧ s.phase = .inflate ∧ s.istage = .finished)

/-- O51. No behaviour depends on an unspecified value. Two states that differ in `FAULT_OFFSET` only step to outcomes that
differ in it only (R392). And so for all the model leaves free (log entries 5, 17, 18): two states that differ in it, in the
counter of free values, in the `CL_LEN` that no code-length sequence is reading (R245) and in the `CURROW` that no row
conversion is reading (R40), step to outcomes that differ in these only. -/
def Obligations.FaultOffsetUnobserved : Prop :=
  (∀ s s' : State, SameButOffset s s' → SameOutcome SameButOffset (step s) (step s')) ∧
  (∀ s s' : State, SameButFree s s' → SameOutcome SameButFree (step s) (step s'))

/-- O52. Within a phase the machine only moves forward and keeps what it has accepted (R23, R44, R30, R72, R260): the cursors
never go back; configuration and input never change; the image header, palette and transparency are fixed once CONTAINER is
left; `OBUF` only grows; `ZBUF` only grows, and in INFLATE and RECON it stays. That the dead buffers stand in DONE and FAULTED
is the model's choice (log entry 6). -/
def Obligations.ForwardOnly : Prop :=
  ∀ s t : State, Quiet s → step s = .next t → t.phase = s.phase →
    s.cur ≤ t.cur ∧ s.bp ≤ t.bp ∧ s.rpos ≤ t.rpos ∧ t.input = s.input ∧ t.cfgMaxPixels = s.cfgMaxPixels ∧
    t.cfgVerifyAdler = s.cfgVerifyAdler ∧ s.zbuf <+: t.zbuf ∧ s.obuf <+: t.obuf ∧
    (s.phase ≠ .container → t.ihWidth = s.ihWidth ∧ t.ihHeight = s.ihHeight ∧ t.ihDepth = s.ihDepth ∧
      t.ihCtype = s.ihCtype ∧ t.ihIlace = s.ihIlace ∧ t.plt = s.plt ∧ t.pltN = s.pltN ∧ t.trnsKey = s.trnsKey ∧
      t.trnsA = s.trnsA ∧ t.trnsN = s.trnsN ∧ t.zbuf = s.zbuf) ∧
    (s.phase ≠ .inflate → t.obuf = s.obuf)

/-! ### The step, and what every step keeps -/

/-- O53. A step runs the element that stands at the program counter: by the position in the stream for the signature, the zlib
header and trailer; by the value of the block header, symbol, filter-type byte; by the header for passes and pixels; by the
host's command. Where the bits of a block header are missing (R230, R413), or reading a symbol raises a fault (R243, R266,
R275), the step is fault entry. Chunks are in O15. -/
def Obligations.StepRunsDecodedElement : Prop :=
  (∀ (s : State) (c : Command), s.resetLine = false → s.cmd = some c →
    step s = exec (.decode c.stream c.maxPixels c.verifyAdler) { s with cmd := none }) ∧
  (∀ s : State, Quiet s → s.phase = .container → s.pstate = .expectSignature → step s = exec .sig s) ∧
  (∀ s : State, Quiet s → s.phase = .inflate → s.istage = .zhdr → step s = exec .zhdr s) ∧
  (∀ (s : State) (v : Nat) (i : Instr), Quiet s → s.phase = .inflate → s.istage = .block →
    FieldAt s.zbuf s.bp 3 v → decode .bhdr v = .ok i → step s = exec i { s with bp := s.bp + 3 }) ∧
  (∀ (s s' : State) (v : Nat) (i : Instr), Quiet s → s.phase = .inflate → s.istage = .codeLengths →
    s.clSeq.length < s.hlit + s.hdist → decodeSym s.clLen s = .ok v s' → decode .clsym v = .ok i →
    step s = exec i s') ∧
  (∀ (s s' : State) (v : Nat) (i : Instr), Quiet s → s.phase = .inflate → s.istage = .huffman →
    decodeSym s.llLen s = .ok v s' → decode .llsym v = .ok i → step s = exec i s') ∧
  (∀ (s s' : State) (v : Nat) (i : Instr), Quiet s → s.phase = .inflate → s.istage = .distance →
    decodeSym s.dLen s = .ok v s' → decode .dsym v = .ok i → step s = exec i s') ∧
  (∀ s : State, Quiet s → s.phase = .inflate → s.istage = .trailer → step s = exec .ztrl s) ∧
  (∀ (s : State) (p : Fin 8) (i : Instr), Quiet s → s.phase = .recon → s.rstage = .pass p →
    decode (.ilace p) s.ihIlace.toNat = .ok i → step s = exec i s) ∧
  (∀ (s : State) (ft : Byte) (i : Instr), Quiet s → s.phase = .recon → s.rstage = .row →
    s.row.toNat < s.passH.toNat → s.obuf[s.rpos]? = some ft → decode .row ft.toNat = .ok i →
    step s = exec i { s with rpos := s.rpos + 1 }) ∧
  (∀ (s : State) (i : Instr), Quiet s → s.phase = .recon → s.rstage = .pixel → s.col < s.passW.toNat →
    decode .depthCtype (s.ihDepth.toNat * 256 + s.ihCtype.toNat) = .ok i → step s = exec i s) ∧
  (∀ s : State, Quiet s → s.phase = .inflate → s.istage = .block → 8 * s.zbuf.length < s.bp + 3 →
    Raises (step s) .truncatedCompressedData) ∧
  (∀ (s u : State) (k : FaultKind), Quiet s → s.phase = .inflate → s.istage = .codeLengths →
    s.clSeq.length < s.hlit + s.hdist → decodeSym s.clLen s = .raise k u → step s = .next (raiseFault k u)) ∧
  (∀ (s u : State) (k : FaultKind), Quiet s → s.phase = .inflate → s.istage = .huffman →
    decodeSym s.llLen s = .raise k u → step s = .next (raiseFault k u)) ∧
  (∀ (s u : State) (k : FaultKind), Quiet s → s.phase = .inflate → s.istage = .distance →
    decodeSym s.dLen s = .raise k u → step s = .next (raiseFault k u))

/-- O54. Every invariant holds of the state after reset. The canonical form among them, and `IN` empty where no command has
given one, are the model's choice (log entries 12, 1). -/
def Obligations.InvAtReset : Prop := Inv State.reset

/-- O55. The byte arrays `FRAME` and `OUT` keep their canonical form in every step. That form is the model's choice (log entry
12): no rule of the spec states it. -/
def Obligations.MemoryInvKept : Prop :=
  ∀ s t : State, MemoryInv s → step s = .next t → MemoryInv t

/-- O56. The host's view (R366, R42): in every phase the output, its size and the fault kind are as the table says, and every
step keeps it. -/
def Obligations.OutputInvKept : Prop :=
  ∀ s t : State, OutputInv s → step s = .next t → OutputInv t

/-- O57. The Adler-32 registers are those of the output so far in every state but FAULTED, and every step keeps it: while a
decode runs by R218; in DONE because `OBUF` stands after commit, which is the model's choice (log entry 6). -/
def Obligations.AdlerInvKept : Prop :=
  ∀ s t : State, AdlerInv s → step s = .next t → AdlerInv t

/-- O58. All the invariants together are kept by every step: among them that `IN` is held only while a decode runs (R367). The
model's choices among them: the canonical form (log entry 12), the checksum of `OBUF` in DONE, where `OBUF` stands after commit
(log entry 6), and `ROW` up to `PASS_H` after the last row of a pass (log entry 19). -/
def Obligations.InvKept : Prop :=
  ∀ s t : State, Inv s → step s = .next t → Inv t

/-- O59. Totality of a step (R383, R85): where the invariants hold and no command is refused, a step always answers a next
state: no access falls outside its space and every selecting value selects an element. -/
def Obligations.StepNeverStops : Prop :=
  ∀ s : State, Inv s → Quiet s → ∃ t, step s = .next t

/-- O60. Totality of a decode (R383): from every state of a running decode that meets the invariants, the block ends in DONE or
FAULTED after finitely many steps. -/
def Obligations.DecodeEnds : Prop :=
  ∀ s : State, Inv s → Quiet s → Running s → ∃ n t, core.run n s = .next t ∧ Ended t
end

