-- ==== Sys2Proof/Laws/State.lean ====
section
/-! SUPPORT. One lemma per field per named update of the state: what the update writes, and that it writes nothing else. -/

namespace Sys2Proof.Laws

open Sys2Proof.Machine

/-! ### raiseFault -/

@[simp] theorem raiseFault_phase (k : FaultKind) (s : State) : (raiseFault k s).phase = .faulted := rfl
@[simp] theorem raiseFault_pstate (k : FaultKind) (s : State) : (raiseFault k s).pstate = s.pstate := rfl
@[simp] theorem raiseFault_cur (k : FaultKind) (s : State) : (raiseFault k s).cur = s.cur := rfl
@[simp] theorem raiseFault_bp (k : FaultKind) (s : State) : (raiseFault k s).bp = s.bp := rfl
@[simp] theorem raiseFault_rpos (k : FaultKind) (s : State) : (raiseFault k s).rpos = s.rpos := rfl
@[simp] theorem raiseFault_ckLen (k : FaultKind) (s : State) : (raiseFault k s).ckLen = s.ckLen := rfl
@[simp] theorem raiseFault_ckType (k : FaultKind) (s : State) : (raiseFault k s).ckType = s.ckType := rfl
@[simp] theorem raiseFault_ckPay (k : FaultKind) (s : State) : (raiseFault k s).ckPay = [] := rfl
@[simp] theorem raiseFault_ckCrc (k : FaultKind) (s : State) : (raiseFault k s).ckCrc = s.ckCrc := rfl
@[simp] theorem raiseFault_crcAcc (k : FaultKind) (s : State) : (raiseFault k s).crcAcc = s.crcAcc := rfl
@[simp] theorem raiseFault_ihWidth (k : FaultKind) (s : State) : (raiseFault k s).ihWidth = s.ihWidth := rfl
@[simp] theorem raiseFault_ihHeight (k : FaultKind) (s : State) : (raiseFault k s).ihHeight = s.ihHeight := rfl
@[simp] theorem raiseFault_ihDepth (k : FaultKind) (s : State) : (raiseFault k s).ihDepth = s.ihDepth := rfl
@[simp] theorem raiseFault_ihCtype (k : FaultKind) (s : State) : (raiseFault k s).ihCtype = s.ihCtype := rfl
@[simp] theorem raiseFault_ihIlace (k : FaultKind) (s : State) : (raiseFault k s).ihIlace = s.ihIlace := rfl
@[simp] theorem raiseFault_plt (k : FaultKind) (s : State) : (raiseFault k s).plt = s.plt := rfl
@[simp] theorem raiseFault_pltN (k : FaultKind) (s : State) : (raiseFault k s).pltN = s.pltN := rfl
@[simp] theorem raiseFault_trnsKey (k : FaultKind) (s : State) : (raiseFault k s).trnsKey = s.trnsKey := rfl
@[simp] theorem raiseFault_trnsA (k : FaultKind) (s : State) : (raiseFault k s).trnsA = s.trnsA := rfl
@[simp] theorem raiseFault_trnsN (k : FaultKind) (s : State) : (raiseFault k s).trnsN = s.trnsN := rfl
@[simp] theorem raiseFault_havePlte (k : FaultKind) (s : State) : (raiseFault k s).havePlte = s.havePlte := rfl
@[simp] theorem raiseFault_haveTrns (k : FaultKind) (s : State) : (raiseFault k s).haveTrns = s.haveTrns := rfl
@[simp] theorem raiseFault_seenIdat (k : FaultKind) (s : State) : (raiseFault k s).seenIdat = s.seenIdat := rfl
@[simp] theorem raiseFault_idatClosed (k : FaultKind) (s : State) : (raiseFault k s).idatClosed = s.idatClosed := rfl
@[simp] theorem raiseFault_zbuf (k : FaultKind) (s : State) : (raiseFault k s).zbuf = [] := rfl
@[simp] theorem raiseFault_bfinal (k : FaultKind) (s : State) : (raiseFault k s).bfinal = s.bfinal := rfl
@[simp] theorem raiseFault_btype (k : FaultKind) (s : State) : (raiseFault k s).btype = s.btype := rfl
@[simp] theorem raiseFault_hlit (k : FaultKind) (s : State) : (raiseFault k s).hlit = s.hlit := rfl
@[simp] theorem raiseFault_hdist (k : FaultKind) (s : State) : (raiseFault k s).hdist = s.hdist := rfl
@[simp] theorem raiseFault_hclen (k : FaultKind) (s : State) : (raiseFault k s).hclen = s.hclen := rfl
@[simp] theorem raiseFault_llLen (k : FaultKind) (s : State) : (raiseFault k s).llLen = s.llLen := rfl
@[simp] theorem raiseFault_dLen (k : FaultKind) (s : State) : (raiseFault k s).dLen = s.dLen := rfl
@[simp] theorem raiseFault_clLen (k : FaultKind) (s : State) : (raiseFault k s).clLen = s.clLen := rfl
@[simp] theorem raiseFault_clSeq (k : FaultKind) (s : State) : (raiseFault k s).clSeq = [] := rfl
@[simp] theorem raiseFault_mlen (k : FaultKind) (s : State) : (raiseFault k s).mlen = s.mlen := rfl
@[simp] theorem raiseFault_adlerA (k : FaultKind) (s : State) : (raiseFault k s).adlerA = s.adlerA := rfl
@[simp] theorem raiseFault_adlerB (k : FaultKind) (s : State) : (raiseFault k s).adlerB = s.adlerB := rfl
@[simp] theorem raiseFault_obuf (k : FaultKind) (s : State) : (raiseFault k s).obuf = [] := rfl
@[simp] theorem raiseFault_pass (k : FaultKind) (s : State) : (raiseFault k s).pass = s.pass := rfl
@[simp] theorem raiseFault_passW (k : FaultKind) (s : State) : (raiseFault k s).passW = s.passW := rfl
@[simp] theorem raiseFault_passH (k : FaultKind) (s : State) : (raiseFault k s).passH = s.passH := rfl
@[simp] theorem raiseFault_row (k : FaultKind) (s : State) : (raiseFault k s).row = s.row := rfl
@[simp] theorem raiseFault_ft (k : FaultKind) (s : State) : (raiseFault k s).ft = s.ft := rfl
@[simp] theorem raiseFault_prev (k : FaultKind) (s : State) : (raiseFault k s).prev = [] := rfl
@[simp] theorem raiseFault_currow (k : FaultKind) (s : State) : (raiseFault k s).currow = [] := rfl
@[simp] theorem raiseFault_col (k : FaultKind) (s : State) : (raiseFault k s).col = s.col := rfl
@[simp] theorem raiseFault_frame (k : FaultKind) (s : State) : (raiseFault k s).frame = Memory.empty := rfl
@[simp] theorem raiseFault_outValid (k : FaultKind) (s : State) : (raiseFault k s).outValid = false := rfl
@[simp] theorem raiseFault_outW (k : FaultKind) (s : State) : (raiseFault k s).outW = 0 := rfl
@[simp] theorem raiseFault_outH (k : FaultKind) (s : State) : (raiseFault k s).outH = 0 := rfl
@[simp] theorem raiseFault_out (k : FaultKind) (s : State) : (raiseFault k s).out = Memory.empty := rfl
@[simp] theorem raiseFault_faultKind (k : FaultKind) (s : State) : (raiseFault k s).faultKind = some k := rfl
@[simp] theorem raiseFault_faultOffset (k : FaultKind) (s : State) : (raiseFault k s).faultOffset = Config.freeFaultOffset s.freeCount := rfl
@[simp] theorem raiseFault_cfgMaxPixels (k : FaultKind) (s : State) : (raiseFault k s).cfgMaxPixels = s.cfgMaxPixels := rfl
@[simp] theorem raiseFault_cfgVerifyAdler (k : FaultKind) (s : State) : (raiseFault k s).cfgVerifyAdler = s.cfgVerifyAdler := rfl
@[simp] theorem raiseFault_input (k : FaultKind) (s : State) : (raiseFault k s).input = [] := rfl
@[simp] theorem raiseFault_cmd (k : FaultKind) (s : State) : (raiseFault k s).cmd = s.cmd := rfl
@[simp] theorem raiseFault_resetLine (k : FaultKind) (s : State) : (raiseFault k s).resetLine = s.resetLine := rfl
@[simp] theorem raiseFault_istage (k : FaultKind) (s : State) : (raiseFault k s).istage = s.istage := rfl
@[simp] theorem raiseFault_rstage (k : FaultKind) (s : State) : (raiseFault k s).rstage = s.rstage := rfl
@[simp] theorem raiseFault_ret (k : FaultKind) (s : State) : (raiseFault k s).ret = s.ret := rfl
@[simp] theorem raiseFault_freeCount (k : FaultKind) (s : State) : (raiseFault k s).freeCount = s.freeCount + 1 := rfl

/-! ### crcInit -/

@[simp] theorem crcInit_phase (s : State) : (crcInit s).phase = s.phase := rfl
@[simp] theorem crcInit_pstate (s : State) : (crcInit s).pstate = s.pstate := rfl
@[simp] theorem crcInit_cur (s : State) : (crcInit s).cur = s.cur := rfl
@[simp] theorem crcInit_bp (s : State) : (crcInit s).bp = s.bp := rfl
@[simp] theorem crcInit_rpos (s : State) : (crcInit s).rpos = s.rpos := rfl
@[simp] theorem crcInit_ckLen (s : State) : (crcInit s).ckLen = s.ckLen := rfl
@[simp] theorem crcInit_ckType (s : State) : (crcInit s).ckType = s.ckType := rfl
@[simp] theorem crcInit_ckPay (s : State) : (crcInit s).ckPay = s.ckPay := rfl
@[simp] theorem crcInit_ckCrc (s : State) : (crcInit s).ckCrc = s.ckCrc := rfl
@[simp] theorem crcInit_crcAcc (s : State) : (crcInit s).crcAcc = crcStart := rfl
@[simp] theorem crcInit_ihWidth (s : State) : (crcInit s).ihWidth = s.ihWidth := rfl
@[simp] theorem crcInit_ihHeight (s : State) : (crcInit s).ihHeight = s.ihHeight := rfl
@[simp] theorem crcInit_ihDepth (s : State) : (crcInit s).ihDepth = s.ihDepth := rfl
@[simp] theorem crcInit_ihCtype (s : State) : (crcInit s).ihCtype = s.ihCtype := rfl
@[simp] theorem crcInit_ihIlace (s : State) : (crcInit s).ihIlace = s.ihIlace := rfl
@[simp] theorem crcInit_plt (s : State) : (crcInit s).plt = s.plt := rfl
@[simp] theorem crcInit_pltN (s : State) : (crcInit s).pltN = s.pltN := rfl
@[simp] theorem crcInit_trnsKey (s : State) : (crcInit s).trnsKey = s.trnsKey := rfl
@[simp] theorem crcInit_trnsA (s : State) : (crcInit s).trnsA = s.trnsA := rfl
@[simp] theorem crcInit_trnsN (s : State) : (crcInit s).trnsN = s.trnsN := rfl
@[simp] theorem crcInit_havePlte (s : State) : (crcInit s).havePlte = s.havePlte := rfl
@[simp] theorem crcInit_haveTrns (s : State) : (crcInit s).haveTrns = s.haveTrns := rfl
@[simp] theorem crcInit_seenIdat (s : State) : (crcInit s).seenIdat = s.seenIdat := rfl
@[simp] theorem crcInit_idatClosed (s : State) : (crcInit s).idatClosed = s.idatClosed := rfl
@[simp] theorem crcInit_zbuf (s : State) : (crcInit s).zbuf = s.zbuf := rfl
@[simp] theorem crcInit_bfinal (s : State) : (crcInit s).bfinal = s.bfinal := rfl
@[simp] theorem crcInit_btype (s : State) : (crcInit s).btype = s.btype := rfl
@[simp] theorem crcInit_hlit (s : State) : (crcInit s).hlit = s.hlit := rfl
@[simp] theorem crcInit_hdist (s : State) : (crcInit s).hdist = s.hdist := rfl
@[simp] theorem crcInit_hclen (s : State) : (crcInit s).hclen = s.hclen := rfl
@[simp] theorem crcInit_llLen (s : State) : (crcInit s).llLen = s.llLen := rfl
@[simp] theorem crcInit_dLen (s : State) : (crcInit s).dLen = s.dLen := rfl
@[simp] theorem crcInit_clLen (s : State) : (crcInit s).clLen = s.clLen := rfl
@[simp] theorem crcInit_clSeq (s : State) : (crcInit s).clSeq = s.clSeq := rfl
@[simp] theorem crcInit_mlen (s : State) : (crcInit s).mlen = s.mlen := rfl
@[simp] theorem crcInit_adlerA (s : State) : (crcInit s).adlerA = s.adlerA := rfl
@[simp] theorem crcInit_adlerB (s : State) : (crcInit s).adlerB = s.adlerB := rfl
@[simp] theorem crcInit_obuf (s : State) : (crcInit s).obuf = s.obuf := rfl
@[simp] theorem crcInit_pass (s : State) : (crcInit s).pass = s.pass := rfl
@[simp] theorem crcInit_passW (s : State) : (crcInit s).passW = s.passW := rfl
@[simp] theorem crcInit_passH (s : State) : (crcInit s).passH = s.passH := rfl
@[simp] theorem crcInit_row (s : State) : (crcInit s).row = s.row := rfl
@[simp] theorem crcInit_ft (s : State) : (crcInit s).ft = s.ft := rfl
@[simp] theorem crcInit_prev (s : State) : (crcInit s).prev = s.prev := rfl
@[simp] theorem crcInit_currow (s : State) : (crcInit s).currow = s.currow := rfl
@[simp] theorem crcInit_col (s : State) : (crcInit s).col = s.col := rfl
@[simp] theorem crcInit_frame (s : State) : (crcInit s).frame = s.frame := rfl
@[simp] theorem crcInit_outValid (s : State) : (crcInit s).outValid = s.outValid := rfl
@[simp] theorem crcInit_outW (s : State) : (crcInit s).outW = s.outW := rfl
@[simp] theorem crcInit_outH (s : State) : (crcInit s).outH = s.outH := rfl
@[simp] theorem crcInit_out (s : State) : (crcInit s).out = s.out := rfl
@[simp] theorem crcInit_faultKind (s : State) : (crcInit s).faultKind = s.faultKind := rfl
@[simp] theorem crcInit_faultOffset (s : State) : (crcInit s).faultOffset = s.faultOffset := rfl
@[simp] theorem crcInit_cfgMaxPixels (s : State) : (crcInit s).cfgMaxPixels = s.cfgMaxPixels := rfl
@[simp] theorem crcInit_cfgVerifyAdler (s : State) : (crcInit s).cfgVerifyAdler = s.cfgVerifyAdler := rfl
@[simp] theorem crcInit_input (s : State) : (crcInit s).input = s.input := rfl
@[simp] theorem crcInit_cmd (s : State) : (crcInit s).cmd = s.cmd := rfl
@[simp] theorem crcInit_resetLine (s : State) : (crcInit s).resetLine = s.resetLine := rfl
@[simp] theorem crcInit_istage (s : State) : (crcInit s).istage = s.istage := rfl
@[simp] theorem crcInit_rstage (s : State) : (crcInit s).rstage = s.rstage := rfl
@[simp] theorem crcInit_ret (s : State) : (crcInit s).ret = s.ret := rfl
@[simp] theorem crcInit_freeCount (s : State) : (crcInit s).freeCount = s.freeCount := rfl

/-! ### crcUpdate -/

@[simp] theorem crcUpdate_phase (b : Byte) (s : State) : (crcUpdate b s).phase = s.phase := rfl
@[simp] theorem crcUpdate_pstate (b : Byte) (s : State) : (crcUpdate b s).pstate = s.pstate := rfl
@[simp] theorem crcUpdate_cur (b : Byte) (s : State) : (crcUpdate b s).cur = s.cur := rfl
@[simp] theorem crcUpdate_bp (b : Byte) (s : State) : (crcUpdate b s).bp = s.bp := rfl
@[simp] theorem crcUpdate_rpos (b : Byte) (s : State) : (crcUpdate b s).rpos = s.rpos := rfl
@[simp] theorem crcUpdate_ckLen (b : Byte) (s : State) : (crcUpdate b s).ckLen = s.ckLen := rfl
@[simp] theorem crcUpdate_ckType (b : Byte) (s : State) : (crcUpdate b s).ckType = s.ckType := rfl
@[simp] theorem crcUpdate_ckPay (b : Byte) (s : State) : (crcUpdate b s).ckPay = s.ckPay := rfl
@[simp] theorem crcUpdate_ckCrc (b : Byte) (s : State) : (crcUpdate b s).ckCrc = s.ckCrc := rfl
@[simp] theorem crcUpdate_crcAcc (b : Byte) (s : State) : (crcUpdate b s).crcAcc = crcByte s.crcAcc b := rfl
@[simp] theorem crcUpdate_ihWidth (b : Byte) (s : State) : (crcUpdate b s).ihWidth = s.ihWidth := rfl
@[simp] theorem crcUpdate_ihHeight (b : Byte) (s : State) : (crcUpdate b s).ihHeight = s.ihHeight := rfl
@[simp] theorem crcUpdate_ihDepth (b : Byte) (s : State) : (crcUpdate b s).ihDepth = s.ihDepth := rfl
@[simp] theorem crcUpdate_ihCtype (b : Byte) (s : State) : (crcUpdate b s).ihCtype = s.ihCtype := rfl
@[simp] theorem crcUpdate_ihIlace (b : Byte) (s : State) : (crcUpdate b s).ihIlace = s.ihIlace := rfl
@[simp] theorem crcUpdate_plt (b : Byte) (s : State) : (crcUpdate b s).plt = s.plt := rfl
@[simp] theorem crcUpdate_pltN (b : Byte) (s : State) : (crcUpdate b s).pltN = s.pltN := rfl
@[simp] theorem crcUpdate_trnsKey (b : Byte) (s : State) : (crcUpdate b s).trnsKey = s.trnsKey := rfl
@[simp] theorem crcUpdate_trnsA (b : Byte) (s : State) : (crcUpdate b s).trnsA = s.trnsA := rfl
@[simp] theorem crcUpdate_trnsN (b : Byte) (s : State) : (crcUpdate b s).trnsN = s.trnsN := rfl
@[simp] theorem crcUpdate_havePlte (b : Byte) (s : State) : (crcUpdate b s).havePlte = s.havePlte := rfl
@[simp] theorem crcUpdate_haveTrns (b : Byte) (s : State) : (crcUpdate b s).haveTrns = s.haveTrns := rfl
@[simp] theorem crcUpdate_seenIdat (b : Byte) (s : State) : (crcUpdate b s).seenIdat = s.seenIdat := rfl
@[simp] theorem crcUpdate_idatClosed (b : Byte) (s : State) : (crcUpdate b s).idatClosed = s.idatClosed := rfl
@[simp] theorem crcUpdate_zbuf (b : Byte) (s : State) : (crcUpdate b s).zbuf = s.zbuf := rfl
@[simp] theorem crcUpdate_bfinal (b : Byte) (s : State) : (crcUpdate b s).bfinal = s.bfinal := rfl
@[simp] theorem crcUpdate_btype (b : Byte) (s : State) : (crcUpdate b s).btype = s.btype := rfl
@[simp] theorem crcUpdate_hlit (b : Byte) (s : State) : (crcUpdate b s).hlit = s.hlit := rfl
@[simp] theorem crcUpdate_hdist (b : Byte) (s : State) : (crcUpdate b s).hdist = s.hdist := rfl
@[simp] theorem crcUpdate_hclen (b : Byte) (s : State) : (crcUpdate b s).hclen = s.hclen := rfl
@[simp] theorem crcUpdate_llLen (b : Byte) (s : State) : (crcUpdate b s).llLen = s.llLen := rfl
@[simp] theorem crcUpdate_dLen (b : Byte) (s : State) : (crcUpdate b s).dLen = s.dLen := rfl
@[simp] theorem crcUpdate_clLen (b : Byte) (s : State) : (crcUpdate b s).clLen = s.clLen := rfl
@[simp] theorem crcUpdate_clSeq (b : Byte) (s : State) : (crcUpdate b s).clSeq = s.clSeq := rfl
@[simp] theorem crcUpdate_mlen (b : Byte) (s : State) : (crcUpdate b s).mlen = s.mlen := rfl
@[simp] theorem crcUpdate_adlerA (b : Byte) (s : State) : (crcUpdate b s).adlerA = s.adlerA := rfl
@[simp] theorem crcUpdate_adlerB (b : Byte) (s : State) : (crcUpdate b s).adlerB = s.adlerB := rfl
@[simp] theorem crcUpdate_obuf (b : Byte) (s : State) : (crcUpdate b s).obuf = s.obuf := rfl
@[simp] theorem crcUpdate_pass (b : Byte) (s : State) : (crcUpdate b s).pass = s.pass := rfl
@[simp] theorem crcUpdate_passW (b : Byte) (s : State) : (crcUpdate b s).passW = s.passW := rfl
@[simp] theorem crcUpdate_passH (b : Byte) (s : State) : (crcUpdate b s).passH = s.passH := rfl
@[simp] theorem crcUpdate_row (b : Byte) (s : State) : (crcUpdate b s).row = s.row := rfl
@[simp] theorem crcUpdate_ft (b : Byte) (s : State) : (crcUpdate b s).ft = s.ft := rfl
@[simp] theorem crcUpdate_prev (b : Byte) (s : State) : (crcUpdate b s).prev = s.prev := rfl
@[simp] theorem crcUpdate_currow (b : Byte) (s : State) : (crcUpdate b s).currow = s.currow := rfl
@[simp] theorem crcUpdate_col (b : Byte) (s : State) : (crcUpdate b s).col = s.col := rfl
@[simp] theorem crcUpdate_frame (b : Byte) (s : State) : (crcUpdate b s).frame = s.frame := rfl
@[simp] theorem crcUpdate_outValid (b : Byte) (s : State) : (crcUpdate b s).outValid = s.outValid := rfl
@[simp] theorem crcUpdate_outW (b : Byte) (s : State) : (crcUpdate b s).outW = s.outW := rfl
@[simp] theorem crcUpdate_outH (b : Byte) (s : State) : (crcUpdate b s).outH = s.outH := rfl
@[simp] theorem crcUpdate_out (b : Byte) (s : State) : (crcUpdate b s).out = s.out := rfl
@[simp] theorem crcUpdate_faultKind (b : Byte) (s : State) : (crcUpdate b s).faultKind = s.faultKind := rfl
@[simp] theorem crcUpdate_faultOffset (b : Byte) (s : State) : (crcUpdate b s).faultOffset = s.faultOffset := rfl
@[simp] theorem crcUpdate_cfgMaxPixels (b : Byte) (s : State) : (crcUpdate b s).cfgMaxPixels = s.cfgMaxPixels := rfl
@[simp] theorem crcUpdate_cfgVerifyAdler (b : Byte) (s : State) : (crcUpdate b s).cfgVerifyAdler = s.cfgVerifyAdler := rfl
@[simp] theorem crcUpdate_input (b : Byte) (s : State) : (crcUpdate b s).input = s.input := rfl
@[simp] theorem crcUpdate_cmd (b : Byte) (s : State) : (crcUpdate b s).cmd = s.cmd := rfl
@[simp] theorem crcUpdate_resetLine (b : Byte) (s : State) : (crcUpdate b s).resetLine = s.resetLine := rfl
@[simp] theorem crcUpdate_istage (b : Byte) (s : State) : (crcUpdate b s).istage = s.istage := rfl
@[simp] theorem crcUpdate_rstage (b : Byte) (s : State) : (crcUpdate b s).rstage = s.rstage := rfl
@[simp] theorem crcUpdate_ret (b : Byte) (s : State) : (crcUpdate b s).ret = s.ret := rfl
@[simp] theorem crcUpdate_freeCount (b : Byte) (s : State) : (crcUpdate b s).freeCount = s.freeCount := rfl

/-! ### adlerInit -/

@[simp] theorem adlerInit_phase (s : State) : (adlerInit s).phase = s.phase := rfl
@[simp] theorem adlerInit_pstate (s : State) : (adlerInit s).pstate = s.pstate := rfl
@[simp] theorem adlerInit_cur (s : State) : (adlerInit s).cur = s.cur := rfl
@[simp] theorem adlerInit_bp (s : State) : (adlerInit s).bp = s.bp := rfl
@[simp] theorem adlerInit_rpos (s : State) : (adlerInit s).rpos = s.rpos := rfl
@[simp] theorem adlerInit_ckLen (s : State) : (adlerInit s).ckLen = s.ckLen := rfl
@[simp] theorem adlerInit_ckType (s : State) : (adlerInit s).ckType = s.ckType := rfl
@[simp] theorem adlerInit_ckPay (s : State) : (adlerInit s).ckPay = s.ckPay := rfl
@[simp] theorem adlerInit_ckCrc (s : State) : (adlerInit s).ckCrc = s.ckCrc := rfl
@[simp] theorem adlerInit_crcAcc (s : State) : (adlerInit s).crcAcc = s.crcAcc := rfl
@[simp] theorem adlerInit_ihWidth (s : State) : (adlerInit s).ihWidth = s.ihWidth := rfl
@[simp] theorem adlerInit_ihHeight (s : State) : (adlerInit s).ihHeight = s.ihHeight := rfl
@[simp] theorem adlerInit_ihDepth (s : State) : (adlerInit s).ihDepth = s.ihDepth := rfl
@[simp] theorem adlerInit_ihCtype (s : State) : (adlerInit s).ihCtype = s.ihCtype := rfl
@[simp] theorem adlerInit_ihIlace (s : State) : (adlerInit s).ihIlace = s.ihIlace := rfl
@[simp] theorem adlerInit_plt (s : State) : (adlerInit s).plt = s.plt := rfl
@[simp] theorem adlerInit_pltN (s : State) : (adlerInit s).pltN = s.pltN := rfl
@[simp] theorem adlerInit_trnsKey (s : State) : (adlerInit s).trnsKey = s.trnsKey := rfl
@[simp] theorem adlerInit_trnsA (s : State) : (adlerInit s).trnsA = s.trnsA := rfl
@[simp] theorem adlerInit_trnsN (s : State) : (adlerInit s).trnsN = s.trnsN := rfl
@[simp] theorem adlerInit_havePlte (s : State) : (adlerInit s).havePlte = s.havePlte := rfl
@[simp] theorem adlerInit_haveTrns (s : State) : (adlerInit s).haveTrns = s.haveTrns := rfl
@[simp] theorem adlerInit_seenIdat (s : State) : (adlerInit s).seenIdat = s.seenIdat := rfl
@[simp] theorem adlerInit_idatClosed (s : State) : (adlerInit s).idatClosed = s.idatClosed := rfl
@[simp] theorem adlerInit_zbuf (s : State) : (adlerInit s).zbuf = s.zbuf := rfl
@[simp] theorem adlerInit_bfinal (s : State) : (adlerInit s).bfinal = s.bfinal := rfl
@[simp] theorem adlerInit_btype (s : State) : (adlerInit s).btype = s.btype := rfl
@[simp] theorem adlerInit_hlit (s : State) : (adlerInit s).hlit = s.hlit := rfl
@[simp] theorem adlerInit_hdist (s : State) : (adlerInit s).hdist = s.hdist := rfl
@[simp] theorem adlerInit_hclen (s : State) : (adlerInit s).hclen = s.hclen := rfl
@[simp] theorem adlerInit_llLen (s : State) : (adlerInit s).llLen = s.llLen := rfl
@[simp] theorem adlerInit_dLen (s : State) : (adlerInit s).dLen = s.dLen := rfl
@[simp] theorem adlerInit_clLen (s : State) : (adlerInit s).clLen = s.clLen := rfl
@[simp] theorem adlerInit_clSeq (s : State) : (adlerInit s).clSeq = s.clSeq := rfl
@[simp] theorem adlerInit_mlen (s : State) : (adlerInit s).mlen = s.mlen := rfl
@[simp] theorem adlerInit_adlerA (s : State) : (adlerInit s).adlerA = 1 := rfl
@[simp] theorem adlerInit_adlerB (s : State) : (adlerInit s).adlerB = 0 := rfl
@[simp] theorem adlerInit_obuf (s : State) : (adlerInit s).obuf = s.obuf := rfl
@[simp] theorem adlerInit_pass (s : State) : (adlerInit s).pass = s.pass := rfl
@[simp] theorem adlerInit_passW (s : State) : (adlerInit s).passW = s.passW := rfl
@[simp] theorem adlerInit_passH (s : State) : (adlerInit s).passH = s.passH := rfl
@[simp] theorem adlerInit_row (s : State) : (adlerInit s).row = s.row := rfl
@[simp] theorem adlerInit_ft (s : State) : (adlerInit s).ft = s.ft := rfl
@[simp] theorem adlerInit_prev (s : State) : (adlerInit s).prev = s.prev := rfl
@[simp] theorem adlerInit_currow (s : State) : (adlerInit s).currow = s.currow := rfl
@[simp] theorem adlerInit_col (s : State) : (adlerInit s).col = s.col := rfl
@[simp] theorem adlerInit_frame (s : State) : (adlerInit s).frame = s.frame := rfl
@[simp] theorem adlerInit_outValid (s : State) : (adlerInit s).outValid = s.outValid := rfl
@[simp] theorem adlerInit_outW (s : State) : (adlerInit s).outW = s.outW := rfl
@[simp] theorem adlerInit_outH (s : State) : (adlerInit s).outH = s.outH := rfl
@[simp] theorem adlerInit_out (s : State) : (adlerInit s).out = s.out := rfl
@[simp] theorem adlerInit_faultKind (s : State) : (adlerInit s).faultKind = s.faultKind := rfl
@[simp] theorem adlerInit_faultOffset (s : State) : (adlerInit s).faultOffset = s.faultOffset := rfl
@[simp] theorem adlerInit_cfgMaxPixels (s : State) : (adlerInit s).cfgMaxPixels = s.cfgMaxPixels := rfl
@[simp] theorem adlerInit_cfgVerifyAdler (s : State) : (adlerInit s).cfgVerifyAdler = s.cfgVerifyAdler := rfl
@[simp] theorem adlerInit_input (s : State) : (adlerInit s).input = s.input := rfl
@[simp] theorem adlerInit_cmd (s : State) : (adlerInit s).cmd = s.cmd := rfl
@[simp] theorem adlerInit_resetLine (s : State) : (adlerInit s).resetLine = s.resetLine := rfl
@[simp] theorem adlerInit_istage (s : State) : (adlerInit s).istage = s.istage := rfl
@[simp] theorem adlerInit_rstage (s : State) : (adlerInit s).rstage = s.rstage := rfl
@[simp] theorem adlerInit_ret (s : State) : (adlerInit s).ret = s.ret := rfl
@[simp] theorem adlerInit_freeCount (s : State) : (adlerInit s).freeCount = s.freeCount := rfl

/-! ### adlerUpdate -/

@[simp] theorem adlerUpdate_phase (b : Byte) (s : State) : (adlerUpdate b s).phase = s.phase := rfl
@[simp] theorem adlerUpdate_pstate (b : Byte) (s : State) : (adlerUpdate b s).pstate = s.pstate := rfl
@[simp] theorem adlerUpdate_cur (b : Byte) (s : State) : (adlerUpdate b s).cur = s.cur := rfl
@[simp] theorem adlerUpdate_bp (b : Byte) (s : State) : (adlerUpdate b s).bp = s.bp := rfl
@[simp] theorem adlerUpdate_rpos (b : Byte) (s : State) : (adlerUpdate b s).rpos = s.rpos := rfl
@[simp] theorem adlerUpdate_ckLen (b : Byte) (s : State) : (adlerUpdate b s).ckLen = s.ckLen := rfl
@[simp] theorem adlerUpdate_ckType (b : Byte) (s : State) : (adlerUpdate b s).ckType = s.ckType := rfl
@[simp] theorem adlerUpdate_ckPay (b : Byte) (s : State) : (adlerUpdate b s).ckPay = s.ckPay := rfl
@[simp] theorem adlerUpdate_ckCrc (b : Byte) (s : State) : (adlerUpdate b s).ckCrc = s.ckCrc := rfl
@[simp] theorem adlerUpdate_crcAcc (b : Byte) (s : State) : (adlerUpdate b s).crcAcc = s.crcAcc := rfl
@[simp] theorem adlerUpdate_ihWidth (b : Byte) (s : State) : (adlerUpdate b s).ihWidth = s.ihWidth := rfl
@[simp] theorem adlerUpdate_ihHeight (b : Byte) (s : State) : (adlerUpdate b s).ihHeight = s.ihHeight := rfl
@[simp] theorem adlerUpdate_ihDepth (b : Byte) (s : State) : (adlerUpdate b s).ihDepth = s.ihDepth := rfl
@[simp] theorem adlerUpdate_ihCtype (b : Byte) (s : State) : (adlerUpdate b s).ihCtype = s.ihCtype := rfl
@[simp] theorem adlerUpdate_ihIlace (b : Byte) (s : State) : (adlerUpdate b s).ihIlace = s.ihIlace := rfl
@[simp] theorem adlerUpdate_plt (b : Byte) (s : State) : (adlerUpdate b s).plt = s.plt := rfl
@[simp] theorem adlerUpdate_pltN (b : Byte) (s : State) : (adlerUpdate b s).pltN = s.pltN := rfl
@[simp] theorem adlerUpdate_trnsKey (b : Byte) (s : State) : (adlerUpdate b s).trnsKey = s.trnsKey := rfl
@[simp] theorem adlerUpdate_trnsA (b : Byte) (s : State) : (adlerUpdate b s).trnsA = s.trnsA := rfl
@[simp] theorem adlerUpdate_trnsN (b : Byte) (s : State) : (adlerUpdate b s).trnsN = s.trnsN := rfl
@[simp] theorem adlerUpdate_havePlte (b : Byte) (s : State) : (adlerUpdate b s).havePlte = s.havePlte := rfl
@[simp] theorem adlerUpdate_haveTrns (b : Byte) (s : State) : (adlerUpdate b s).haveTrns = s.haveTrns := rfl
@[simp] theorem adlerUpdate_seenIdat (b : Byte) (s : State) : (adlerUpdate b s).seenIdat = s.seenIdat := rfl
@[simp] theorem adlerUpdate_idatClosed (b : Byte) (s : State) : (adlerUpdate b s).idatClosed = s.idatClosed := rfl
@[simp] theorem adlerUpdate_zbuf (b : Byte) (s : State) : (adlerUpdate b s).zbuf = s.zbuf := rfl
@[simp] theorem adlerUpdate_bfinal (b : Byte) (s : State) : (adlerUpdate b s).bfinal = s.bfinal := rfl
@[simp] theorem adlerUpdate_btype (b : Byte) (s : State) : (adlerUpdate b s).btype = s.btype := rfl
@[simp] theorem adlerUpdate_hlit (b : Byte) (s : State) : (adlerUpdate b s).hlit = s.hlit := rfl
@[simp] theorem adlerUpdate_hdist (b : Byte) (s : State) : (adlerUpdate b s).hdist = s.hdist := rfl
@[simp] theorem adlerUpdate_hclen (b : Byte) (s : State) : (adlerUpdate b s).hclen = s.hclen := rfl
@[simp] theorem adlerUpdate_llLen (b : Byte) (s : State) : (adlerUpdate b s).llLen = s.llLen := rfl
@[simp] theorem adlerUpdate_dLen (b : Byte) (s : State) : (adlerUpdate b s).dLen = s.dLen := rfl
@[simp] theorem adlerUpdate_clLen (b : Byte) (s : State) : (adlerUpdate b s).clLen = s.clLen := rfl
@[simp] theorem adlerUpdate_clSeq (b : Byte) (s : State) : (adlerUpdate b s).clSeq = s.clSeq := rfl
@[simp] theorem adlerUpdate_mlen (b : Byte) (s : State) : (adlerUpdate b s).mlen = s.mlen := rfl
@[simp] theorem adlerUpdate_adlerA (b : Byte) (s : State) : (adlerUpdate b s).adlerA = (adlerByte s.adlerA s.adlerB b).1 := rfl
@[simp] theorem adlerUpdate_adlerB (b : Byte) (s : State) : (adlerUpdate b s).adlerB = (adlerByte s.adlerA s.adlerB b).2 := rfl
@[simp] theorem adlerUpdate_obuf (b : Byte) (s : State) : (adlerUpdate b s).obuf = s.obuf := rfl
@[simp] theorem adlerUpdate_pass (b : Byte) (s : State) : (adlerUpdate b s).pass = s.pass := rfl
@[simp] theorem adlerUpdate_passW (b : Byte) (s : State) : (adlerUpdate b s).passW = s.passW := rfl
@[simp] theorem adlerUpdate_passH (b : Byte) (s : State) : (adlerUpdate b s).passH = s.passH := rfl
@[simp] theorem adlerUpdate_row (b : Byte) (s : State) : (adlerUpdate b s).row = s.row := rfl
@[simp] theorem adlerUpdate_ft (b : Byte) (s : State) : (adlerUpdate b s).ft = s.ft := rfl
@[simp] theorem adlerUpdate_prev (b : Byte) (s : State) : (adlerUpdate b s).prev = s.prev := rfl
@[simp] theorem adlerUpdate_currow (b : Byte) (s : State) : (adlerUpdate b s).currow = s.currow := rfl
@[simp] theorem adlerUpdate_col (b : Byte) (s : State) : (adlerUpdate b s).col = s.col := rfl
@[simp] theorem adlerUpdate_frame (b : Byte) (s : State) : (adlerUpdate b s).frame = s.frame := rfl
@[simp] theorem adlerUpdate_outValid (b : Byte) (s : State) : (adlerUpdate b s).outValid = s.outValid := rfl
@[simp] theorem adlerUpdate_outW (b : Byte) (s : State) : (adlerUpdate b s).outW = s.outW := rfl
@[simp] theorem adlerUpdate_outH (b : Byte) (s : State) : (adlerUpdate b s).outH = s.outH := rfl
@[simp] theorem adlerUpdate_out (b : Byte) (s : State) : (adlerUpdate b s).out = s.out := rfl
@[simp] theorem adlerUpdate_faultKind (b : Byte) (s : State) : (adlerUpdate b s).faultKind = s.faultKind := rfl
@[simp] theorem adlerUpdate_faultOffset (b : Byte) (s : State) : (adlerUpdate b s).faultOffset = s.faultOffset := rfl
@[simp] theorem adlerUpdate_cfgMaxPixels (b : Byte) (s : State) : (adlerUpdate b s).cfgMaxPixels = s.cfgMaxPixels := rfl
@[simp] theorem adlerUpdate_cfgVerifyAdler (b : Byte) (s : State) : (adlerUpdate b s).cfgVerifyAdler = s.cfgVerifyAdler := rfl
@[simp] theorem adlerUpdate_input (b : Byte) (s : State) : (adlerUpdate b s).input = s.input := rfl
@[simp] theorem adlerUpdate_cmd (b : Byte) (s : State) : (adlerUpdate b s).cmd = s.cmd := rfl
@[simp] theorem adlerUpdate_resetLine (b : Byte) (s : State) : (adlerUpdate b s).resetLine = s.resetLine := rfl
@[simp] theorem adlerUpdate_istage (b : Byte) (s : State) : (adlerUpdate b s).istage = s.istage := rfl
@[simp] theorem adlerUpdate_rstage (b : Byte) (s : State) : (adlerUpdate b s).rstage = s.rstage := rfl
@[simp] theorem adlerUpdate_ret (b : Byte) (s : State) : (adlerUpdate b s).ret = s.ret := rfl
@[simp] theorem adlerUpdate_freeCount (b : Byte) (s : State) : (adlerUpdate b s).freeCount = s.freeCount := rfl

/-! ### emit -/

@[simp] theorem emit_phase (b : Byte) (s : State) : (emit b s).phase = s.phase := rfl
@[simp] theorem emit_pstate (b : Byte) (s : State) : (emit b s).pstate = s.pstate := rfl
@[simp] theorem emit_cur (b : Byte) (s : State) : (emit b s).cur = s.cur := rfl
@[simp] theorem emit_bp (b : Byte) (s : State) : (emit b s).bp = s.bp := rfl
@[simp] theorem emit_rpos (b : Byte) (s : State) : (emit b s).rpos = s.rpos := rfl
@[simp] theorem emit_ckLen (b : Byte) (s : State) : (emit b s).ckLen = s.ckLen := rfl
@[simp] theorem emit_ckType (b : Byte) (s : State) : (emit b s).ckType = s.ckType := rfl
@[simp] theorem emit_ckPay (b : Byte) (s : State) : (emit b s).ckPay = s.ckPay := rfl
@[simp] theorem emit_ckCrc (b : Byte) (s : State) : (emit b s).ckCrc = s.ckCrc := rfl
@[simp] theorem emit_crcAcc (b : Byte) (s : State) : (emit b s).crcAcc = s.crcAcc := rfl
@[simp] theorem emit_ihWidth (b : Byte) (s : State) : (emit b s).ihWidth = s.ihWidth := rfl
@[simp] theorem emit_ihHeight (b : Byte) (s : State) : (emit b s).ihHeight = s.ihHeight := rfl
@[simp] theorem emit_ihDepth (b : Byte) (s : State) : (emit b s).ihDepth = s.ihDepth := rfl
@[simp] theorem emit_ihCtype (b : Byte) (s : State) : (emit b s).ihCtype = s.ihCtype := rfl
@[simp] theorem emit_ihIlace (b : Byte) (s : State) : (emit b s).ihIlace = s.ihIlace := rfl
@[simp] theorem emit_plt (b : Byte) (s : State) : (emit b s).plt = s.plt := rfl
@[simp] theorem emit_pltN (b : Byte) (s : State) : (emit b s).pltN = s.pltN := rfl
@[simp] theorem emit_trnsKey (b : Byte) (s : State) : (emit b s).trnsKey = s.trnsKey := rfl
@[simp] theorem emit_trnsA (b : Byte) (s : State) : (emit b s).trnsA = s.trnsA := rfl
@[simp] theorem emit_trnsN (b : Byte) (s : State) : (emit b s).trnsN = s.trnsN := rfl
@[simp] theorem emit_havePlte (b : Byte) (s : State) : (emit b s).havePlte = s.havePlte := rfl
@[simp] theorem emit_haveTrns (b : Byte) (s : State) : (emit b s).haveTrns = s.haveTrns := rfl
@[simp] theorem emit_seenIdat (b : Byte) (s : State) : (emit b s).seenIdat = s.seenIdat := rfl
@[simp] theorem emit_idatClosed (b : Byte) (s : State) : (emit b s).idatClosed = s.idatClosed := rfl
@[simp] theorem emit_zbuf (b : Byte) (s : State) : (emit b s).zbuf = s.zbuf := rfl
@[simp] theorem emit_bfinal (b : Byte) (s : State) : (emit b s).bfinal = s.bfinal := rfl
@[simp] theorem emit_btype (b : Byte) (s : State) : (emit b s).btype = s.btype := rfl
@[simp] theorem emit_hlit (b : Byte) (s : State) : (emit b s).hlit = s.hlit := rfl
@[simp] theorem emit_hdist (b : Byte) (s : State) : (emit b s).hdist = s.hdist := rfl
@[simp] theorem emit_hclen (b : Byte) (s : State) : (emit b s).hclen = s.hclen := rfl
@[simp] theorem emit_llLen (b : Byte) (s : State) : (emit b s).llLen = s.llLen := rfl
@[simp] theorem emit_dLen (b : Byte) (s : State) : (emit b s).dLen = s.dLen := rfl
@[simp] theorem emit_clLen (b : Byte) (s : State) : (emit b s).clLen = s.clLen := rfl
@[simp] theorem emit_clSeq (b : Byte) (s : State) : (emit b s).clSeq = s.clSeq := rfl
@[simp] theorem emit_mlen (b : Byte) (s : State) : (emit b s).mlen = s.mlen := rfl
@[simp] theorem emit_adlerA (b : Byte) (s : State) : (emit b s).adlerA = (adlerByte s.adlerA s.adlerB b).1 := rfl
@[simp] theorem emit_adlerB (b : Byte) (s : State) : (emit b s).adlerB = (adlerByte s.adlerA s.adlerB b).2 := rfl
@[simp] theorem emit_obuf (b : Byte) (s : State) : (emit b s).obuf = s.obuf ++ [b] := rfl
@[simp] theorem emit_pass (b : Byte) (s : State) : (emit b s).pass = s.pass := rfl
@[simp] theorem emit_passW (b : Byte) (s : State) : (emit b s).passW = s.passW := rfl
@[simp] theorem emit_passH (b : Byte) (s : State) : (emit b s).passH = s.passH := rfl
@[simp] theorem emit_row (b : Byte) (s : State) : (emit b s).row = s.row := rfl
@[simp] theorem emit_ft (b : Byte) (s : State) : (emit b s).ft = s.ft := rfl
@[simp] theorem emit_prev (b : Byte) (s : State) : (emit b s).prev = s.prev := rfl
@[simp] theorem emit_currow (b : Byte) (s : State) : (emit b s).currow = s.currow := rfl
@[simp] theorem emit_col (b : Byte) (s : State) : (emit b s).col = s.col := rfl
@[simp] theorem emit_frame (b : Byte) (s : State) : (emit b s).frame = s.frame := rfl
@[simp] theorem emit_outValid (b : Byte) (s : State) : (emit b s).outValid = s.outValid := rfl
@[simp] theorem emit_outW (b : Byte) (s : State) : (emit b s).outW = s.outW := rfl
@[simp] theorem emit_outH (b : Byte) (s : State) : (emit b s).outH = s.outH := rfl
@[simp] theorem emit_out (b : Byte) (s : State) : (emit b s).out = s.out := rfl
@[simp] theorem emit_faultKind (b : Byte) (s : State) : (emit b s).faultKind = s.faultKind := rfl
@[simp] theorem emit_faultOffset (b : Byte) (s : State) : (emit b s).faultOffset = s.faultOffset := rfl
@[simp] theorem emit_cfgMaxPixels (b : Byte) (s : State) : (emit b s).cfgMaxPixels = s.cfgMaxPixels := rfl
@[simp] theorem emit_cfgVerifyAdler (b : Byte) (s : State) : (emit b s).cfgVerifyAdler = s.cfgVerifyAdler := rfl
@[simp] theorem emit_input (b : Byte) (s : State) : (emit b s).input = s.input := rfl
@[simp] theorem emit_cmd (b : Byte) (s : State) : (emit b s).cmd = s.cmd := rfl
@[simp] theorem emit_resetLine (b : Byte) (s : State) : (emit b s).resetLine = s.resetLine := rfl
@[simp] theorem emit_istage (b : Byte) (s : State) : (emit b s).istage = s.istage := rfl
@[simp] theorem emit_rstage (b : Byte) (s : State) : (emit b s).rstage = s.rstage := rfl
@[simp] theorem emit_ret (b : Byte) (s : State) : (emit b s).ret = s.ret := rfl
@[simp] theorem emit_freeCount (b : Byte) (s : State) : (emit b s).freeCount = s.freeCount := rfl

/-! ### alignByte -/

@[simp] theorem alignByte_phase (s : State) : (alignByte s).phase = s.phase := rfl
@[simp] theorem alignByte_pstate (s : State) : (alignByte s).pstate = s.pstate := rfl
@[simp] theorem alignByte_cur (s : State) : (alignByte s).cur = s.cur := rfl
@[simp] theorem alignByte_bp (s : State) : (alignByte s).bp = 8 * ((s.bp + 7) / 8) := rfl
@[simp] theorem alignByte_rpos (s : State) : (alignByte s).rpos = s.rpos := rfl
@[simp] theorem alignByte_ckLen (s : State) : (alignByte s).ckLen = s.ckLen := rfl
@[simp] theorem alignByte_ckType (s : State) : (alignByte s).ckType = s.ckType := rfl
@[simp] theorem alignByte_ckPay (s : State) : (alignByte s).ckPay = s.ckPay := rfl
@[simp] theorem alignByte_ckCrc (s : State) : (alignByte s).ckCrc = s.ckCrc := rfl
@[simp] theorem alignByte_crcAcc (s : State) : (alignByte s).crcAcc = s.crcAcc := rfl
@[simp] theorem alignByte_ihWidth (s : State) : (alignByte s).ihWidth = s.ihWidth := rfl
@[simp] theorem alignByte_ihHeight (s : State) : (alignByte s).ihHeight = s.ihHeight := rfl
@[simp] theorem alignByte_ihDepth (s : State) : (alignByte s).ihDepth = s.ihDepth := rfl
@[simp] theorem alignByte_ihCtype (s : State) : (alignByte s).ihCtype = s.ihCtype := rfl
@[simp] theorem alignByte_ihIlace (s : State) : (alignByte s).ihIlace = s.ihIlace := rfl
@[simp] theorem alignByte_plt (s : State) : (alignByte s).plt = s.plt := rfl
@[simp] theorem alignByte_pltN (s : State) : (alignByte s).pltN = s.pltN := rfl
@[simp] theorem alignByte_trnsKey (s : State) : (alignByte s).trnsKey = s.trnsKey := rfl
@[simp] theorem alignByte_trnsA (s : State) : (alignByte s).trnsA = s.trnsA := rfl
@[simp] theorem alignByte_trnsN (s : State) : (alignByte s).trnsN = s.trnsN := rfl
@[simp] theorem alignByte_havePlte (s : State) : (alignByte s).havePlte = s.havePlte := rfl
@[simp] theorem alignByte_haveTrns (s : State) : (alignByte s).haveTrns = s.haveTrns := rfl
@[simp] theorem alignByte_seenIdat (s : State) : (alignByte s).seenIdat = s.seenIdat := rfl
@[simp] theorem alignByte_idatClosed (s : State) : (alignByte s).idatClosed = s.idatClosed := rfl
@[simp] theorem alignByte_zbuf (s : State) : (alignByte s).zbuf = s.zbuf := rfl
@[simp] theorem alignByte_bfinal (s : State) : (alignByte s).bfinal = s.bfinal := rfl
@[simp] theorem alignByte_btype (s : State) : (alignByte s).btype = s.btype := rfl
@[simp] theorem alignByte_hlit (s : State) : (alignByte s).hlit = s.hlit := rfl
@[simp] theorem alignByte_hdist (s : State) : (alignByte s).hdist = s.hdist := rfl
@[simp] theorem alignByte_hclen (s : State) : (alignByte s).hclen = s.hclen := rfl
@[simp] theorem alignByte_llLen (s : State) : (alignByte s).llLen = s.llLen := rfl
@[simp] theorem alignByte_dLen (s : State) : (alignByte s).dLen = s.dLen := rfl
@[simp] theorem alignByte_clLen (s : State) : (alignByte s).clLen = s.clLen := rfl
@[simp] theorem alignByte_clSeq (s : State) : (alignByte s).clSeq = s.clSeq := rfl
@[simp] theorem alignByte_mlen (s : State) : (alignByte s).mlen = s.mlen := rfl
@[simp] theorem alignByte_adlerA (s : State) : (alignByte s).adlerA = s.adlerA := rfl
@[simp] theorem alignByte_adlerB (s : State) : (alignByte s).adlerB = s.adlerB := rfl
@[simp] theorem alignByte_obuf (s : State) : (alignByte s).obuf = s.obuf := rfl
@[simp] theorem alignByte_pass (s : State) : (alignByte s).pass = s.pass := rfl
@[simp] theorem alignByte_passW (s : State) : (alignByte s).passW = s.passW := rfl
@[simp] theorem alignByte_passH (s : State) : (alignByte s).passH = s.passH := rfl
@[simp] theorem alignByte_row (s : State) : (alignByte s).row = s.row := rfl
@[simp] theorem alignByte_ft (s : State) : (alignByte s).ft = s.ft := rfl
@[simp] theorem alignByte_prev (s : State) : (alignByte s).prev = s.prev := rfl
@[simp] theorem alignByte_currow (s : State) : (alignByte s).currow = s.currow := rfl
@[simp] theorem alignByte_col (s : State) : (alignByte s).col = s.col := rfl
@[simp] theorem alignByte_frame (s : State) : (alignByte s).frame = s.frame := rfl
@[simp] theorem alignByte_outValid (s : State) : (alignByte s).outValid = s.outValid := rfl
@[simp] theorem alignByte_outW (s : State) : (alignByte s).outW = s.outW := rfl
@[simp] theorem alignByte_outH (s : State) : (alignByte s).outH = s.outH := rfl
@[simp] theorem alignByte_out (s : State) : (alignByte s).out = s.out := rfl
@[simp] theorem alignByte_faultKind (s : State) : (alignByte s).faultKind = s.faultKind := rfl
@[simp] theorem alignByte_faultOffset (s : State) : (alignByte s).faultOffset = s.faultOffset := rfl
@[simp] theorem alignByte_cfgMaxPixels (s : State) : (alignByte s).cfgMaxPixels = s.cfgMaxPixels := rfl
@[simp] theorem alignByte_cfgVerifyAdler (s : State) : (alignByte s).cfgVerifyAdler = s.cfgVerifyAdler := rfl
@[simp] theorem alignByte_input (s : State) : (alignByte s).input = s.input := rfl
@[simp] theorem alignByte_cmd (s : State) : (alignByte s).cmd = s.cmd := rfl
@[simp] theorem alignByte_resetLine (s : State) : (alignByte s).resetLine = s.resetLine := rfl
@[simp] theorem alignByte_istage (s : State) : (alignByte s).istage = s.istage := rfl
@[simp] theorem alignByte_rstage (s : State) : (alignByte s).rstage = s.rstage := rfl
@[simp] theorem alignByte_ret (s : State) : (alignByte s).ret = s.ret := rfl
@[simp] theorem alignByte_freeCount (s : State) : (alignByte s).freeCount = s.freeCount := rfl

/-! ### enterBlock -/

@[simp] theorem enterBlock_phase (f : Bool) (t : BitVec 2) (s : State) : (enterBlock f t s).phase = s.phase := rfl
@[simp] theorem enterBlock_pstate (f : Bool) (t : BitVec 2) (s : State) : (enterBlock f t s).pstate = s.pstate := rfl
@[simp] theorem enterBlock_cur (f : Bool) (t : BitVec 2) (s : State) : (enterBlock f t s).cur = s.cur := rfl
@[simp] theorem enterBlock_bp (f : Bool) (t : BitVec 2) (s : State) : (enterBlock f t s).bp = s.bp := rfl
@[simp] theorem enterBlock_rpos (f : Bool) (t : BitVec 2) (s : State) : (enterBlock f t s).rpos = s.rpos := rfl
@[simp] theorem enterBlock_ckLen (f : Bool) (t : BitVec 2) (s : State) : (enterBlock f t s).ckLen = s.ckLen := rfl
@[simp] theorem enterBlock_ckType (f : Bool) (t : BitVec 2) (s : State) : (enterBlock f t s).ckType = s.ckType := rfl
@[simp] theorem enterBlock_ckPay (f : Bool) (t : BitVec 2) (s : State) : (enterBlock f t s).ckPay = s.ckPay := rfl
@[simp] theorem enterBlock_ckCrc (f : Bool) (t : BitVec 2) (s : State) : (enterBlock f t s).ckCrc = s.ckCrc := rfl
@[simp] theorem enterBlock_crcAcc (f : Bool) (t : BitVec 2) (s : State) : (enterBlock f t s).crcAcc = s.crcAcc := rfl
@[simp] theorem enterBlock_ihWidth (f : Bool) (t : BitVec 2) (s : State) : (enterBlock f t s).ihWidth = s.ihWidth := rfl
@[simp] theorem enterBlock_ihHeight (f : Bool) (t : BitVec 2) (s : State) : (enterBlock f t s).ihHeight = s.ihHeight := rfl
@[simp] theorem enterBlock_ihDepth (f : Bool) (t : BitVec 2) (s : State) : (enterBlock f t s).ihDepth = s.ihDepth := rfl
@[simp] theorem enterBlock_ihCtype (f : Bool) (t : BitVec 2) (s : State) : (enterBlock f t s).ihCtype = s.ihCtype := rfl
@[simp] theorem enterBlock_ihIlace (f : Bool) (t : BitVec 2) (s : State) : (enterBlock f t s).ihIlace = s.ihIlace := rfl
@[simp] theorem enterBlock_plt (f : Bool) (t : BitVec 2) (s : State) : (enterBlock f t s).plt = s.plt := rfl
@[simp] theorem enterBlock_pltN (f : Bool) (t : BitVec 2) (s : State) : (enterBlock f t s).pltN = s.pltN := rfl
@[simp] theorem enterBlock_trnsKey (f : Bool) (t : BitVec 2) (s : State) : (enterBlock f t s).trnsKey = s.trnsKey := rfl
@[simp] theorem enterBlock_trnsA (f : Bool) (t : BitVec 2) (s : State) : (enterBlock f t s).trnsA = s.trnsA := rfl
@[simp] theorem enterBlock_trnsN (f : Bool) (t : BitVec 2) (s : State) : (enterBlock f t s).trnsN = s.trnsN := rfl
@[simp] theorem enterBlock_havePlte (f : Bool) (t : BitVec 2) (s : State) : (enterBlock f t s).havePlte = s.havePlte := rfl
@[simp] theorem enterBlock_haveTrns (f : Bool) (t : BitVec 2) (s : State) : (enterBlock f t s).haveTrns = s.haveTrns := rfl
@[simp] theorem enterBlock_seenIdat (f : Bool) (t : BitVec 2) (s : State) : (enterBlock f t s).seenIdat = s.seenIdat := rfl
@[simp] theorem enterBlock_idatClosed (f : Bool) (t : BitVec 2) (s : State) : (enterBlock f t s).idatClosed = s.idatClosed := rfl
@[simp] theorem enterBlock_zbuf (f : Bool) (t : BitVec 2) (s : State) : (enterBlock f t s).zbuf = s.zbuf := rfl
@[simp] theorem enterBlock_bfinal (f : Bool) (t : BitVec 2) (s : State) : (enterBlock f t s).bfinal = f := rfl
@[simp] theorem enterBlock_btype (f : Bool) (t : BitVec 2) (s : State) : (enterBlock f t s).btype = t := rfl
@[simp] theorem enterBlock_hlit (f : Bool) (t : BitVec 2) (s : State) : (enterBlock f t s).hlit = s.hlit := rfl
@[simp] theorem enterBlock_hdist (f : Bool) (t : BitVec 2) (s : State) : (enterBlock f t s).hdist = s.hdist := rfl
@[simp] theorem enterBlock_hclen (f : Bool) (t : BitVec 2) (s : State) : (enterBlock f t s).hclen = s.hclen := rfl
@[simp] theorem enterBlock_llLen (f : Bool) (t : BitVec 2) (s : State) : (enterBlock f t s).llLen = s.llLen := rfl
@[simp] theorem enterBlock_dLen (f : Bool) (t : BitVec 2) (s : State) : (enterBlock f t s).dLen = s.dLen := rfl
@[simp] theorem enterBlock_clLen (f : Bool) (t : BitVec 2) (s : State) : (enterBlock f t s).clLen = s.clLen := rfl
@[simp] theorem enterBlock_clSeq (f : Bool) (t : BitVec 2) (s : State) : (enterBlock f t s).clSeq = s.clSeq := rfl
@[simp] theorem enterBlock_mlen (f : Bool) (t : BitVec 2) (s : State) : (enterBlock f t s).mlen = s.mlen := rfl
@[simp] theorem enterBlock_adlerA (f : Bool) (t : BitVec 2) (s : State) : (enterBlock f t s).adlerA = s.adlerA := rfl
@[simp] theorem enterBlock_adlerB (f : Bool) (t : BitVec 2) (s : State) : (enterBlock f t s).adlerB = s.adlerB := rfl
@[simp] theorem enterBlock_obuf (f : Bool) (t : BitVec 2) (s : State) : (enterBlock f t s).obuf = s.obuf := rfl
@[simp] theorem enterBlock_pass (f : Bool) (t : BitVec 2) (s : State) : (enterBlock f t s).pass = s.pass := rfl
@[simp] theorem enterBlock_passW (f : Bool) (t : BitVec 2) (s : State) : (enterBlock f t s).passW = s.passW := rfl
@[simp] theorem enterBlock_passH (f : Bool) (t : BitVec 2) (s : State) : (enterBlock f t s).passH = s.passH := rfl
@[simp] theorem enterBlock_row (f : Bool) (t : BitVec 2) (s : State) : (enterBlock f t s).row = s.row := rfl
@[simp] theorem enterBlock_ft (f : Bool) (t : BitVec 2) (s : State) : (enterBlock f t s).ft = s.ft := rfl
@[simp] theorem enterBlock_prev (f : Bool) (t : BitVec 2) (s : State) : (enterBlock f t s).prev = s.prev := rfl
@[simp] theorem enterBlock_currow (f : Bool) (t : BitVec 2) (s : State) : (enterBlock f t s).currow = s.currow := rfl
@[simp] theorem enterBlock_col (f : Bool) (t : BitVec 2) (s : State) : (enterBlock f t s).col = s.col := rfl
@[simp] theorem enterBlock_frame (f : Bool) (t : BitVec 2) (s : State) : (enterBlock f t s).frame = s.frame := rfl
@[simp] theorem enterBlock_outValid (f : Bool) (t : BitVec 2) (s : State) : (enterBlock f t s).outValid = s.outValid := rfl
@[simp] theorem enterBlock_outW (f : Bool) (t : BitVec 2) (s : State) : (enterBlock f t s).outW = s.outW := rfl
@[simp] theorem enterBlock_outH (f : Bool) (t : BitVec 2) (s : State) : (enterBlock f t s).outH = s.outH := rfl
@[simp] theorem enterBlock_out (f : Bool) (t : BitVec 2) (s : State) : (enterBlock f t s).out = s.out := rfl
@[simp] theorem enterBlock_faultKind (f : Bool) (t : BitVec 2) (s : State) : (enterBlock f t s).faultKind = s.faultKind := rfl
@[simp] theorem enterBlock_faultOffset (f : Bool) (t : BitVec 2) (s : State) : (enterBlock f t s).faultOffset = s.faultOffset := rfl
@[simp] theorem enterBlock_cfgMaxPixels (f : Bool) (t : BitVec 2) (s : State) : (enterBlock f t s).cfgMaxPixels = s.cfgMaxPixels := rfl
@[simp] theorem enterBlock_cfgVerifyAdler (f : Bool) (t : BitVec 2) (s : State) : (enterBlock f t s).cfgVerifyAdler = s.cfgVerifyAdler := rfl
@[simp] theorem enterBlock_input (f : Bool) (t : BitVec 2) (s : State) : (enterBlock f t s).input = s.input := rfl
@[simp] theorem enterBlock_cmd (f : Bool) (t : BitVec 2) (s : State) : (enterBlock f t s).cmd = s.cmd := rfl
@[simp] theorem enterBlock_resetLine (f : Bool) (t : BitVec 2) (s : State) : (enterBlock f t s).resetLine = s.resetLine := rfl
@[simp] theorem enterBlock_istage (f : Bool) (t : BitVec 2) (s : State) : (enterBlock f t s).istage = s.istage := rfl
@[simp] theorem enterBlock_rstage (f : Bool) (t : BitVec 2) (s : State) : (enterBlock f t s).rstage = s.rstage := rfl
@[simp] theorem enterBlock_ret (f : Bool) (t : BitVec 2) (s : State) : (enterBlock f t s).ret = s.ret := rfl
@[simp] theorem enterBlock_freeCount (f : Bool) (t : BitVec 2) (s : State) : (enterBlock f t s).freeCount = s.freeCount := rfl

/-! ### endBlock -/

@[simp] theorem endBlock_phase (s : State) : (endBlock s).phase = s.phase := rfl
@[simp] theorem endBlock_pstate (s : State) : (endBlock s).pstate = s.pstate := rfl
@[simp] theorem endBlock_cur (s : State) : (endBlock s).cur = s.cur := rfl
@[simp] theorem endBlock_bp (s : State) : (endBlock s).bp = s.bp := rfl
@[simp] theorem endBlock_rpos (s : State) : (endBlock s).rpos = s.rpos := rfl
@[simp] theorem endBlock_ckLen (s : State) : (endBlock s).ckLen = s.ckLen := rfl
@[simp] theorem endBlock_ckType (s : State) : (endBlock s).ckType = s.ckType := rfl
@[simp] theorem endBlock_ckPay (s : State) : (endBlock s).ckPay = s.ckPay := rfl
@[simp] theorem endBlock_ckCrc (s : State) : (endBlock s).ckCrc = s.ckCrc := rfl
@[simp] theorem endBlock_crcAcc (s : State) : (endBlock s).crcAcc = s.crcAcc := rfl
@[simp] theorem endBlock_ihWidth (s : State) : (endBlock s).ihWidth = s.ihWidth := rfl
@[simp] theorem endBlock_ihHeight (s : State) : (endBlock s).ihHeight = s.ihHeight := rfl
@[simp] theorem endBlock_ihDepth (s : State) : (endBlock s).ihDepth = s.ihDepth := rfl
@[simp] theorem endBlock_ihCtype (s : State) : (endBlock s).ihCtype = s.ihCtype := rfl
@[simp] theorem endBlock_ihIlace (s : State) : (endBlock s).ihIlace = s.ihIlace := rfl
@[simp] theorem endBlock_plt (s : State) : (endBlock s).plt = s.plt := rfl
@[simp] theorem endBlock_pltN (s : State) : (endBlock s).pltN = s.pltN := rfl
@[simp] theorem endBlock_trnsKey (s : State) : (endBlock s).trnsKey = s.trnsKey := rfl
@[simp] theorem endBlock_trnsA (s : State) : (endBlock s).trnsA = s.trnsA := rfl
@[simp] theorem endBlock_trnsN (s : State) : (endBlock s).trnsN = s.trnsN := rfl
@[simp] theorem endBlock_havePlte (s : State) : (endBlock s).havePlte = s.havePlte := rfl
@[simp] theorem endBlock_haveTrns (s : State) : (endBlock s).haveTrns = s.haveTrns := rfl
@[simp] theorem endBlock_seenIdat (s : State) : (endBlock s).seenIdat = s.seenIdat := rfl
@[simp] theorem endBlock_idatClosed (s : State) : (endBlock s).idatClosed = s.idatClosed := rfl
@[simp] theorem endBlock_zbuf (s : State) : (endBlock s).zbuf = s.zbuf := rfl
@[simp] theorem endBlock_bfinal (s : State) : (endBlock s).bfinal = s.bfinal := rfl
@[simp] theorem endBlock_btype (s : State) : (endBlock s).btype = s.btype := rfl
@[simp] theorem endBlock_hlit (s : State) : (endBlock s).hlit = s.hlit := rfl
@[simp] theorem endBlock_hdist (s : State) : (endBlock s).hdist = s.hdist := rfl
@[simp] theorem endBlock_hclen (s : State) : (endBlock s).hclen = s.hclen := rfl
@[simp] theorem endBlock_llLen (s : State) : (endBlock s).llLen = s.llLen := rfl
@[simp] theorem endBlock_dLen (s : State) : (endBlock s).dLen = s.dLen := rfl
@[simp] theorem endBlock_clLen (s : State) : (endBlock s).clLen = s.clLen := rfl
@[simp] theorem endBlock_clSeq (s : State) : (endBlock s).clSeq = s.clSeq := rfl
@[simp] theorem endBlock_mlen (s : State) : (endBlock s).mlen = s.mlen := rfl
@[simp] theorem endBlock_adlerA (s : State) : (endBlock s).adlerA = s.adlerA := rfl
@[simp] theorem endBlock_adlerB (s : State) : (endBlock s).adlerB = s.adlerB := rfl
@[simp] theorem endBlock_obuf (s : State) : (endBlock s).obuf = s.obuf := rfl
@[simp] theorem endBlock_pass (s : State) : (endBlock s).pass = s.pass := rfl
@[simp] theorem endBlock_passW (s : State) : (endBlock s).passW = s.passW := rfl
@[simp] theorem endBlock_passH (s : State) : (endBlock s).passH = s.passH := rfl
@[simp] theorem endBlock_row (s : State) : (endBlock s).row = s.row := rfl
@[simp] theorem endBlock_ft (s : State) : (endBlock s).ft = s.ft := rfl
@[simp] theorem endBlock_prev (s : State) : (endBlock s).prev = s.prev := rfl
@[simp] theorem endBlock_currow (s : State) : (endBlock s).currow = s.currow := rfl
@[simp] theorem endBlock_col (s : State) : (endBlock s).col = s.col := rfl
@[simp] theorem endBlock_frame (s : State) : (endBlock s).frame = s.frame := rfl
@[simp] theorem endBlock_outValid (s : State) : (endBlock s).outValid = s.outValid := rfl
@[simp] theorem endBlock_outW (s : State) : (endBlock s).outW = s.outW := rfl
@[simp] theorem endBlock_outH (s : State) : (endBlock s).outH = s.outH := rfl
@[simp] theorem endBlock_out (s : State) : (endBlock s).out = s.out := rfl
@[simp] theorem endBlock_faultKind (s : State) : (endBlock s).faultKind = s.faultKind := rfl
@[simp] theorem endBlock_faultOffset (s : State) : (endBlock s).faultOffset = s.faultOffset := rfl
@[simp] theorem endBlock_cfgMaxPixels (s : State) : (endBlock s).cfgMaxPixels = s.cfgMaxPixels := rfl
@[simp] theorem endBlock_cfgVerifyAdler (s : State) : (endBlock s).cfgVerifyAdler = s.cfgVerifyAdler := rfl
@[simp] theorem endBlock_input (s : State) : (endBlock s).input = s.input := rfl
@[simp] theorem endBlock_cmd (s : State) : (endBlock s).cmd = s.cmd := rfl
@[simp] theorem endBlock_resetLine (s : State) : (endBlock s).resetLine = s.resetLine := rfl
@[simp] theorem endBlock_istage (s : State) : (endBlock s).istage = if s.bfinal then .trailer else .block := rfl
@[simp] theorem endBlock_rstage (s : State) : (endBlock s).rstage = s.rstage := rfl
@[simp] theorem endBlock_ret (s : State) : (endBlock s).ret = s.ret := rfl
@[simp] theorem endBlock_freeCount (s : State) : (endBlock s).freeCount = s.freeCount := rfl

/-! ### assignLengths -/

@[simp] theorem assignLengths_phase (s : State) : (assignLengths s).phase = s.phase := rfl
@[simp] theorem assignLengths_pstate (s : State) : (assignLengths s).pstate = s.pstate := rfl
@[simp] theorem assignLengths_cur (s : State) : (assignLengths s).cur = s.cur := rfl
@[simp] theorem assignLengths_bp (s : State) : (assignLengths s).bp = s.bp := rfl
@[simp] theorem assignLengths_rpos (s : State) : (assignLengths s).rpos = s.rpos := rfl
@[simp] theorem assignLengths_ckLen (s : State) : (assignLengths s).ckLen = s.ckLen := rfl
@[simp] theorem assignLengths_ckType (s : State) : (assignLengths s).ckType = s.ckType := rfl
@[simp] theorem assignLengths_ckPay (s : State) : (assignLengths s).ckPay = s.ckPay := rfl
@[simp] theorem assignLengths_ckCrc (s : State) : (assignLengths s).ckCrc = s.ckCrc := rfl
@[simp] theorem assignLengths_crcAcc (s : State) : (assignLengths s).crcAcc = s.crcAcc := rfl
@[simp] theorem assignLengths_ihWidth (s : State) : (assignLengths s).ihWidth = s.ihWidth := rfl
@[simp] theorem assignLengths_ihHeight (s : State) : (assignLengths s).ihHeight = s.ihHeight := rfl
@[simp] theorem assignLengths_ihDepth (s : State) : (assignLengths s).ihDepth = s.ihDepth := rfl
@[simp] theorem assignLengths_ihCtype (s : State) : (assignLengths s).ihCtype = s.ihCtype := rfl
@[simp] theorem assignLengths_ihIlace (s : State) : (assignLengths s).ihIlace = s.ihIlace := rfl
@[simp] theorem assignLengths_plt (s : State) : (assignLengths s).plt = s.plt := rfl
@[simp] theorem assignLengths_pltN (s : State) : (assignLengths s).pltN = s.pltN := rfl
@[simp] theorem assignLengths_trnsKey (s : State) : (assignLengths s).trnsKey = s.trnsKey := rfl
@[simp] theorem assignLengths_trnsA (s : State) : (assignLengths s).trnsA = s.trnsA := rfl
@[simp] theorem assignLengths_trnsN (s : State) : (assignLengths s).trnsN = s.trnsN := rfl
@[simp] theorem assignLengths_havePlte (s : State) : (assignLengths s).havePlte = s.havePlte := rfl
@[simp] theorem assignLengths_haveTrns (s : State) : (assignLengths s).haveTrns = s.haveTrns := rfl
@[simp] theorem assignLengths_seenIdat (s : State) : (assignLengths s).seenIdat = s.seenIdat := rfl
@[simp] theorem assignLengths_idatClosed (s : State) : (assignLengths s).idatClosed = s.idatClosed := rfl
@[simp] theorem assignLengths_zbuf (s : State) : (assignLengths s).zbuf = s.zbuf := rfl
@[simp] theorem assignLengths_bfinal (s : State) : (assignLengths s).bfinal = s.bfinal := rfl
@[simp] theorem assignLengths_btype (s : State) : (assignLengths s).btype = s.btype := rfl
@[simp] theorem assignLengths_hlit (s : State) : (assignLengths s).hlit = s.hlit := rfl
@[simp] theorem assignLengths_hdist (s : State) : (assignLengths s).hdist = s.hdist := rfl
@[simp] theorem assignLengths_hclen (s : State) : (assignLengths s).hclen = s.hclen := rfl
@[simp] theorem assignLengths_llLen (s : State) : (assignLengths s).llLen = padLens 288 (s.clSeq.take s.hlit) := rfl
@[simp] theorem assignLengths_dLen (s : State) : (assignLengths s).dLen = padLens 32 ((s.clSeq.drop s.hlit).take s.hdist) := rfl
@[simp] theorem assignLengths_clLen (s : State) : (assignLengths s).clLen = s.clLen := rfl
@[simp] theorem assignLengths_clSeq (s : State) : (assignLengths s).clSeq = s.clSeq := rfl
@[simp] theorem assignLengths_mlen (s : State) : (assignLengths s).mlen = s.mlen := rfl
@[simp] theorem assignLengths_adlerA (s : State) : (assignLengths s).adlerA = s.adlerA := rfl
@[simp] theorem assignLengths_adlerB (s : State) : (assignLengths s).adlerB = s.adlerB := rfl
@[simp] theorem assignLengths_obuf (s : State) : (assignLengths s).obuf = s.obuf := rfl
@[simp] theorem assignLengths_pass (s : State) : (assignLengths s).pass = s.pass := rfl
@[simp] theorem assignLengths_passW (s : State) : (assignLengths s).passW = s.passW := rfl
@[simp] theorem assignLengths_passH (s : State) : (assignLengths s).passH = s.passH := rfl
@[simp] theorem assignLengths_row (s : State) : (assignLengths s).row = s.row := rfl
@[simp] theorem assignLengths_ft (s : State) : (assignLengths s).ft = s.ft := rfl
@[simp] theorem assignLengths_prev (s : State) : (assignLengths s).prev = s.prev := rfl
@[simp] theorem assignLengths_currow (s : State) : (assignLengths s).currow = s.currow := rfl
@[simp] theorem assignLengths_col (s : State) : (assignLengths s).col = s.col := rfl
@[simp] theorem assignLengths_frame (s : State) : (assignLengths s).frame = s.frame := rfl
@[simp] theorem assignLengths_outValid (s : State) : (assignLengths s).outValid = s.outValid := rfl
@[simp] theorem assignLengths_outW (s : State) : (assignLengths s).outW = s.outW := rfl
@[simp] theorem assignLengths_outH (s : State) : (assignLengths s).outH = s.outH := rfl
@[simp] theorem assignLengths_out (s : State) : (assignLengths s).out = s.out := rfl
@[simp] theorem assignLengths_faultKind (s : State) : (assignLengths s).faultKind = s.faultKind := rfl
@[simp] theorem assignLengths_faultOffset (s : State) : (assignLengths s).faultOffset = s.faultOffset := rfl
@[simp] theorem assignLengths_cfgMaxPixels (s : State) : (assignLengths s).cfgMaxPixels = s.cfgMaxPixels := rfl
@[simp] theorem assignLengths_cfgVerifyAdler (s : State) : (assignLengths s).cfgVerifyAdler = s.cfgVerifyAdler := rfl
@[simp] theorem assignLengths_input (s : State) : (assignLengths s).input = s.input := rfl
@[simp] theorem assignLengths_cmd (s : State) : (assignLengths s).cmd = s.cmd := rfl
@[simp] theorem assignLengths_resetLine (s : State) : (assignLengths s).resetLine = s.resetLine := rfl
@[simp] theorem assignLengths_istage (s : State) : (assignLengths s).istage = s.istage := rfl
@[simp] theorem assignLengths_rstage (s : State) : (assignLengths s).rstage = s.rstage := rfl
@[simp] theorem assignLengths_ret (s : State) : (assignLengths s).ret = s.ret := rfl
@[simp] theorem assignLengths_freeCount (s : State) : (assignLengths s).freeCount = s.freeCount := rfl

/-! ### startPass -/

@[simp] theorem startPass_phase (bits : Nat) (p : Fin 8) (s : State) : (startPass bits p s).phase = s.phase := rfl
@[simp] theorem startPass_pstate (bits : Nat) (p : Fin 8) (s : State) : (startPass bits p s).pstate = s.pstate := rfl
@[simp] theorem startPass_cur (bits : Nat) (p : Fin 8) (s : State) : (startPass bits p s).cur = s.cur := rfl
@[simp] theorem startPass_bp (bits : Nat) (p : Fin 8) (s : State) : (startPass bits p s).bp = s.bp := rfl
@[simp] theorem startPass_rpos (bits : Nat) (p : Fin 8) (s : State) : (startPass bits p s).rpos = s.rpos := rfl
@[simp] theorem startPass_ckLen (bits : Nat) (p : Fin 8) (s : State) : (startPass bits p s).ckLen = s.ckLen := rfl
@[simp] theorem startPass_ckType (bits : Nat) (p : Fin 8) (s : State) : (startPass bits p s).ckType = s.ckType := rfl
@[simp] theorem startPass_ckPay (bits : Nat) (p : Fin 8) (s : State) : (startPass bits p s).ckPay = s.ckPay := rfl
@[simp] theorem startPass_ckCrc (bits : Nat) (p : Fin 8) (s : State) : (startPass bits p s).ckCrc = s.ckCrc := rfl
@[simp] theorem startPass_crcAcc (bits : Nat) (p : Fin 8) (s : State) : (startPass bits p s).crcAcc = s.crcAcc := rfl
@[simp] theorem startPass_ihWidth (bits : Nat) (p : Fin 8) (s : State) : (startPass bits p s).ihWidth = s.ihWidth := rfl
@[simp] theorem startPass_ihHeight (bits : Nat) (p : Fin 8) (s : State) : (startPass bits p s).ihHeight = s.ihHeight := rfl
@[simp] theorem startPass_ihDepth (bits : Nat) (p : Fin 8) (s : State) : (startPass bits p s).ihDepth = s.ihDepth := rfl
@[simp] theorem startPass_ihCtype (bits : Nat) (p : Fin 8) (s : State) : (startPass bits p s).ihCtype = s.ihCtype := rfl
@[simp] theorem startPass_ihIlace (bits : Nat) (p : Fin 8) (s : State) : (startPass bits p s).ihIlace = s.ihIlace := rfl
@[simp] theorem startPass_plt (bits : Nat) (p : Fin 8) (s : State) : (startPass bits p s).plt = s.plt := rfl
@[simp] theorem startPass_pltN (bits : Nat) (p : Fin 8) (s : State) : (startPass bits p s).pltN = s.pltN := rfl
@[simp] theorem startPass_trnsKey (bits : Nat) (p : Fin 8) (s : State) : (startPass bits p s).trnsKey = s.trnsKey := rfl
@[simp] theorem startPass_trnsA (bits : Nat) (p : Fin 8) (s : State) : (startPass bits p s).trnsA = s.trnsA := rfl
@[simp] theorem startPass_trnsN (bits : Nat) (p : Fin 8) (s : State) : (startPass bits p s).trnsN = s.trnsN := rfl
@[simp] theorem startPass_havePlte (bits : Nat) (p : Fin 8) (s : State) : (startPass bits p s).havePlte = s.havePlte := rfl
@[simp] theorem startPass_haveTrns (bits : Nat) (p : Fin 8) (s : State) : (startPass bits p s).haveTrns = s.haveTrns := rfl
@[simp] theorem startPass_seenIdat (bits : Nat) (p : Fin 8) (s : State) : (startPass bits p s).seenIdat = s.seenIdat := rfl
@[simp] theorem startPass_idatClosed (bits : Nat) (p : Fin 8) (s : State) : (startPass bits p s).idatClosed = s.idatClosed := rfl
@[simp] theorem startPass_zbuf (bits : Nat) (p : Fin 8) (s : State) : (startPass bits p s).zbuf = s.zbuf := rfl
@[simp] theorem startPass_bfinal (bits : Nat) (p : Fin 8) (s : State) : (startPass bits p s).bfinal = s.bfinal := rfl
@[simp] theorem startPass_btype (bits : Nat) (p : Fin 8) (s : State) : (startPass bits p s).btype = s.btype := rfl
@[simp] theorem startPass_hlit (bits : Nat) (p : Fin 8) (s : State) : (startPass bits p s).hlit = s.hlit := rfl
@[simp] theorem startPass_hdist (bits : Nat) (p : Fin 8) (s : State) : (startPass bits p s).hdist = s.hdist := rfl
@[simp] theorem startPass_hclen (bits : Nat) (p : Fin 8) (s : State) : (startPass bits p s).hclen = s.hclen := rfl
@[simp] theorem startPass_llLen (bits : Nat) (p : Fin 8) (s : State) : (startPass bits p s).llLen = s.llLen := rfl
@[simp] theorem startPass_dLen (bits : Nat) (p : Fin 8) (s : State) : (startPass bits p s).dLen = s.dLen := rfl
@[simp] theorem startPass_clLen (bits : Nat) (p : Fin 8) (s : State) : (startPass bits p s).clLen = s.clLen := rfl
@[simp] theorem startPass_clSeq (bits : Nat) (p : Fin 8) (s : State) : (startPass bits p s).clSeq = s.clSeq := rfl
@[simp] theorem startPass_mlen (bits : Nat) (p : Fin 8) (s : State) : (startPass bits p s).mlen = s.mlen := rfl
@[simp] theorem startPass_adlerA (bits : Nat) (p : Fin 8) (s : State) : (startPass bits p s).adlerA = s.adlerA := rfl
@[simp] theorem startPass_adlerB (bits : Nat) (p : Fin 8) (s : State) : (startPass bits p s).adlerB = s.adlerB := rfl
@[simp] theorem startPass_obuf (bits : Nat) (p : Fin 8) (s : State) : (startPass bits p s).obuf = s.obuf := rfl
@[simp] theorem startPass_pass (bits : Nat) (p : Fin 8) (s : State) : (startPass bits p s).pass = BitVec.ofNat 3 p.val := rfl
@[simp] theorem startPass_passW (bits : Nat) (p : Fin 8) (s : State) : (startPass bits p s).passW = BitVec.ofNat 32 (passWidth p s) := rfl
@[simp] theorem startPass_passH (bits : Nat) (p : Fin 8) (s : State) : (startPass bits p s).passH = BitVec.ofNat 32 (passHeight p s) := rfl
@[simp] theorem startPass_row (bits : Nat) (p : Fin 8) (s : State) : (startPass bits p s).row = 0 := rfl
@[simp] theorem startPass_ft (bits : Nat) (p : Fin 8) (s : State) : (startPass bits p s).ft = s.ft := rfl
@[simp] theorem startPass_prev (bits : Nat) (p : Fin 8) (s : State) : (startPass bits p s).prev = List.replicate (rowbytesOf bits (passWidth p s)) 0 := rfl
@[simp] theorem startPass_currow (bits : Nat) (p : Fin 8) (s : State) : (startPass bits p s).currow = freeRow s.freeCount (rowbytesOf bits (passWidth p s)) := rfl
@[simp] theorem startPass_col (bits : Nat) (p : Fin 8) (s : State) : (startPass bits p s).col = s.col := rfl
@[simp] theorem startPass_frame (bits : Nat) (p : Fin 8) (s : State) : (startPass bits p s).frame = s.frame := rfl
@[simp] theorem startPass_outValid (bits : Nat) (p : Fin 8) (s : State) : (startPass bits p s).outValid = s.outValid := rfl
@[simp] theorem startPass_outW (bits : Nat) (p : Fin 8) (s : State) : (startPass bits p s).outW = s.outW := rfl
@[simp] theorem startPass_outH (bits : Nat) (p : Fin 8) (s : State) : (startPass bits p s).outH = s.outH := rfl
@[simp] theorem startPass_out (bits : Nat) (p : Fin 8) (s : State) : (startPass bits p s).out = s.out := rfl
@[simp] theorem startPass_faultKind (bits : Nat) (p : Fin 8) (s : State) : (startPass bits p s).faultKind = s.faultKind := rfl
@[simp] theorem startPass_faultOffset (bits : Nat) (p : Fin 8) (s : State) : (startPass bits p s).faultOffset = s.faultOffset := rfl
@[simp] theorem startPass_cfgMaxPixels (bits : Nat) (p : Fin 8) (s : State) : (startPass bits p s).cfgMaxPixels = s.cfgMaxPixels := rfl
@[simp] theorem startPass_cfgVerifyAdler (bits : Nat) (p : Fin 8) (s : State) : (startPass bits p s).cfgVerifyAdler = s.cfgVerifyAdler := rfl
@[simp] theorem startPass_input (bits : Nat) (p : Fin 8) (s : State) : (startPass bits p s).input = s.input := rfl
@[simp] theorem startPass_cmd (bits : Nat) (p : Fin 8) (s : State) : (startPass bits p s).cmd = s.cmd := rfl
@[simp] theorem startPass_resetLine (bits : Nat) (p : Fin 8) (s : State) : (startPass bits p s).resetLine = s.resetLine := rfl
@[simp] theorem startPass_istage (bits : Nat) (p : Fin 8) (s : State) : (startPass bits p s).istage = s.istage := rfl
@[simp] theorem startPass_rstage (bits : Nat) (p : Fin 8) (s : State) : (startPass bits p s).rstage = .row := rfl
@[simp] theorem startPass_ret (bits : Nat) (p : Fin 8) (s : State) : (startPass bits p s).ret = s.ret := rfl
@[simp] theorem startPass_freeCount (bits : Nat) (p : Fin 8) (s : State) : (startPass bits p s).freeCount = s.freeCount + 1 := rfl

/-! ### endRow -/

@[simp] theorem endRow_phase (s : State) : (endRow s).phase = s.phase := rfl
@[simp] theorem endRow_pstate (s : State) : (endRow s).pstate = s.pstate := rfl
@[simp] theorem endRow_cur (s : State) : (endRow s).cur = s.cur := rfl
@[simp] theorem endRow_bp (s : State) : (endRow s).bp = s.bp := rfl
@[simp] theorem endRow_rpos (s : State) : (endRow s).rpos = s.rpos := rfl
@[simp] theorem endRow_ckLen (s : State) : (endRow s).ckLen = s.ckLen := rfl
@[simp] theorem endRow_ckType (s : State) : (endRow s).ckType = s.ckType := rfl
@[simp] theorem endRow_ckPay (s : State) : (endRow s).ckPay = s.ckPay := rfl
@[simp] theorem endRow_ckCrc (s : State) : (endRow s).ckCrc = s.ckCrc := rfl
@[simp] theorem endRow_crcAcc (s : State) : (endRow s).crcAcc = s.crcAcc := rfl
@[simp] theorem endRow_ihWidth (s : State) : (endRow s).ihWidth = s.ihWidth := rfl
@[simp] theorem endRow_ihHeight (s : State) : (endRow s).ihHeight = s.ihHeight := rfl
@[simp] theorem endRow_ihDepth (s : State) : (endRow s).ihDepth = s.ihDepth := rfl
@[simp] theorem endRow_ihCtype (s : State) : (endRow s).ihCtype = s.ihCtype := rfl
@[simp] theorem endRow_ihIlace (s : State) : (endRow s).ihIlace = s.ihIlace := rfl
@[simp] theorem endRow_plt (s : State) : (endRow s).plt = s.plt := rfl
@[simp] theorem endRow_pltN (s : State) : (endRow s).pltN = s.pltN := rfl
@[simp] theorem endRow_trnsKey (s : State) : (endRow s).trnsKey = s.trnsKey := rfl
@[simp] theorem endRow_trnsA (s : State) : (endRow s).trnsA = s.trnsA := rfl
@[simp] theorem endRow_trnsN (s : State) : (endRow s).trnsN = s.trnsN := rfl
@[simp] theorem endRow_havePlte (s : State) : (endRow s).havePlte = s.havePlte := rfl
@[simp] theorem endRow_haveTrns (s : State) : (endRow s).haveTrns = s.haveTrns := rfl
@[simp] theorem endRow_seenIdat (s : State) : (endRow s).seenIdat = s.seenIdat := rfl
@[simp] theorem endRow_idatClosed (s : State) : (endRow s).idatClosed = s.idatClosed := rfl
@[simp] theorem endRow_zbuf (s : State) : (endRow s).zbuf = s.zbuf := rfl
@[simp] theorem endRow_bfinal (s : State) : (endRow s).bfinal = s.bfinal := rfl
@[simp] theorem endRow_btype (s : State) : (endRow s).btype = s.btype := rfl
@[simp] theorem endRow_hlit (s : State) : (endRow s).hlit = s.hlit := rfl
@[simp] theorem endRow_hdist (s : State) : (endRow s).hdist = s.hdist := rfl
@[simp] theorem endRow_hclen (s : State) : (endRow s).hclen = s.hclen := rfl
@[simp] theorem endRow_llLen (s : State) : (endRow s).llLen = s.llLen := rfl
@[simp] theorem endRow_dLen (s : State) : (endRow s).dLen = s.dLen := rfl
@[simp] theorem endRow_clLen (s : State) : (endRow s).clLen = s.clLen := rfl
@[simp] theorem endRow_clSeq (s : State) : (endRow s).clSeq = s.clSeq := rfl
@[simp] theorem endRow_mlen (s : State) : (endRow s).mlen = s.mlen := rfl
@[simp] theorem endRow_adlerA (s : State) : (endRow s).adlerA = s.adlerA := rfl
@[simp] theorem endRow_adlerB (s : State) : (endRow s).adlerB = s.adlerB := rfl
@[simp] theorem endRow_obuf (s : State) : (endRow s).obuf = s.obuf := rfl
@[simp] theorem endRow_pass (s : State) : (endRow s).pass = s.pass := rfl
@[simp] theorem endRow_passW (s : State) : (endRow s).passW = s.passW := rfl
@[simp] theorem endRow_passH (s : State) : (endRow s).passH = s.passH := rfl
@[simp] theorem endRow_row (s : State) : (endRow s).row = s.row + 1 := rfl
@[simp] theorem endRow_ft (s : State) : (endRow s).ft = s.ft := rfl
@[simp] theorem endRow_prev (s : State) : (endRow s).prev = s.currow := rfl
@[simp] theorem endRow_currow (s : State) : (endRow s).currow = s.currow := rfl
@[simp] theorem endRow_col (s : State) : (endRow s).col = s.col := rfl
@[simp] theorem endRow_frame (s : State) : (endRow s).frame = s.frame := rfl
@[simp] theorem endRow_outValid (s : State) : (endRow s).outValid = s.outValid := rfl
@[simp] theorem endRow_outW (s : State) : (endRow s).outW = s.outW := rfl
@[simp] theorem endRow_outH (s : State) : (endRow s).outH = s.outH := rfl
@[simp] theorem endRow_out (s : State) : (endRow s).out = s.out := rfl
@[simp] theorem endRow_faultKind (s : State) : (endRow s).faultKind = s.faultKind := rfl
@[simp] theorem endRow_faultOffset (s : State) : (endRow s).faultOffset = s.faultOffset := rfl
@[simp] theorem endRow_cfgMaxPixels (s : State) : (endRow s).cfgMaxPixels = s.cfgMaxPixels := rfl
@[simp] theorem endRow_cfgVerifyAdler (s : State) : (endRow s).cfgVerifyAdler = s.cfgVerifyAdler := rfl
@[simp] theorem endRow_input (s : State) : (endRow s).input = s.input := rfl
@[simp] theorem endRow_cmd (s : State) : (endRow s).cmd = s.cmd := rfl
@[simp] theorem endRow_resetLine (s : State) : (endRow s).resetLine = s.resetLine := rfl
@[simp] theorem endRow_istage (s : State) : (endRow s).istage = s.istage := rfl
@[simp] theorem endRow_rstage (s : State) : (endRow s).rstage = .row := rfl
@[simp] theorem endRow_ret (s : State) : (endRow s).ret = s.ret := rfl
@[simp] theorem endRow_freeCount (s : State) : (endRow s).freeCount = s.freeCount := rfl

/-! ### endPass -/

@[simp] theorem endPass_phase (s : State) : (endPass s).phase = s.phase := rfl
@[simp] theorem endPass_pstate (s : State) : (endPass s).pstate = s.pstate := rfl
@[simp] theorem endPass_cur (s : State) : (endPass s).cur = s.cur := rfl
@[simp] theorem endPass_bp (s : State) : (endPass s).bp = s.bp := rfl
@[simp] theorem endPass_rpos (s : State) : (endPass s).rpos = s.rpos := rfl
@[simp] theorem endPass_ckLen (s : State) : (endPass s).ckLen = s.ckLen := rfl
@[simp] theorem endPass_ckType (s : State) : (endPass s).ckType = s.ckType := rfl
@[simp] theorem endPass_ckPay (s : State) : (endPass s).ckPay = s.ckPay := rfl
@[simp] theorem endPass_ckCrc (s : State) : (endPass s).ckCrc = s.ckCrc := rfl
@[simp] theorem endPass_crcAcc (s : State) : (endPass s).crcAcc = s.crcAcc := rfl
@[simp] theorem endPass_ihWidth (s : State) : (endPass s).ihWidth = s.ihWidth := rfl
@[simp] theorem endPass_ihHeight (s : State) : (endPass s).ihHeight = s.ihHeight := rfl
@[simp] theorem endPass_ihDepth (s : State) : (endPass s).ihDepth = s.ihDepth := rfl
@[simp] theorem endPass_ihCtype (s : State) : (endPass s).ihCtype = s.ihCtype := rfl
@[simp] theorem endPass_ihIlace (s : State) : (endPass s).ihIlace = s.ihIlace := rfl
@[simp] theorem endPass_plt (s : State) : (endPass s).plt = s.plt := rfl
@[simp] theorem endPass_pltN (s : State) : (endPass s).pltN = s.pltN := rfl
@[simp] theorem endPass_trnsKey (s : State) : (endPass s).trnsKey = s.trnsKey := rfl
@[simp] theorem endPass_trnsA (s : State) : (endPass s).trnsA = s.trnsA := rfl
@[simp] theorem endPass_trnsN (s : State) : (endPass s).trnsN = s.trnsN := rfl
@[simp] theorem endPass_havePlte (s : State) : (endPass s).havePlte = s.havePlte := rfl
@[simp] theorem endPass_haveTrns (s : State) : (endPass s).haveTrns = s.haveTrns := rfl
@[simp] theorem endPass_seenIdat (s : State) : (endPass s).seenIdat = s.seenIdat := rfl
@[simp] theorem endPass_idatClosed (s : State) : (endPass s).idatClosed = s.idatClosed := rfl
@[simp] theorem endPass_zbuf (s : State) : (endPass s).zbuf = s.zbuf := rfl
@[simp] theorem endPass_bfinal (s : State) : (endPass s).bfinal = s.bfinal := rfl
@[simp] theorem endPass_btype (s : State) : (endPass s).btype = s.btype := rfl
@[simp] theorem endPass_hlit (s : State) : (endPass s).hlit = s.hlit := rfl
@[simp] theorem endPass_hdist (s : State) : (endPass s).hdist = s.hdist := rfl
@[simp] theorem endPass_hclen (s : State) : (endPass s).hclen = s.hclen := rfl
@[simp] theorem endPass_llLen (s : State) : (endPass s).llLen = s.llLen := rfl
@[simp] theorem endPass_dLen (s : State) : (endPass s).dLen = s.dLen := rfl
@[simp] theorem endPass_clLen (s : State) : (endPass s).clLen = s.clLen := rfl
@[simp] theorem endPass_clSeq (s : State) : (endPass s).clSeq = s.clSeq := rfl
@[simp] theorem endPass_mlen (s : State) : (endPass s).mlen = s.mlen := rfl
@[simp] theorem endPass_adlerA (s : State) : (endPass s).adlerA = s.adlerA := rfl
@[simp] theorem endPass_adlerB (s : State) : (endPass s).adlerB = s.adlerB := rfl
@[simp] theorem endPass_obuf (s : State) : (endPass s).obuf = s.obuf := rfl
@[simp] theorem endPass_pass (s : State) : (endPass s).pass = s.pass := rfl
@[simp] theorem endPass_passW (s : State) : (endPass s).passW = s.passW := rfl
@[simp] theorem endPass_passH (s : State) : (endPass s).passH = s.passH := rfl
@[simp] theorem endPass_row (s : State) : (endPass s).row = s.row := rfl
@[simp] theorem endPass_ft (s : State) : (endPass s).ft = s.ft := rfl
@[simp] theorem endPass_prev (s : State) : (endPass s).prev = s.prev := rfl
@[simp] theorem endPass_currow (s : State) : (endPass s).currow = s.currow := rfl
@[simp] theorem endPass_col (s : State) : (endPass s).col = s.col := rfl
@[simp] theorem endPass_frame (s : State) : (endPass s).frame = s.frame := rfl
@[simp] theorem endPass_outValid (s : State) : (endPass s).outValid = s.outValid := rfl
@[simp] theorem endPass_outW (s : State) : (endPass s).outW = s.outW := rfl
@[simp] theorem endPass_outH (s : State) : (endPass s).outH = s.outH := rfl
@[simp] theorem endPass_out (s : State) : (endPass s).out = s.out := rfl
@[simp] theorem endPass_faultKind (s : State) : (endPass s).faultKind = s.faultKind := rfl
@[simp] theorem endPass_faultOffset (s : State) : (endPass s).faultOffset = s.faultOffset := rfl
@[simp] theorem endPass_cfgMaxPixels (s : State) : (endPass s).cfgMaxPixels = s.cfgMaxPixels := rfl
@[simp] theorem endPass_cfgVerifyAdler (s : State) : (endPass s).cfgVerifyAdler = s.cfgVerifyAdler := rfl
@[simp] theorem endPass_input (s : State) : (endPass s).input = s.input := rfl
@[simp] theorem endPass_cmd (s : State) : (endPass s).cmd = s.cmd := rfl
@[simp] theorem endPass_resetLine (s : State) : (endPass s).resetLine = s.resetLine := rfl
@[simp] theorem endPass_istage (s : State) : (endPass s).istage = s.istage := rfl
@[simp] theorem endPass_rstage (s : State) : (endPass s).rstage = stageAfterPass s.pass.toFin := rfl
@[simp] theorem endPass_ret (s : State) : (endPass s).ret = s.ret := rfl
@[simp] theorem endPass_freeCount (s : State) : (endPass s).freeCount = s.freeCount := rfl

/-! ### commit -/

@[simp] theorem commit_phase (s : State) : (commit s).phase = .done := rfl
@[simp] theorem commit_pstate (s : State) : (commit s).pstate = s.pstate := rfl
@[simp] theorem commit_cur (s : State) : (commit s).cur = s.cur := rfl
@[simp] theorem commit_bp (s : State) : (commit s).bp = s.bp := rfl
@[simp] theorem commit_rpos (s : State) : (commit s).rpos = s.rpos := rfl
@[simp] theorem commit_ckLen (s : State) : (commit s).ckLen = s.ckLen := rfl
@[simp] theorem commit_ckType (s : State) : (commit s).ckType = s.ckType := rfl
@[simp] theorem commit_ckPay (s : State) : (commit s).ckPay = s.ckPay := rfl
@[simp] theorem commit_ckCrc (s : State) : (commit s).ckCrc = s.ckCrc := rfl
@[simp] theorem commit_crcAcc (s : State) : (commit s).crcAcc = s.crcAcc := rfl
@[simp] theorem commit_ihWidth (s : State) : (commit s).ihWidth = s.ihWidth := rfl
@[simp] theorem commit_ihHeight (s : State) : (commit s).ihHeight = s.ihHeight := rfl
@[simp] theorem commit_ihDepth (s : State) : (commit s).ihDepth = s.ihDepth := rfl
@[simp] theorem commit_ihCtype (s : State) : (commit s).ihCtype = s.ihCtype := rfl
@[simp] theorem commit_ihIlace (s : State) : (commit s).ihIlace = s.ihIlace := rfl
@[simp] theorem commit_plt (s : State) : (commit s).plt = s.plt := rfl
@[simp] theorem commit_pltN (s : State) : (commit s).pltN = s.pltN := rfl
@[simp] theorem commit_trnsKey (s : State) : (commit s).trnsKey = s.trnsKey := rfl
@[simp] theorem commit_trnsA (s : State) : (commit s).trnsA = s.trnsA := rfl
@[simp] theorem commit_trnsN (s : State) : (commit s).trnsN = s.trnsN := rfl
@[simp] theorem commit_havePlte (s : State) : (commit s).havePlte = s.havePlte := rfl
@[simp] theorem commit_haveTrns (s : State) : (commit s).haveTrns = s.haveTrns := rfl
@[simp] theorem commit_seenIdat (s : State) : (commit s).seenIdat = s.seenIdat := rfl
@[simp] theorem commit_idatClosed (s : State) : (commit s).idatClosed = s.idatClosed := rfl
@[simp] theorem commit_zbuf (s : State) : (commit s).zbuf = s.zbuf := rfl
@[simp] theorem commit_bfinal (s : State) : (commit s).bfinal = s.bfinal := rfl
@[simp] theorem commit_btype (s : State) : (commit s).btype = s.btype := rfl
@[simp] theorem commit_hlit (s : State) : (commit s).hlit = s.hlit := rfl
@[simp] theorem commit_hdist (s : State) : (commit s).hdist = s.hdist := rfl
@[simp] theorem commit_hclen (s : State) : (commit s).hclen = s.hclen := rfl
@[simp] theorem commit_llLen (s : State) : (commit s).llLen = s.llLen := rfl
@[simp] theorem commit_dLen (s : State) : (commit s).dLen = s.dLen := rfl
@[simp] theorem commit_clLen (s : State) : (commit s).clLen = s.clLen := rfl
@[simp] theorem commit_clSeq (s : State) : (commit s).clSeq = s.clSeq := rfl
@[simp] theorem commit_mlen (s : State) : (commit s).mlen = s.mlen := rfl
@[simp] theorem commit_adlerA (s : State) : (commit s).adlerA = s.adlerA := rfl
@[simp] theorem commit_adlerB (s : State) : (commit s).adlerB = s.adlerB := rfl
@[simp] theorem commit_obuf (s : State) : (commit s).obuf = s.obuf := rfl
@[simp] theorem commit_pass (s : State) : (commit s).pass = s.pass := rfl
@[simp] theorem commit_passW (s : State) : (commit s).passW = s.passW := rfl
@[simp] theorem commit_passH (s : State) : (commit s).passH = s.passH := rfl
@[simp] theorem commit_row (s : State) : (commit s).row = s.row := rfl
@[simp] theorem commit_ft (s : State) : (commit s).ft = s.ft := rfl
@[simp] theorem commit_prev (s : State) : (commit s).prev = s.prev := rfl
@[simp] theorem commit_currow (s : State) : (commit s).currow = s.currow := rfl
@[simp] theorem commit_col (s : State) : (commit s).col = s.col := rfl
@[simp] theorem commit_frame (s : State) : (commit s).frame = s.frame := rfl
@[simp] theorem commit_outValid (s : State) : (commit s).outValid = true := rfl
@[simp] theorem commit_outW (s : State) : (commit s).outW = s.ihWidth := rfl
@[simp] theorem commit_outH (s : State) : (commit s).outH = s.ihHeight := rfl
@[simp] theorem commit_out (s : State) : (commit s).out = s.frame := rfl
@[simp] theorem commit_faultKind (s : State) : (commit s).faultKind = s.faultKind := rfl
@[simp] theorem commit_faultOffset (s : State) : (commit s).faultOffset = s.faultOffset := rfl
@[simp] theorem commit_cfgMaxPixels (s : State) : (commit s).cfgMaxPixels = s.cfgMaxPixels := rfl
@[simp] theorem commit_cfgVerifyAdler (s : State) : (commit s).cfgVerifyAdler = s.cfgVerifyAdler := rfl
@[simp] theorem commit_input (s : State) : (commit s).input = [] := rfl
@[simp] theorem commit_cmd (s : State) : (commit s).cmd = s.cmd := rfl
@[simp] theorem commit_resetLine (s : State) : (commit s).resetLine = s.resetLine := rfl
@[simp] theorem commit_istage (s : State) : (commit s).istage = s.istage := rfl
@[simp] theorem commit_rstage (s : State) : (commit s).rstage = s.rstage := rfl
@[simp] theorem commit_ret (s : State) : (commit s).ret = s.ret := rfl
@[simp] theorem commit_freeCount (s : State) : (commit s).freeCount = s.freeCount := rfl

/-! ### hardwareReset -/

@[simp] theorem hardwareReset_phase (s : State) : (hardwareReset s).phase = State.reset.phase := rfl
@[simp] theorem hardwareReset_pstate (s : State) : (hardwareReset s).pstate = State.reset.pstate := rfl
@[simp] theorem hardwareReset_cur (s : State) : (hardwareReset s).cur = State.reset.cur := rfl
@[simp] theorem hardwareReset_bp (s : State) : (hardwareReset s).bp = State.reset.bp := rfl
@[simp] theorem hardwareReset_rpos (s : State) : (hardwareReset s).rpos = State.reset.rpos := rfl
@[simp] theorem hardwareReset_ckLen (s : State) : (hardwareReset s).ckLen = State.reset.ckLen := rfl
@[simp] theorem hardwareReset_ckType (s : State) : (hardwareReset s).ckType = State.reset.ckType := rfl
@[simp] theorem hardwareReset_ckPay (s : State) : (hardwareReset s).ckPay = State.reset.ckPay := rfl
@[simp] theorem hardwareReset_ckCrc (s : State) : (hardwareReset s).ckCrc = State.reset.ckCrc := rfl
@[simp] theorem hardwareReset_crcAcc (s : State) : (hardwareReset s).crcAcc = State.reset.crcAcc := rfl
@[simp] theorem hardwareReset_ihWidth (s : State) : (hardwareReset s).ihWidth = State.reset.ihWidth := rfl
@[simp] theorem hardwareReset_ihHeight (s : State) : (hardwareReset s).ihHeight = State.reset.ihHeight := rfl
@[simp] theorem hardwareReset_ihDepth (s : State) : (hardwareReset s).ihDepth = State.reset.ihDepth := rfl
@[simp] theorem hardwareReset_ihCtype (s : State) : (hardwareReset s).ihCtype = State.reset.ihCtype := rfl
@[simp] theorem hardwareReset_ihIlace (s : State) : (hardwareReset s).ihIlace = State.reset.ihIlace := rfl
@[simp] theorem hardwareReset_plt (s : State) : (hardwareReset s).plt = State.reset.plt := rfl
@[simp] theorem hardwareReset_pltN (s : State) : (hardwareReset s).pltN = State.reset.pltN := rfl
@[simp] theorem hardwareReset_trnsKey (s : State) : (hardwareReset s).trnsKey = State.reset.trnsKey := rfl
@[simp] theorem hardwareReset_trnsA (s : State) : (hardwareReset s).trnsA = State.reset.trnsA := rfl
@[simp] theorem hardwareReset_trnsN (s : State) : (hardwareReset s).trnsN = State.reset.trnsN := rfl
@[simp] theorem hardwareReset_havePlte (s : State) : (hardwareReset s).havePlte = State.reset.havePlte := rfl
@[simp] theorem hardwareReset_haveTrns (s : State) : (hardwareReset s).haveTrns = State.reset.haveTrns := rfl
@[simp] theorem hardwareReset_seenIdat (s : State) : (hardwareReset s).seenIdat = State.reset.seenIdat := rfl
@[simp] theorem hardwareReset_idatClosed (s : State) : (hardwareReset s).idatClosed = State.reset.idatClosed := rfl
@[simp] theorem hardwareReset_zbuf (s : State) : (hardwareReset s).zbuf = State.reset.zbuf := rfl
@[simp] theorem hardwareReset_bfinal (s : State) : (hardwareReset s).bfinal = State.reset.bfinal := rfl
@[simp] theorem hardwareReset_btype (s : State) : (hardwareReset s).btype = State.reset.btype := rfl
@[simp] theorem hardwareReset_hlit (s : State) : (hardwareReset s).hlit = State.reset.hlit := rfl
@[simp] theorem hardwareReset_hdist (s : State) : (hardwareReset s).hdist = State.reset.hdist := rfl
@[simp] theorem hardwareReset_hclen (s : State) : (hardwareReset s).hclen = State.reset.hclen := rfl
@[simp] theorem hardwareReset_llLen (s : State) : (hardwareReset s).llLen = State.reset.llLen := rfl
@[simp] theorem hardwareReset_dLen (s : State) : (hardwareReset s).dLen = State.reset.dLen := rfl
@[simp] theorem hardwareReset_clLen (s : State) : (hardwareReset s).clLen = State.reset.clLen := rfl
@[simp] theorem hardwareReset_clSeq (s : State) : (hardwareReset s).clSeq = State.reset.clSeq := rfl
@[simp] theorem hardwareReset_mlen (s : State) : (hardwareReset s).mlen = State.reset.mlen := rfl
@[simp] theorem hardwareReset_adlerA (s : State) : (hardwareReset s).adlerA = State.reset.adlerA := rfl
@[simp] theorem hardwareReset_adlerB (s : State) : (hardwareReset s).adlerB = State.reset.adlerB := rfl
@[simp] theorem hardwareReset_obuf (s : State) : (hardwareReset s).obuf = State.reset.obuf := rfl
@[simp] theorem hardwareReset_pass (s : State) : (hardwareReset s).pass = State.reset.pass := rfl
@[simp] theorem hardwareReset_passW (s : State) : (hardwareReset s).passW = State.reset.passW := rfl
@[simp] theorem hardwareReset_passH (s : State) : (hardwareReset s).passH = State.reset.passH := rfl
@[simp] theorem hardwareReset_row (s : State) : (hardwareReset s).row = State.reset.row := rfl
@[simp] theorem hardwareReset_ft (s : State) : (hardwareReset s).ft = State.reset.ft := rfl
@[simp] theorem hardwareReset_prev (s : State) : (hardwareReset s).prev = State.reset.prev := rfl
@[simp] theorem hardwareReset_currow (s : State) : (hardwareReset s).currow = State.reset.currow := rfl
@[simp] theorem hardwareReset_col (s : State) : (hardwareReset s).col = State.reset.col := rfl
@[simp] theorem hardwareReset_frame (s : State) : (hardwareReset s).frame = State.reset.frame := rfl
@[simp] theorem hardwareReset_outValid (s : State) : (hardwareReset s).outValid = State.reset.outValid := rfl
@[simp] theorem hardwareReset_outW (s : State) : (hardwareReset s).outW = State.reset.outW := rfl
@[simp] theorem hardwareReset_outH (s : State) : (hardwareReset s).outH = State.reset.outH := rfl
@[simp] theorem hardwareReset_out (s : State) : (hardwareReset s).out = State.reset.out := rfl
@[simp] theorem hardwareReset_faultKind (s : State) : (hardwareReset s).faultKind = State.reset.faultKind := rfl
@[simp] theorem hardwareReset_faultOffset (s : State) : (hardwareReset s).faultOffset = State.reset.faultOffset := rfl
@[simp] theorem hardwareReset_cfgMaxPixels (s : State) : (hardwareReset s).cfgMaxPixels = State.reset.cfgMaxPixels := rfl
@[simp] theorem hardwareReset_cfgVerifyAdler (s : State) : (hardwareReset s).cfgVerifyAdler = State.reset.cfgVerifyAdler := rfl
@[simp] theorem hardwareReset_input (s : State) : (hardwareReset s).input = State.reset.input := rfl
@[simp] theorem hardwareReset_cmd (s : State) : (hardwareReset s).cmd = s.cmd := rfl
@[simp] theorem hardwareReset_resetLine (s : State) : (hardwareReset s).resetLine = State.reset.resetLine := rfl
@[simp] theorem hardwareReset_istage (s : State) : (hardwareReset s).istage = State.reset.istage := rfl
@[simp] theorem hardwareReset_rstage (s : State) : (hardwareReset s).rstage = State.reset.rstage := rfl
@[simp] theorem hardwareReset_ret (s : State) : (hardwareReset s).ret = State.reset.ret := rfl
@[simp] theorem hardwareReset_freeCount (s : State) : (hardwareReset s).freeCount = s.freeCount := rfl

/-! ### startDecode -/

@[simp] theorem startDecode_phase (str : List Byte) (mp : Nat) (va : Bool) (s : State) : (startDecode str mp va s).phase = .container := rfl
@[simp] theorem startDecode_pstate (str : List Byte) (mp : Nat) (va : Bool) (s : State) : (startDecode str mp va s).pstate = .expectSignature := rfl
@[simp] theorem startDecode_cur (str : List Byte) (mp : Nat) (va : Bool) (s : State) : (startDecode str mp va s).cur = State.reset.cur := rfl
@[simp] theorem startDecode_bp (str : List Byte) (mp : Nat) (va : Bool) (s : State) : (startDecode str mp va s).bp = State.reset.bp := rfl
@[simp] theorem startDecode_rpos (str : List Byte) (mp : Nat) (va : Bool) (s : State) : (startDecode str mp va s).rpos = State.reset.rpos := rfl
@[simp] theorem startDecode_ckLen (str : List Byte) (mp : Nat) (va : Bool) (s : State) : (startDecode str mp va s).ckLen = State.reset.ckLen := rfl
@[simp] theorem startDecode_ckType (str : List Byte) (mp : Nat) (va : Bool) (s : State) : (startDecode str mp va s).ckType = State.reset.ckType := rfl
@[simp] theorem startDecode_ckPay (str : List Byte) (mp : Nat) (va : Bool) (s : State) : (startDecode str mp va s).ckPay = State.reset.ckPay := rfl
@[simp] theorem startDecode_ckCrc (str : List Byte) (mp : Nat) (va : Bool) (s : State) : (startDecode str mp va s).ckCrc = State.reset.ckCrc := rfl
@[simp] theorem startDecode_crcAcc (str : List Byte) (mp : Nat) (va : Bool) (s : State) : (startDecode str mp va s).crcAcc = State.reset.crcAcc := rfl
@[simp] theorem startDecode_ihWidth (str : List Byte) (mp : Nat) (va : Bool) (s : State) : (startDecode str mp va s).ihWidth = State.reset.ihWidth := rfl
@[simp] theorem startDecode_ihHeight (str : List Byte) (mp : Nat) (va : Bool) (s : State) : (startDecode str mp va s).ihHeight = State.reset.ihHeight := rfl
@[simp] theorem startDecode_ihDepth (str : List Byte) (mp : Nat) (va : Bool) (s : State) : (startDecode str mp va s).ihDepth = State.reset.ihDepth := rfl
@[simp] theorem startDecode_ihCtype (str : List Byte) (mp : Nat) (va : Bool) (s : State) : (startDecode str mp va s).ihCtype = State.reset.ihCtype := rfl
@[simp] theorem startDecode_ihIlace (str : List Byte) (mp : Nat) (va : Bool) (s : State) : (startDecode str mp va s).ihIlace = State.reset.ihIlace := rfl
@[simp] theorem startDecode_plt (str : List Byte) (mp : Nat) (va : Bool) (s : State) : (startDecode str mp va s).plt = State.reset.plt := rfl
@[simp] theorem startDecode_pltN (str : List Byte) (mp : Nat) (va : Bool) (s : State) : (startDecode str mp va s).pltN = State.reset.pltN := rfl
@[simp] theorem startDecode_trnsKey (str : List Byte) (mp : Nat) (va : Bool) (s : State) : (startDecode str mp va s).trnsKey = State.reset.trnsKey := rfl
@[simp] theorem startDecode_trnsA (str : List Byte) (mp : Nat) (va : Bool) (s : State) : (startDecode str mp va s).trnsA = State.reset.trnsA := rfl
@[simp] theorem startDecode_trnsN (str : List Byte) (mp : Nat) (va : Bool) (s : State) : (startDecode str mp va s).trnsN = State.reset.trnsN := rfl
@[simp] theorem startDecode_havePlte (str : List Byte) (mp : Nat) (va : Bool) (s : State) : (startDecode str mp va s).havePlte = State.reset.havePlte := rfl
@[simp] theorem startDecode_haveTrns (str : List Byte) (mp : Nat) (va : Bool) (s : State) : (startDecode str mp va s).haveTrns = State.reset.haveTrns := rfl
@[simp] theorem startDecode_seenIdat (str : List Byte) (mp : Nat) (va : Bool) (s : State) : (startDecode str mp va s).seenIdat = State.reset.seenIdat := rfl
@[simp] theorem startDecode_idatClosed (str : List Byte) (mp : Nat) (va : Bool) (s : State) : (startDecode str mp va s).idatClosed = State.reset.idatClosed := rfl
@[simp] theorem startDecode_zbuf (str : List Byte) (mp : Nat) (va : Bool) (s : State) : (startDecode str mp va s).zbuf = State.reset.zbuf := rfl
@[simp] theorem startDecode_bfinal (str : List Byte) (mp : Nat) (va : Bool) (s : State) : (startDecode str mp va s).bfinal = State.reset.bfinal := rfl
@[simp] theorem startDecode_btype (str : List Byte) (mp : Nat) (va : Bool) (s : State) : (startDecode str mp va s).btype = State.reset.btype := rfl
@[simp] theorem startDecode_hlit (str : List Byte) (mp : Nat) (va : Bool) (s : State) : (startDecode str mp va s).hlit = State.reset.hlit := rfl
@[simp] theorem startDecode_hdist (str : List Byte) (mp : Nat) (va : Bool) (s : State) : (startDecode str mp va s).hdist = State.reset.hdist := rfl
@[simp] theorem startDecode_hclen (str : List Byte) (mp : Nat) (va : Bool) (s : State) : (startDecode str mp va s).hclen = State.reset.hclen := rfl
@[simp] theorem startDecode_llLen (str : List Byte) (mp : Nat) (va : Bool) (s : State) : (startDecode str mp va s).llLen = State.reset.llLen := rfl
@[simp] theorem startDecode_dLen (str : List Byte) (mp : Nat) (va : Bool) (s : State) : (startDecode str mp va s).dLen = State.reset.dLen := rfl
@[simp] theorem startDecode_clLen (str : List Byte) (mp : Nat) (va : Bool) (s : State) : (startDecode str mp va s).clLen = State.reset.clLen := rfl
@[simp] theorem startDecode_clSeq (str : List Byte) (mp : Nat) (va : Bool) (s : State) : (startDecode str mp va s).clSeq = State.reset.clSeq := rfl
@[simp] theorem startDecode_mlen (str : List Byte) (mp : Nat) (va : Bool) (s : State) : (startDecode str mp va s).mlen = State.reset.mlen := rfl
@[simp] theorem startDecode_adlerA (str : List Byte) (mp : Nat) (va : Bool) (s : State) : (startDecode str mp va s).adlerA = State.reset.adlerA := rfl
@[simp] theorem startDecode_adlerB (str : List Byte) (mp : Nat) (va : Bool) (s : State) : (startDecode str mp va s).adlerB = State.reset.adlerB := rfl
@[simp] theorem startDecode_obuf (str : List Byte) (mp : Nat) (va : Bool) (s : State) : (startDecode str mp va s).obuf = State.reset.obuf := rfl
@[simp] theorem startDecode_pass (str : List Byte) (mp : Nat) (va : Bool) (s : State) : (startDecode str mp va s).pass = State.reset.pass := rfl
@[simp] theorem startDecode_passW (str : List Byte) (mp : Nat) (va : Bool) (s : State) : (startDecode str mp va s).passW = State.reset.passW := rfl
@[simp] theorem startDecode_passH (str : List Byte) (mp : Nat) (va : Bool) (s : State) : (startDecode str mp va s).passH = State.reset.passH := rfl
@[simp] theorem startDecode_row (str : List Byte) (mp : Nat) (va : Bool) (s : State) : (startDecode str mp va s).row = State.reset.row := rfl
@[simp] theorem startDecode_ft (str : List Byte) (mp : Nat) (va : Bool) (s : State) : (startDecode str mp va s).ft = State.reset.ft := rfl
@[simp] theorem startDecode_prev (str : List Byte) (mp : Nat) (va : Bool) (s : State) : (startDecode str mp va s).prev = State.reset.prev := rfl
@[simp] theorem startDecode_currow (str : List Byte) (mp : Nat) (va : Bool) (s : State) : (startDecode str mp va s).currow = State.reset.currow := rfl
@[simp] theorem startDecode_col (str : List Byte) (mp : Nat) (va : Bool) (s : State) : (startDecode str mp va s).col = State.reset.col := rfl
@[simp] theorem startDecode_frame (str : List Byte) (mp : Nat) (va : Bool) (s : State) : (startDecode str mp va s).frame = State.reset.frame := rfl
@[simp] theorem startDecode_outValid (str : List Byte) (mp : Nat) (va : Bool) (s : State) : (startDecode str mp va s).outValid = State.reset.outValid := rfl
@[simp] theorem startDecode_outW (str : List Byte) (mp : Nat) (va : Bool) (s : State) : (startDecode str mp va s).outW = State.reset.outW := rfl
@[simp] theorem startDecode_outH (str : List Byte) (mp : Nat) (va : Bool) (s : State) : (startDecode str mp va s).outH = State.reset.outH := rfl
@[simp] theorem startDecode_out (str : List Byte) (mp : Nat) (va : Bool) (s : State) : (startDecode str mp va s).out = State.reset.out := rfl
@[simp] theorem startDecode_faultKind (str : List Byte) (mp : Nat) (va : Bool) (s : State) : (startDecode str mp va s).faultKind = State.reset.faultKind := rfl
@[simp] theorem startDecode_faultOffset (str : List Byte) (mp : Nat) (va : Bool) (s : State) : (startDecode str mp va s).faultOffset = State.reset.faultOffset := rfl
@[simp] theorem startDecode_cfgMaxPixels (str : List Byte) (mp : Nat) (va : Bool) (s : State) : (startDecode str mp va s).cfgMaxPixels = mp := rfl
@[simp] theorem startDecode_cfgVerifyAdler (str : List Byte) (mp : Nat) (va : Bool) (s : State) : (startDecode str mp va s).cfgVerifyAdler = va := rfl
@[simp] theorem startDecode_input (str : List Byte) (mp : Nat) (va : Bool) (s : State) : (startDecode str mp va s).input = str := rfl
@[simp] theorem startDecode_cmd (str : List Byte) (mp : Nat) (va : Bool) (s : State) : (startDecode str mp va s).cmd = s.cmd := rfl
@[simp] theorem startDecode_resetLine (str : List Byte) (mp : Nat) (va : Bool) (s : State) : (startDecode str mp va s).resetLine = s.resetLine := rfl
@[simp] theorem startDecode_istage (str : List Byte) (mp : Nat) (va : Bool) (s : State) : (startDecode str mp va s).istage = State.reset.istage := rfl
@[simp] theorem startDecode_rstage (str : List Byte) (mp : Nat) (va : Bool) (s : State) : (startDecode str mp va s).rstage = State.reset.rstage := rfl
@[simp] theorem startDecode_ret (str : List Byte) (mp : Nat) (va : Bool) (s : State) : (startDecode str mp va s).ret = State.reset.ret := rfl
@[simp] theorem startDecode_freeCount (str : List Byte) (mp : Nat) (va : Bool) (s : State) : (startDecode str mp va s).freeCount = s.freeCount := rfl

/-! ### closeIdatRun -/

/-- The flag of R171 as a record update. -/
theorem closeIdatRun_eq (s : State) : closeIdatRun s = { s with idatClosed := s.idatClosed || s.seenIdat } := by
  unfold closeIdatRun
  cases s with | mk => simp only; split <;> simp_all

@[simp] theorem closeIdatRun_phase (s : State) : (closeIdatRun s).phase = (s.phase) := by rw [closeIdatRun_eq]
@[simp] theorem closeIdatRun_pstate (s : State) : (closeIdatRun s).pstate = (s.pstate) := by rw [closeIdatRun_eq]
@[simp] theorem closeIdatRun_cur (s : State) : (closeIdatRun s).cur = (s.cur) := by rw [closeIdatRun_eq]
@[simp] theorem closeIdatRun_bp (s : State) : (closeIdatRun s).bp = (s.bp) := by rw [closeIdatRun_eq]
@[simp] theorem closeIdatRun_rpos (s : State) : (closeIdatRun s).rpos = (s.rpos) := by rw [closeIdatRun_eq]
@[simp] theorem closeIdatRun_ckLen (s : State) : (closeIdatRun s).ckLen = (s.ckLen) := by rw [closeIdatRun_eq]
@[simp] theorem closeIdatRun_ckType (s : State) : (closeIdatRun s).ckType = (s.ckType) := by rw [closeIdatRun_eq]
@[simp] theorem closeIdatRun_ckPay (s : State) : (closeIdatRun s).ckPay = (s.ckPay) := by rw [closeIdatRun_eq]
@[simp] theorem closeIdatRun_ckCrc (s : State) : (closeIdatRun s).ckCrc = (s.ckCrc) := by rw [closeIdatRun_eq]
@[simp] theorem closeIdatRun_crcAcc (s : State) : (closeIdatRun s).crcAcc = (s.crcAcc) := by rw [closeIdatRun_eq]
@[simp] theorem closeIdatRun_ihWidth (s : State) : (closeIdatRun s).ihWidth = (s.ihWidth) := by rw [closeIdatRun_eq]
@[simp] theorem closeIdatRun_ihHeight (s : State) : (closeIdatRun s).ihHeight = (s.ihHeight) := by rw [closeIdatRun_eq]
@[simp] theorem closeIdatRun_ihDepth (s : State) : (closeIdatRun s).ihDepth = (s.ihDepth) := by rw [closeIdatRun_eq]
@[simp] theorem closeIdatRun_ihCtype (s : State) : (closeIdatRun s).ihCtype = (s.ihCtype) := by rw [closeIdatRun_eq]
@[simp] theorem closeIdatRun_ihIlace (s : State) : (closeIdatRun s).ihIlace = (s.ihIlace) := by rw [closeIdatRun_eq]
@[simp] theorem closeIdatRun_plt (s : State) : (closeIdatRun s).plt = (s.plt) := by rw [closeIdatRun_eq]
@[simp] theorem closeIdatRun_pltN (s : State) : (closeIdatRun s).pltN = (s.pltN) := by rw [closeIdatRun_eq]
@[simp] theorem closeIdatRun_trnsKey (s : State) : (closeIdatRun s).trnsKey = (s.trnsKey) := by rw [closeIdatRun_eq]
@[simp] theorem closeIdatRun_trnsA (s : State) : (closeIdatRun s).trnsA = (s.trnsA) := by rw [closeIdatRun_eq]
@[simp] theorem closeIdatRun_trnsN (s : State) : (closeIdatRun s).trnsN = (s.trnsN) := by rw [closeIdatRun_eq]
@[simp] theorem closeIdatRun_havePlte (s : State) : (closeIdatRun s).havePlte = (s.havePlte) := by rw [closeIdatRun_eq]
@[simp] theorem closeIdatRun_haveTrns (s : State) : (closeIdatRun s).haveTrns = (s.haveTrns) := by rw [closeIdatRun_eq]
@[simp] theorem closeIdatRun_seenIdat (s : State) : (closeIdatRun s).seenIdat = (s.seenIdat) := by rw [closeIdatRun_eq]
@[simp] theorem closeIdatRun_idatClosed (s : State) : (closeIdatRun s).idatClosed = (s.idatClosed || s.seenIdat) := by rw [closeIdatRun_eq]
@[simp] theorem closeIdatRun_zbuf (s : State) : (closeIdatRun s).zbuf = (s.zbuf) := by rw [closeIdatRun_eq]
@[simp] theorem closeIdatRun_bfinal (s : State) : (closeIdatRun s).bfinal = (s.bfinal) := by rw [closeIdatRun_eq]
@[simp] theorem closeIdatRun_btype (s : State) : (closeIdatRun s).btype = (s.btype) := by rw [closeIdatRun_eq]
@[simp] theorem closeIdatRun_hlit (s : State) : (closeIdatRun s).hlit = (s.hlit) := by rw [closeIdatRun_eq]
@[simp] theorem closeIdatRun_hdist (s : State) : (closeIdatRun s).hdist = (s.hdist) := by rw [closeIdatRun_eq]
@[simp] theorem closeIdatRun_hclen (s : State) : (closeIdatRun s).hclen = (s.hclen) := by rw [closeIdatRun_eq]
@[simp] theorem closeIdatRun_llLen (s : State) : (closeIdatRun s).llLen = (s.llLen) := by rw [closeIdatRun_eq]
@[simp] theorem closeIdatRun_dLen (s : State) : (closeIdatRun s).dLen = (s.dLen) := by rw [closeIdatRun_eq]
@[simp] theorem closeIdatRun_clLen (s : State) : (closeIdatRun s).clLen = (s.clLen) := by rw [closeIdatRun_eq]
@[simp] theorem closeIdatRun_clSeq (s : State) : (closeIdatRun s).clSeq = (s.clSeq) := by rw [closeIdatRun_eq]
@[simp] theorem closeIdatRun_mlen (s : State) : (closeIdatRun s).mlen = (s.mlen) := by rw [closeIdatRun_eq]
@[simp] theorem closeIdatRun_adlerA (s : State) : (closeIdatRun s).adlerA = (s.adlerA) := by rw [closeIdatRun_eq]
@[simp] theorem closeIdatRun_adlerB (s : State) : (closeIdatRun s).adlerB = (s.adlerB) := by rw [closeIdatRun_eq]
@[simp] theorem closeIdatRun_obuf (s : State) : (closeIdatRun s).obuf = (s.obuf) := by rw [closeIdatRun_eq]
@[simp] theorem closeIdatRun_pass (s : State) : (closeIdatRun s).pass = (s.pass) := by rw [closeIdatRun_eq]
@[simp] theorem closeIdatRun_passW (s : State) : (closeIdatRun s).passW = (s.passW) := by rw [closeIdatRun_eq]
@[simp] theorem closeIdatRun_passH (s : State) : (closeIdatRun s).passH = (s.passH) := by rw [closeIdatRun_eq]
@[simp] theorem closeIdatRun_row (s : State) : (closeIdatRun s).row = (s.row) := by rw [closeIdatRun_eq]
@[simp] theorem closeIdatRun_ft (s : State) : (closeIdatRun s).ft = (s.ft) := by rw [closeIdatRun_eq]
@[simp] theorem closeIdatRun_prev (s : State) : (closeIdatRun s).prev = (s.prev) := by rw [closeIdatRun_eq]
@[simp] theorem closeIdatRun_currow (s : State) : (closeIdatRun s).currow = (s.currow) := by rw [closeIdatRun_eq]
@[simp] theorem closeIdatRun_col (s : State) : (closeIdatRun s).col = (s.col) := by rw [closeIdatRun_eq]
@[simp] theorem closeIdatRun_frame (s : State) : (closeIdatRun s).frame = (s.frame) := by rw [closeIdatRun_eq]
@[simp] theorem closeIdatRun_outValid (s : State) : (closeIdatRun s).outValid = (s.outValid) := by rw [closeIdatRun_eq]
@[simp] theorem closeIdatRun_outW (s : State) : (closeIdatRun s).outW = (s.outW) := by rw [closeIdatRun_eq]
@[simp] theorem closeIdatRun_outH (s : State) : (closeIdatRun s).outH = (s.outH) := by rw [closeIdatRun_eq]
@[simp] theorem closeIdatRun_out (s : State) : (closeIdatRun s).out = (s.out) := by rw [closeIdatRun_eq]
@[simp] theorem closeIdatRun_faultKind (s : State) : (closeIdatRun s).faultKind = (s.faultKind) := by rw [closeIdatRun_eq]
@[simp] theorem closeIdatRun_faultOffset (s : State) : (closeIdatRun s).faultOffset = (s.faultOffset) := by rw [closeIdatRun_eq]
@[simp] theorem closeIdatRun_cfgMaxPixels (s : State) : (closeIdatRun s).cfgMaxPixels = (s.cfgMaxPixels) := by rw [closeIdatRun_eq]
@[simp] theorem closeIdatRun_cfgVerifyAdler (s : State) : (closeIdatRun s).cfgVerifyAdler = (s.cfgVerifyAdler) := by rw [closeIdatRun_eq]
@[simp] theorem closeIdatRun_input (s : State) : (closeIdatRun s).input = (s.input) := by rw [closeIdatRun_eq]
@[simp] theorem closeIdatRun_cmd (s : State) : (closeIdatRun s).cmd = (s.cmd) := by rw [closeIdatRun_eq]
@[simp] theorem closeIdatRun_resetLine (s : State) : (closeIdatRun s).resetLine = (s.resetLine) := by rw [closeIdatRun_eq]
@[simp] theorem closeIdatRun_istage (s : State) : (closeIdatRun s).istage = (s.istage) := by rw [closeIdatRun_eq]
@[simp] theorem closeIdatRun_rstage (s : State) : (closeIdatRun s).rstage = (s.rstage) := by rw [closeIdatRun_eq]
@[simp] theorem closeIdatRun_ret (s : State) : (closeIdatRun s).ret = (s.ret) := by rw [closeIdatRun_eq]
@[simp] theorem closeIdatRun_freeCount (s : State) : (closeIdatRun s).freeCount = (s.freeCount) := by rw [closeIdatRun_eq]

end Sys2Proof.Laws
end

