-- ==== Sys2Proof/Laws/Res.lean ====
section
/-! SUPPORT. Results of operations: sequencing, `require`, the end of an element, and fault entry. -/

namespace Sys2Proof.Laws

open Sys2Proof.Machine Sys2Proof.Safety

variable {α β : Type}

@[simp] theorem bind_ok (v : α) (s : State) (f : α → State → Res β) : (Res.ok v s).bind f = f v s := rfl
@[simp] theorem bind_raise (k : FaultKind) (s : State) (f : α → State → Res β) : (Res.raise k s).bind f = .raise k s := rfl
@[simp] theorem bind_stop (x : Fault) (f : α → State → Res β) : (Res.stop x).bind f = .stop x := rfl

/-- A sequence answers a value exactly where both parts do. -/
theorem bind_eq_ok {r : Res α} {f : α → State → Res β} {v : β} {t : State} :
    r.bind f = .ok v t ↔ ∃ a u, r = .ok a u ∧ f a u = .ok v t := by
  cases r <;> simp

/-- A sequence raises exactly where its first part does, or its second after the first has completed. -/
theorem bind_eq_raise {r : Res α} {f : α → State → Res β} {k : FaultKind} {t : State} :
    r.bind f = .raise k t ↔ r = .raise k t ∨ ∃ a u, r = .ok a u ∧ f a u = .raise k t := by
  cases r <;> simp

/-- A sequence stops exactly where its first part does, or its second after the first has completed. -/
theorem bind_eq_stop {r : Res α} {f : α → State → Res β} {x : Fault} :
    r.bind f = .stop x ↔ r = .stop x ∨ ∃ a u, r = .ok a u ∧ f a u = .stop x := by
  cases r <;> simp

theorem require_pos {p : Prop} [Decidable p] (h : p) (k : FaultKind) (s : State) : require p k s = .ok () s := by
  simp [require, h]

theorem require_neg {p : Prop} [Decidable p] (h : ¬ p) (k : FaultKind) (s : State) : require p k s = .raise k s := by
  simp [require, h]

/-- `require` passes with the state unchanged exactly where its condition holds. -/
theorem require_eq_ok {p : Prop} [Decidable p] {k : FaultKind} {s t : State} {u : Unit} :
    require p k s = .ok u t ↔ p ∧ s = t := by
  by_cases h : p <;> simp [require, h]

/-- `require` raises its own kind, in the state it was asked in. -/
theorem require_eq_raise {p : Prop} [Decidable p] {k k' : FaultKind} {s t : State} :
    require p k s = .raise k' t ↔ ¬ p ∧ k = k' ∧ s = t := by
  by_cases h : p <;> simp [require, h]

/-- `require` never stops the model. -/
theorem require_ne_stop {p : Prop} [Decidable p] {k : FaultKind} {s : State} {x : Fault} :
    require p k s ≠ .stop x := by
  by_cases h : p <;> simp [require, h]

@[simp] theorem finish_ok (v : α) (s : State) : finish (Res.ok v s) = .next s := rfl
@[simp] theorem finish_raise (k : FaultKind) (s : State) : finish (Res.raise (α := α) k s) = .next (raiseFault k s) := rfl
@[simp] theorem finish_stop (x : Fault) : finish (Res.stop (α := α) x) = .fault x := rfl

/-- An element's end answers a next state in one of two ways: it completed, or it raised and fault entry happened. -/
theorem finish_eq_next {r : Res α} {t : State} :
    finish r = .next t ↔ (∃ v, r = .ok v t) ∨ ∃ k u, r = .raise k u ∧ t = raiseFault k u := by
  cases r <;> simp [eq_comm]

@[simp] theorem finishRet_ok (w : α → Ret) (v : α) (s : State) : finishRet w (.ok v s) = .next { s with ret := w v } := rfl
@[simp] theorem finishRet_raise (w : α → Ret) (k : FaultKind) (s : State) :
    finishRet w (.raise k s) = .next (raiseFault k s) := rfl

/-- Fault entry leaves the state the host reads as R390 says. -/
theorem faulted_raiseFault (k : FaultKind) (s : State) : Faulted k (raiseFault k s) :=
  ⟨rfl, rfl, rfl, rfl, rfl, rfl⟩

/-- An outcome that is fault entry raises its kind. -/
theorem raises_next (k : FaultKind) (s : State) : Raises (.next (raiseFault k s)) k := ⟨_, rfl, faulted_raiseFault k s⟩

/-- An element whose operation raises, raises. -/
theorem raises_finish {r : Res α} {k : FaultKind} {s : State} (h : r = .raise k s) : Raises (finish r) k := by
  subst h; exact raises_next k s

end Sys2Proof.Laws
end

