-- ==== Sys2Proof/Laws/Readers.lean ====
section
/-! SUPPORT. The two readers: what each does, once, for every state. -/

namespace Sys2Proof.Laws

open Sys2Proof.Machine Sys2Proof.Safety

/-! ### Byte reader -/

/-- `readExact` with the bytes available. -/
theorem readExact_ok {n : Nat} {s : State} (h : s.cur + n ≤ s.input.length) :
    readExact n s = .ok ((s.input.drop s.cur).take n) { s with cur := s.cur + n } := by
  simp [readExact, require_pos (show n ≤ s.input.length - s.cur by omega)]

/-- `readExact` with too few bytes left: nothing is consumed. -/
theorem readExact_short {n : Nat} {s : State} (h : s.input.length - s.cur < n) :
    readExact n s = .raise .truncatedInput s := by
  simp [readExact, require_neg (show ¬ n ≤ s.input.length - s.cur by omega)]

/-- Everything `readExact` can do. -/
theorem readExact_cases (n : Nat) (s : State) :
    (n ≤ s.input.length - s.cur ∧
      readExact n s = .ok ((s.input.drop s.cur).take n) { s with cur := s.cur + n } ∧
      ((s.input.drop s.cur).take n).length = n) ∨
    (s.input.length - s.cur < n ∧ readExact n s = .raise .truncatedInput s) := by
  by_cases h : n ≤ s.input.length - s.cur
  · exact .inl ⟨h, by simp [readExact, require_pos h], by simp [h]⟩
  · exact .inr ⟨by omega, readExact_short (by omega)⟩

@[simp] theorem readByte_some {l : List Byte} {i : Nat} {b : Byte} (h : l[i]? = some b) (s : State) :
    readByte l i s = .ok b s := by simp [readByte, h]

/-- A byte inside the sequence is read and nothing changes. -/
theorem readByte_lt {l : List Byte} {i : Nat} (h : i < l.length) (s : State) :
    readByte l i s = .ok l[i] s := by simp [readByte, h]

/-- `readByte` answers a value only in the unchanged state. -/
theorem readByte_eq_ok {l : List Byte} {i : Nat} {s t : State} {b : Byte} :
    readByte l i s = .ok b t ↔ l[i]? = some b ∧ s = t := by
  unfold readByte; split <;> simp_all

/-- `readByte` raises nothing. -/
theorem readByte_ne_raise {l : List Byte} {i : Nat} {s t : State} {k : FaultKind} :
    readByte l i s ≠ .raise k t := by
  unfold readByte; split <;> simp

/-- Four big-endian bytes read as one number. -/
theorem readU32BE_ok {s : State} {b0 b1 b2 b3 : Byte} {rest : List Byte}
    (h : s.input.drop s.cur = b0 :: b1 :: b2 :: b3 :: rest) :
    readU32BE s = .ok (be32 b0 b1 b2 b3) { s with cur := s.cur + 4 } := by
  have hl : (s.input.drop s.cur).length = rest.length + 4 := by simp [h]
  simp only [List.length_drop] at hl
  simp [readU32BE, readExact_ok (show s.cur + 4 ≤ s.input.length by omega), h, readByte]

/-- `readU32BE` is all or nothing (40_stream_reader.md R143). -/
theorem readU32BE_cases (s : State) :
    (∃ b0 b1 b2 b3 rest, s.input.drop s.cur = b0 :: b1 :: b2 :: b3 :: rest ∧
      readU32BE s = .ok (be32 b0 b1 b2 b3) { s with cur := s.cur + 4 }) ∨
    (s.input.length - s.cur < 4 ∧ readU32BE s = .raise .truncatedInput s) := by
  by_cases h : 4 ≤ s.input.length - s.cur
  · left
    obtain ⟨l, hl⟩ : ∃ l, s.input.drop s.cur = l := ⟨_, rfl⟩
    have hlen : 4 ≤ l.length := by rw [← hl]; simpa using h
    match l, hlen, hl with
    | b0 :: b1 :: b2 :: b3 :: rest, _, hl => exact ⟨b0, b1, b2, b3, rest, hl, readU32BE_ok hl⟩
  · right
    exact ⟨by omega, by simp [readU32BE, readExact_short (show s.input.length - s.cur < 4 by omega)]⟩

theorem be32_lt (b0 b1 b2 b3 : Byte) : be32 b0 b1 b2 b3 < 2 ^ 32 := by
  unfold be32; have := b0.isLt; have := b1.isLt; have := b2.isLt; have := b3.isLt; omega

@[simp] theorem bytesBE_length (n v : Nat) : (bytesBE n v).length = n := by
  induction n with
  | zero => rfl
  | succ n ih => simp [bytesBE, ih]

/-- The four wire bytes of a 32-bit value. -/
theorem bytesBE_four (v : Nat) : bytesBE 4 v =
    [BitVec.ofNat 8 (v / 2 ^ 24), BitVec.ofNat 8 (v / 2 ^ 16), BitVec.ofNat 8 (v / 2 ^ 8), BitVec.ofNat 8 v] := by
  simp [bytesBE]

/-- `BE32` reads back the wire form (00_scope.md R11). -/
theorem be32_bytesBE {v : Nat} (h : v < 2 ^ 32) :
    be32 (BitVec.ofNat 8 (v / 2 ^ 24)) (BitVec.ofNat 8 (v / 2 ^ 16)) (BitVec.ofNat 8 (v / 2 ^ 8)) (BitVec.ofNat 8 v) = v := by
  simp only [be32, BitVec.toNat_ofNat]; omega

/-! ### Bit reader -/

theorem bitIs_unique {z : List Byte} {k : Nat} {a b : Bool} (ha : BitIs z k a) (hb : BitIs z k b) : a = b := by
  obtain ⟨x, hx, rfl⟩ := ha
  obtain ⟨y, hy, rfl⟩ := hb
  rw [hx] at hy; cases hy; rfl

/-- `BitIs` as an equation. -/
theorem bitIs_iff {z : List Byte} {k : Nat} {b : Bool} :
    BitIs z k b ↔ (z[k / 8]?).map (fun byte => byte.getLsbD (k % 8)) = some b := by
  unfold BitIs; cases z[k / 8]? <;> simp

/-- `FieldAt` by equations, one for each of its bits. -/
theorem fieldAt_iff {z : List Byte} {bp n v : Nat} :
    FieldAt z bp n v ↔
      v < 2 ^ n ∧ ∀ k, k < n → (z[(bp + k) / 8]?).map (fun byte => byte.getLsbD ((bp + k) % 8)) = some (v.testBit k) := by
  unfold FieldAt; simp only [bitIs_iff]

/-- `BitsAt` by equations, one for each of its bits. -/
theorem bitsAt_iff {z : List Byte} {bp : Nat} {bits : List Bool} :
    BitsAt z bp bits ↔
      ∀ k, k < bits.length → (z[(bp + k) / 8]?).map (fun byte => byte.getLsbD ((bp + k) % 8)) = bits[k]? := by
  unfold BitsAt; simp only [bitIs_iff]
  constructor
  · intro h k hk; rw [h k bits[k] (by simp [hk])]; simp [hk]
  · intro h k b hb
    have hk : k < bits.length := (List.getElem?_eq_some_iff.1 hb).1
    rw [h k hk, hb]

/-- Every bit below the end of the sequence has a value. -/
theorem bitIs_exists {z : List Byte} {k : Nat} (h : k < 8 * z.length) : ∃ b, BitIs z k b := by
  have hk : k / 8 < z.length := by omega
  exact ⟨_, z[k / 8], by simp [hk], rfl⟩

theorem bitIs_lt {z : List Byte} {k : Nat} {b : Bool} (h : BitIs z k b) : k < 8 * z.length := by
  obtain ⟨x, hx, _⟩ := h
  obtain ⟨hk, _⟩ := List.getElem?_eq_some_iff.1 hx
  omega

/-- `getbit` returns the next bit and moves past it. -/
theorem getbit_ok {s : State} {b : Bool} (h : BitIs s.zbuf s.bp b) :
    getbit s = .ok b.toNat { s with bp := s.bp + 1 } := by
  obtain ⟨x, hx, rfl⟩ := h
  simp only [getbit, hx]
  congr 1
  rw [Nat.shiftRight_eq_div_pow, BitVec.getLsbD, Nat.testBit_eq_decide_div_mod_eq]
  rcases Nat.mod_two_eq_zero_or_one (x.toNat / 2 ^ (s.bp % 8)) with h | h <;> simp [h]

/-- `getbit` at the end of the data. -/
theorem getbit_end {s : State} (h : 8 * s.zbuf.length ≤ s.bp) : getbit s = .raise .truncatedCompressedData s := by
  have : s.zbuf[s.bp / 8]? = none := by simp; omega
  simp [getbit, this]

/-- Everything `getbit` can do. -/
theorem getbit_cases (s : State) :
    (∃ b, BitIs s.zbuf s.bp b ∧ getbit s = .ok b.toNat { s with bp := s.bp + 1 }) ∨
    (8 * s.zbuf.length ≤ s.bp ∧ getbit s = .raise .truncatedCompressedData s) := by
  by_cases h : s.bp < 8 * s.zbuf.length
  · obtain ⟨b, hb⟩ := bitIs_exists h
    exact .inl ⟨b, hb, getbit_ok hb⟩
  · exact .inr ⟨by omega, getbit_end (by omega)⟩

/-- A field of `n + 1` bits is its first bit and the field of the others. -/
theorem fieldAt_succ {z : List Byte} {bp n v : Nat} (h : FieldAt z bp (n + 1) v) :
    BitIs z bp (v.testBit 0) ∧ FieldAt z (bp + 1) n (v / 2) := by
  refine ⟨by simpa using h.2 0 (by omega), ?_, fun k hk => ?_⟩
  · have := h.1; rw [Nat.pow_succ] at this; omega
  · have := h.2 (k + 1) (by omega)
    rwa [Nat.testBit_add_one, show bp + (k + 1) = bp + 1 + k by omega] at this

theorem fieldAt_cons {z : List Byte} {bp n v : Nat} {b : Bool} (hb : BitIs z bp b) (h : FieldAt z (bp + 1) n v) :
    FieldAt z bp (n + 1) (b.toNat + 2 * v) := by
  have hv := h.1
  refine ⟨by rw [Nat.pow_succ]; cases b <;> simp <;> omega, fun k hk => ?_⟩
  cases k with
  | zero =>
    have : (b.toNat + 2 * v).testBit 0 = b := by cases b <;> simp [Nat.testBit_zero]
    simpa [this] using hb
  | succ k =>
    have : (b.toNat + 2 * v).testBit (k + 1) = v.testBit k := by
      rw [Nat.testBit_add_one]; congr 1; cases b <;> simp <;> omega
    rw [this, show bp + (k + 1) = bp + 1 + k by omega]
    exact h.2 k (by omega)

/-- `getbits` returns the field and moves past it (40_stream_reader.md R147). -/
theorem getbits_ok {n : Nat} : ∀ {s : State} {v : Nat}, FieldAt s.zbuf s.bp n v →
    getbits n s = .ok v { s with bp := s.bp + n } := by
  induction n with
  | zero => intro s v h; have := h.1; simp at this; subst this; rfl
  | succ n ih =>
    intro s v h
    obtain ⟨h0, h1⟩ := fieldAt_succ h
    simp only [getbits, getbit_ok h0, bind_ok]
    rw [ih (s := { s with bp := s.bp + 1 }) h1]
    simp only [bind_ok]
    have : (v.testBit 0).toNat + 2 * (v / 2) = v := by
      rw [Nat.testBit_zero]; rcases Nat.mod_two_eq_zero_or_one v with h | h <;> simp [h] <;> omega
    rw [this, show s.bp + 1 + n = s.bp + (n + 1) by omega]

/-- `getbits` where the data ends inside the field. -/
theorem getbits_short {n : Nat} : ∀ {s : State}, s.bp ≤ 8 * s.zbuf.length → 8 * s.zbuf.length < s.bp + n →
    ∃ u, getbits n s = .raise .truncatedCompressedData u := by
  induction n with
  | zero => intro s h1 h2; omega
  | succ n ih =>
    intro s h1 h2
    rcases getbit_cases s with ⟨b, hb, he⟩ | ⟨_, he⟩
    · have := bitIs_lt hb
      obtain ⟨u, hu⟩ := ih (s := { s with bp := s.bp + 1 }) (by simp; omega) (by simp; omega)
      exact ⟨u, by simp [getbits, he, hu]⟩
    · exact ⟨s, by simp [getbits, he]⟩

/-- Everything `getbits` can do. -/
theorem getbits_cases (n : Nat) : ∀ s : State,
    (∃ v, FieldAt s.zbuf s.bp n v ∧ getbits n s = .ok v { s with bp := s.bp + n }) ∨
    (∃ u p, getbits n s = .raise .truncatedCompressedData u ∧ u = { s with bp := p }) := by
  induction n with
  | zero => exact fun s => .inl ⟨0, ⟨by simp, by simp⟩, rfl⟩
  | succ n ih =>
    intro s
    rcases getbit_cases s with ⟨b, hb, he⟩ | ⟨_, he⟩
    · rcases ih { s with bp := s.bp + 1 } with ⟨v, hv, hg⟩ | ⟨u, p, hg, hu⟩
      · exact .inl ⟨_, fieldAt_cons hb hv, getbits_ok (fieldAt_cons hb hv)⟩
      · exact .inr ⟨u, p, by simp [getbits, he, hg], by simp [hu]⟩
    · exact .inr ⟨s, s.bp, by simp [getbits, he], rfl⟩

theorem fieldAt_unique {z : List Byte} {bp n v w : Nat} (hv : FieldAt z bp n v) (hw : FieldAt z bp n w) : v = w := by
  apply Nat.eq_of_testBit_eq
  intro k
  by_cases hk : k < n
  · exact bitIs_unique (hv.2 k hk) (hw.2 k hk)
  · have := Nat.pow_le_pow_right (show 0 < 2 by omega) (show n ≤ k by omega)
    rw [Nat.testBit_lt_two_pow (by have := hv.1; omega), Nat.testBit_lt_two_pow (by have := hw.1; omega)]

/-- Where `n` bits are left, the field has a value. -/
theorem fieldAt_exists {z : List Byte} {n : Nat} : ∀ {bp : Nat}, bp + n ≤ 8 * z.length → ∃ v, FieldAt z bp n v := by
  induction n with
  | zero => exact fun _ => ⟨0, by simp, by simp⟩
  | succ n ih =>
    intro bp h
    obtain ⟨b, hb⟩ := bitIs_exists (show bp < 8 * z.length by omega)
    obtain ⟨v, hv⟩ := ih (bp := bp + 1) (by omega)
    exact ⟨_, fieldAt_cons hb hv⟩

end Sys2Proof.Laws
end

