-- ==== Sys2Proof/Laws/Codes.lean ====
section
/-! SUPPORT. The canonical code (44_inflate_blocks.md R232 to R234): how the computed code words compare with the recurrence of the spec. -/

namespace Sys2Proof.Laws

open Sys2Proof.Machine Sys2Proof.Safety

/-- A static block rewrites all 19 entries of `CL_LEN`. -/
@[simp] theorem freeClLens_length (n : Nat) : (freeClLens n).length = 19 := by simp [freeClLens]

/-- What a static block leaves in `CL_LEN` is in `0..7` (10_state.md R37). -/
theorem freeClLens_le {n : Nat} {len : CodeLen} (h : len ∈ freeClLens n) : len.toNat ≤ 7 := by
  obtain ⟨sym, -, rfl⟩ := List.mem_map.1 h
  have := (Config.freeClLen n sym).isLt
  rw [BitVec.toNat_setWidth]; omega

/-- How many symbols have a length. -/
theorem codeCount_eq (lens : List CodeLen) (b : Nat) : codeCount lens b = if b = 0 then 0 else lens.countP fun l => l.toNat == b := rfl

/-- The recurrence of the first code of a length. -/
theorem firstCode_succ (lens : List CodeLen) (b : Nat) : firstCode lens (b + 1) = (firstCode lens b + codeCount lens b) * 2 := rfl

/-- One entry for each length. -/
theorem nextCodes_length : ∀ (l : List Nat) (c : Nat), (nextCodes c l).length = l.length := by
  intro l; induction l with
  | nil => intro c; rfl
  | cons n l ih => intro c; simp [nextCodes, ih]

/-- The table of next codes holds the first codes. -/
theorem nextCodes_get (lens : List CodeLen) : ∀ (n b0 i : Nat), i < n → (nextCodes (firstCode lens b0) ((List.range' b0 n).map (codeCount lens)))[i]? = some (firstCode lens (b0 + i + 1)) := by
  intro n
  induction n with
  | zero => intro b0 i h; omega
  | succ n ih =>
    intro b0 i h
    rw [List.range'_succ, List.map_cons, nextCodes, ← firstCode_succ]
    cases i with
    | zero => rfl
    | succ i => rw [List.getElem?_cons_succ, ih (b0 + 1) i (by omega)]; congr 2; omega

/-- One entry for each symbol. -/
theorem assignCodes_length : ∀ (lens : List CodeLen) (next : List Nat), (assignCodes next lens).length = lens.length := by
  intro lens; induction lens with
  | nil => intro next; rfl
  | cons l lens ih => intro next; rw [assignCodes]; split <;> simp [ih]

/-- A code length in use is 1 to 15. -/
theorem codeLen_pos {l : CodeLen} (h : l ≠ 0) : 1 ≤ l.toNat ∧ l.toNat ≤ 15 := by
  have := l.isLt
  refine ⟨?_, by omega⟩
  rcases Nat.eq_zero_or_pos l.toNat with h' | h'
  · exact absurd (BitVec.eq_of_toNat_eq h') h
  · exact h'

/-- The code word assigned to a symbol: the next code of its length, plus the earlier symbols of that length. -/
theorem assignCodes_get : ∀ (lens : List CodeLen) (next : List Nat) (k : Nat), next.length = 15 → k < lens.length →
    (assignCodes next lens)[k]? = some (if lens.getD k 0 = 0 then (0, 0) else ((lens.getD k 0).toNat, next.getD ((lens.getD k 0).toNat - 1) 0 + (lens.take k).countP (fun l => l == lens.getD k 0))) := by
  intro lens
  induction lens with
  | nil => intro next k _ h; simp at h
  | cons l lens ih =>
    intro next k hn hk
    cases k with
    | zero =>
      rw [assignCodes]; simp only [List.getD_cons_zero, List.take_zero, List.countP_nil, Nat.add_zero]
      split <;> rfl
    | succ k =>
      simp only [List.length_cons] at hk
      rw [assignCodes, List.getD_cons_succ, List.take_succ_cons]
      by_cases hl : l = 0
      · rw [if_pos hl, List.getElem?_cons_succ, ih next k hn (by omega)]
        subst hl
        split
        · rfl
        · rename_i h; rw [List.countP_cons_of_neg]; intro h'; exact h (beq_iff_eq.1 h').symm
      · rw [if_neg hl, List.getElem?_cons_succ, ih _ k (by simpa using hn) (by omega)]
        split
        · rfl
        · rename_i h
          have h1 := codeLen_pos hl
          have h2 := codeLen_pos h
          congr 2
          by_cases he : l = lens.getD k 0
          · rw [← he, List.countP_cons_of_pos (by simp)]
            have : (next.modify (l.toNat - 1) (· + 1)).getD (l.toNat - 1) 0 = next.getD (l.toNat - 1) 0 + 1 := by
              simp [List.getD_eq_getElem?_getD, show l.toNat - 1 < next.length by omega]
            rw [this]; omega
          · rw [List.countP_cons_of_neg (by simpa using he)]
            have hne : l.toNat - 1 ≠ (lens.getD k 0).toNat - 1 := by
              intro hh; apply he; apply BitVec.eq_of_toNat_eq; omega
            have : (next.modify (l.toNat - 1) (· + 1)).getD ((lens.getD k 0).toNat - 1) 0 = next.getD ((lens.getD k 0).toNat - 1) 0 := by
              generalize lens.getD k 0 = m at *
              rw [List.getD_eq_getElem?_getD, List.getD_eq_getElem?_getD, List.getElem?_modify]
              simp only [if_neg hne]; simp
            rw [this]

/-- The space taken by a code is its Kraft sum. -/
theorem codeSpace_eq (lens : List CodeLen) : codeSpace lens = kraftSum lens := by
  unfold codeSpace kraftSum
  induction lens with
  | nil => rfl
  | cons l lens ih =>
    simp only [List.map_cons, List.sum_cons, List.filter_cons]
    by_cases h : l = 0
    · rw [if_pos h, if_neg (by simp [h]), Nat.zero_add, ih]
    · rw [if_neg h, if_pos (by simpa using h), List.map_cons, List.sum_cons, ih]

/-- Exactly one entry meets a test. -/
theorem countP_eq_one_iff {α : Type} (p : α → Bool) : ∀ l : List α, l.countP p = 1 ↔ ∃ i : Nat, (∃ a, l[i]? = some a ∧ p a = true) ∧ ∀ (j : Nat) a, l[j]? = some a → j ≠ i → p a = false := by
  intro l
  induction l with
  | nil => simp
  | cons x l ih =>
    by_cases hx : p x = true
    · rw [List.countP_cons_of_pos hx]
      have : l.countP p + 1 = 1 ↔ ∀ a ∈ l, p a = false := by rw [Nat.add_eq_right, List.countP_eq_zero]; simp
      rw [this]
      constructor
      · intro h
        refine ⟨0, ⟨x, rfl, hx⟩, fun j a ha hj => ?_⟩
        cases j with
        | zero => omega
        | succ j => exact h a (List.mem_of_getElem? (by simpa using ha))
      · rintro ⟨i, ⟨a, ha, hpa⟩, h⟩ b hb
        cases i with
        | zero =>
          obtain ⟨j, hj⟩ := List.mem_iff_getElem?.1 hb
          exact h (j + 1) b (by simpa using hj) (by omega)
        | succ i => have := h 0 x rfl (by omega); rw [hx] at this; cases this
    · rw [List.countP_cons_of_neg hx, ih]
      constructor
      · rintro ⟨i, ⟨a, ha, hpa⟩, h⟩
        refine ⟨i + 1, ⟨a, by simpa using ha, hpa⟩, fun j b hb hj => ?_⟩
        cases j with
        | zero => simp at hb; subst hb; simpa using hx
        | succ j => exact h j b (by simpa using hb) (by omega)
      · rintro ⟨i, ⟨a, ha, hpa⟩, h⟩
        cases i with
        | zero => simp at ha; subst ha; exact absurd hpa hx
        | succ i => exact ⟨i, ⟨a, by simpa using ha, hpa⟩, fun j b hb hj => h (j + 1) b (by simpa using hb) (by omega)⟩

/-- The test for the one-symbol code is the one of the spec. -/
theorem single_iff (lens : List CodeLen) : singleOneBitCode lens = true ↔ OnlyOneBitCode lens := by
  unfold singleOneBitCode OnlyOneBitCode
  simp only [Bool.and_eq_true, beq_iff_eq]
  rw [countP_eq_one_iff, countP_eq_one_iff]
  constructor
  · rintro ⟨⟨i, ⟨a, ha, hpa⟩, h⟩, ⟨j, ⟨b, hb, hpb⟩, _⟩⟩
    simp at hpb; subst hpb
    by_cases hij : j = i
    · subst hij
      exact ⟨j, hb, fun o l hl ho => by have := h o l hl ho; simpa using this⟩
    · have := h j 1 hb hij; simp at this
  · rintro ⟨i, hi, h⟩
    refine ⟨⟨i, ⟨1, hi, by decide⟩, fun j a ha hj => ?_⟩, ⟨i, ⟨1, hi, by decide⟩, fun j a ha hj => ?_⟩⟩
    · rw [h j a ha hj]; decide
    · rw [h j a ha hj]; decide

/-- A code word lies below the end of the code words of its length. -/
theorem canonical_lt (lens : List CodeLen) (sym : Nat) (h : sym < lens.length) (hl : lens.getD sym 0 ≠ 0) :
    firstCode lens (lens.getD sym 0).toNat ≤ canonicalCode lens sym ∧ canonicalCode lens sym < firstCode lens (lens.getD sym 0).toNat + codeCount lens (lens.getD sym 0).toNat := by
  have h1 := codeLen_pos hl
  refine ⟨Nat.le_add_right _ _, ?_⟩
  rw [canonicalCode, codeCount_eq, if_neg (by omega)]
  apply Nat.add_lt_add_left
  have hc : (lens.countP fun l => l.toNat == (lens.getD sym 0).toNat) = lens.countP fun l => l == lens.getD sym 0 := by
    congr 1; funext l; rw [Bool.eq_iff_iff]; simp [BitVec.toNat_inj]
  rw [hc]
  have hsplit : (lens.countP fun l => l == lens.getD sym 0) = (lens.take sym).countP (fun l => l == lens.getD sym 0) + (lens.drop sym).countP (fun l => l == lens.getD sym 0) := by
    rw [← List.countP_append, List.take_append_drop]
  have : 0 < (lens.drop sym).countP fun l => l == lens.getD sym 0 := by
    rw [List.countP_pos_iff]
    refine ⟨lens.getD sym 0, ?_, by simp⟩
    rw [List.mem_iff_getElem?]; exact ⟨0, by simp [List.getElem?_drop, List.getD_eq_getElem?_getD, h]⟩
  omega

/-- Among symbols of one length the code words rise with the symbol. -/
theorem canonical_mono (lens : List CodeLen) {a b : Nat} (hab : a < b) (hb : b < lens.length) (he : lens.getD a 0 = lens.getD b 0) : canonicalCode lens a < canonicalCode lens b := by
  rw [canonicalCode, canonicalCode, he]
  apply Nat.add_lt_add_left
  have e : lens.take b = lens.take a ++ (lens.drop a).take (b - a) := by
    rw [← List.take_add]; congr 1; omega
  rw [e, List.countP_append]
  have : 0 < ((lens.drop a).take (b - a)).countP fun l => l == lens.getD b 0 := by
    rw [List.countP_pos_iff]
    refine ⟨lens.getD b 0, ?_, by simp⟩
    rw [List.mem_iff_getElem?]; refine ⟨0, ?_⟩
    rw [List.getElem?_take, if_pos (by omega), List.getElem?_drop, ← he]
    simp [List.getD_eq_getElem?_getD, show a < lens.length by omega]
  omega

/-- Two symbols of one length have different code words. -/
theorem canonical_inj (lens : List CodeLen) {a b : Nat} (ha : a < lens.length) (hb : b < lens.length) (he : lens.getD a 0 = lens.getD b 0) (hc : canonicalCode lens a = canonicalCode lens b) : a = b := by
  rcases Nat.lt_trichotomy a b with h | h | h
  · have := canonical_mono lens h hb he; omega
  · exact h
  · have := canonical_mono lens h ha he.symm; omega

/-- Extended to a greater length, the words of a length end before the first code of that length. -/
theorem firstCode_ge (lens : List CodeLen) (l : Nat) : ∀ d, (firstCode lens l + codeCount lens l) * 2 ^ (d + 1) ≤ firstCode lens (l + d + 1) := by
  intro d
  induction d with
  | zero => simp [firstCode_succ]
  | succ d ih => rw [show l + (d + 1) + 1 = (l + d + 1) + 1 by omega, firstCode_succ, Nat.pow_succ]; nlinarith

/-- The first code of a length in terms of the space taken by the shorter ones. -/
theorem firstCode_kraft (lens : List CodeLen) : ∀ b, b ≤ 15 → firstCode lens b * 2 ^ (15 - b) = ((List.range b).map fun l => codeCount lens l * 2 ^ (15 - l)).sum := by
  intro b
  induction b with
  | zero => intro _; simp [firstCode]
  | succ b ih =>
    intro hb
    rw [firstCode_succ, List.range_succ, List.map_append, List.sum_append, ← ih (by omega)]
    simp only [List.map_cons, List.map_nil, List.sum_cons, List.sum_nil, Nat.add_zero]
    rw [show 15 - b = (15 - (b + 1)) + 1 by omega, Nat.pow_succ]; ring

/-- The Kraft sum by length. -/
theorem kraft_counts (lens : List CodeLen) : kraftSum lens = ((List.range 16).map fun l => codeCount lens l * 2 ^ (15 - l)).sum := by
  rw [← codeSpace_eq]
  unfold codeSpace
  induction lens with
  | nil => simp [codeCount]
  | cons x lens ih =>
    rw [List.map_cons, List.sum_cons, ih]
    have e : ∀ l, codeCount (x :: lens) l * 2 ^ (15 - l) = (if x ≠ 0 ∧ x.toNat = l then 2 ^ (15 - x.toNat) else 0) + codeCount lens l * 2 ^ (15 - l) := by
      intro l
      rw [codeCount_eq, codeCount_eq]
      by_cases hl : l = 0
      · subst hl
        rw [if_pos rfl, if_pos rfl, if_neg]
        · simp
        · rintro ⟨h1, h2⟩; exact h1 (BitVec.eq_of_toNat_eq h2)
      · rw [if_neg hl, if_neg hl]
        by_cases hx : x.toNat = l
        · rw [List.countP_cons_of_pos (by simpa using hx), if_pos ⟨by rintro rfl; exact hl hx.symm, hx⟩, hx]; ring
        · rw [List.countP_cons_of_neg (by simpa using hx), if_neg (fun h => hx h.2)]; simp
    have e2 : ((List.range 16).map fun l => codeCount (x :: lens) l * 2 ^ (15 - l)).sum = ((List.range 16).map fun l => (if x ≠ 0 ∧ x.toNat = l then 2 ^ (15 - x.toNat) else 0)).sum + ((List.range 16).map fun l => codeCount lens l * 2 ^ (15 - l)).sum := by
      simp only [e]; exact List.sum_map_add
    have e3 : ∀ x : CodeLen, ((List.range 16).map fun l => (if x ≠ 0 ∧ x.toNat = l then 2 ^ (15 - x.toNat) else 0)).sum = if x = 0 then 0 else 2 ^ (15 - x.toNat) := by decide +kernel
    rw [e2, e3]

/-- Where the Kraft sum is at most 1, every code word fits its length. -/
theorem code_fits (lens : List CodeLen) (hk : kraftSum lens ≤ 2 ^ 15) (sym : Nat) (h : sym < lens.length) (hl : lens.getD sym 0 ≠ 0) :
    canonicalCode lens sym < 2 ^ (lens.getD sym 0).toNat := by
  have h1 := canonical_lt lens sym h hl
  have h2 := codeLen_pos hl
  generalize (lens.getD sym 0).toNat = b at *
  have h3 := firstCode_kraft lens b h2.2
  have h4 : ((List.range (b + 1)).map fun l => codeCount lens l * 2 ^ (15 - l)).sum ≤ kraftSum lens := by
    rw [kraft_counts]
    apply List.Sublist.sum_le_sum _ (fun _ _ => Nat.zero_le _)
    apply List.Sublist.map
    have : List.range 16 = List.range (b + 1) ++ (List.range (15 - b)).map (b + 1 + ·) := by rw [← List.range_add]; congr 1; omega
    rw [this]; exact List.sublist_append_left _ _
  rw [List.range_succ, List.map_append, List.sum_append, ← h3] at h4
  simp only [List.map_cons, List.map_nil, List.sum_cons, List.sum_nil, Nat.add_zero] at h4
  have h5 : (2:Nat) ^ 15 = 2 ^ b * 2 ^ (15 - b) := by rw [← Nat.pow_add]; congr 1; omega
  rw [← Nat.add_mul] at h4
  have : firstCode lens b + codeCount lens b ≤ 2 ^ b := Nat.le_of_mul_le_mul_right (by omega : _ * 2 ^ (15 - b) ≤ _ * 2 ^ (15 - b)) (by positivity)
  omega

/-- An accepted code has a Kraft sum of at most 1. -/
theorem accepted_kraft {lens kind} (h : CodeAccepted lens kind) : kraftSum lens ≤ 2 ^ 15 := by
  rcases h with h | h | h
  · omega
  · omega
  · exact h.1

/-- A bit of a code word on the wire. -/
theorem codeBits_get (w v k : Nat) (h : k < w) : (codeBits w v)[k]? = some (v.testBit (w - 1 - k)) := by
  simp [codeBits, h]

/-- The first bits of a code word. -/
theorem codeBits_take (w n v : Nat) (h : n ≤ w) : (codeBits w v).take n = codeBits n (v / 2 ^ (w - n)) := by
  apply List.ext_getElem?
  intro k
  rw [List.getElem?_take]
  split
  · rename_i hk
    rw [codeBits_get _ _ _ (by omega), codeBits_get _ _ _ hk, Nat.testBit_div_two_pow]
    congr 2; omega
  · rw [List.getElem?_eq_none]; simp [codeBits]; omega

/-- A code word is known from its bits. -/
theorem codeBits_inj (n a b : Nat) (ha : a < 2 ^ n) (hb : b < 2 ^ n) (h : codeBits n a = codeBits n b) : a = b := by
  apply Nat.eq_of_testBit_eq
  intro i
  by_cases hi : i < n
  · have h1 := codeBits_get n a (n - 1 - i) (by omega)
    have h2 := codeBits_get n b (n - 1 - i) (by omega)
    rw [h, h2, show n - 1 - (n - 1 - i) = i by omega] at h1
    exact (Option.some.inj h1).symm
  · have := Nat.pow_le_pow_right (show 0 < 2 by omega) (show n ≤ i by omega)
    rw [Nat.testBit_lt_two_pow (by omega), Nat.testBit_lt_two_pow (by omega)]

/-- No entry meets the test. -/
theorem findIdx?_none {α} {p : α → Bool} {l : List α} (h : ∀ (i : Nat) e, l[i]? = some e → p e = false) : l.findIdx? p = none := by
  rw [List.findIdx?_eq_none_iff]; intro x hx
  obtain ⟨i, hi⟩ := List.mem_iff_getElem?.1 hx
  exact h i x hi

/-- The one entry that meets the test is found. -/
theorem findIdx?_unique {α} {p : α → Bool} {l : List α} {i : Nat} {e : α} (he : l[i]? = some e) (hp : p e = true) (h : ∀ (j : Nat) e', l[j]? = some e' → p e' = true → j = i) : l.findIdx? p = some i := by
  obtain ⟨hi, rfl⟩ := List.getElem?_eq_some_iff.1 he
  rw [List.findIdx?_eq_some_iff_getElem]
  refine ⟨hi, hp, fun j hj hpj => ?_⟩
  have := h j _ (List.getElem?_eq_getElem (by omega)) hpj
  omega

end Sys2Proof.Laws
end

