-- ==== Sys2Proof/Laws/Chunks.lean ====
section
/-! SUPPORT. Chunk records: everything `ReadChunk` can do (41_container.md R170), once, and the chunk payload. -/

namespace Sys2Proof.Laws

open Sys2Proof.Machine Sys2Proof.Safety

/-! ### The wire form of a 32-bit value -/

/-- The wire form of `BE32` of four bytes is these bytes. -/
theorem bytesBE_be32 (b0 b1 b2 b3 : Byte) : bytesBE 4 (be32 b0 b1 b2 b3) = [b0, b1, b2, b3] := by
  have := b0.isLt; have := b1.isLt; have := b2.isLt; have := b3.isLt
  rw [bytesBE_four]
  simp only [be32, List.cons.injEq, and_true]
  refine ⟨?_, ?_, ?_, ?_⟩ <;> apply BitVec.eq_of_toNat_eq <;> simp only [BitVec.toNat_ofNat] <;> omega

/-- Two words with one wire form are equal. -/
theorem bytesBE_inj {v w : Word} (h : bytesBE 4 v.toNat = bytesBE 4 w.toNat) : v = w := by
  rw [bytesBE_four, bytesBE_four] at h
  injection h with h0 h; injection h with h1 h; injection h with h2 h; injection h with h3 h
  apply BitVec.eq_of_toNat_eq
  rw [← be32_bytesBE v.isLt, ← be32_bytesBE w.isLt, h0, h1, h2, h3]

/-- Four bytes are the wire form of a word. -/
theorem bytesBE_exists (b0 b1 b2 b3 : Byte) : ∃ w : Word, be32 b0 b1 b2 b3 = w.toNat ∧ [b0, b1, b2, b3] = bytesBE 4 w.toNat :=
  ⟨BitVec.ofNat 32 (be32 b0 b1 b2 b3), by rw [BitVec.toNat_ofNat, Nat.mod_eq_of_lt (be32_lt ..)],
    by rw [BitVec.toNat_ofNat, Nat.mod_eq_of_lt (be32_lt ..), bytesBE_be32]⟩

/-- Four bytes or more begin with the wire form of a word. -/
theorem bytesBE_prefix {l : List Byte} (h : 4 ≤ l.length) : ∃ (w : Word) (rest : List Byte), l = bytesBE 4 w.toNat ++ rest := by
  match l, h with
  | b0 :: b1 :: b2 :: b3 :: rest, _ =>
    obtain ⟨w, _, hw⟩ := bytesBE_exists b0 b1 b2 b3
    exact ⟨w, rest, by rw [← hw]; rfl⟩

theorem drop_of_append {l a b : List Byte} {n m : Nat} (h : l.drop n = a ++ b) (hm : a.length = m) : l.drop (n + m) = b := by
  rw [← List.drop_drop, h, ← hm, List.drop_left]

theorem length_of_drop {l a b : List Byte} {n : Nat} (h : l.drop n = a ++ b) (ha : a ≠ []) : n + a.length ≤ l.length := by
  have := congrArg List.length h
  have : 0 < a.length := List.length_pos_iff.2 ha
  simp at *; omega

/-- `readU32BE` on the wire form of a word. -/
theorem readU32BE_word {s : State} {w : Word} {rest : List Byte} (h : s.input.drop s.cur = bytesBE 4 w.toNat ++ rest) :
    readU32BE s = .ok w.toNat { s with cur := s.cur + 4 } := by
  rw [bytesBE_four] at h
  rw [readU32BE_ok h, be32_bytesBE w.isLt]

/-- `readU32BE` with fewer than four bytes left. -/
theorem readU32BE_short {s : State} (h : s.input.length - s.cur < 4) : readU32BE s = .raise .truncatedInput s := by
  simp only [readU32BE, readExact_short h, bind_raise]

/-! ### The CRC of a sequence -/

/-- `CRC.UPDATE` over a sequence is a fold on the register alone. -/
theorem crcUpdates_eq (l : List Byte) (s : State) : crcUpdates l s = { s with crcAcc := l.foldl crcByte s.crcAcc } := by
  induction l generalizing s with
  | nil => rfl
  | cons b l ih => rw [crcUpdates, ih]; rfl

/-! ### The record -/

/-- A record lies inside the input. -/
theorem recordAt_bound {s : State} {len type : Word} {pay : List Byte} {crc : Word} (h : RecordAt s len type pay crc) :
    s.cur + 12 + len.toNat ≤ s.input.length := by
  obtain ⟨hp, rest, h⟩ := h
  have := congrArg List.length h
  simp at this; omega

/-- The first two fields of a record, read. -/
theorem readChunk_fields {s : State} {len type : Word} {rest : List Byte}
    (h : s.input.drop s.cur = bytesBE 4 len.toNat ++ (bytesBE 4 type.toNat ++ rest)) :
    readChunk s =
      (readExact len.toNat { s with cur := s.cur + 4 + 4, ckLen := len, ckType := type }).bind fun pay s =>
      (readU32BE { s with ckPay := pay }).bind fun crc s =>
        crcCheck (BitVec.ofNat 32 crc) (crcUpdates (bytesBE 4 type.toNat ++ pay) (crcInit { s with ckCrc := BitVec.ofNat 32 crc })) := by
  have h1 := drop_of_append h (bytesBE_length 4 _)
  have l1 := length_of_drop h1 (by simp [bytesBE])
  rw [bytesBE_length] at l1
  rw [readChunk, readU32BE_word h, bind_ok, readExact_ok (by exact l1), bind_ok]
  have ht : List.take 4 (List.drop (s.cur + 4) s.input) = bytesBE 4 type.toNat := by
    rw [h1, List.take_append_of_le_length (by simp), List.take_of_length_le (by simp)]
  simp only [ht, BitVec.ofNat_toNat, BitVec.setWidth_eq]
  have hb : be32 (BitVec.ofNat 8 (type.toNat / 2 ^ 24)) (BitVec.ofNat 8 (type.toNat / 2 ^ 16))
      (BitVec.ofNat 8 (type.toNat / 2 ^ 8)) (BitVec.ofNat 8 type.toNat) = type.toNat := be32_bytesBE type.isLt
  rw [bytesBE_four type.toNat]
  generalize BitVec.ofNat 8 (type.toNat / 2 ^ 24) = t0 at *
  generalize BitVec.ofNat 8 (type.toNat / 2 ^ 16) = t1 at *
  generalize BitVec.ofNat 8 (type.toNat / 2 ^ 8) = t2 at *
  generalize BitVec.ofNat 8 type.toNat = t3 at *
  rw [readByte_some (b := t0) rfl, bind_ok, readByte_some (b := t1) rfl, bind_ok, readByte_some (b := t2) rfl, bind_ok,
    readByte_some (b := t3) rfl, bind_ok, hb]
  simp only [BitVec.ofNat_toNat, BitVec.setWidth_eq]

/-- `ReadChunk` on a complete record: the record is read whole, then its checksum decides. -/
theorem readChunk_record {s : State} {len type : Word} {pay : List Byte} {crc : Word} (h : RecordAt s len type pay crc) :
    readChunk s = if crc = crc32 (bytesBE 4 type.toNat ++ pay) then .ok () (afterRecord s len type pay crc)
      else .raise .chunkCorrupt (afterRecord s len type pay crc) := by
  have hb := recordAt_bound h
  obtain ⟨hp, rest, h⟩ := h
  simp only [List.append_assoc] at h
  have h2 := drop_of_append (drop_of_append h (bytesBE_length 4 _)) (bytesBE_length 4 _)
  have h3 := drop_of_append h2 hp
  have ht : List.take len.toNat (List.drop (s.cur + 4 + 4) s.input) = pay := by
    rw [h2, List.take_append_of_le_length (by omega), List.take_of_length_le (by omega)]
  rw [readChunk_fields h, readExact_ok (by show s.cur + 4 + 4 + _ ≤ s.input.length; omega), bind_ok]
  simp only [ht]
  rw [readU32BE_word (w := crc) (by exact h3), bind_ok]
  simp only [crcCheck, crcUpdates_eq, crcInit]
  have e : (List.foldl crcByte crcStart (bytesBE 4 type.toNat ++ pay) ^^^ (0xFFFFFFFF : Word) = BitVec.ofNat 32 crc.toNat) ↔
      crc = crc32 (bytesBE 4 type.toNat ++ pay) := by
    simp [crc32, eq_comm]
  have e2 : ({ s with
      ckLen := len, ckType := type, ckPay := pay, ckCrc := BitVec.ofNat 32 crc.toNat,
      crcAcc := List.foldl crcByte crcStart (bytesBE 4 type.toNat ++ pay), cur := s.cur + 4 + 4 + len.toNat + 4 } : State) =
      afterRecord s len type pay crc := by
    simp [afterRecord, crc32]; omega
  split
  · rename_i hc; rw [require_pos (e.2 hc), e2]
  · rename_i hc; rw [require_neg (fun h => hc (e.1 h)), e2]

/-- Everything `ReadChunk` can do: a complete record is there, or it raises `TruncatedInput` having written no register but those
of the record and moved the cursor forward within the input. -/
theorem readChunk_cases (s : State) :
    (∃ len type pay crc, RecordAt s len type pay crc) ∨
    ∃ p l t y, s.cur ≤ p ∧ (s.cur ≤ s.input.length → p ≤ s.input.length) ∧
      readChunk s = .raise .truncatedInput { s with cur := p, ckLen := l, ckType := t, ckPay := y } := by
  by_cases l0 : s.input.length - s.cur < 4
  · exact .inr ⟨s.cur, s.ckLen, s.ckType, s.ckPay, le_refl _, id, by rw [readChunk, readU32BE_short l0, bind_raise]⟩
  obtain ⟨len, r1, hd⟩ := bytesBE_prefix (l := s.input.drop s.cur) (by simp; omega)
  have h1 := drop_of_append hd (bytesBE_length 4 _)
  have l1 : s.input.length - (s.cur + 4) = r1.length := by rw [← List.length_drop, h1]
  by_cases l2 : r1.length < 4
  · right
    refine ⟨s.cur + 4, len, s.ckType, s.ckPay, by omega, by omega, ?_⟩
    rw [readChunk, readU32BE_word hd, bind_ok, readExact_short (by exact l1 ▸ l2), bind_raise]
    simp only [BitVec.ofNat_toNat, BitVec.setWidth_eq]
  obtain ⟨type, r2, rfl⟩ := bytesBE_prefix (l := r1) (by omega)
  have h2 := drop_of_append h1 (bytesBE_length 4 _)
  have l3 : s.input.length - (s.cur + 4 + 4) = r2.length := by rw [← List.length_drop, h2]
  by_cases l4 : len.toNat + 4 ≤ r2.length
  · left
    obtain ⟨crc, r3, h3⟩ := bytesBE_prefix (l := r2.drop len.toNat) (by simp; omega)
    refine ⟨len, type, r2.take len.toNat, crc, by simp; omega, r3, ?_⟩
    rw [hd, List.append_assoc, List.append_assoc, List.append_assoc, ← h3, List.take_append_drop]
  · right
    by_cases l5 : len.toNat ≤ r2.length
    · refine ⟨s.cur + 4 + 4 + len.toNat, len, type, r2.take len.toNat, by omega, by omega, ?_⟩
      rw [readChunk_fields hd, readExact_ok (by show s.cur + 4 + 4 + _ ≤ s.input.length; omega), bind_ok,
        readU32BE_short (by show s.input.length - (s.cur + 4 + 4 + len.toNat) < 4; omega), bind_raise, h2]
    · refine ⟨s.cur + 4 + 4, len, type, s.ckPay, by omega, by rw [List.length_append, bytesBE_length] at l1; omega, ?_⟩
      rw [readChunk_fields hd, readExact_short (by show s.input.length - (s.cur + 4 + 4) < _; omega), bind_raise]

/-- An incomplete record whose length field is there. -/
theorem readChunk_short {s : State} {len : Word} (h : ∃ rest, s.input.drop s.cur = bytesBE 4 len.toNat ++ rest)
    (hl : s.input.length < s.cur + 12 + len.toNat) : ∃ u, readChunk s = .raise .truncatedInput u := by
  rcases readChunk_cases s with ⟨len', type, pay, crc, hr⟩ | ⟨_, _, _, _, _, _, h⟩
  · exfalso
    have := recordAt_bound hr
    obtain ⟨hp, rest', h'⟩ := hr
    obtain ⟨rest, h⟩ := h
    rw [h] at h'
    simp only [List.append_assoc] at h'
    have := bytesBE_inj (List.append_inj_left h' (by simp))
    subst this; omega
  · exact ⟨_, h⟩

/-! ### The payload -/

/-- After `ReadChunk` the payload is there. -/
theorem payload_ok {s : State} (h : s.ckPay.length = s.ckLen.toNat) : payload s = .ok s.ckPay s := by simp [payload, h]

/-- `payload` answers only in the unchanged state, and never raises. -/
theorem payload_eq_ok {s t : State} {p : List Byte} :
    payload s = .ok p t ↔ s.ckPay.length = s.ckLen.toNat ∧ p = s.ckPay ∧ s = t := by
  unfold payload; split <;> simp_all [eq_comm]

/-- A 32-bit field of a payload. -/
theorem payloadBE32_word {pay rest : List Byte} {i : Nat} {w : Word} (h : pay.drop i = bytesBE 4 w.toNat ++ rest) (s : State) :
    payloadBE32 pay i s = .ok w.toNat s := by
  have hb := be32_bytesBE w.isLt
  rw [bytesBE_four] at h
  generalize BitVec.ofNat 8 (w.toNat / 2 ^ 24) = b0 at *
  generalize BitVec.ofNat 8 (w.toNat / 2 ^ 16) = b1 at *
  generalize BitVec.ofNat 8 (w.toNat / 2 ^ 8) = b2 at *
  generalize BitVec.ofNat 8 w.toNat = b3 at *
  have g : ∀ k, pay[i + k]? = ([b0, b1, b2, b3] ++ rest)[k]? := fun k => by rw [← h, List.getElem?_drop]
  rw [payloadBE32, readByte_some (b := b0) (by simpa using g 0), bind_ok, readByte_some (b := b1) (by simpa using g 1), bind_ok,
    readByte_some (b := b2) (by simpa using g 2), bind_ok, readByte_some (b := b3) (by simpa using g 3), bind_ok, hb]

theorem payload_ne_raise {s t : State} {k : FaultKind} : payload s ≠ .raise k t := by
  unfold payload; split <;> simp

end Sys2Proof.Laws
end

