-- ==== Sys2Proof/Laws/Fetch.lean ====
section
/-! SUPPORT. The step in terms of what the fetch gives, and the fetch in terms of the phase. -/

namespace Sys2Proof.Laws

open Sys2Proof.Machine Sys2Proof.Safety

/-! ### The step -/

/-- The fetch gave an element: the step runs it. -/
theorem step_element {s u : State} {i : Instr} (h : fetch s = .ok (some i) u) : step s = exec i u := by simp only [step, h]

/-- The fetch took a step of the sequencer. -/
theorem step_sequencer {s u : State} (h : fetch s = .ok none u) : step s = .next u := by simp only [step, h]

/-- The fetch raised a fault. -/
theorem step_raise {s u : State} {k : FaultKind} (h : fetch s = .raise k u) : step s = .next (raiseFault k u) := by
  simp only [step, h]

/-- The fetch stopped. -/
theorem step_stop {s : State} {x : Fault} (h : fetch s = .stop x) : step s = .fault x := by simp only [step, h]

/-- Everything a step that answers a next state can have done. -/
theorem step_eq_next {s t : State} (h : step s = .next t) :
    (∃ i u, fetch s = .ok (some i) u ∧ exec i u = .next t) ∨ fetch s = .ok none t ∨
      ∃ k u, fetch s = .raise k u ∧ t = raiseFault k u := by
  unfold step at h
  split at h
  · rename_i i u hf; exact .inl ⟨i, u, hf, h⟩
  · rename_i u hf; cases h; exact .inr (.inl hf)
  · rename_i k u hf; cases h; exact .inr (.inr ⟨k, u, hf, rfl⟩)
  · cases h

/-! ### The fetch, by what is at the inputs and by phase -/

theorem fetch_reset {s : State} (h : s.resetLine = true) : fetch s = .ok none (hardwareReset s) := by simp [fetch, h]

theorem fetch_command {s : State} {c : Command} (h : s.resetLine = false) (hc : s.cmd = some c) :
    fetch s = .ok (some (.decode c.stream c.maxPixels c.verifyAdler)) { s with cmd := none } := by simp [fetch, h, hc]

theorem fetch_container {s : State} (q : Quiet s) (h : s.phase = .container) : fetch s = fetchContainer s := by
  simp [fetch, q.1, q.2, h]

theorem fetch_inflate {s : State} (q : Quiet s) (h : s.phase = .inflate) : fetch s = fetchInflate s := by
  simp [fetch, q.1, q.2, h]

theorem fetch_recon {s : State} (q : Quiet s) (h : s.phase = .recon) : fetch s = fetchRecon s := by
  simp [fetch, q.1, q.2, h]

/-- Where no decode runs and nothing is at the inputs, nothing is fetched. -/
theorem fetch_waiting {s : State} (q : Quiet s) (h : ¬ Running s) : fetch s = .ok none s := by
  unfold Running at h
  unfold fetch
  rw [q.1, q.2]
  cases hp : s.phase <;> simp_all

/-- What the fetch can be doing: the inputs first, then the phase. -/
theorem fetch_by_cases (s : State) :
    (s.resetLine = true ∧ fetch s = .ok none (hardwareReset s)) ∨
    (s.resetLine = false ∧ ∃ c, s.cmd = some c ∧
      fetch s = .ok (some (.decode c.stream c.maxPixels c.verifyAdler)) { s with cmd := none }) ∨
    (Quiet s ∧ ¬ Running s ∧ fetch s = .ok none s) ∨
    (Quiet s ∧ s.phase = .container ∧ fetch s = fetchContainer s) ∨
    (Quiet s ∧ s.phase = .inflate ∧ fetch s = fetchInflate s) ∨
    (Quiet s ∧ s.phase = .recon ∧ fetch s = fetchRecon s) := by
  by_cases hr : s.resetLine = true
  · exact .inl ⟨hr, fetch_reset hr⟩
  rw [Bool.not_eq_true] at hr
  cases hc : s.cmd with
  | some c => exact .inr (.inl ⟨hr, c, rfl, fetch_command hr hc⟩)
  | none =>
    have q : Quiet s := ⟨hc, hr⟩
    by_cases hk : s.phase = .container
    · exact .inr (.inr (.inr (.inl ⟨q, hk, fetch_container q hk⟩)))
    by_cases hi : s.phase = .inflate
    · exact .inr (.inr (.inr (.inr (.inl ⟨q, hi, fetch_inflate q hi⟩))))
    by_cases hn : s.phase = .recon
    · exact .inr (.inr (.inr (.inr (.inr ⟨q, hn, fetch_recon q hn⟩))))
    · have h : ¬ Running s := by simp [Running, hk, hi, hn]
      exact .inr (.inr (.inl ⟨q, h, fetch_waiting q h⟩))

/-- `decoded` answers the element the decoder gives, in the unchanged state. -/
theorem decoded_eq_ok {f : Format} {v : Nat} {s t : State} {r : Option Instr} :
    decoded f v s = .ok r t ↔ ∃ i, decode f v = .ok i ∧ r = some i ∧ s = t := by
  unfold decoded; cases decode f v <;> simp [eq_comm]

theorem decoded_ne_raise {f : Format} {v : Nat} {s t : State} {k : FaultKind} : decoded f v s ≠ .raise k t := by
  unfold decoded; cases decode f v <;> simp

end Sys2Proof.Laws
end

