-- ==== Sys2Proof/Laws/Outcome.lean ====
section
/-! SUPPORT. What an operation or an element answers, as one predicate over its three outcomes, with the rules for sequencing.
`Sat r Q R N`: a value meets `Q`, a raised kind meets `R`, and only `N` allows a stop of the model. -/

namespace Sys2Proof.Laws

open Sys2Proof.Machine Sys2Proof.Safety

variable {α β : Type}

/-- What a result answers: a value that meets `Q`, a raised kind that meets `R`, or a stop, which only `N` allows. -/
def Sat (r : Res α) (Q : α → State → Prop) (R : FaultKind → State → Prop) (N : Prop) : Prop :=
  match r with
  | .ok v s => Q v s
  | .raise k s => R k s
  | .stop _ => N

/-- Sequencing. -/
theorem Sat.bind {r : Res α} {f : α → State → Res β} {Q1 : α → State → Prop} {Q : β → State → Prop} {R : FaultKind → State → Prop} {N : Prop}
    (h : Sat r Q1 R N) (hf : ∀ v s, Q1 v s → Sat (f v s) Q R N) : Sat (r.bind f) Q R N := by
  cases r with
  | ok v s => exact hf v s h
  | raise k s => exact h
  | stop x => exact h

/-- Weakening. -/
theorem Sat.mono {r : Res α} {Q Q' : α → State → Prop} {R R' : FaultKind → State → Prop} {N N' : Prop}
    (h : Sat r Q R N) (hq : ∀ v s, Q v s → Q' v s) (hr : ∀ k s, R k s → R' k s) (hn : N → N') : Sat r Q' R' N' := by
  cases r with
  | ok v s => exact hq v s h
  | raise k s => exact hr k s h
  | stop x => exact hn h

/-- `require`. -/
theorem sat_require {p : Prop} [Decidable p] {k : FaultKind} {s : State} {Q : Unit → State → Prop} {R : FaultKind → State → Prop} {N : Prop}
    (hp : p → Q () s) (hn : ¬ p → R k s) : Sat (require p k s) Q R N := by
  by_cases h : p
  · rw [require_pos h]; exact hp h
  · rw [require_neg h]; exact hn h

/-- `readByte`. -/
theorem sat_readByte {l : List Byte} {i : Nat} {s : State} {Q : Byte → State → Prop} {R : FaultKind → State → Prop} {N : Prop}
    (h : ∀ b, l[i]? = some b → Q b s) (hn : l.length ≤ i → N) : Sat (readByte l i s) Q R N := by
  unfold readByte
  cases hl : l[i]? with
  | some b => exact h b hl
  | none => exact hn (by simpa using hl)

/-- The payload of a record that was read. -/
theorem sat_payload {s : State} {Q : List Byte → State → Prop} {R : FaultKind → State → Prop} {N : Prop} (hl : s.ckPay.length = s.ckLen.toNat)
    (h : Q s.ckPay s) : Sat (payload s) Q R N := by
  rw [payload_ok hl]; exact h

/-- What an outcome answers. -/
def Ends (o : Result) (Q : State → Prop) (N : Prop) : Prop :=
  match o with
  | .next t => Q t
  | .fault _ => N
  | .refused _ => N

/-- The end of an element. -/
theorem ends_finish {r : Res α} {Q : State → Prop} {N : Prop} (h : Sat r (fun _ s => Q s) (fun k s => Q (raiseFault k s)) N) :
    Ends (finish r) Q N := by
  cases r <;> exact h

/-- What the rest of a step answers after the fetch. -/
def Rest (Q : State → Prop) (N : Prop) (o : Option Instr) (u : State) : Prop :=
  match o with
  | none => Q u
  | some i => Ends (exec i u) Q N

/-- A step, from what its fetch answers. -/
theorem ends_step {s : State} {Q : State → Prop} {N : Prop}
    (h : Sat (fetch s) (Rest Q N) (fun k u => Q (raiseFault k u)) N) :
    Ends (step s) Q N := by
  unfold step
  cases hf : fetch s with
  | ok o u => rw [hf] at h; cases o <;> exact h
  | raise k u => rw [hf] at h; exact h
  | stop x => rw [hf] at h; exact h

/-- What the next state meets. -/
theorem Ends.next {o : Result} {Q : State → Prop} {N : Prop} {t : State} (h : Ends o Q N) (ho : o = .next t) : Q t := by
  subst ho; exact h

theorem sat_require_bind {p : Prop} [Decidable p] {k : FaultKind} {s : State} {f : Unit → State → Res α} {Q : α → State → Prop} {R : FaultKind → State → Prop} {N : Prop}
    (hp : p → Sat (f () s) Q R N) (hn : ¬ p → R k s) : Sat ((require p k s).bind f) Q R N := by
  by_cases h : p
  · rw [require_pos h]; exact hp h
  · rw [require_neg h]; exact hn h

theorem sat_readByte_bind {l : List Byte} {i : Nat} {s : State} {f : Byte → State → Res α} {Q : α → State → Prop} {R : FaultKind → State → Prop} {N : Prop}
    (h : ∀ b, l[i]? = some b → Sat (f b s) Q R N) (hn : l.length ≤ i → N) : Sat ((readByte l i s).bind f) Q R N := by
  unfold readByte
  cases hl : l[i]? with
  | some b => exact h b hl
  | none => exact hn (by simpa using hl)

theorem sat_payload_bind {s : State} {f : List Byte → State → Res α} {Q : α → State → Prop} {R : FaultKind → State → Prop} {N : Prop} (hl : s.ckPay.length = s.ckLen.toNat)
    (h : Sat (f s.ckPay s) Q R N) : Sat ((payload s).bind f) Q R N := by
  rw [payload_ok hl]; exact h

theorem sat_payloadBE32_bind {pay : List Byte} {i : Nat} {s : State} {f : Nat → State → Res α} {Q : α → State → Prop} {R : FaultKind → State → Prop} {N : Prop} (hl : i + 4 ≤ pay.length)
    (h : ∀ w, w < 2 ^ 32 → Sat (f w s) Q R N) : Sat ((payloadBE32 pay i s).bind f) Q R N := by
  unfold payloadBE32
  rw [readByte_lt (by omega), bind_ok, readByte_lt (by omega), bind_ok, readByte_lt (by omega), bind_ok, readByte_lt (by omega), bind_ok, bind_ok]
  exact h _ (be32_lt _ _ _ _)

theorem sat_payloadBE16_bind {pay : List Byte} {i : Nat} {s : State} {f : Half → State → Res α} {Q : α → State → Prop} {R : FaultKind → State → Prop} {N : Prop} (hl : i + 2 ≤ pay.length)
    (h : ∀ w, Sat (f w s) Q R N) : Sat ((payloadBE16 pay i s).bind f) Q R N := by
  unfold payloadBE16
  rw [readByte_lt (by omega), bind_ok, readByte_lt (by omega), bind_ok, bind_ok]
  exact h _

/-- Weakening. -/
theorem Ends.mono {o : Result} {Q Q' : State → Prop} {N N' : Prop} (h : Ends o Q N) (hq : ∀ t, Q t → Q' t) (hn : N → N') : Ends o Q' N' := by
  cases o with
  | next t => exact hq t h
  | fault x => exact hn h
  | refused x => exact hn h

end Sys2Proof.Laws
end

