-- ==== Sys2Proof/Laws/ContainerStep.lean ====
section
/-! SUPPORT. Everything a step in phase CONTAINER can do (41_container.md), said once: `cont_step`. -/

namespace Sys2Proof.Laws

open Sys2Proof.Machine Sys2Proof.Safety

variable {α β : Type}

/-! ### Container -/

/-- `s` with the registers phase CONTAINER may write taken from `t`. -/
def contFrame (s t : State) : State :=
  { s with
    pstate := t.pstate, cur := t.cur, ckLen := t.ckLen, ckType := t.ckType, ckPay := t.ckPay, ckCrc := t.ckCrc, crcAcc := t.crcAcc
    ihWidth := t.ihWidth, ihHeight := t.ihHeight, ihDepth := t.ihDepth, ihCtype := t.ihCtype, ihIlace := t.ihIlace
    plt := t.plt, pltN := t.pltN, trnsKey := t.trnsKey, trnsA := t.trnsA, trnsN := t.trnsN
    havePlte := t.havePlte, haveTrns := t.haveTrns, seenIdat := t.seenIdat, idatClosed := t.idatClosed, zbuf := t.zbuf }

/-- The header is legal once read. -/
def HdrOk (s : State) : Prop :=
  s.pstate = .readingChunks ∨ s.pstate = .done →
    s.ihWidth ≠ 0 ∧ s.ihHeight ≠ 0 ∧ s.ihWidth.toNat * s.ihHeight.toNat ≤ s.cfgMaxPixels ∧ (s.ihDepth, s.ihCtype) ∈ legalPairTable

/-- What phase CONTAINER keeps and may change: `CUR` moves forward inside the input, `ZBUF` grows, and the register files
keep their sizes. -/
structure ContRel (s t : State) : Prop where
  frame : t = contFrame s t
  cur : s.cur ≤ t.cur
  bound : s.cur ≤ s.input.length → t.cur ≤ s.input.length
  zbuf : s.zbuf <+: t.zbuf
  tables : TableInv s → TableInv t

theorem ContRel.refl (s : State) : ContRel s s := ⟨rfl, le_refl _, id, List.prefix_refl _, id⟩

theorem ContRel.trans {s t u : State} (h : ContRel s t) (g : ContRel t u) : ContRel s u := by
  have hi : t.input = s.input := by rw [h.frame]; rfl
  refine ⟨?_, h.cur.trans g.cur, fun hb => hi ▸ g.bound (hi ▸ h.bound hb), h.zbuf.trans g.zbuf, fun ht => g.tables (h.tables ht)⟩
  have e : contFrame t u = contFrame s u := by rw [h.frame]; rfl
  exact g.frame.trans e

/-- A fault kind of phase CONTAINER (60_exceptions.md R380). -/
abbrev InCont (k : FaultKind) : Prop := phaseOfKind k = .container

/-- The sizes of the register files rest on these eight registers only. -/
theorem tableInv_of {s t : State} (h1 : t.plt = s.plt) (h2 : t.trnsA = s.trnsA) (h3 : t.pltN = s.pltN) (h4 : t.trnsN = s.trnsN) (h5 : t.havePlte = s.havePlte)
    (h6 : t.llLen = s.llLen) (h7 : t.dLen = s.dLen) (h8 : t.clLen = s.clLen) : TableInv s → TableInv t := by
  rintro ⟨a, b, c, d, e, f, g, i⟩
  constructor <;> (try rw [h1]) <;> (try rw [h2]) <;> (try rw [h4]) <;> (try rw [h3]) <;> (try rw [h5]) <;> (try rw [h6]) <;> (try rw [h7]) <;> (try rw [h8]) <;> assumption

theorem contRel_closeIdat (s : State) : ContRel s (closeIdatRun s) := by
  rw [closeIdatRun_eq]
  exact ⟨rfl, le_refl _, id, List.prefix_refl _, tableInv_of rfl rfl rfl rfl rfl rfl rfl rfl⟩

/-- The effect of a chunk element on a state that `ReadChunk` left. -/
structure ChunkPost (s t : State) : Prop where
  rel : ContRel s t
  cur : t.cur = s.cur
  hdr : HdrOk s → HdrOk t

/-- A fault raised by a chunk element. -/
abbrev ChunkRaise (s : State) (k : FaultKind) (u : State) : Prop := InCont k ∧ ContRel s u

theorem hdrOk_of {s t : State} (h0 : t.pstate = s.pstate ∨ (t.pstate = .done ∧ s.pstate = .readingChunks)) (h1 : t.ihWidth = s.ihWidth) (h2 : t.ihHeight = s.ihHeight) (h3 : t.ihDepth = s.ihDepth) (h4 : t.ihCtype = s.ihCtype)
    (h5 : t.cfgMaxPixels = s.cfgMaxPixels) : HdrOk s → HdrOk t := by
  intro h ht
  rw [h1, h2, h3, h4, h5]
  apply h
  rcases h0 with h0 | ⟨_, h0⟩
  · rwa [← h0]
  · exact .inl h0

/-- The two tables of legal pairs agree. -/
theorem legalPair_iff : ∀ d c : Byte, legalPair d c = true ↔ (d, c) ∈ legalPairTable := by
  intro d c
  unfold legalPair
  rw [List.contains_iff_mem]
  constructor
  · intro h
    simp only [legalPairs, List.mem_cons, List.not_mem_nil, or_false, Prod.mk.injEq] at h
    have hd : ∀ n : Nat, d.toNat = n → d = BitVec.ofNat 8 n := fun n h => by rw [← h]; simp
    have hc : ∀ n : Nat, c.toNat = n → c = BitVec.ofNat 8 n := fun n h => by rw [← h]; simp
    rcases h with h|h|h|h|h|h|h|h|h|h|h|h|h|h|h <;> rw [hd _ h.1, hc _ h.2] <;> decide
  · intro h
    simp only [legalPairTable, List.mem_cons, List.not_mem_nil, or_false, Prod.mk.injEq] at h
    rcases h with h|h|h|h|h|h|h|h|h|h|h|h|h|h|h <;> rw [h.1, h.2] <;> decide

theorem raise_chunk {s u : State} {k : FaultKind} (hk : InCont k) (h : ContRel s u) : ChunkRaise s k u := ⟨hk, h⟩

/-- The header chunk. -/
theorem sat_header {s : State} (hl : s.ckPay.length = s.ckLen.toNat) :
    Sat ((headerHandler s).bind fun _ s => .ok () { s with pstate := .readingChunks }) (fun _ t => ChunkPost s t) (ChunkRaise s) False := by
  have hr : ∀ k, InCont k → ChunkRaise s k s := fun k hk => raise_chunk hk (ContRel.refl s)
  refine Sat.bind (Q1 := fun _ t => ChunkPost s { t with pstate := .readingChunks }) ?_ (fun _ t h => h)
  unfold headerHandler
  refine sat_require_bind (fun h1 => ?_) (fun _ => hr _ rfl)
  refine sat_payload_bind hl ?_
  have hl' : s.ckPay.length = 13 := by rw [hl, h1]; rfl
  refine sat_payloadBE32_bind (by omega) fun w hw => ?_
  refine sat_payloadBE32_bind (by omega) fun h hh => ?_
  refine sat_readByte_bind (fun d _ => ?_) (fun h => by omega)
  refine sat_readByte_bind (fun c _ => ?_) (fun h => by omega)
  refine sat_readByte_bind (fun cm _ => ?_) (fun h => by omega)
  refine sat_readByte_bind (fun fm _ => ?_) (fun h => by omega)
  refine sat_readByte_bind (fun il _ => ?_) (fun h => by omega)
  refine sat_require_bind (fun h2 => ?_) (fun _ => hr _ rfl)
  refine sat_require_bind (fun h3 => ?_) (fun _ => hr _ rfl)
  refine sat_require_bind (fun h4 => ?_) (fun _ => hr _ rfl)
  refine sat_require_bind (fun h5 => ?_) (fun _ => hr _ rfl)
  refine ⟨⟨rfl, le_refl _, id, List.prefix_refl _, tableInv_of rfl rfl rfl rfl rfl rfl rfl rfl⟩, rfl, fun _ _ => ?_⟩
  have e : ∀ w : Nat, w < 2 ^ 32 → (BitVec.ofNat 32 w).toNat = w := fun w h => by simp; omega
  have e0 : ∀ w : Nat, w < 2 ^ 32 → w ≠ 0 → BitVec.ofNat 32 w ≠ 0 := fun w h h0 hw => h0 (by rw [← e w h, hw]; rfl)
  refine ⟨e0 w hw h2.1, e0 h hh h2.2, ?_, (legalPair_iff d c).1 h3⟩
  show (BitVec.ofNat 32 w).toNat * (BitVec.ofNat 32 h).toNat ≤ _
  rw [e w hw, e h hh]; exact h5

/-- Everything `IHDR` can do. -/
theorem ends_ihdr {s : State} (hl : s.ckPay.length = s.ckLen.toNat) {Q : State → Prop} {N : Prop}
    (hq : ∀ t, ChunkPost s t → Q t) (hr : ∀ k u, ChunkRaise s k u → Q (raiseFault k u)) : Ends (execIhdr s) Q N := by
  apply ends_finish
  split
  · exact (sat_header hl).mono (fun _ t h => hq t h) hr False.elim
  · exact hr _ _ ⟨rfl, contRel_closeIdat s⟩

theorem rgbTriplets_length' : ∀ l : List Byte, (rgbTriplets l).length = l.length / 3
  | [] => rfl
  | [_] => by simp [rgbTriplets]
  | [_, _] => by simp [rgbTriplets]
  | _ :: _ :: _ :: r => by simp only [rgbTriplets, List.length_cons, rgbTriplets_length' r]; omega

theorem overwriteFront_length {α : Type} {new old : List α} (h : new.length ≤ old.length) : (overwriteFront new old).length = old.length := by
  simp [overwriteFront]; omega

/-- Everything `PLTE` can do. -/
theorem ends_plte {s : State} (hl : s.ckPay.length = s.ckLen.toNat) {Q : State → Prop} {N : Prop}
    (hq : ∀ t, ChunkPost s t → Q t) (hr : ∀ k u, ChunkRaise s k u → Q (raiseFault k u)) : Ends (execPlte s) Q N := by
  apply ends_finish
  have hc := contRel_closeIdat s
  have hh : HdrOk s → HdrOk (closeIdatRun s) := hdrOk_of (.inl (by simp)) (by simp) (by simp) (by simp) (by simp) (by simp)
  have hcc : (closeIdatRun s).cur = s.cur := by simp
  have hl' : (closeIdatRun s).ckPay.length = (closeIdatRun s).ckLen.toNat := by simpa using hl
  generalize closeIdatRun s = u at *
  have hr' : ∀ k, InCont k → Q (raiseFault k u) := fun k hk => hr k u ⟨hk, hc⟩
  refine sat_require_bind (fun h1 => ?_) (fun _ => hr' _ rfl)
  refine sat_require_bind (fun h2 => ?_) (fun _ => hr' _ rfl)
  refine sat_require_bind (fun h3 => ?_) (fun _ => hr' _ rfl)
  refine sat_require_bind (fun h4 => ?_) (fun _ => hr' _ rfl)
  refine sat_payload_bind hl' ?_
  refine hq _ ⟨hc.trans ⟨rfl, le_refl _, id, List.prefix_refl _, ?_⟩, hcc, fun h => ?_⟩
  · rintro ⟨a, b, c, d, e, f, g, i⟩
    have hp := e h3
    have hn : (BitVec.ofNat 9 (u.ckLen.toNat / 3)).toNat = u.ckLen.toNat / 3 := by simp; omega
    refine ⟨?_, b, ?_, ?_, fun h => by simp at h, f, g, i⟩
    · show (overwriteFront (rgbTriplets u.ckPay) u.plt).length = 256
      rw [overwriteFront_length]; exact a
      rw [rgbTriplets_length', hl', a]; omega
    · show (BitVec.ofNat 9 (u.ckLen.toNat / 3)).toNat ≤ 256; rw [hn]; omega
    · show u.trnsN.toNat ≤ _; rw [hp] at d; simp at d; simp [d]
  · exact hdrOk_of (.inl rfl) rfl rfl rfl rfl rfl (hh h)

/-- Everything `tRNS` can do. -/
theorem ends_trns {s : State} (hl : s.ckPay.length = s.ckLen.toNat) {Q : State → Prop} {N : Prop}
    (hq : ∀ t, ChunkPost s t → Q t) (hr : ∀ k u, ChunkRaise s k u → Q (raiseFault k u)) : Ends (execTrns s) Q N := by
  apply ends_finish
  have hc := contRel_closeIdat s
  have hh : HdrOk s → HdrOk (closeIdatRun s) := hdrOk_of (.inl (by simp)) (by simp) (by simp) (by simp) (by simp) (by simp)
  have hcc : (closeIdatRun s).cur = s.cur := by simp
  have hl' : (closeIdatRun s).ckPay.length = (closeIdatRun s).ckLen.toNat := by simpa using hl
  generalize closeIdatRun s = u at *
  have hr' : ∀ k, InCont k → Q (raiseFault k u) := fun k hk => hr k u ⟨hk, hc⟩
  refine sat_require_bind (fun h1 => ?_) (fun _ => hr' _ rfl)
  refine sat_require_bind (fun h2 => ?_) (fun _ => hr' _ rfl)
  refine sat_require_bind (fun h3 => ?_) (fun _ => hr' _ rfl)
  refine sat_require_bind (fun h4 => ?_) (fun _ => hr' _ rfl)
  have key : Sat (transparencyTable u) (fun _ t => ContRel u t ∧ t.cur = u.cur ∧ (HdrOk u → HdrOk t)) (fun k v => InCont k ∧ v = u) N := by
    unfold transparencyTable
    split
    · refine sat_require_bind (fun h5 => ?_) (fun _ => ⟨rfl, rfl⟩)
      refine sat_payload_bind hl' (sat_payloadBE16_bind (by rw [hl', h5]; decide) fun k0 => ?_)
      exact ⟨⟨rfl, le_refl _, id, List.prefix_refl _, tableInv_of rfl rfl rfl rfl rfl rfl rfl rfl⟩, rfl, hdrOk_of (.inl rfl) rfl rfl rfl rfl rfl⟩
    · split
      · refine sat_require_bind (fun h5 => ?_) (fun _ => ⟨rfl, rfl⟩)
        have h6 : u.ckPay.length = 6 := by rw [hl', h5]; rfl
        refine sat_payload_bind hl' (sat_payloadBE16_bind (by omega) fun k0 => sat_payloadBE16_bind (by omega) fun k1 => sat_payloadBE16_bind (by omega) fun k2 => ?_)
        exact ⟨⟨rfl, le_refl _, id, List.prefix_refl _, tableInv_of rfl rfl rfl rfl rfl rfl rfl rfl⟩, rfl, hdrOk_of (.inl rfl) rfl rfl rfl rfl rfl⟩
      · split
        · refine sat_require_bind (fun h5 => ?_) (fun _ => ⟨rfl, rfl⟩)
          refine sat_payload_bind hl' ?_
          refine ⟨⟨rfl, le_refl _, id, List.prefix_refl _, ?_⟩, rfl, hdrOk_of (.inl rfl) rfl rfl rfl rfl rfl⟩
          rintro ⟨a, b, c, d, e, f, g, i⟩
          have hn : (BitVec.ofNat 9 u.ckLen.toNat).toNat = u.ckLen.toNat := by simp; omega
          refine ⟨a, ?_, c, ?_, e, f, g, i⟩
          · show (overwriteFront u.ckPay u.trnsA).length = 256
            rw [overwriteFront_length]; exact b
            rw [hl', b]; omega
          · show (BitVec.ofNat 9 u.ckLen.toNat).toNat ≤ _; rw [hn]; exact h5
        · exact ⟨ContRel.refl u, rfl, id⟩
  refine Sat.bind (key.mono (fun _ _ h => h) (fun k v h => by obtain ⟨hk, rfl⟩ := h; exact hr' k hk) id) fun _ t ⟨h5, h6, h7⟩ => ?_
  refine hq _ ⟨hc.trans (h5.trans ⟨rfl, le_refl _, id, List.prefix_refl _, tableInv_of rfl rfl rfl rfl rfl rfl rfl rfl⟩), by show t.cur = _; rw [h6, hcc], fun h => ?_⟩
  exact hdrOk_of (.inl rfl) rfl rfl rfl rfl rfl (h7 (hh h))

theorem ends_idat {s : State} (hl : s.ckPay.length = s.ckLen.toNat) {Q : State → Prop} {N : Prop}
    (hq : ∀ t, ChunkPost s t → Q t) (hr : ∀ k u, ChunkRaise s k u → Q (raiseFault k u)) : Ends (execIdat s) Q N := by
  apply ends_finish
  have hr' : ∀ k, InCont k → Q (raiseFault k s) := fun k hk => hr k s ⟨hk, ContRel.refl s⟩
  refine sat_require_bind (fun h1 => ?_) (fun _ => hr' _ rfl)
  refine sat_require_bind (fun h2 => ?_) (fun _ => hr' _ rfl)
  refine sat_payload_bind hl ?_
  exact hq _ ⟨⟨rfl, le_refl _, id, List.prefix_append _ _, tableInv_of rfl rfl rfl rfl rfl rfl rfl rfl⟩, rfl, hdrOk_of (.inl rfl) rfl rfl rfl rfl rfl⟩

/-- The effect of any element a chunk type selects. -/
theorem ends_chunk {s : State} (hl : s.ckPay.length = s.ckLen.toNat) (hp : s.pstate = .readingChunks ∨ (s.pstate = .expectHeader ∧ s.ckType = tagIHDR)) {Q : State → Prop} {N : Prop}
    (hq : ∀ t, ChunkPost s t → Q t) (hr : ∀ k u, ChunkRaise s k u → Q (raiseFault k u)) : Ends (exec (decodeChunkType s.ckType) s) Q N := by
  have hc := contRel_closeIdat s
  have hh : HdrOk s → HdrOk (closeIdatRun s) := hdrOk_of (.inl (by simp)) (by simp) (by simp) (by simp) (by simp) (by simp)
  have hcc : (closeIdatRun s).cur = s.cur := by simp
  unfold decodeChunkType
  split
  · exact ends_ihdr hl hq hr
  split
  · exact ends_plte hl hq hr
  split
  · exact ends_trns hl hq hr
  split
  · exact ends_idat hl hq hr
  split
  · rename_i h1 _ _ _ _
    apply ends_finish
    refine sat_require_bind (fun h => ?_) (fun _ => hr _ _ ⟨rfl, hc⟩)
    refine hq _ ⟨hc.trans ⟨rfl, le_refl _, id, List.prefix_refl _, tableInv_of rfl rfl rfl rfl rfl rfl rfl rfl⟩, hcc, fun h => ?_⟩
    have hps : (closeIdatRun s).pstate = .readingChunks := by
      rw [closeIdatRun_pstate]; exact hp.resolve_right fun h => h1 h.2
    exact hdrOk_of (s := closeIdatRun s) (.inr ⟨rfl, hps⟩) rfl rfl rfl rfl rfl (hh h)
  split
  · exact hq _ ⟨hc, hcc, hh⟩
  · exact hr _ _ ⟨rfl, hc⟩

/-! ### The container step -/

/-- Everything a step of a running CONTAINER phase can do. -/
structure ContStep (s t : State) : Prop where
  rel : ContRel s t
  more : s.cur ≤ s.input.length → s.cur < t.cur
  hdr : HdrOk s → HdrOk t

/-- Everything a step in phase CONTAINER can do: go on, enter INFLATE at the end of the input, or fault. -/
def ContPost (s t : State) : Prop :=
  ContStep s t ∨
  (s.pstate = .done ∧ s.cur = s.input.length ∧ t = { s with phase := .inflate, bp := 0, istage := .zhdr }) ∨
  ∃ k u, InCont k ∧ ContRel s u ∧ t = raiseFault k u

theorem contRel_record {s : State} {len type crc : Word} {pay : List Byte} (h : RecordAt s len type pay crc) : ContRel s (afterRecord s len type pay crc) := by
  have hb := recordAt_bound h
  refine ⟨rfl, by show s.cur ≤ s.cur + 12 + len.toNat; omega, fun _ => hb, List.prefix_refl _, tableInv_of rfl rfl rfl rfl rfl rfl rfl rfl⟩

theorem decode_chunk (t : Word) : decode .chunk t.toNat = .ok (decodeChunkType t) := by
  simp only [decode, if_pos t.isLt, BitVec.ofNat_toNat, BitVec.setWidth_eq]

theorem cont_chunk {s : State} {N : Prop} {req : Bool} (hps : s.pstate = .readingChunks ∨ (s.pstate = .expectHeader ∧ req = true)) :
    Sat ((readChunk s).bind fun _ s => (require (req = true → s.ckType = tagIHDR) .missingHeader s).bind fun _ s => decoded .chunk s.ckType.toNat s)
      (Rest (ContPost s) N) (fun k u => ContPost s (raiseFault k u)) N := by
  rcases readChunk_cases s with ⟨len, type, pay, crc, hr⟩ | ⟨p, l, t, y, h1, h2, he⟩
  · have hrel := contRel_record hr
    have hpay := hr.1
    have hb := recordAt_bound hr
    have := readChunk_record hr
    rw [this]
    split
    · rw [bind_ok]
      refine sat_require_bind (fun hq => ?_) (fun _ => .inr (.inr ⟨_, _, rfl, hrel, rfl⟩))
      have hd : decoded .chunk (afterRecord s len type pay crc).ckType.toNat (afterRecord s len type pay crc) = .ok (some (decodeChunkType type)) (afterRecord s len type pay crc) := by
        unfold decoded; rw [show (afterRecord s len type pay crc).ckType = type from rfl, decode_chunk]
      rw [hd]
      show Ends (exec (decodeChunkType type) (afterRecord s len type pay crc)) (ContPost s) N
      refine ends_chunk (s := afterRecord s len type pay crc) (by exact hpay) ?_ (fun t ht => .inl ⟨hrel.trans ht.rel, fun h => ?_, fun h => ht.hdr h⟩) (fun k u hu => .inr (.inr ⟨k, u, hu.1, hrel.trans hu.2, rfl⟩))
      · rcases hps with h | h
        · exact .inl h
        · exact .inr ⟨h.1, hq h.2⟩
      · rw [ht.cur]; show s.cur < s.cur + 12 + len.toNat; omega
    · rw [bind_raise]
      exact .inr (.inr ⟨_, _, rfl, hrel, rfl⟩)
  · rw [he]
    refine .inr (.inr ⟨.truncatedInput, { s with cur := p, ckLen := l, ckType := t, ckPay := y }, rfl, ⟨rfl, h1, h2, List.prefix_refl _, tableInv_of rfl rfl rfl rfl rfl rfl rfl rfl⟩, rfl⟩)

theorem signature_length : signature.length = 8 := by decide

/-- Everything a step in phase CONTAINER can do; it never stops. -/
theorem cont_step {s : State} (q : Quiet s) (hp : s.phase = .container) {N : Prop} : Ends (step s) (ContPost s) N := by
  apply ends_step
  rw [fetch_container q hp, fetchContainer]
  split
  · apply ends_finish
    rcases readExact_cases 8 s with ⟨hb, he, _⟩ | ⟨hb, he⟩
    · rw [he, bind_ok]
      refine sat_require_bind (fun _ => ?_) (fun _ => .inr (.inr ⟨.invalidSignature, { s with cur := s.cur + 8 }, rfl, ⟨rfl, ?_, fun _ => by show s.cur + 8 ≤ s.input.length; omega, List.prefix_refl _, tableInv_of rfl rfl rfl rfl rfl rfl rfl rfl⟩, rfl⟩))
      · refine .inl ⟨⟨rfl, ?_, fun _ => by show s.cur + 8 ≤ s.input.length; omega, List.prefix_refl _, tableInv_of rfl rfl rfl rfl rfl rfl rfl rfl⟩, fun _ => ?_, fun _ h => ?_⟩
        · show s.cur ≤ s.cur + 8; omega
        · show s.cur < s.cur + 8; omega
        · rcases h with h | h <;> cases h
      · show s.cur ≤ s.cur + 8; omega
    · rw [he]
      exact .inr (.inr ⟨_, _, rfl, ContRel.refl s, rfl⟩)
  · rename_i hps
    have := cont_chunk (s := s) (N := N) (req := true) (.inr ⟨hps, rfl⟩)
    simpa only [forall_const] using this
  · rename_i hps
    have := cont_chunk (s := s) (N := N) (req := false) (.inl hps)
    simpa only [Bool.false_eq_true, false_imp_iff, require, if_true, bind_ok] using this
  · rename_i hps
    unfold enterInflate
    by_cases h : atEnd s = true
    · rw [require_pos h]
      exact .inr (.inl ⟨hps, by simpa [atEnd] using h, rfl⟩)
    · rw [require_neg h]
      exact .inr (.inr ⟨_, _, rfl, ContRel.refl s, rfl⟩)

end Sys2Proof.Laws
end

