-- ==== Sys2Proof/Laws/InflateStep.lean ====
section
/-! SUPPORT. Everything a step in phase INFLATE can do (43 to 45), said once: `infl_step`. -/

namespace Sys2Proof.Laws

open Sys2Proof.Machine Sys2Proof.Safety

variable {α β : Type}

/-- `s` with the registers phase INFLATE may write taken from `t`. -/
def inflFrame (s t : State) : State :=
  { s with
    bp := t.bp, bfinal := t.bfinal, btype := t.btype, hlit := t.hlit, hdist := t.hdist, hclen := t.hclen, llLen := t.llLen
    dLen := t.dLen, clLen := t.clLen, clSeq := t.clSeq, mlen := t.mlen, adlerA := t.adlerA, adlerB := t.adlerB, obuf := t.obuf
    istage := t.istage, freeCount := t.freeCount }

/-- The Adler-32 sums over more bytes. -/
def adlerFold (ab : Half × Half) (l : List Byte) : Half × Half := l.foldl (fun ab b => adlerByte ab.1 ab.2 b) ab

/-- What phase INFLATE keeps and may change: `BP` moves forward inside `ZBUF`, `OBUF` grows, and the Adler-32 sums cover what
was appended. -/
structure InflRel (s t : State) : Prop where
  frame : t = inflFrame s t
  bp : s.bp ≤ t.bp
  bound : s.bp ≤ 8 * s.zbuf.length → t.bp ≤ 8 * s.zbuf.length
  out : ∃ new, t.obuf = s.obuf ++ new ∧ (t.adlerA, t.adlerB) = adlerFold (s.adlerA, s.adlerB) new
  tables : TableInv s → TableInv t

theorem noOut (s : State) : ∃ new : List Byte, s.obuf = s.obuf ++ new ∧ (s.adlerA, s.adlerB) = adlerFold (s.adlerA, s.adlerB) new := ⟨[], by simp, rfl⟩

theorem InflRel.refl (s : State) : InflRel s s := ⟨rfl, le_refl _, id, noOut s, id⟩

theorem InflRel.trans {s t u : State} (h : InflRel s t) (g : InflRel t u) : InflRel s u := by
  have hi : t.zbuf = s.zbuf := by rw [h.frame]; rfl
  refine ⟨?_, h.bp.trans g.bp, fun hb => hi ▸ g.bound (hi ▸ h.bound hb), ?_, fun ht => g.tables (h.tables ht)⟩
  · have e : inflFrame t u = inflFrame s u := by rw [h.frame]; rfl
    exact g.frame.trans e
  · obtain ⟨n1, a1, b1⟩ := h.out
    obtain ⟨n2, a2, b2⟩ := g.out
    exact ⟨n1 ++ n2, by rw [a2, a1, List.append_assoc], by rw [b2, b1, adlerFold, adlerFold, adlerFold, List.foldl_append]⟩

theorem InflRel.zbuf {s t : State} (h : InflRel s t) : t.zbuf = s.zbuf := by rw [h.frame]; rfl

/-- A fault kind of phase INFLATE (60_exceptions.md R380). -/
abbrev InInfl (k : FaultKind) : Prop := phaseOfKind k = .inflate

/-- A fault raised in phase INFLATE. -/
abbrev InflRaise (s : State) (k : FaultKind) (u : State) : Prop := InInfl k ∧ InflRel s u

/-- Only the bit cursor moved. -/
structure Moved (s t : State) : Prop where
  eq : t = { s with bp := t.bp }
  bp : s.bp ≤ t.bp
  bound : s.bp ≤ 8 * s.zbuf.length → t.bp ≤ 8 * s.zbuf.length

theorem Moved.rel {s t : State} (h : Moved s t) : InflRel s t := by
  rw [h.eq]
  exact ⟨rfl, h.bp, h.bound, noOut s, tableInv_of rfl rfl rfl rfl rfl rfl rfl rfl⟩

theorem Moved.trans {s t u : State} (h : Moved s t) (g : Moved t u) : Moved s u := by
  have hi : t.zbuf = s.zbuf := by rw [h.eq]
  refine ⟨?_, h.bp.trans g.bp, fun hb => hi ▸ g.bound (hi ▸ h.bound hb)⟩
  have e : { t with bp := u.bp } = { s with bp := u.bp } := by rw [h.eq]
  exact g.eq.trans e

theorem Moved.refl (s : State) : Moved s s := ⟨rfl, le_refl _, id⟩

theorem sat_getbits {n : Nat} {s : State} {N : Prop} :
    Sat (getbits n s) (fun v t => v < 2 ^ n ∧ Moved s t ∧ t.bp = s.bp + n) (fun k t => InInfl k ∧ Moved s t) N := by
  induction n generalizing s with
  | zero => exact ⟨by simp, Moved.refl s, rfl⟩
  | succ n ih =>
    rw [getbits]
    rcases getbit_cases s with ⟨b, hb, he⟩ | ⟨_, he⟩
    · have hlt := bitIs_lt hb
      have hm : Moved s { s with bp := s.bp + 1 } := ⟨rfl, Nat.le_succ _, fun _ => hlt⟩
      rw [he, bind_ok]
      refine Sat.bind (ih.mono (fun v t h => h) (fun k t h => ⟨h.1, hm.trans h.2⟩) id) fun v t ⟨hv, ht, hp⟩ => ?_
      refine ⟨?_, hm.trans ht, ?_⟩
      · rw [Nat.pow_succ]; have : b.toNat < 2 := by cases b <;> simp
        omega
      · rw [hp]; show s.bp + 1 + n = _; omega
    · rw [he]; exact ⟨rfl, Moved.refl s⟩

theorem sat_getbits_bind {n : Nat} {s : State} {f : Nat → State → Res α} {Q : α → State → Prop} {R : FaultKind → State → Prop} {N : Prop}
    (h : ∀ v t, v < 2 ^ n → Moved s t → t.bp = s.bp + n → Sat (f v t) Q R N) (hr : ∀ k t, InInfl k → Moved s t → R k t) : Sat ((getbits n s).bind f) Q R N :=
  Sat.bind (sat_getbits.mono (fun _ _ h => h) (fun k t g => hr k t g.1 g.2) id) fun v t g => h v t g.1 g.2.1 g.2.2

theorem sat_decodeFrom {codes : List (Nat × Nat)} {N : Prop} : ∀ (n len c : Nat) (s : State),
    Sat (decodeFrom codes n len c s) (fun v t => v < codes.length ∧ Moved s t ∧ s.bp < t.bp) (fun k t => InInfl k ∧ Moved s t) N := by
  intro n
  induction n with
  | zero => intro len c s; exact ⟨rfl, Moved.refl s⟩
  | succ n ih =>
    intro len c s
    rw [decodeFrom]
    rcases getbit_cases s with ⟨b, hb, he⟩ | ⟨_, he⟩
    · have hlt := bitIs_lt hb
      have hm : Moved s { s with bp := s.bp + 1 } := ⟨rfl, Nat.le_succ _, fun _ => hlt⟩
      rw [he, bind_ok]
      split
      · rename_i sym hs
        obtain ⟨h, -⟩ := List.findIdx?_eq_some_iff_getElem.1 hs
        exact ⟨h, hm, Nat.lt_succ_self _⟩
      · exact (ih (len + 1) _ { s with bp := s.bp + 1 }).mono (fun v t ⟨h1, h2, h3⟩ => ⟨h1, hm.trans h2, Nat.lt_of_succ_lt h3⟩) (fun k t h => ⟨h.1, hm.trans h.2⟩) id
    · rw [he]; exact ⟨rfl, Moved.refl s⟩

theorem sat_decodeSym_bind {lens : List CodeLen} {s : State} {f : Nat → State → Res α} {Q : α → State → Prop} {R : FaultKind → State → Prop} {N : Prop}
    (h : ∀ v t, v < lens.length → Moved s t → s.bp < t.bp → Sat (f v t) Q R N) (hr : ∀ k t, InInfl k → Moved s t → R k t) : Sat ((decodeSym lens s).bind f) Q R N := by
  refine Sat.bind ((sat_decodeFrom 15 0 0 s).mono (fun _ _ h => h) (fun k t g => hr k t g.1 g.2) id) fun v t g => h v t ?_ g.2.1 g.2.2
  have := g.1
  rwa [buildCode, assignCodes_length] at this

theorem infl_emit (b : Byte) (s : State) : InflRel s (emit b s) :=
  ⟨rfl, le_refl _, id, ⟨[b], rfl, rfl⟩, tableInv_of rfl rfl rfl rfl rfl rfl rfl rfl⟩

theorem infl_istage (g : InflateStage) (s : State) : InflRel s { s with istage := g } :=
  ⟨rfl, le_refl _, id, noOut s, tableInv_of rfl rfl rfl rfl rfl rfl rfl rfl⟩

theorem infl_align (s : State) : InflRel s (alignByte s) :=
  ⟨rfl, by show s.bp ≤ 8 * ((s.bp + 7) / 8); omega, fun h => by show 8 * ((s.bp + 7) / 8) ≤ _; omega, noOut s, tableInv_of rfl rfl rfl rfl rfl rfl rfl rfl⟩

theorem infl_enterBlock (f : Bool) (b : BitVec 2) (s : State) : InflRel s (enterBlock f b s) :=
  ⟨rfl, le_refl _, id, noOut s, tableInv_of rfl rfl rfl rfl rfl rfl rfl rfl⟩

theorem infl_endBlock (s : State) : InflRel s (endBlock s) := infl_istage _ s

theorem sat_storedBytes {N : Prop} : ∀ (n : Nat) (s : State), Sat (storedBytes n s) (fun _ t => InflRel s t) (InflRaise s) N := by
  intro n
  induction n with
  | zero => intro s; exact InflRel.refl s
  | succ n ih =>
    intro s
    rw [storedBytes]
    refine sat_getbits_bind (fun v t _ hm _ => ?_) (fun k t hk hm => ⟨hk, hm.rel⟩)
    exact (ih _).mono (fun _ u h => (hm.rel.trans (infl_emit _ t)).trans h) (fun k u h => ⟨h.1, (hm.rel.trans (infl_emit _ t)).trans h.2⟩) id

theorem sat_copyBytes {dist : Nat} (h1 : 1 ≤ dist) {N : Prop} : ∀ (n : Nat) (s : State), dist ≤ s.obuf.length →
    Sat (copyBytes dist n s) (fun _ t => InflRel s t ∧ t.istage = s.istage) (InflRaise s) N := by
  intro n
  induction n with
  | zero => intro s _; exact ⟨InflRel.refl s, rfl⟩
  | succ n ih =>
    intro s h
    rw [copyBytes]
    refine sat_readByte_bind (fun b hb => ?_) (fun h' => by omega)
    refine (ih (emit b s) (by show dist ≤ (s.obuf ++ [b]).length; simp; omega)).mono (fun _ u h => ⟨(infl_emit _ s).trans h.1, h.2⟩) (fun k u h => ⟨h.1, (infl_emit _ s).trans h.2⟩) id

/-- `SeqOk`: what INFLATE's registers satisfy by stage. -/
structure SeqOk (s : State) : Prop where
  counts : s.istage = .codeLengths → 257 ≤ s.hlit ∧ s.hlit ≤ 286 ∧ 1 ≤ s.hdist ∧ s.hdist ≤ 32 ∧ s.clSeq.length ≤ s.hlit + s.hdist
  length : s.istage = .distance → 3 ≤ s.mlen ∧ s.mlen ≤ 258

theorem seqOk_of_stage {s : State} (h1 : s.istage ≠ .codeLengths) (h2 : s.istage ≠ .distance) : SeqOk s := ⟨fun h => absurd h h1, fun h => absurd h h2⟩

theorem seqOk_endBlock (s : State) : SeqOk (endBlock s) := by
  apply seqOk_of_stage <;> unfold endBlock <;> cases s.bfinal <;> simp

abbrev InflEnds (s : State) (o : Result) (N : Prop) : Prop :=
  Ends o (fun t => (InflRel s t ∧ SeqOk t ∧ t.istage ≠ .finished) ∨ ∃ k u, InflRaise s k u ∧ t = raiseFault k u) N

theorem infl_raise {s u : State} {k : FaultKind} {P : Prop} (h : InflRaise s k u) : P ∨ ∃ k' u', InflRaise s k' u' ∧ raiseFault k u = raiseFault k' u' := .inr ⟨k, u, h, rfl⟩

/-- Everything `BLK.STORED` can do. -/
theorem ends_blkStored (f : Bool) (s : State) {N : Prop} : InflEnds s (execBlkStored f s) N := by
  apply ends_finish
  have h0 : InflRel s (alignByte (enterBlock f 0 s)) := (infl_enterBlock _ _ _).trans (infl_align _)
  refine sat_getbits_bind (fun len t _ hm _ => ?_) (fun k t hk hm => infl_raise ⟨hk, h0.trans hm.rel⟩)
  replace h0 := h0.trans hm.rel
  refine sat_getbits_bind (fun nlen t _ hm _ => ?_) (fun k t hk hm => infl_raise ⟨hk, h0.trans hm.rel⟩)
  replace h0 := h0.trans hm.rel
  refine sat_require_bind (fun _ => ?_) (fun _ => infl_raise ⟨rfl, h0⟩)
  refine Sat.bind ((sat_storedBytes len t).mono (fun _ _ h => h) (fun k u h => infl_raise ⟨h.1, h0.trans h.2⟩) id) fun _ u hu => ?_
  refine .inl ⟨(h0.trans hu).trans (infl_endBlock u), seqOk_endBlock u, ?_⟩
  unfold endBlock; cases u.bfinal <;> simp

theorem infl_lens {s t : State} (h : t = { s with llLen := t.llLen, dLen := t.dLen, clLen := t.clLen }) (h1 : t.llLen.length = s.llLen.length ∨ t.llLen.length = 288) (h2 : t.dLen.length = s.dLen.length ∨ t.dLen.length = 32)
    (h3 : t.clLen.length = s.clLen.length ∨ t.clLen.length = 19) : InflRel s t := by
  generalize t.llLen = a at *
  generalize t.dLen = b at *
  generalize t.clLen = c at *
  subst h
  refine ⟨rfl, le_refl _, id, noOut s, fun ⟨p, q, r, u, v, w, x, y⟩ => ⟨p, q, r, u, v, ?_, ?_, ?_⟩⟩
  · rcases h1 with h | h <;> rw [h]; exact w
  · rcases h2 with h | h <;> rw [h]; exact x
  · rcases h3 with h | h <;> rw [h]; exact y

theorem infl_freeCount (n : Nat) (s : State) : InflRel s { s with freeCount := n } :=
  ⟨rfl, le_refl _, id, noOut s, tableInv_of rfl rfl rfl rfl rfl rfl rfl rfl⟩

theorem fixedLL_length : fixedLLLens.length = 288 := by decide +kernel
theorem fixedDist_length : fixedDistLens.length = 32 := by decide

/-- Everything `BLK.FIXED` can do. -/
theorem ends_blkFixed (f : Bool) (s : State) {N : Prop} : InflEnds s (execBlkFixed f s) N := by
  refine .inl ⟨?_, seqOk_of_stage (by simp) (by simp), by simp⟩
  have h1 : InflRel (enterBlock f 1 s)
      { enterBlock f 1 s with llLen := fixedLLLens, dLen := fixedDistLens, clLen := freeClLens s.freeCount } :=
    infl_lens rfl (.inr fixedLL_length) (.inr fixedDist_length) (.inr (freeClLens_length _))
  exact (((infl_enterBlock f 1 s).trans h1).trans (infl_freeCount (s.freeCount + 1) _)).trans (infl_istage .huffman _)

theorem sat_readClLens {N : Prop} : ∀ (syms : List Nat) (s : State), Sat (readClLens syms s) (fun _ t => InflRel s t ∧ t.hlit = s.hlit ∧ t.hdist = s.hdist) (InflRaise s) N := by
  intro syms
  induction syms with
  | nil => intro s; exact ⟨InflRel.refl s, rfl, rfl⟩
  | cons sym rest ih =>
    intro s
    rw [readClLens]
    refine sat_getbits_bind (fun v t _ hm _ => ?_) (fun k t hk hm => ⟨hk, hm.rel⟩)
    have h1 : InflRel t { t with clLen := t.clLen.set sym (BitVec.ofNat 4 v) } := infl_lens rfl (.inl rfl) (.inl rfl) (.inl (by simp))
    refine (ih _).mono (fun _ u h => ⟨(hm.rel.trans h1).trans h.1, h.2.1.trans ?_, h.2.2.trans ?_⟩) (fun k u h => ⟨h.1, (hm.rel.trans h1).trans h.2⟩) id
    · show t.hlit = s.hlit; rw [hm.eq]
    · show t.hdist = s.hdist; rw [hm.eq]

theorem sat_checkCode_bind {lens : List CodeLen} {kind : CodeKind} {s : State} {f : Unit → State → Res α} {Q : α → State → Prop} {R : FaultKind → State → Prop} {N : Prop}
    (h : Sat (f () s) Q R N) (hr : R .invalidCompressedData s) : Sat ((checkCode lens kind s).bind f) Q R N := by
  unfold checkCode
  refine Sat.bind (Q1 := fun _ t => t = s) (sat_require_bind (fun _ => sat_require (fun _ => rfl) (fun _ => hr)) (fun _ => hr)) ?_
  rintro _ _ rfl; exact h

theorem infl_counts (s : State) (a b c : Nat) : InflRel s { s with hlit := a, hdist := b, hclen := c } :=
  ⟨rfl, le_refl _, id, noOut s, tableInv_of rfl rfl rfl rfl rfl rfl rfl rfl⟩

/-- Everything `BLK.DYN` can do. -/
theorem ends_blkDyn (f : Bool) (s : State) {N : Prop} : InflEnds s (execBlkDyn f s) N := by
  apply ends_finish
  have h0 := infl_enterBlock f 2 s
  refine sat_getbits_bind (fun hl t v1 hm _ => ?_) (fun k t hk hm => infl_raise ⟨hk, h0.trans hm.rel⟩)
  replace h0 := (h0.trans hm.rel).trans (infl_counts t (hl + 257) t.hdist t.hclen)
  refine sat_getbits_bind (fun hd t' v2 hm' _ => ?_) (fun k t hk hm => infl_raise ⟨hk, h0.trans hm.rel⟩)
  replace h0 := (h0.trans hm'.rel).trans (infl_counts t' t'.hlit (hd + 1) t'.hclen)
  refine sat_getbits_bind (fun hc t'' v3 hm'' _ => ?_) (fun k t hk hm => infl_raise ⟨hk, h0.trans hm.rel⟩)
  replace h0 := (h0.trans hm''.rel).trans (infl_counts t'' t''.hlit t''.hdist (hc + 4))
  have e1 : t'.hlit = hl + 257 := by rw [hm'.eq]
  have e2 : t''.hlit = hl + 257 := by rw [hm''.eq]; exact e1
  have e3 : t''.hdist = hd + 1 := by rw [hm''.eq]
  refine sat_require_bind (fun h5 => ?_) (fun _ => infl_raise ⟨rfl, h0⟩)
  have h6 : InflRel { t'' with hclen := hc + 4 } { t'' with hclen := hc + 4, clLen := List.replicate 19 0 } := infl_lens rfl (.inl rfl) (.inl rfl) (.inr (by simp))
  refine Sat.bind ((sat_readClLens _ _).mono (fun _ _ h => h) (fun k u h => infl_raise ⟨h.1, (h0.trans h6).trans h.2⟩) id) fun _ u ⟨hu, hu1, hu2⟩ => ?_
  replace h0 := (h0.trans h6).trans hu
  refine sat_checkCode_bind ?_ (infl_raise ⟨rfl, h0⟩)
  refine .inl ⟨h0.trans ⟨rfl, le_refl _, id, noOut u, tableInv_of rfl rfl rfl rfl rfl rfl rfl rfl⟩, ⟨fun _ => ?_, fun h => by simp at h⟩, by simp⟩
  have g1 : u.hlit = hl + 257 := hu1.trans e2
  have g2 : u.hdist = hd + 1 := hu2.trans e3
  have g3 : t''.hlit ≤ 286 := h5
  show 257 ≤ u.hlit ∧ u.hlit ≤ 286 ∧ 1 ≤ u.hdist ∧ u.hdist ≤ 32 ∧ ([] : List CodeLen).length ≤ u.hlit + u.hdist
  simp only [List.length_nil]; omega

/-- Everything `BLK.RSVD` can do. -/
theorem ends_blkRsvd (f : Bool) (s : State) {N : Prop} : InflEnds s (execBlkRsvd f s) N := .inr ⟨.invalidCompressedData, enterBlock f 3 s, ⟨rfl, infl_enterBlock f 3 s⟩, rfl⟩

theorem infl_mlen (s : State) (m : Nat) (g : InflateStage) : InflRel s { s with mlen := m, istage := g } :=
  ⟨rfl, le_refl _, id, noOut s, tableInv_of rfl rfl rfl rfl rfl rfl rfl rfl⟩

theorem length_range : ∀ i, i < 29 → 3 ≤ lengthBase.getD i 0 ∧ lengthBase.getD i 0 + 2 ^ lengthExtra.getD i 0 ≤ 259 := by decide +kernel
theorem dist_range : ∀ i, i < 30 → 1 ≤ distBase.getD i 0 := by decide +kernel

/-- Everything a length symbol can do. -/
theorem ends_length {sym : Nat} (h1 : 257 ≤ sym ∧ sym < 286) (s : State) {N : Prop} {o : Result} (ho : o = finish (lengthSymbol sym s)) : InflEnds s o N := by
  have hr := length_range (sym - 257) (by omega)
  generalize hl : lengthSymbol sym s = l at ho
  subst ho
  apply ends_finish
  rw [← hl, lengthSymbol]
  clear hl
  generalize lengthBase.getD (sym - 257) 0 = b at *
  generalize lengthExtra.getD (sym - 257) 0 = x at *
  refine sat_getbits_bind (fun e t v hm _ => ?_) (fun k t hk hm => infl_raise ⟨hk, hm.rel⟩)
  refine .inl ⟨hm.rel.trans (infl_mlen t _ _), ⟨fun h => by simp at h, fun _ => ?_⟩, by simp⟩
  show 3 ≤ b + e ∧ b + e ≤ 258
  omega

/-- Everything a distance symbol can do. -/
theorem ends_distance {sym : Nat} (h1 : sym < 30) (s : State) {N : Prop} : InflEnds s (finish (distanceSymbol sym s)) N := by
  apply ends_finish
  have hr := dist_range _ h1
  unfold distanceSymbol
  refine sat_getbits_bind (fun e t v hm _ => ?_) (fun k t hk hm => infl_raise ⟨hk, hm.rel⟩)
  unfold copy
  refine Sat.bind (Q1 := fun _ u => InflRel t u) (sat_require_bind (fun h => ?_) (fun _ => infl_raise ⟨rfl, hm.rel⟩)) (fun _ u hu => ?_)
  · exact (sat_copyBytes (by omega) _ _ h).mono (fun _ _ h => h.1) (fun k u h => infl_raise ⟨h.1, hm.rel.trans h.2⟩) id
  · exact .inl ⟨(hm.rel.trans hu).trans (infl_istage _ u), seqOk_of_stage (by simp) (by simp), by simp⟩

theorem infl_clSeq (s : State) (l : List CodeLen) : InflRel s { s with clSeq := l } :=
  ⟨rfl, le_refl _, id, noOut s, tableInv_of rfl rfl rfl rfl rfl rfl rfl rfl⟩

theorem sat_append {r : Nat} {v : CodeLen} {s u : State} (h : InflRel s u) (hs : u.istage = .codeLengths) (hsq : SeqOk s → SeqOk u) {N : Prop} :
    Sat (appendLengths r v u) (fun _ t => (InflRel s t ∧ (SeqOk s → SeqOk t)) ∨ ∃ k u, InflRaise s k u ∧ t = raiseFault k u)
      (fun k t => (InflRel s (raiseFault k t) ∧ (SeqOk s → SeqOk (raiseFault k t))) ∨ ∃ k' u, InflRaise s k' u ∧ raiseFault k t = raiseFault k' u) N := by
  unfold appendLengths
  refine sat_require_bind (fun h5 => ?_) (fun _ => infl_raise ⟨rfl, h⟩)
  refine .inl ⟨h.trans (infl_clSeq _ _), fun hq => ⟨fun _ => ?_, fun h => by rw [show _ = InflateStage.codeLengths from hs] at h; cases h⟩⟩
  obtain ⟨a, b, c, d, _⟩ := (hsq hq).counts hs
  exact ⟨a, b, c, d, by simp; omega⟩

theorem Moved.seqOk {s t : State} (h : Moved s t) (hq : SeqOk s) : SeqOk t := by rw [h.eq]; exact ⟨hq.counts, hq.length⟩
theorem Moved.istage {s t : State} (h : Moved s t) : t.istage = s.istage := by rw [h.eq]

/-- Everything a code-length symbol can do. -/
theorem ends_clsym {v : Nat} {i : Instr} (hv : decode .clsym v = .ok i) {s : State} (hs : s.istage = .codeLengths) (hlt : s.clSeq.length < s.hlit + s.hdist) {N : Prop} :
    Ends (exec i s) (fun t => (InflRel s t ∧ (SeqOk s → SeqOk t)) ∨ ∃ k u, InflRaise s k u ∧ t = raiseFault k u) N := by
  simp only [decode, decodeCL] at hv
  split at hv
  · cases hv
    refine .inl ⟨infl_clSeq _ _, fun hq => ⟨fun _ => ?_, fun h => by rw [show _ = InflateStage.codeLengths from hs] at h; cases h⟩⟩
    obtain ⟨a, b, c, d, _⟩ := hq.counts hs
    exact ⟨a, b, c, d, by simp; omega⟩
  split at hv
  · cases hv
    apply ends_finish
    split
    · exact infl_raise ⟨rfl, InflRel.refl s⟩
    · refine sat_getbits_bind (fun e t v hm _ => ?_) (fun k t hk hm => infl_raise ⟨hk, hm.rel⟩)
      exact sat_append hm.rel (hm.istage.trans hs) hm.seqOk
  split at hv
  · cases hv
    apply ends_finish
    refine sat_getbits_bind (fun e t v hm _ => ?_) (fun k t hk hm => infl_raise ⟨hk, hm.rel⟩)
    exact sat_append hm.rel (hm.istage.trans hs) hm.seqOk
  split at hv
  · cases hv
    apply ends_finish
    refine sat_getbits_bind (fun e t v hm _ => ?_) (fun k t hk hm => infl_raise ⟨hk, hm.rel⟩)
    exact sat_append hm.rel (hm.istage.trans hs) hm.seqOk
  · cases hv

/-- Everything a block header can do. -/
theorem ends_bhdr {v : Nat} {i : Instr} (hv : decode .bhdr v = .ok i) (s : State) {N : Prop} : InflEnds s (exec i s) N := by
  simp only [decode, decodeBlockHeader] at hv
  split at hv
  · split at hv <;> cases hv
    · exact ends_blkStored _ s
    · exact ends_blkFixed _ s
    · exact ends_blkDyn _ s
    · exact ends_blkRsvd _ s
  · cases hv

theorem ll_exec : ∀ i : Nat, i < 31 → ∀ s, (∃ sym, (257 ≤ sym ∧ sym < 286) ∧ (llSymbolsFrom257[i]?).map (exec · s) = some (finish (lengthSymbol sym s))) ∨
    (llSymbolsFrom257[i]?).map (exec · s) = some (finish (.raise (α := Unit) .invalidCompressedData s)) := by
  intro i hi s
  interval_cases i
  · exact .inl ⟨257, by decide, rfl⟩
  · exact .inl ⟨258, by decide, rfl⟩
  · exact .inl ⟨259, by decide, rfl⟩
  · exact .inl ⟨260, by decide, rfl⟩
  · exact .inl ⟨261, by decide, rfl⟩
  · exact .inl ⟨262, by decide, rfl⟩
  · exact .inl ⟨263, by decide, rfl⟩
  · exact .inl ⟨264, by decide, rfl⟩
  · exact .inl ⟨265, by decide, rfl⟩
  · exact .inl ⟨266, by decide, rfl⟩
  · exact .inl ⟨267, by decide, rfl⟩
  · exact .inl ⟨268, by decide, rfl⟩
  · exact .inl ⟨269, by decide, rfl⟩
  · exact .inl ⟨270, by decide, rfl⟩
  · exact .inl ⟨271, by decide, rfl⟩
  · exact .inl ⟨272, by decide, rfl⟩
  · exact .inl ⟨273, by decide, rfl⟩
  · exact .inl ⟨274, by decide, rfl⟩
  · exact .inl ⟨275, by decide, rfl⟩
  · exact .inl ⟨276, by decide, rfl⟩
  · exact .inl ⟨277, by decide, rfl⟩
  · exact .inl ⟨278, by decide, rfl⟩
  · exact .inl ⟨279, by decide, rfl⟩
  · exact .inl ⟨280, by decide, rfl⟩
  · exact .inl ⟨281, by decide, rfl⟩
  · exact .inl ⟨282, by decide, rfl⟩
  · exact .inl ⟨283, by decide, rfl⟩
  · exact .inl ⟨284, by decide, rfl⟩
  · exact .inl ⟨285, by decide, rfl⟩
  · exact .inr rfl
  · exact .inr rfl

/-- Everything a literal/length symbol can do. -/
theorem ends_llsym {v : Nat} {i : Instr} (hv : decode .llsym v = .ok i) {s : State} (hs : s.istage = .huffman) {N : Prop} : InflEnds s (exec i s) N := by
  simp only [decode, decodeLL] at hv
  split at hv
  · cases hv
    refine .inl ⟨infl_emit _ s, seqOk_of_stage ?_ ?_, ?_⟩ <;> (show s.istage ≠ _; rw [hs]; simp)
  split at hv
  · cases hv
    refine .inl ⟨infl_endBlock s, seqOk_endBlock s, ?_⟩
    unfold endBlock; cases s.bfinal <;> simp
  split at hv
  · rename_i j hj
    cases hv
    have hlt := (List.getElem?_eq_some_iff.1 hj).1
    rcases ll_exec _ hlt s with ⟨sym, h1, h2⟩ | h2 <;> rw [hj] at h2 <;> simp only [Option.map_some, Option.some.injEq] at h2
    · exact ends_length h1 s h2
    · rw [h2]; exact .inr ⟨.invalidCompressedData, s, ⟨rfl, InflRel.refl s⟩, rfl⟩
  · cases hv

theorem d_exec : ∀ i : Nat, i < 32 → ∀ s, (∃ sym, sym < 30 ∧ (distSymbols[i]?).map (exec · s) = some (finish (distanceSymbol sym s))) ∨
    (distSymbols[i]?).map (exec · s) = some (finish (.raise (α := Unit) .invalidCompressedData s)) := by
  intro i hi s
  interval_cases i
  · exact .inl ⟨0, by decide, rfl⟩
  · exact .inl ⟨1, by decide, rfl⟩
  · exact .inl ⟨2, by decide, rfl⟩
  · exact .inl ⟨3, by decide, rfl⟩
  · exact .inl ⟨4, by decide, rfl⟩
  · exact .inl ⟨5, by decide, rfl⟩
  · exact .inl ⟨6, by decide, rfl⟩
  · exact .inl ⟨7, by decide, rfl⟩
  · exact .inl ⟨8, by decide, rfl⟩
  · exact .inl ⟨9, by decide, rfl⟩
  · exact .inl ⟨10, by decide, rfl⟩
  · exact .inl ⟨11, by decide, rfl⟩
  · exact .inl ⟨12, by decide, rfl⟩
  · exact .inl ⟨13, by decide, rfl⟩
  · exact .inl ⟨14, by decide, rfl⟩
  · exact .inl ⟨15, by decide, rfl⟩
  · exact .inl ⟨16, by decide, rfl⟩
  · exact .inl ⟨17, by decide, rfl⟩
  · exact .inl ⟨18, by decide, rfl⟩
  · exact .inl ⟨19, by decide, rfl⟩
  · exact .inl ⟨20, by decide, rfl⟩
  · exact .inl ⟨21, by decide, rfl⟩
  · exact .inl ⟨22, by decide, rfl⟩
  · exact .inl ⟨23, by decide, rfl⟩
  · exact .inl ⟨24, by decide, rfl⟩
  · exact .inl ⟨25, by decide, rfl⟩
  · exact .inl ⟨26, by decide, rfl⟩
  · exact .inl ⟨27, by decide, rfl⟩
  · exact .inl ⟨28, by decide, rfl⟩
  · exact .inl ⟨29, by decide, rfl⟩
  · exact .inr rfl
  · exact .inr rfl

/-- Everything a distance symbol of the decoder can do. -/
theorem ends_dsym {v : Nat} {i : Instr} (hv : decode .dsym v = .ok i) (s : State) {N : Prop} : InflEnds s (exec i s) N := by
  simp only [decode, decodeDist] at hv
  split at hv
  · rename_i j hj
    cases hv
    have hlt := (List.getElem?_eq_some_iff.1 hj).1
    rcases d_exec _ hlt s with ⟨sym, h1, h2⟩ | h2 <;> rw [hj] at h2 <;> simp only [Option.map_some, Option.some.injEq] at h2 <;> rw [h2]
    · exact ends_distance h1 s
    · exact .inr ⟨.invalidCompressedData, s, ⟨rfl, InflRel.refl s⟩, rfl⟩
  · cases hv

/-- The state after entering RECON. -/
def afterEntry (s : State) : State :=
  { s with phase := .recon, rpos := 0, frame := Memory.alloc (s.ihWidth.toNat * s.ihHeight.toNat * 4), rstage := .pass (firstPass s) }

/-- Everything a step in phase INFLATE can do: go on with more input taken, install the codes, enter RECON, or fault. -/
def InflPost (s t : State) : Prop :=
  (InflRel s t ∧ (SeqOk s → SeqOk t) ∧ (s.bp < t.bp ∨ (s.bp = t.bp ∧ s.istage = .codeLengths ∧ t.istage = .huffman))) ∨
  (s.istage = .finished ∧ (∃ bits, bitspp s = some bits ∧ needBytes bits s ≤ s.obuf.length) ∧ t = afterEntry s) ∨
  (∃ k u, InflRaise s k u ∧ t = raiseFault k u) ∨
  (s.istage = .finished ∧ t = raiseFault .truncatedPixelData { s with phase := .recon, rpos := 0 })

/-- What INFLATE relies on: the sizes of the code-length files, and a header that has a `BITSPP`. -/
def InflReady (s : State) : Prop := s.llLen.length = 288 ∧ s.dLen.length = 32 ∧ s.clLen.length = 19 ∧ bitspp s ≠ none

/-- An element run after its selecting value has been read. -/
theorem infl_after {s u : State} {i : Instr} {N : Prop} (hm : Moved s u) (hlt : s.bp < u.bp) (h : InflEnds u (exec i u) N) : Ends (exec i u) (InflPost s) N := by
  refine h.mono (fun t ht => ?_) id
  rcases ht with ⟨h1, h2, h3⟩ | ⟨k, v, h1, h2⟩
  · exact .inl ⟨hm.rel.trans h1, fun _ => h2, .inl (Nat.lt_of_lt_of_le hlt h1.bp)⟩
  · exact .inr (.inr (.inl ⟨k, v, ⟨h1.1, hm.rel.trans h1.2⟩, h2⟩))

theorem padLens_length (n : Nat) (l : List CodeLen) : (padLens n l).length = n := by simp [padLens]

theorem infl_assign (s : State) : InflRel s (assignLengths s) :=
  infl_lens rfl (.inr (padLens_length _ _)) (.inr (padLens_length _ _)) (.inl rfl)

theorem sat_rest_decoded {f : Format} {v : Nat} {u : State} {P : State → Prop} {R : FaultKind → State → Prop} {N : Prop}
    (h : ∀ i, decode f v = .ok i → Ends (exec i u) P N) (hn : (∃ e, decode f v = .error e) → N) : Sat (decoded f v u) (Rest P N) R N := by
  unfold decoded
  cases hd : decode f v with
  | ok i => exact h i hd
  | error e => exact hn ⟨e, hd⟩

theorem ll_total {v : Nat} (h : v < 288) : ¬ ∃ e, decode .llsym v = .error e := by
  rintro ⟨e, he⟩
  simp only [decode, decodeLL] at he
  split at he
  · cases he
  split at he
  · cases he
  split at he
  · cases he
  · rename_i h1 h2 _ h3
    rw [List.getElem?_eq_none_iff] at h3
    have : llSymbolsFrom257.length = 31 := by decide
    omega

theorem d_total {v : Nat} (h : v < 32) : ¬ ∃ e, decode .dsym v = .error e := by
  rintro ⟨e, he⟩
  simp only [decode, decodeDist] at he
  split at he
  · cases he
  · rename_i h3
    rw [List.getElem?_eq_none_iff] at h3
    have : distSymbols.length = 32 := by decide
    omega

theorem cl_total {v : Nat} (h : v < 19) : ¬ ∃ e, decode .clsym v = .error e := by
  rintro ⟨e, he⟩
  simp only [decode, decodeCL] at he
  split at he
  · cases he
  split at he
  · cases he
  split at he
  · cases he
  split at he
  · cases he
  · omega

theorem bhdr_total {v : Nat} (h : v < 2 ^ 3) : ¬ ∃ e, decode .bhdr v = .error e := by
  rintro ⟨e, he⟩
  simp only [decode, decodeBlockHeader] at he
  rw [if_pos (by simpa using h)] at he
  split at he <;> cases he

/-- Everything a step in phase INFLATE can do; it stops only where `InflReady` fails. -/
theorem infl_step {s : State} (q : Quiet s) (hp : s.phase = .inflate) : Ends (step s) (InflPost s) (¬ InflReady s) := by
  apply ends_step
  rw [fetch_inflate q hp, fetchInflate]
  have hrr : ∀ {k u}, InflRaise s k u → InflPost s (raiseFault k u) := fun h => .inr (.inr (.inl ⟨_, _, h, rfl⟩))
  split
  · -- zhdr
    rename_i hs
    apply ends_finish
    refine sat_getbits_bind (fun a t _ hm h1 => ?_) (fun k t hk hm => hrr ⟨hk, hm.rel⟩)
    refine sat_getbits_bind (fun b u _ hm' h2 => ?_) (fun k u hk hm' => hrr ⟨hk, (hm.trans hm').rel⟩)
    have h0 := (hm.trans hm').rel
    refine sat_require_bind (fun _ => ?_) (fun _ => hrr ⟨rfl, h0⟩)
    refine sat_require_bind (fun _ => ?_) (fun _ => hrr ⟨rfl, h0⟩)
    refine sat_require_bind (fun _ => ?_) (fun _ => hrr ⟨rfl, h0⟩)
    refine sat_require_bind (fun _ => ?_) (fun _ => hrr ⟨rfl, h0⟩)
    exact .inl ⟨h0.trans (infl_istage _ u), fun _ => seqOk_of_stage (by simp) (by simp), .inl (by show s.bp < u.bp; omega)⟩
  · -- block
    refine sat_getbits_bind (fun v t hv hm h1 => ?_) (fun k t hk hm => hrr ⟨hk, hm.rel⟩)
    exact sat_rest_decoded (fun i hi => infl_after hm (by omega) (ends_bhdr hi t)) (fun h => absurd h (bhdr_total hv))
  · -- code lengths
    rename_i hs
    split
    · rename_i hlt
      refine sat_decodeSym_bind (fun v t hv hm h1 => ?_) (fun k t hk hm => hrr ⟨hk, hm.rel⟩)
      refine sat_rest_decoded (fun i hi => ?_) (fun h => ?_)
      · refine (ends_clsym hi (hm.istage.trans hs) (by rw [hm.eq]; exact hlt)).mono (fun w hw => ?_) id
        rcases hw with ⟨g1, g2⟩ | ⟨k, v, g1, g2⟩
        · exact .inl ⟨hm.rel.trans g1, fun hq => g2 (hm.seqOk hq), .inl (Nat.lt_of_lt_of_le h1 g1.bp)⟩
        · exact .inr (.inr (.inl ⟨k, v, ⟨g1.1, hm.rel.trans g1.2⟩, g2⟩))
      · by_cases hr : InflReady s
        · rw [hr.2.2.1] at hv; exact absurd h (cl_total hv)
        · exact hr
    · unfold installCodes
      have h0 := infl_assign s
      refine Sat.bind (Q1 := fun _ t => InflPost s t) ?_ fun _ t ht => ht
      refine sat_require_bind (fun _ => ?_) (fun _ => hrr ⟨rfl, h0⟩)
      refine sat_checkCode_bind ?_ (hrr ⟨rfl, h0⟩)
      refine sat_checkCode_bind ?_ (hrr ⟨rfl, h0⟩)
      exact .inl ⟨h0.trans (infl_istage _ _), fun _ => seqOk_of_stage (by simp) (by simp), .inr ⟨rfl, hs, rfl⟩⟩
  · -- huffman
    rename_i hs
    refine sat_decodeSym_bind (fun v t hv hm h1 => ?_) (fun k t hk hm => hrr ⟨hk, hm.rel⟩)
    refine sat_rest_decoded (fun i hi => infl_after hm h1 (ends_llsym hi (hm.istage.trans hs))) (fun h => ?_)
    by_cases hr : InflReady s
    · rw [hr.1] at hv; exact absurd h (ll_total hv)
    · exact hr
  · -- distance
    refine sat_decodeSym_bind (fun v t hv hm h1 => ?_) (fun k t hk hm => hrr ⟨hk, hm.rel⟩)
    refine sat_rest_decoded (fun i hi => infl_after hm h1 (ends_dsym hi t)) (fun h => ?_)
    by_cases hr : InflReady s
    · rw [hr.2.1] at hv; exact absurd h (d_total hv)
    · exact hr
  · -- trailer
    rename_i hs
    apply ends_finish
    have h0 := infl_align s
    refine sat_getbits_bind (fun a t _ hm h1 => ?_) (fun k t hk hm => hrr ⟨hk, h0.trans hm.rel⟩)
    replace h0 := h0.trans hm.rel
    refine sat_getbits_bind (fun a t2 _ hm h2 => ?_) (fun k t hk hm => hrr ⟨hk, h0.trans hm.rel⟩)
    replace h0 := h0.trans hm.rel
    refine sat_getbits_bind (fun a t3 _ hm h3 => ?_) (fun k t hk hm => hrr ⟨hk, h0.trans hm.rel⟩)
    replace h0 := h0.trans hm.rel
    refine sat_getbits_bind (fun a t4 _ hm h4 => ?_) (fun k t hk hm => hrr ⟨hk, h0.trans hm.rel⟩)
    replace h0 := h0.trans hm.rel
    refine sat_require_bind (fun _ => ?_) (fun _ => hrr ⟨rfl, h0⟩)
    have := (infl_align s).bp
    exact .inl ⟨h0.trans (infl_istage _ _), fun _ => seqOk_of_stage (by simp) (by simp), .inl (by show s.bp < t4.bp; omega)⟩
  · -- finished
    rename_i hs
    unfold enterRecon withBitspp
    cases hb : bitspp s with
    | none => exact fun h => h.2.2.2 hb
    | some bits =>
      dsimp only
      refine Sat.bind (Q1 := fun _ t => InflPost s t) ?_ fun _ t ht => ht
      refine sat_require_bind (fun h => ?_) (fun _ => .inr (.inr (.inr ⟨hs, rfl⟩)))
      exact .inr (.inl ⟨hs, ⟨bits, hb, h⟩, rfl⟩)

end Sys2Proof.Laws
end

