-- ==== Sys2Proof/Laws/Memory.lean ====
section
/-! SUPPORT. Byte arrays: every operation keeps the canonical form, and what a read gives after a write. -/

namespace Sys2Proof.Laws

open Sys2Proof.Machine

/-! ### Cells -/

/-- Cells in canonical form from a bound up are so from a lower bound up. -/
theorem cellsWf_mono {lo lo' hi : Nat} (h : lo' ≤ lo) : ∀ {l : List Host.Cell}, cellsWf lo hi l = true → cellsWf lo' hi l = true
  | [], _ => rfl
  | (k, b) :: rest, hw => by simp only [cellsWf, Bool.and_eq_true, decide_eq_true_eq] at *; exact ⟨⟨⟨by omega, hw.1.1.2⟩, hw.1.2⟩, hw.2⟩

/-- Nothing is listed below the lower bound. -/
theorem lookupCell_below {lo hi a : Nat} (ha : a < lo) : ∀ {l : List Host.Cell}, cellsWf lo hi l = true → lookupCell l a = 0
  | [], _ => rfl
  | (k, b) :: rest, hw => by
    simp only [cellsWf, Bool.and_eq_true, decide_eq_true_eq] at hw
    rw [lookupCell, if_neg (by omega)]
    exact lookupCell_below (by omega) hw.2

/-- Writing below the upper bound keeps the canonical form. -/
theorem insertCell_wf {a : Nat} {b : Byte} {hi : Nat} (ha : a < hi) :
    ∀ {lo : Nat} {l : List Host.Cell}, lo ≤ a → cellsWf lo hi l = true → cellsWf lo hi (insertCell a b l) = true
  | lo, [], hl, _ => by
    unfold insertCell; split
    · rfl
    · rename_i h; simpa [cellsWf, hl, ha] using h
  | lo, (k, c) :: rest, hl, hw => by
    have hw' := hw
    simp only [cellsWf, Bool.and_eq_true, decide_eq_true_eq] at hw'
    obtain ⟨⟨⟨h1, h2⟩, h3⟩, h4⟩ := hw'
    unfold insertCell
    split
    · split
      · exact hw
      · rename_i h5 h6
        simp only [cellsWf, Bool.and_eq_true, decide_eq_true_eq, bne_iff_ne, ne_eq]
        exact ⟨⟨⟨hl, ha⟩, h6⟩, ⟨⟨by omega, h2⟩, by simpa using h3⟩, h4⟩
    · split
      · split
        · exact cellsWf_mono (by omega) h4
        · rename_i h5 h6 h7
          simp only [cellsWf, Bool.and_eq_true, decide_eq_true_eq, bne_iff_ne, ne_eq]
          subst h6
          exact ⟨⟨⟨h1, h2⟩, h7⟩, h4⟩
      · simp only [cellsWf, Bool.and_eq_true, decide_eq_true_eq]
        exact ⟨⟨⟨h1, h2⟩, h3⟩, insertCell_wf ha (by omega) h4⟩

/-- The byte written is read back. -/
theorem lookup_insert_same {a : Nat} {b : Byte} {hi : Nat} :
    ∀ {lo : Nat} {l : List Host.Cell}, cellsWf lo hi l = true → lookupCell (insertCell a b l) a = b
  | _, [], _ => by
    unfold insertCell; split
    · rename_i h; simp [lookupCell, h]
    · simp [lookupCell]
  | lo, (k, c) :: rest, hw => by
    simp only [cellsWf, Bool.and_eq_true, decide_eq_true_eq] at hw
    unfold insertCell
    split
    · split
      · rename_i h1 h2
        rw [lookupCell, if_neg (by omega), lookupCell_below (by omega) hw.2, h2]
      · simp [lookupCell]
    · split
      · rename_i h1 h2
        split
        · rename_i h3; rw [lookupCell_below (show a < k + 1 by omega) hw.2, h3]
        · simp [lookupCell]
      · rename_i h1 h2
        rw [lookupCell, if_neg (by omega)]
        exact lookup_insert_same hw.2

/-- No other byte changes. -/
theorem lookup_insert_other {a a' : Nat} {b : Byte} (hne : a' ≠ a) :
    ∀ {lo hi : Nat} {l : List Host.Cell}, cellsWf lo hi l = true → lookupCell (insertCell a b l) a' = lookupCell l a'
  | _, _, [], _ => by
    unfold insertCell; split
    · rfl
    · simp [lookupCell, hne.symm]
  | lo, hi, (k, c) :: rest, hw => by
    simp only [cellsWf, Bool.and_eq_true, decide_eq_true_eq] at hw
    unfold insertCell
    split
    · split
      · rfl
      · rw [lookupCell, if_neg (by omega)]
    · split
      · rename_i h1 h2
        have e : lookupCell ((k, c) :: rest) a' = lookupCell rest a' := by rw [lookupCell, if_neg (by omega)]
        split
        · rw [e]
        · rw [e, lookupCell, if_neg (by omega)]
      · rw [lookupCell, lookupCell]
        split
        · rfl
        · exact lookup_insert_other hne hw.2

/-! ### Arrays -/

@[simp] theorem write_size (m : Memory) (a : Nat) (b : Byte) : (m.write a b).size = m.size := rfl

@[simp] theorem writes_size (bytes : List Byte) : ∀ (m : Memory) (a : Nat), (m.writes a bytes).size = m.size := by
  induction bytes with
  | nil => intro m a; rfl
  | cons b rest ih => intro m a; rw [Memory.writes, ih]; rfl

@[simp] theorem empty_wf : Memory.empty.wf = true := rfl

@[simp] theorem alloc_wf (n : Nat) : (Memory.alloc n).wf = true := rfl

/-- Reset memory is in canonical form. -/
theorem reset_frame_wf : State.reset.frame.wf = true ∧ State.reset.out.wf = true := ⟨rfl, rfl⟩

theorem write_wf {m : Memory} {a : Nat} {b : Byte} (h : m.wf = true) (ha : a < m.size) : (m.write a b).wf = true :=
  insertCell_wf ha (Nat.zero_le a) h

theorem writes_wf {bytes : List Byte} : ∀ {m : Memory} {a : Nat}, m.wf = true → a + bytes.length ≤ m.size →
    (m.writes a bytes).wf = true := by
  induction bytes with
  | nil => intro m a h _; exact h
  | cons b rest ih =>
    intro m a h ha
    simp only [List.length_cons] at ha
    exact ih (write_wf h (by omega)) (by simp; omega)

theorem read_alloc {n a : Nat} (h : a < n) : (Memory.alloc n).read a = some 0 := by
  rw [Memory.read, if_pos (by exact h)]; rfl

/-- A read after a write to the same address. -/
theorem read_write_same {m : Memory} {a : Nat} {b : Byte} (h : m.wf = true) (ha : a < m.size) :
    (m.write a b).read a = some b := by
  rw [Memory.read, if_pos (by exact ha)]; exact congrArg some (lookup_insert_same h)

/-- A read after a write to another address. -/
theorem read_write_other {m : Memory} {a a' : Nat} {b : Byte} (h : m.wf = true) (hne : a' ≠ a) :
    (m.write a b).read a' = m.read a' := by
  unfold Memory.read
  by_cases hs : a' < m.size
  · rw [if_pos hs, if_pos (by exact hs)]; exact congrArg some (lookup_insert_other hne h)
  · rw [if_neg hs, if_neg (by exact hs)]

/-- A read outside the bytes written. -/
theorem read_writes_other {bytes : List Byte} : ∀ {m : Memory} {a a' : Nat}, m.wf = true → a + bytes.length ≤ m.size →
    a' < a ∨ a + bytes.length ≤ a' → (m.writes a bytes).read a' = m.read a' := by
  induction bytes with
  | nil => intro m a a' _ _ _; rfl
  | cons b rest ih =>
    intro m a a' h hs ha
    simp only [List.length_cons] at hs ha
    rw [Memory.writes, ih (write_wf h (by omega)) (by simp; omega) (by omega), read_write_other h (by omega)]

/-- A read of the bytes written. -/
theorem read_writes_same {bytes : List Byte} : ∀ {m : Memory} {a k : Nat}, m.wf = true → a + bytes.length ≤ m.size →
    k < bytes.length → (m.writes a bytes).read (a + k) = bytes[k]? := by
  induction bytes with
  | nil => intro m a k _ _ hk; simp at hk
  | cons b rest ih =>
    intro m a k h hs hk
    simp only [List.length_cons] at hs hk
    rw [Memory.writes]
    cases k with
    | zero =>
      rw [read_writes_other (write_wf h (by omega)) (by simp; omega) (by omega), Nat.add_zero, read_write_same h (by omega)]
      rfl
    | succ k =>
      rw [show a + (k + 1) = a + 1 + k by omega, ih (write_wf h (by omega)) (by simp; omega) (by omega)]
      rfl

end Sys2Proof.Laws
end

