-- ==== Sys2Proof/Laws/ReconStep.lean ====
section
/-! SUPPORT. Everything a step in phase RECON can do (46_scanline.md, 47_pixel_convert.md), said once: `recon_step`; with what RECON
relies on (`RI`) and a rank that every step lowers. -/

namespace Sys2Proof.Laws

open Sys2Proof.Machine Sys2Proof.Safety

variable {α β : Type}

/-! ### Passes, rows and samples -/

/-- A row or column belongs to a pass exactly where its image coordinate exists (46_scanline.md R292). -/
theorem lt_passExtent {e st d i : Nat} (hd : 1 ≤ d) : i < passExtent e st d ↔ st + i * d < e := by
  unfold passExtent
  split
  · rename_i h
    rw [Nat.lt_div_iff_mul_lt hd]
    constructor <;> intro h <;> omega
  · constructor
    · omega
    · intro h; omega

/-- A pass is no larger than the image. -/
theorem passExtent_le (e st d : Nat) (hd : 1 ≤ d) : passExtent e st d ≤ e := by
  rcases Nat.eq_zero_or_pos (passExtent e st d) with h | h
  · omega
  · have := (lt_passExtent (e := e) (st := st) (i := passExtent e st d - 1) hd).1 (by omega)
    have := Nat.le_mul_of_pos_right (passExtent e st d - 1) hd
    omega

/-- The reconstructed row has the length of the filtered one. -/
theorem unfilter_length (f : Byte → Byte → Byte → Byte → Byte) (bpp : Nat) (prev : List Byte) :
    ∀ rest done : List Byte, (unfilter f bpp prev done rest).length = done.length + rest.length
  | [], _ => rfl
  | x :: rest, done => by rw [unfilter, unfilter_length f bpp prev rest]; simp; omega

/-- A sample whose bits are in the row answers a value and changes nothing. -/
theorem sample_answers {d n : Nat} {s : State} (hd : d ∈ [1, 2, 4, 8, 16]) (h : (n + 1) * d ≤ 8 * s.currow.length) :
    ∃ v, sample d n s = .ok v s := by
  rw [Nat.add_mul, Nat.one_mul] at h
  simp only [List.mem_cons, List.not_mem_nil, or_false] at hd
  unfold sample
  split
  · rename_i h8; subst h8
    rw [readByte_lt (by omega)]; exact ⟨_, rfl⟩
  split
  · rename_i h16; subst h16
    rw [readByte_lt (by omega), bind_ok, readByte_lt (by omega)]; exact ⟨_, rfl⟩
  · have : 1 ≤ d := by omega
    rw [readByte_lt (by omega)]; exact ⟨_, rfl⟩

/-! ### What RECON keeps -/

/-- `s` with the registers phase RECON may write taken from `t`. -/
def reconFrame (s t : State) : State :=
  { s with
    rpos := t.rpos, pass := t.pass, passW := t.passW, passH := t.passH, row := t.row, ft := t.ft, prev := t.prev, currow := t.currow
    col := t.col, frame := t.frame, rstage := t.rstage, freeCount := t.freeCount }

/-- What phase RECON keeps and may change: `RPOS` moves forward, `FRAME` keeps its size and canonical form. -/
structure ReconRel (s t : State) : Prop where
  frame : t = reconFrame s t
  rpos : s.rpos ≤ t.rpos
  size : t.frame.size = s.frame.size
  wf : s.frame.wf = true → t.frame.wf = true

theorem ReconRel.refl (s : State) : ReconRel s s := ⟨rfl, le_refl _, rfl, id⟩

theorem ReconRel.trans {s t u : State} (h : ReconRel s t) (g : ReconRel t u) : ReconRel s u := by
  refine ⟨?_, h.rpos.trans g.rpos, g.size.trans h.size, fun hb => g.wf (h.wf hb)⟩
  have e : reconFrame t u = reconFrame s u := by rw [h.frame]; rfl
  exact g.frame.trans e

/-- A fault kind raised inside phase RECON (60_exceptions.md R380). -/
abbrev InRecon (k : FaultKind) : Prop := phaseOfKind k = .recon ∧ k ≠ .truncatedPixelData

/-- What RECON relies on. -/
structure RI (s : State) : Prop where
  tables : TableInv s
  pair : (s.ihDepth, s.ihCtype) ∈ legalPairTable
  size : s.frame.size = s.ihWidth.toNat * s.ihHeight.toNat * 4
  phase : s.phase = .recon
  recon : ReconInv s
  rpos : s.rpos ≤ s.obuf.length

/-- A rank that every step lowers. -/
def rowCost : Nat := 2 ^ 32 + 2
/-- More than the rank of one pass. -/
def passCost : Nat := 2 ^ 32 * rowCost + 2
def rank (s : State) : Nat :=
  match s.rstage with
  | .finished => 0
  | .pass p => (8 - p.val) * passCost
  | .row => (7 - (currentPass s).val) * passCost + (s.passH.toNat - s.row.toNat) * rowCost + 1
  | .pixel => (7 - (currentPass s).val) * passCost + (s.passH.toNat - s.row.toNat - 1) * rowCost + (s.passW.toNat - s.col) + 2

theorem legal_bits : ∀ pr ∈ legalPairTable, ∃ ch, channels pr.2 = some ch ∧ 1 ≤ ch * pr.1.toNat ∧ ((pr.2 = 0 ∧ ch = 1) ∨ (pr.2 = 2 ∧ ch = 3) ∨ (pr.2 = 3 ∧ ch = 1) ∨ (pr.2 = 4 ∧ ch = 2) ∨ (pr.2 = 6 ∧ ch = 4)) := by
  intro pr hp
  simp only [legalPairTable, List.mem_cons, List.not_mem_nil, or_false] at hp
  rcases hp with h|h|h|h|h|h|h|h|h|h|h|h|h|h|h <;> subst h <;> exact ⟨_, rfl, by decide, by decide⟩

theorem bitspp_of_pair {s : State} (h : (s.ihDepth, s.ihCtype) ∈ legalPairTable) : ∃ bits, bitspp s = some bits := by
  obtain ⟨ch, hc, -⟩ := legal_bits _ h
  exact ⟨_, by rw [bitspp, hc]; rfl⟩

/-- The bytes from a pass on are those of the pass and those from the next on. -/
theorem bytesFrom_step {bits : Nat} {s : State} {p : Fin 8} (h : p ∈ passSteps s) : bytesFrom bits s p.val = passBytes bits s p + bytesFrom bits s (p.val + 1) := by
  unfold bytesFrom
  unfold passSteps at *
  generalize passBytes bits s = f
  cases hi : s.ihIlace
  · rw [hi] at h; simp at h; subst h; simp [List.filter]
  · rw [hi] at h
    simp only [if_true] at *
    fin_cases p
    · simp at h
    all_goals simp [List.filter]

theorem bytesFrom_congr {bits : Nat} {s t : State} (h1 : t.ihIlace = s.ihIlace) (h2 : t.ihWidth = s.ihWidth) (h3 : t.ihHeight = s.ihHeight) (p : Nat) : bytesFrom bits t p = bytesFrom bits s p := by
  have hb : passBytes bits t = passBytes bits s := by funext q; unfold passBytes passHeight passWidth; rw [h2, h3]
  unfold bytesFrom passSteps; rw [h1, hb]

/-- The pass after a pass. -/
theorem stage_cases (s : State) {p : Fin 8} (h : p ∈ passSteps s) : stageAfterPass p = .finished ∨ ∃ q : Fin 8, stageAfterPass p = .pass q ∧ q.val = p.val + 1 ∧ q ∈ passSteps s := by
  unfold passSteps at *
  cases hi : s.ihIlace
  · rw [hi] at h; simp at h; subst h; exact .inl rfl
  · rw [hi] at h; simp only [if_true] at *
    fin_cases p
    · simp at h
    · exact .inr ⟨2, rfl, rfl, by decide⟩
    · exact .inr ⟨3, rfl, rfl, by decide⟩
    · exact .inr ⟨4, rfl, rfl, by decide⟩
    · exact .inr ⟨5, rfl, rfl, by decide⟩
    · exact .inr ⟨6, rfl, rfl, by decide⟩
    · exact .inr ⟨7, rfl, rfl, by decide⟩
    · exact .inl rfl

/-- `RI` of the state between passes. -/
theorem ri_stage {s : State} (h : RI s) {p : Fin 8} (hp : p ∈ passSteps s) (hr : ∀ bits, bitspp s = some bits → s.rpos + bytesFrom bits s (p.val + 1) ≤ s.obuf.length) :
    RI { s with rstage := stageAfterPass p } ∧ rank { s with rstage := stageAfterPass p } ≤ (7 - p.val) * passCost := by
  have ht : ∀ g, TableInv { s with rstage := g } := fun g => tableInv_of (s := s) rfl rfl rfl rfl rfl rfl rfl rfl h.tables
  rcases stage_cases s hp with e | ⟨q, e, hq, hm⟩ <;> rw [e]
  · refine ⟨⟨ht _, h.pair, h.size, h.phase, ReconInv.mk (fun p bits _ hs => ?_) (fun bits _ hs => ?_) (fun bits _ hs => ?_), h.rpos⟩, by simp [rank]⟩
    · cases hs
    · rcases hs with hs | hs <;> cases hs
    · cases hs
  · refine ⟨⟨ht _, h.pair, h.size, h.phase, ReconInv.mk (fun p' bits _ hs hb => ?_) (fun bits _ hs => ?_) (fun bits _ hs => ?_), h.rpos⟩, ?_⟩
    · cases hs
      refine ⟨hm, ?_⟩
      rw [hq, bytesFrom_congr (s := s) (t := { s with rstage := .pass q }) rfl rfl rfl]
      exact hr bits hb
    · rcases hs with hs | hs <;> cases hs
    · cases hs
    · show (8 - q.val) * passCost ≤ _
      rw [hq]; apply Nat.mul_le_mul_right; omega

theorem passWidth_lt (p : Fin 8) (s : State) : passWidth p s < 2 ^ 32 := by
  have hp1 : ∀ p : Fin 8, 1 ≤ (passParams p).dx := by decide
  have := s.ihWidth.isLt
  unfold passWidth; exact Nat.lt_of_le_of_lt (passExtent_le _ _ _ (hp1 p)) this

theorem passHeight_lt (p : Fin 8) (s : State) : passHeight p s < 2 ^ 32 := by
  have hp1 : ∀ p : Fin 8, 1 ≤ (passParams p).dy := by decide
  have := s.ihHeight.isLt
  unfold passHeight; exact Nat.lt_of_le_of_lt (passExtent_le _ _ _ (hp1 p)) this

/-- `CURROW` has the entries of the new pass (10_state.md R40). -/
@[simp] theorem freeRow_length (n len : Nat) : (freeRow n len).length = len := by simp [freeRow]

/-- The pass element. -/
theorem ri_startPass {s : State} (h : RI s) {p : Fin 8} {bits : Nat} (hs : s.rstage = .pass p) (hb : bitspp s = some bits) (hne : ¬ (passWidth p s = 0 ∨ passHeight p s = 0)) :
    RI (startPass bits p s) ∧ rank (startPass bits p s) < rank s := by
  obtain ⟨hm, hr⟩ := h.recon.pass p bits h.phase hs hb
  have hw := passWidth_lt p s
  have hh := passHeight_lt p s
  have ew : (startPass bits p s).passW.toNat = passWidth p s := by show (BitVec.ofNat 32 (passWidth p s)).toNat = _; rw [BitVec.toNat_ofNat, Nat.mod_eq_of_lt hw]
  have eh : (startPass bits p s).passH.toNat = passHeight p s := by show (BitVec.ofNat 32 (passHeight p s)).toNat = _; rw [BitVec.toNat_ofNat, Nat.mod_eq_of_lt hh]
  have ep : currentPass (startPass bits p s) = p := by
    show (BitVec.ofNat 3 p.val).toFin = p
    apply Fin.ext; rw [BitVec.toFin_ofNat]; show p.val % 2 ^ 3 = p.val; omega
  have er : (startPass bits p s).row.toNat = 0 := rfl
  rw [bytesFrom_step hm] at hr
  unfold passBytes at hr; rw [if_neg hne] at hr
  push Not at hne
  have pwb : ∀ q, passWidth q (startPass bits p s) = passWidth q s := fun _ => rfl
  have phb : ∀ q, passHeight q (startPass bits p s) = passHeight q s := fun _ => rfl
  refine ⟨⟨tableInv_of (s := s) rfl rfl rfl rfl rfl rfl rfl rfl h.tables, h.pair, h.size, h.phase, ReconInv.mk (fun p' b _ hs' => by cases hs') (fun b _ _ hb' => ?_) (fun b _ hs' => by cases hs'), h.rpos⟩, ?_⟩
  · have e : b = bits := by rw [show bitspp (startPass bits p s) = bitspp s from rfl, hb] at hb'; exact (Option.some.inj hb').symm
    subst e
    rw [ew, eh, ep, er, pwb, phb, if_neg (show ¬ (startPass b p s).rstage = .pixel from by simp [startPass]), bytesFrom_congr (s := s) (t := startPass b p s) rfl rfl rfl]
    refine ⟨hm, rfl, rfl, fun h0 => hne.1 (by rw [← ew, h0]; rfl), by show (List.replicate _ (0 : Byte)).length = _; simp, freeRow_length _ _, by omega, ?_⟩
    show s.rpos + (passHeight p s - 0 - 0) * _ + _ ≤ s.obuf.length
    rw [Nat.sub_zero, Nat.sub_zero]; omega
  · have e1 : rank s = (8 - p.val) * passCost := by unfold rank; rw [hs]
    have e2 : rank (startPass bits p s) = (7 - p.val) * passCost + (passHeight p s - 0) * rowCost + 1 := by
      unfold rank; rw [eh, ep, er]; rfl
    rw [e1, e2, show 8 - p.val = (7 - p.val) + 1 by omega, Nat.add_mul]
    have : passHeight p s * rowCost ≤ 2 ^ 32 * rowCost := Nat.mul_le_mul_right _ (le_of_lt hh)
    unfold passCost; rw [Nat.sub_zero]; omega

/-- Everything a step in phase RECON can do: go on, commit, or fault. -/
def ReconPost (s t : State) : Prop :=
  (ReconRel s t ∧ (RI s → RI t ∧ rank t < rank s)) ∨
  (s.rstage = .finished ∧ t = commit s) ∨
  (∃ k u, InRecon k ∧ ReconRel s u ∧ t = raiseFault k u)

theorem recon_frame {s t : State} (h : t = reconFrame s t) (h1 : s.rpos ≤ t.rpos) (h2 : t.frame = s.frame) : ReconRel s t :=
  ⟨h, h1, by rw [h2], by rw [h2]; exact id⟩

theorem sat_withBitspp {s : State} {f : Nat → Res α} {Q : α → State → Prop} {R : FaultKind → State → Prop} {N : Prop}
    (h : ∀ bits, bitspp s = some bits → Sat (f bits) Q R N) (hn : bitspp s = none → N) : Sat (withBitspp s f) Q R N := by
  unfold withBitspp
  cases hb : bitspp s with
  | none => exact hn hb
  | some bits => exact h bits hb

theorem not_ri_of_bitspp {s : State} (h : bitspp s = none) : ¬ RI s := fun hr => by
  obtain ⟨b, hb⟩ := bitspp_of_pair hr.pair; rw [h] at hb; cases hb

/-! ### Pass elements -/

theorem pass_exec (p : Fin 8) (s : State) : exec (passInstr p) s = finish (passElement p s) := by fin_cases p <;> rfl

theorem recon_pass {s : State} {p : Fin 8} (hs : s.rstage = .pass p) : Ends (exec (passInstr p) s) (ReconPost s) (¬ RI s) := by
  rw [pass_exec]
  apply ends_finish
  refine sat_withBitspp (fun bits hb => ?_) not_ri_of_bitspp
  split
  · rename_i he
    refine .inl ⟨recon_frame rfl (le_refl _) rfl, fun hr => ?_⟩
    obtain ⟨hm, hl⟩ := hr.recon.pass p bits hr.phase hs hb
    rw [bytesFrom_step hm, passBytes, if_pos he, Nat.zero_add] at hl
    obtain ⟨h1, h2⟩ := ri_stage hr hm (fun b hb' => by rw [hb] at hb'; cases hb'; exact hl)
    refine ⟨h1, Nat.lt_of_le_of_lt h2 ?_⟩
    have e1 : rank s = (8 - p.val) * passCost := by unfold rank; rw [hs]
    rw [e1, show 8 - p.val = (7 - p.val) + 1 by omega, Nat.add_mul]
    have : 0 < passCost := by unfold passCost; omega
    omega
  · rename_i hne
    exact .inl ⟨recon_frame rfl (le_refl _) rfl, fun hr => ri_startPass hr hs hb hne⟩

theorem ilace_total {s : State} {p : Fin 8} (hm : p ∈ passSteps s) : decode (.ilace p) (ilaceMethod s) = .ok (passInstr p) := by
  show decodeIlace p (ilaceMethod s) = _
  unfold decodeIlace
  rw [if_pos]
  unfold ilaceMethod
  unfold passSteps at hm
  cases hi : s.ihIlace
  · rw [hi] at hm; simp at hm; subst hm; exact .inl ⟨rfl, rfl⟩
  · rw [hi] at hm; refine .inr ⟨rfl, ?_⟩
    simp only [if_true] at hm; rintro rfl; simp at hm

theorem ilace_ok {m : Nat} {p : Fin 8} {i : Instr} (h : decode (.ilace p) m = .ok i) : i = passInstr p := by
  simp only [decode, decodeIlace] at h
  split at h
  · cases h; rfl
  · cases h

/-! ### Rows -/

theorem sat_filterRow {f : Byte → Byte → Byte → Byte → Byte} {ft : Byte} {s : State} (hs : s.rstage = .row) (hlt : s.row.toNat < s.passH.toNat) :
    Ends (finish (filterRow ft f { s with rpos := s.rpos + 1 })) (ReconPost s) (¬ RI s) := by
  apply ends_finish
  refine sat_withBitspp (fun bits hb => ?_) (fun h => not_ri_of_bitspp h)
  replace hb : bitspp s = some bits := hb
  unfold rawRow
  dsimp only
  split
  · rename_i hc
    refine .inl ⟨recon_frame rfl (by show s.rpos ≤ s.rpos + 1 + _; omega) rfl, fun hr => ?_⟩
    obtain ⟨hm, hw, hh, h0, hp, hcl, hrow, hl⟩ := hr.recon.row bits hr.phase (.inl hs) hb
    rw [hs, if_neg (by simp)] at hrow hl
    have hlen : ((s.obuf.drop (s.rpos + 1)).take (rowbytesOf bits s.passW.toNat)).length = rowbytesOf bits s.passW.toNat := by
      rw [List.length_take, List.length_drop]; have : s.rpos + 1 + rowbytesOf bits s.passW.toNat ≤ s.obuf.length := hc.1; omega
    have hk : s.passH.toNat - s.row.toNat - 0 = (s.passH.toNat - s.row.toNat - 1) + 1 := by omega
    rw [hk, Nat.add_mul, Nat.one_mul] at hl
    refine ⟨⟨tableInv_of (s := s) rfl rfl rfl rfl rfl rfl rfl rfl hr.tables, hr.pair, hr.size, hr.phase, ReconInv.mk (fun p' b _ hs' => by cases hs') (fun b _ _ hb' => ?_) (fun b _ _ hb' => ?_), hc.1⟩, ?_⟩
    · have e : b = bits := by exact (Option.some.inj (hb.symm.trans hb')).symm
      subst e
      refine ⟨hm, hw, hh, h0, hp, ?_, by show s.row.toNat + 1 ≤ s.passH.toNat; omega, ?_⟩
      · show (unfilter f (bppOf b) s.prev [] _).length = _
        rw [unfilter_length]
        simpa using hlen
      rw [if_pos rfl]
      show s.rpos + 1 + rowbytesOf b s.passW.toNat + (s.passH.toNat - s.row.toNat - 1) * (1 + rowbytesOf b s.passW.toNat) + bytesFrom b s ((currentPass s).val + 1) ≤ s.obuf.length
      omega
    · have e : b = bits := by exact (Option.some.inj (hb.symm.trans hb')).symm
      subst e
      exact Nat.zero_le _
    · have e1 : rank s = (7 - (currentPass s).val) * passCost + (s.passH.toNat - s.row.toNat) * rowCost + 1 := by unfold rank; rw [hs]
      rw [e1]
      show (7 - (currentPass s).val) * passCost + (s.passH.toNat - s.row.toNat - 1) * rowCost + (s.passW.toNat - 0) + 2 < _
      rw [show s.passH.toNat - s.row.toNat = (s.passH.toNat - s.row.toNat - 1) + 1 by omega, Nat.add_mul, Nat.add_sub_cancel]
      have := s.passW.isLt
      have : rowCost = 2 ^ 32 + 2 := rfl
      omega
  · rename_i hc
    intro hr
    obtain ⟨hm, hw, hh, h0, hp, hcl, hrow, hl⟩ := hr.recon.row bits hr.phase (.inl hs) hb
    rw [hs, if_neg (by simp)] at hrow hl
    apply hc
    have hk : s.passH.toNat - s.row.toNat - 0 = (s.passH.toNat - s.row.toNat - 1) + 1 := by omega
    rw [hk, Nat.add_mul, Nat.one_mul] at hl
    omega

theorem filter_cases (v : Nat) : v < 256 → ∃ i, decode .row v = .ok i ∧ ∀ s, (∃ ft f, exec i s = finish (filterRow ft f s)) ∨ ∃ ft, exec i s = .next (raiseFault .invalidFilterType { s with ft := ft }) := by
  intro hv
  simp only [decode, decodeFilter]
  split
  all_goals first
    | exact ⟨_, rfl, fun s => .inl ⟨_, _, rfl⟩⟩
    | skip
  split
  · exact ⟨_, rfl, fun s => .inr ⟨_, rfl⟩⟩
  · omega

theorem recon_row {s : State} (hs : s.rstage = .row) {v : Nat} (hv : v < 256) (hlt : s.row.toNat < s.passH.toNat) :
    Sat (decoded .row v { s with rpos := s.rpos + 1 }) (Rest (ReconPost s) (¬ RI s)) (fun k u => ReconPost s (raiseFault k u)) (¬ RI s) := by
  obtain ⟨i, hi, he⟩ := filter_cases v hv
  refine sat_rest_decoded (fun j hj => ?_) (fun h => ?_)
  · rw [hi] at hj; cases hj
    rcases he { s with rpos := s.rpos + 1 } with ⟨ft, f, h⟩ | ⟨ft, h⟩ <;> rw [h]
    · exact sat_filterRow hs hlt
    · exact .inr (.inr ⟨.invalidFilterType, { s with rpos := s.rpos + 1, ft := ft }, ⟨rfl, by simp⟩, recon_frame rfl (Nat.le_succ s.rpos) rfl, rfl⟩)
  · obtain ⟨e, he⟩ := h; rw [hi] at he; cases he

theorem recon_endPass {s : State} (hs : s.rstage = .row) (_hge : ¬ s.row.toNat < s.passH.toNat) : ReconPost s (endPass s) := by
  refine .inl ⟨recon_frame rfl (le_refl _) rfl, fun hr => ?_⟩
  obtain ⟨bits, hb⟩ := bitspp_of_pair hr.pair
  obtain ⟨hm, hw, hh, h0, hp, hcl, hrow, hl⟩ := hr.recon.row bits hr.phase (.inl hs) hb
  obtain ⟨h1, h2⟩ := ri_stage hr hm (fun b hb' => by rw [hb] at hb'; cases hb'; omega)
  refine ⟨h1, Nat.lt_of_le_of_lt h2 ?_⟩
  have e1 : rank s = (7 - (currentPass s).val) * passCost + (s.passH.toNat - s.row.toNat) * rowCost + 1 := by unfold rank; rw [hs]
  omega

theorem recon_endRow {s : State} (hs : s.rstage = .pixel) (_hge : ¬ s.col < s.passW.toNat) : ReconPost s (endRow s) := by
  refine .inl ⟨recon_frame rfl (le_refl _) rfl, fun hr => ?_⟩
  obtain ⟨bits, hb⟩ := bitspp_of_pair hr.pair
  obtain ⟨hm, hw, hh, h0, hp, hcl, hrow, hl⟩ := hr.recon.row bits hr.phase (.inr hs) hb
  rw [hs, if_pos rfl] at hrow hl
  have er : (s.row + 1).toNat = s.row.toNat + 1 := by
    have := s.passH.isLt
    rw [BitVec.toNat_add]; show (s.row.toNat + 1) % 2 ^ 32 = _; omega
  refine ⟨⟨tableInv_of (s := s) rfl rfl rfl rfl rfl rfl rfl rfl hr.tables, hr.pair, hr.size, hr.phase, ReconInv.mk (fun p' b _ hs' => by cases hs') (fun b _ _ hb' => ?_) (fun b _ hs' => by cases hs'), hr.rpos⟩, ?_⟩
  · have e : b = bits := by rw [show bitspp (endRow s) = bitspp s from rfl, hb] at hb'; exact (Option.some.inj hb').symm
    subst e
    refine ⟨hm, hw, hh, h0, hcl, hcl, ?_, ?_⟩
    · rw [if_neg (by simp [endRow])]; show (s.row + 1).toNat + 0 ≤ s.passH.toNat; omega
    · rw [if_neg (by simp [endRow])]
      show s.rpos + (s.passH.toNat - (s.row + 1).toNat - 0) * (1 + rowbytesOf b s.passW.toNat) + bytesFrom b s _ ≤ s.obuf.length
      rw [er, show s.passH.toNat - (s.row.toNat + 1) - 0 = s.passH.toNat - s.row.toNat - 1 by omega]
      exact hl
  · have e1 : rank s = (7 - (currentPass s).val) * passCost + (s.passH.toNat - s.row.toNat - 1) * rowCost + (s.passW.toNat - s.col) + 2 := by unfold rank; rw [hs]
    have e2 : rank (endRow s) = (7 - (currentPass s).val) * passCost + (s.passH.toNat - (s.row + 1).toNat) * rowCost + 1 := rfl
    rw [e1, e2, er, show s.passH.toNat - (s.row.toNat + 1) = s.passH.toNat - s.row.toNat - 1 by omega]
    omega

abbrev depths : List Nat := [1, 2, 4, 8, 16]

theorem sat_sample_bind {d n : Nat} {s : State} {f : Nat → State → Res α} {Q : α → State → Prop} {R : FaultKind → State → Prop} {N : Prop} (hd : d ∈ depths)
    (h : ∀ v, Sat (f v s) Q R N) (hn : ¬ (n + 1) * d ≤ 8 * s.currow.length → N) : Sat ((sample d n s).bind f) Q R N := by
  by_cases hk : (n + 1) * d ≤ 8 * s.currow.length
  · obtain ⟨v, hv⟩ := sample_answers hd hk
    rw [hv, bind_ok]; exact h _
  · have : ∀ l : List Byte, ∀ i, ∀ g : Byte → State → Res Nat, (∀ b, ∃ v, g b s = .ok v s) → Sat (((readByte l i s).bind g).bind f) Q R N := by
      intro l i g hg
      unfold readByte
      cases l[i]? with
      | none => exact hn hk
      | some b => obtain ⟨v, hv⟩ := hg b; rw [bind_ok, hv, bind_ok]; exact h v
    unfold sample
    split
    · exact this _ _ _ fun b => ⟨_, rfl⟩
    · split
      · unfold readByte
        cases s.currow[2 * n]? with
        | none => exact hn hk
        | some hi => exact this s.currow (2 * n + 1) _ fun b => ⟨_, rfl⟩
      · exact this _ _ _ fun b => ⟨_, rfl⟩

/-- The pixel's samples are in the row. -/
def Fits (n d : Nat) (s : State) : Prop := (s.col + 1) * n * d ≤ 8 * s.currow.length

theorem fits_sample {n d k : Nat} {s : State} (h : Fits n d s) (hk : k < n) : (n * s.col + k + 1) * d ≤ 8 * s.currow.length := by
  refine le_trans (Nat.mul_le_mul_right _ ?_) h
  rw [Nat.add_mul, Nat.mul_comm s.col n]; omega

theorem fits_one {d : Nat} {s : State} (h : Fits 1 d s) : (s.col + 1) * d ≤ 8 * s.currow.length := by
  have := fits_sample (k := 0) h (by omega); simpa using this

abbrev PixEnds (s : State) (n d : Nat) (r : Res Rgba) : Prop :=
  Sat r (fun _ t => t = s) (fun k u => k = .paletteIndexOutOfRange ∧ u = s) (¬ (Fits n d s ∧ TableInv s))

theorem pix_gray {d : Nat} (hd : d ∈ depths) (s : State) : PixEnds s 1 d (convertGray d s) :=
  sat_sample_bind hd (fun _ => rfl) fun hn h => hn (fits_one h.1)

theorem pix_rgb {d : Nat} (hd : d ∈ depths) (s : State) : PixEnds s 3 d (convertRgb d s) := by
  refine sat_sample_bind hd (fun _ => ?_) fun hn h => hn (fits_sample (k := 0) h.1 (by omega))
  refine sat_sample_bind hd (fun _ => ?_) fun hn h => hn (fits_sample (k := 1) h.1 (by omega))
  exact sat_sample_bind hd (fun _ => rfl) fun hn h => hn (fits_sample (k := 2) h.1 (by omega))

theorem pix_ga {d : Nat} (hd : d ∈ depths) (s : State) : PixEnds s 2 d (convertGrayAlpha d s) := by
  refine sat_sample_bind hd (fun _ => ?_) fun hn h => hn (fits_sample (k := 0) h.1 (by omega))
  exact sat_sample_bind hd (fun _ => rfl) fun hn h => hn (fits_sample (k := 1) h.1 (by omega))

theorem pix_rgba {d : Nat} (hd : d ∈ depths) (s : State) : PixEnds s 4 d (convertRgba d s) := by
  refine sat_sample_bind hd (fun _ => ?_) fun hn h => hn (fits_sample (k := 0) h.1 (by omega))
  refine sat_sample_bind hd (fun _ => ?_) fun hn h => hn (fits_sample (k := 1) h.1 (by omega))
  refine sat_sample_bind hd (fun _ => ?_) fun hn h => hn (fits_sample (k := 2) h.1 (by omega))
  exact sat_sample_bind hd (fun _ => rfl) fun hn h => hn (fits_sample (k := 3) h.1 (by omega))

theorem pix_pal {d : Nat} (hd : d ∈ depths) (s : State) : PixEnds s 1 d (convertPalette d s) := by
  refine sat_sample_bind hd (fun i => ?_) fun hn h => hn (fits_one h.1)
  unfold paletteLookup
  refine sat_require_bind (fun hlt => ?_) (fun _ => ⟨rfl, rfl⟩)
  split
  · unfold paletteAlpha
    split
    · unfold readByte
      split
      · exact rfl
      · rename_i hlt2 hnone
        intro h
        have := h.2.trnsA; have := h.2.trnsN; have := h.2.pltN
        rw [List.getElem?_eq_none_iff] at hnone; omega
    · exact rfl
  · rename_i hnone
    intro h
    have := h.2.plt; have := h.2.pltN
    rw [List.getElem?_eq_none_iff] at hnone; omega

theorem sat_writePixel {p : Rgba} {s : State} {Q : State → Prop} {R : FaultKind → State → Prop} {N : Prop}
    (h : pixelAddress s + 4 ≤ s.frame.size → Q { s with frame := s.frame.writes (pixelAddress s) [p.r, p.g, p.b, p.a], col := s.col + 1 })
    (hn : ¬ pixelAddress s + 4 ≤ s.frame.size → N) : Sat (writePixel p s) (fun _ => Q) R N := by
  unfold writePixel
  split
  · rename_i h1; exact h h1
  · rename_i h1; exact hn h1

/-- What each conversion element is. -/
theorem conv_cases {v : Nat} {i : Instr} (h : decode .depthCtype v = .ok i) :
    ∃ n d, d ∈ depths ∧ (∃ c : Byte, v / 256 = d ∧ v % 256 = c.toNat ∧ channels c = some n) ∧ ∀ s, ∃ r, PixEnds s n d r ∧ exec i s = finish (r.bind writePixel) := by
  simp only [decode, decodeDepthCtype] at h
  split at h
  · cases h; exact ⟨1, 1, by decide, ⟨0, by decide⟩, fun s => ⟨_, pix_gray (by decide) s, rfl⟩⟩
  · cases h; exact ⟨1, 2, by decide, ⟨0, by decide⟩, fun s => ⟨_, pix_gray (by decide) s, rfl⟩⟩
  · cases h; exact ⟨1, 4, by decide, ⟨0, by decide⟩, fun s => ⟨_, pix_gray (by decide) s, rfl⟩⟩
  · cases h; exact ⟨1, 8, by decide, ⟨0, by decide⟩, fun s => ⟨_, pix_gray (by decide) s, rfl⟩⟩
  · cases h; exact ⟨1, 16, by decide, ⟨0, by decide⟩, fun s => ⟨_, pix_gray (by decide) s, rfl⟩⟩
  · cases h; exact ⟨3, 8, by decide, ⟨2, by decide⟩, fun s => ⟨_, pix_rgb (by decide) s, rfl⟩⟩
  · cases h; exact ⟨3, 16, by decide, ⟨2, by decide⟩, fun s => ⟨_, pix_rgb (by decide) s, rfl⟩⟩
  · cases h; exact ⟨1, 1, by decide, ⟨3, by decide⟩, fun s => ⟨_, pix_pal (by decide) s, rfl⟩⟩
  · cases h; exact ⟨1, 2, by decide, ⟨3, by decide⟩, fun s => ⟨_, pix_pal (by decide) s, rfl⟩⟩
  · cases h; exact ⟨1, 4, by decide, ⟨3, by decide⟩, fun s => ⟨_, pix_pal (by decide) s, rfl⟩⟩
  · cases h; exact ⟨1, 8, by decide, ⟨3, by decide⟩, fun s => ⟨_, pix_pal (by decide) s, rfl⟩⟩
  · cases h; exact ⟨2, 8, by decide, ⟨4, by decide⟩, fun s => ⟨_, pix_ga (by decide) s, rfl⟩⟩
  · cases h; exact ⟨2, 16, by decide, ⟨4, by decide⟩, fun s => ⟨_, pix_ga (by decide) s, rfl⟩⟩
  · cases h; exact ⟨4, 8, by decide, ⟨6, by decide⟩, fun s => ⟨_, pix_rgba (by decide) s, rfl⟩⟩
  · cases h; exact ⟨4, 16, by decide, ⟨6, by decide⟩, fun s => ⟨_, pix_rgba (by decide) s, rfl⟩⟩
  · cases h

/-- Every legal pair has a conversion. -/
theorem conv_total : ∀ pr ∈ legalPairTable, ∃ i, decode .depthCtype (be16 pr.1 pr.2) = .ok i := by
  intro pr hp
  simp only [legalPairTable, List.mem_cons, List.not_mem_nil, or_false] at hp
  rcases hp with h|h|h|h|h|h|h|h|h|h|h|h|h|h|h
  · subst h; rw [show be16 (1 : Byte) 0 = 256 from by decide]; exact ⟨_, rfl⟩
  · subst h; rw [show be16 (2 : Byte) 0 = 512 from by decide]; exact ⟨_, rfl⟩
  · subst h; rw [show be16 (4 : Byte) 0 = 1024 from by decide]; exact ⟨_, rfl⟩
  · subst h; rw [show be16 (8 : Byte) 0 = 2048 from by decide]; exact ⟨_, rfl⟩
  · subst h; rw [show be16 (16 : Byte) 0 = 4096 from by decide]; exact ⟨_, rfl⟩
  · subst h; rw [show be16 (8 : Byte) 2 = 2050 from by decide]; exact ⟨_, rfl⟩
  · subst h; rw [show be16 (16 : Byte) 2 = 4098 from by decide]; exact ⟨_, rfl⟩
  · subst h; rw [show be16 (1 : Byte) 3 = 259 from by decide]; exact ⟨_, rfl⟩
  · subst h; rw [show be16 (2 : Byte) 3 = 515 from by decide]; exact ⟨_, rfl⟩
  · subst h; rw [show be16 (4 : Byte) 3 = 1027 from by decide]; exact ⟨_, rfl⟩
  · subst h; rw [show be16 (8 : Byte) 3 = 2051 from by decide]; exact ⟨_, rfl⟩
  · subst h; rw [show be16 (8 : Byte) 4 = 2052 from by decide]; exact ⟨_, rfl⟩
  · subst h; rw [show be16 (16 : Byte) 4 = 4100 from by decide]; exact ⟨_, rfl⟩
  · subst h; rw [show be16 (8 : Byte) 6 = 2054 from by decide]; exact ⟨_, rfl⟩
  · subst h; rw [show be16 (16 : Byte) 6 = 4102 from by decide]; exact ⟨_, rfl⟩

theorem be16_fields (a b : Byte) : be16 a b / 256 = a.toNat ∧ be16 a b % 256 = b.toNat := by
  have := a.isLt; have := b.isLt
  unfold be16; omega

/-- The pixel of a pass lies in the image. -/
theorem pix_in_frame {s : State} (hr : RI s) (hs : s.rstage = .pixel) (hlt : s.col < s.passW.toNat) : pixelAddress s + 4 ≤ s.frame.size := by
  obtain ⟨bits, hb⟩ := bitspp_of_pair hr.pair
  obtain ⟨hm, hw, hh, h0, hp, hcl, hrow, hl⟩ := hr.recon.row bits hr.phase (.inr hs) hb
  rw [hs, if_pos rfl] at hrow
  have hp1 : ∀ p : Fin 8, 1 ≤ (passParams p).dx ∧ 1 ≤ (passParams p).dy := by decide
  have hx : pixelX s < s.ihWidth.toNat := by
    unfold pixelX; rw [← lt_passExtent (hp1 _).1]; rw [hw] at hlt; exact hlt
  have hy : pixelY s < s.ihHeight.toNat := by
    unfold pixelY; rw [← lt_passExtent (hp1 _).2]; have : s.row.toNat < s.passH.toNat := by omega
    rw [hh] at this; exact this
  rw [hr.size]; unfold pixelAddress
  have : (pixelY s + 1) * s.ihWidth.toNat ≤ s.ihHeight.toNat * s.ihWidth.toNat := Nat.mul_le_mul_right _ hy
  rw [Nat.add_mul, Nat.one_mul] at this
  rw [Nat.mul_comm s.ihWidth.toNat]; omega

/-- The samples of a pixel of the row are in `CURROW`. -/
theorem pix_fits {s : State} (hr : RI s) (hs : s.rstage = .pixel) (hlt : s.col < s.passW.toNat) {n : Nat} (hc : channels s.ihCtype = some n) : Fits n s.ihDepth.toNat s := by
  have hb : bitspp s = some (n * s.ihDepth.toNat) := by unfold bitspp; rw [hc]; rfl
  obtain ⟨-, -, -, -, -, hcur, -⟩ := hr.recon.row _ hr.phase (.inr hs) hb
  unfold Fits
  rw [hcur, rowbytesOf, Nat.mul_assoc]
  have : (s.col + 1) * (n * s.ihDepth.toNat) ≤ s.passW.toNat * (n * s.ihDepth.toNat) := Nat.mul_le_mul_right _ hlt
  omega

theorem recon_pixel {s : State} (hs : s.rstage = .pixel) (hlt : s.col < s.passW.toNat) :
    Sat (decoded .depthCtype (be16 s.ihDepth s.ihCtype) s) (Rest (ReconPost s) (¬ RI s)) (fun k u => ReconPost s (raiseFault k u)) (¬ RI s) := by
  refine sat_rest_decoded (fun i hi => ?_) (fun ⟨e, he⟩ hr => ?_)
  · obtain ⟨n, d, hd, ⟨c, h1, h2, hc⟩, hex⟩ := conv_cases hi
    rw [(be16_fields _ _).1] at h1
    rw [(be16_fields _ _).2] at h2
    have hct : s.ihCtype = c := BitVec.eq_of_toNat_eq h2
    obtain ⟨r, hr, he⟩ := hex s
    rw [he]; apply ends_finish
    have hN : ¬ (Fits n d s ∧ TableInv s) → ¬ RI s := fun h hri => h ⟨by rw [← h1]; exact pix_fits hri hs hlt (by rw [hct]; exact hc), hri.tables⟩
    refine Sat.bind (Q1 := fun _ t => t = s) (hr.mono (fun _ _ h => h) (fun k u h => ?_) hN) (fun p t ht => ?_)
    · obtain ⟨rfl, rfl⟩ := h; exact .inr (.inr ⟨.paletteIndexOutOfRange, _, ⟨rfl, by simp⟩, ReconRel.refl _, rfl⟩)
    · subst ht
      refine sat_writePixel (fun hin => ?_) (fun hn hri => hn (pix_in_frame hri hs hlt))
      refine .inl ⟨⟨rfl, le_refl _, by simp, fun hwf => writes_wf hwf (by simpa using hin)⟩, fun hri => ?_⟩
      refine ⟨⟨tableInv_of (s := t) rfl rfl rfl rfl rfl rfl rfl rfl hri.tables, hri.pair, by simpa using hri.size, hri.phase, ReconInv.mk (fun p' b _ hs' => ?_) (fun b hph hs' hb' => ?_) (fun b hph hs' hb' => ?_), hri.rpos⟩, ?_⟩
      · rw [show (State.rstage _) = t.rstage from rfl, hs] at hs'; cases hs'
      · exact hri.recon.row b hri.phase (.inr hs) hb'
      · exact hlt
      · have e1 : rank t = (7 - (currentPass t).val) * passCost + (t.passH.toNat - t.row.toNat - 1) * rowCost + (t.passW.toNat - t.col) + 2 := by unfold rank; rw [hs]
        rw [e1]
        unfold rank
        dsimp only
        rw [hs]
        show (7 - (currentPass t).val) * passCost + (t.passH.toNat - t.row.toNat - 1) * rowCost + (t.passW.toNat - (t.col + 1)) + 2 < _
        omega
  · obtain ⟨i, hi⟩ := conv_total _ hr.pair
    rw [hi] at he; cases he

/-- Everything a step in phase RECON can do; it stops only where `RI` fails. -/
theorem recon_step {s : State} (q : Quiet s) (hp : s.phase = .recon) : Ends (step s) (ReconPost s) (¬ RI s) := by
  apply ends_step
  rw [fetch_recon q hp, fetchRecon]
  split
  · rename_i p hs
    refine sat_rest_decoded (fun i hi => ?_) (fun ⟨e, he⟩ hr => ?_)
    · rw [ilace_ok hi]; exact recon_pass hs
    · obtain ⟨bits, hb⟩ := bitspp_of_pair hr.pair
      rw [ilace_total (hr.recon.pass p bits hr.phase hs hb).1] at he; cases he
  · rename_i hs
    split
    · rename_i hlt
      unfold readByte
      split
      · rename_i b hb; exact recon_row hs b.isLt hlt
      · rename_i hn
        intro hr
        obtain ⟨bits, hb⟩ := bitspp_of_pair hr.pair
        obtain ⟨hm, hw, hh, h0, hp', hcl, hrow, hl⟩ := hr.recon.row bits hr.phase (.inl hs) hb
        rw [hs, if_neg (by simp)] at hrow hl
        rw [List.getElem?_eq_none_iff] at hn
        rw [show s.passH.toNat - s.row.toNat - 0 = (s.passH.toNat - s.row.toNat - 1) + 1 by omega, Nat.add_mul, Nat.one_mul] at hl
        omega
    · rename_i hge; exact recon_endPass hs hge
  · rename_i hs
    split
    · rename_i hlt; exact recon_pixel hs hlt
    · rename_i hge; exact recon_endRow hs hge
  · rename_i hs; exact .inr (.inl ⟨hs, rfl⟩)

end Sys2Proof.Laws
end

