-- ==== Sys2Proof/Laws/StepCases.lean ====
section
/-! SUPPORT. Everything a step that answers a next state has done, said once: `post_of_step`. -/

namespace Sys2Proof.Laws

open Sys2Proof.Machine Sys2Proof.Safety

/-- Everything a step that answers a next state has done: hardware reset, the start of a decode, nothing, or a step of its phase. -/
def Post (s t : State) : Prop :=
  (s.resetLine = true ∧ t = hardwareReset s) ∨
  (∃ c, s.resetLine = false ∧ s.cmd = some c ∧ (1 ≤ c.maxPixels ∧ c.maxPixels < 2 ^ 30) ∧ t = startDecode c.stream c.maxPixels c.verifyAdler { s with cmd := none }) ∨
  (Quiet s ∧ ¬ Running s ∧ t = s) ∨
  (Quiet s ∧ s.phase = .container ∧ ContPost s t) ∨
  (Quiet s ∧ s.phase = .inflate ∧ InflPost s t) ∨
  (Quiet s ∧ s.phase = .recon ∧ ReconPost s t)

/-- Said of every step. -/
theorem post_of_step {s t : State} (h : step s = .next t) : Post s t := by
  rcases fetch_by_cases s with ⟨hr, hf⟩ | ⟨hr, c, hc, hf⟩ | ⟨q, hn, hf⟩ | ⟨q, hp, hf⟩ | ⟨q, hp, hf⟩ | ⟨q, hp, hf⟩
  · rw [step_sequencer hf] at h; cases h; exact .inl ⟨hr, rfl⟩
  · rw [step_element hf] at h
    refine .inr (.inl ⟨c, hr, hc, ?_⟩)
    change execDecode _ _ _ _ = _ at h
    unfold execDecode at h
    split at h
    · cases h
    · split at h
      · rename_i hm; cases h; exact ⟨hm, rfl⟩
      · cases h
  · rw [step_sequencer hf] at h; cases h; exact .inr (.inr (.inl ⟨q, hn, rfl⟩))
  · exact .inr (.inr (.inr (.inl ⟨q, hp, (cont_step q hp (N := False)).next h⟩)))
  · exact .inr (.inr (.inr (.inr (.inl ⟨q, hp, (infl_step q hp).next h⟩))))
  · exact .inr (.inr (.inr (.inr (.inr ⟨q, hp, (recon_step q hp).next h⟩))))

theorem ContRel.phase {s t : State} (h : ContRel s t) : t.phase = s.phase := by rw [h.frame]; rfl
theorem InflRel.phase {s t : State} (h : InflRel s t) : t.phase = s.phase := by rw [h.frame]; rfl
theorem ReconRel.phase {s t : State} (h : ReconRel s t) : t.phase = s.phase := by rw [h.frame]; rfl

/-- Where no stop is allowed there is a next state. -/
theorem ends_total {o : Result} {Q : State → Prop} {N : Prop} (h : Ends o Q N) (hn : ¬ N) : ∃ t, o = .next t ∧ Q t := by
  cases o with
  | next t => exact ⟨t, rfl, h⟩
  | fault x => exact absurd h hn
  | refused x => exact absurd h hn

end Sys2Proof.Laws
end

