-- ==== Sys2Proof/Laws/Alike.lean ====
section
/-! SUPPORT. No operation and no element reads what is unspecified (60_exceptions.md R392, 44_inflate_blocks.md R245, 10_state.md R40): on two states
that differ in it only, each does the same. -/

namespace Sys2Proof.Laws

open Sys2Proof.Machine Sys2Proof.Safety

variable {α β : Type} {τ : Prop} {R : State → State → Prop} {s t : State}

/-! ### Operations -/

/-- Two states that differ in what is unspecified only; where `τ`, in `FAULT_OFFSET` only. -/
def Alike (τ : Prop) (s t : State) : Prop :=
  ∃ a b c cr, t = { s with faultOffset := a, freeCount := b, clLen := c, currow := cr } ∧
    (s.istage = .codeLengths → c = s.clLen) ∧ (s.rstage = .pixel → cr = s.currow) ∧
    (τ → b = s.freeCount ∧ c = s.clLen ∧ cr = s.currow)

/-- Two results with one value or one fault kind, over states related by `R`. -/
inductive AlikeRes (R : State → State → Prop) : Res α → Res α → Prop
  | ok (v : α) {s t : State} (h : R s t) : AlikeRes R (.ok v s) (.ok v t)
  | raise (k : FaultKind) {s t : State} (h : R s t) : AlikeRes R (.raise k s) (.raise k t)
  | stop (x : Fault) : AlikeRes R (.stop x) (.stop x)

/-- Sequencing. -/
theorem AlikeRes.bind {r q : Res α} {f g : α → State → Res β} (h : AlikeRes R r q) (hf : ∀ v s t, R s t → AlikeRes R (f v s) (g v t)) :
    AlikeRes R (r.bind f) (q.bind g) := by
  cases h with
  | ok v h => exact hf _ _ _ h
  | raise k h => exact .raise k h
  | stop x => exact .stop x

/-- A weaker relation. -/
theorem AlikeRes.mono {S : State → State → Prop} {r q : Res α} (h : AlikeRes R r q) (hs : ∀ s t, R s t → S s t) : AlikeRes S r q := by
  cases h with
  | ok v h => exact .ok v (hs _ _ h)
  | raise k h => exact .raise k (hs _ _ h)
  | stop x => exact .stop x

/-- A value. -/
theorem alike_ok {v : α} (h : R s t) : AlikeRes R (.ok v s) (.ok v t) := .ok v h

/-- A raised kind. -/
theorem alike_raise {k : FaultKind} (h : R s t) : AlikeRes R (.raise (α := α) k s) (.raise k t) := .raise k h

/-- `require`. -/
theorem alike_require {p q : Prop} [Decidable p] [Decidable q] {k : FaultKind} (hpq : p ↔ q) (h : R s t) : AlikeRes R (require p k s) (require q k t) := by
  by_cases hp : p
  · rw [require_pos hp, require_pos (hpq.1 hp)]; exact .ok () h
  · rw [require_neg hp, require_neg (fun hq => hp (hpq.2 hq))]; exact .raise k h

theorem alike_readByte {l : List Byte} {i : Nat} (h : R s t) : AlikeRes R (readByte l i s) (readByte l i t) := by
  unfold readByte; cases l[i]? with
  | some b => exact .ok b h
  | none => exact .stop _

theorem alike_readExact {n : Nat} (h : Alike τ s t) : AlikeRes (Alike τ) (readExact n s) (readExact n t) := by
  have h0 := h
  obtain ⟨a, b, c, cr, rfl, h1, h3, h2⟩ := h
  refine (alike_require Iff.rfl h0).bind fun _ s t h => ?_
  obtain ⟨a, b, c, cr, rfl, h1, h3, h2⟩ := h
  exact .ok _ ⟨a, b, c, cr, rfl, h1, h3, h2⟩

theorem alike_readU32BE (h : Alike τ s t) : AlikeRes (Alike τ) (readU32BE s) (readU32BE t) :=
  (alike_readExact h).bind fun _ _ _ h => (alike_readByte h).bind fun _ _ _ h => (alike_readByte h).bind fun _ _ _ h =>
    (alike_readByte h).bind fun _ _ _ h => (alike_readByte h).bind fun _ _ _ h => alike_ok h

theorem alike_readChunk (h : Alike τ s t) : AlikeRes (Alike τ) (readChunk s) (readChunk t) := by
  refine (alike_readU32BE h).bind fun len s t h => ?_
  refine (alike_readExact (by obtain ⟨a, b, c, cr, rfl, h1, h3, h2⟩ := h; exact ⟨a, b, c, cr, rfl, h1, h3, h2⟩)).bind fun ty s t h => ?_
  refine (alike_readByte h).bind fun _ s t h => (alike_readByte h).bind fun _ s t h => (alike_readByte h).bind fun _ s t h => (alike_readByte h).bind fun _ s t h => ?_
  refine (alike_readExact (by obtain ⟨a, b, c, cr, rfl, h1, h3, h2⟩ := h; exact ⟨a, b, c, cr, rfl, h1, h3, h2⟩)).bind fun pay s t h => ?_
  refine (alike_readU32BE (by obtain ⟨a, b, c, cr, rfl, h1, h3, h2⟩ := h; exact ⟨a, b, c, cr, rfl, h1, h3, h2⟩)).bind fun crc s t h => ?_
  rw [crcUpdates_eq, crcUpdates_eq]
  obtain ⟨a, b, c, cr, rfl, h1, h3, h2⟩ := h
  exact alike_require Iff.rfl ⟨a, b, c, cr, rfl, h1, h3, h2⟩

theorem alike_payload (h : Alike τ s t) : AlikeRes (Alike τ) (payload s) (payload t) := by
  have h0 := h
  obtain ⟨a, b, c, cr, rfl, h1, h3, h2⟩ := h
  unfold payload
  dsimp only
  split
  · exact .ok _ h0
  · exact .stop _

theorem alike_payloadBE32 {pay : List Byte} {i : Nat} (h : Alike τ s t) : AlikeRes (Alike τ) (payloadBE32 pay i s) (payloadBE32 pay i t) :=
  (alike_readByte h).bind fun _ _ _ h => (alike_readByte h).bind fun _ _ _ h =>
    (alike_readByte h).bind fun _ _ _ h => (alike_readByte h).bind fun _ _ _ h => alike_ok h

theorem alike_payloadBE16 {pay : List Byte} {i : Nat} (h : Alike τ s t) : AlikeRes (Alike τ) (payloadBE16 pay i s) (payloadBE16 pay i t) :=
  (alike_readByte h).bind fun _ _ _ h => (alike_readByte h).bind fun _ _ _ h => alike_ok h

theorem alike_getbit (h : Alike τ s t) : AlikeRes (Alike τ) (getbit s) (getbit t) := by
  have h0 := h
  obtain ⟨a, b, c, cr, rfl, h1, h3, h2⟩ := h
  unfold getbit
  dsimp only
  split
  · exact .ok _ ⟨a, b, c, cr, rfl, h1, h3, h2⟩
  · exact .raise _ h0

theorem alike_getbits : ∀ (n : Nat) {s t : State}, Alike τ s t → AlikeRes (Alike τ) (getbits n s) (getbits n t)
  | 0, _, _, h => alike_ok h
  | n + 1, _, _, h => (alike_getbit h).bind fun _ _ _ h => (alike_getbits n h).bind fun _ _ _ h => alike_ok h

theorem alike_decodeFrom (codes : List (Nat × Nat)) : ∀ (n len c : Nat) {s t : State}, Alike τ s t → AlikeRes (Alike τ) (decodeFrom codes n len c s) (decodeFrom codes n len c t)
  | 0, _, _, _, _, h => alike_raise h
  | n + 1, len, c, _, _, h => (alike_getbit h).bind fun b s t h => by
      cases codes.findIdx? (fun e => e.1 == len + 1 && e.2 == 2 * c + b) with
      | some sym => exact alike_ok h
      | none => exact alike_decodeFrom codes n _ _ h

theorem alike_decodeSym {lens : List CodeLen} (h : Alike τ s t) : AlikeRes (Alike τ) (decodeSym lens s) (decodeSym lens t) := alike_decodeFrom _ _ _ _ h

theorem alike_emit {x : Byte} (h : Alike τ s t) : Alike τ (emit x s) (emit x t) := by
  obtain ⟨a, b, c, cr, rfl, h1, h3, h2⟩ := h; exact ⟨a, b, c, cr, rfl, h1, h3, h2⟩

theorem alike_storedBytes : ∀ (n : Nat) {s t : State}, Alike τ s t → AlikeRes (Alike τ) (storedBytes n s) (storedBytes n t)
  | 0, _, _, h => alike_ok h
  | n + 1, _, _, h => (alike_getbits 8 h).bind fun _ _ _ h => alike_storedBytes n (alike_emit h)

theorem alike_copyBytes (dist : Nat) : ∀ (n : Nat) {s t : State}, Alike τ s t → AlikeRes (Alike τ) (copyBytes dist n s) (copyBytes dist n t)
  | 0, _, _, h => alike_ok h
  | n + 1, s, t, h => by
    have e : t.obuf = s.obuf := by obtain ⟨a, b, c, cr, rfl, h1, h3, h2⟩ := h; rfl
    rw [copyBytes, copyBytes, e]
    exact (alike_readByte h).bind fun _ _ _ h => alike_copyBytes dist n (alike_emit h)

theorem alike_checkCode {lens : List CodeLen} {kind : CodeKind} (h : Alike τ s t) : AlikeRes (Alike τ) (checkCode lens kind s) (checkCode lens kind t) :=
  (alike_require Iff.rfl h).bind fun _ _ _ h => alike_require Iff.rfl h

theorem alike_appendLengths {r : Nat} {v : CodeLen} (h : Alike τ s t) : AlikeRes (Alike τ) (appendLengths r v s) (appendLengths r v t) := by
  have h0 := h
  obtain ⟨a, b, c, cr, rfl, h1, h3, h2⟩ := h
  refine (alike_require Iff.rfl h0).bind fun _ s t h => ?_
  obtain ⟨a, b, c, cr, rfl, h1, h3, h2⟩ := h
  exact .ok _ ⟨a, b, c, cr, rfl, h1, h3, h2⟩

theorem alike_endBlock (h : Alike τ s t) : Alike τ (endBlock s) (endBlock t) := by
  obtain ⟨a, b, c, cr, rfl, h1, h3, h2⟩ := h
  refine ⟨a, b, c, cr, rfl, ?_, h3, h2⟩
  unfold endBlock; cases s.bfinal <;> simp

theorem alike_enterBlock {f : Bool} {n : BitVec 2} (h : Alike τ s t) : Alike τ (enterBlock f n s) (enterBlock f n t) := by
  obtain ⟨a, b, c, cr, rfl, h1, h3, h2⟩ := h; exact ⟨a, b, c, cr, rfl, h1, h3, h2⟩

/-- Two outcomes that differ in what is unspecified only. -/
abbrev AlikeOut (τ : Prop) : Result → Result → Prop := SameOutcome (Alike τ)

/-- Fault entry. -/
theorem alike_raiseFault {k : FaultKind} (h : Alike τ s t) : Alike τ (raiseFault k s) (raiseFault k t) := by
  obtain ⟨a, b, c, cr, rfl, h1, h3, h2⟩ := h
  exact ⟨_, b + 1, c, [], rfl, h1, fun _ => rfl, fun h => ⟨by rw [(h2 h).1]; rfl, (h2 h).2.1, rfl⟩⟩

/-- The end of an element. -/
theorem alike_finish {r q : Res α} (h : AlikeRes (Alike τ) r q) : AlikeOut τ (finish r) (finish q) := by
  cases h with
  | ok v h => exact .next h
  | raise k h => exact .next (alike_raiseFault h)
  | stop x => exact .fault x

/-! ### Elements of CONTAINER and INFLATE -/

/-- `require` of a condition on the state. -/
theorem alike_require_bind {p : State → Prop} [∀ s, Decidable (p s)] {k : FaultKind} {f : Unit → State → Res β} (hp : p t ↔ p s) (h : Alike τ s t)
    (hf : AlikeRes (Alike τ) (f () s) (f () t)) : AlikeRes (Alike τ) ((require (p s) k s).bind f) ((require (p t) k t).bind f) := by
  by_cases h1 : p s
  · rw [require_pos h1, require_pos (hp.2 h1)]; exact hf
  · rw [require_neg h1, require_neg (fun g => h1 (hp.1 g))]; exact .raise k h

theorem alike_closeIdat (h : Alike τ s t) : Alike τ (closeIdatRun s) (closeIdatRun t) := by
  rw [closeIdatRun_eq, closeIdatRun_eq]
  obtain ⟨a, b, c, cr, rfl, h1, h3, h2⟩ := h; exact ⟨a, b, c, cr, rfl, h1, h3, h2⟩

theorem alike_sig (h : Alike τ s t) : AlikeOut τ (execSig s) (execSig t) := by
  refine alike_finish ((alike_readExact h).bind fun v s t h => (alike_require Iff.rfl h).bind fun _ s t h => ?_)
  obtain ⟨a, b, c, cr, rfl, h1, h3, h2⟩ := h; exact .ok _ ⟨a, b, c, cr, rfl, h1, h3, h2⟩

theorem alike_header (h : Alike τ s t) : AlikeRes (Alike τ) (headerHandler s) (headerHandler t) := by
  have e : t.ckLen = s.ckLen := by obtain ⟨a, b, c, cr, rfl, -⟩ := h; rfl
  unfold headerHandler
  rw [e]
  refine (alike_require Iff.rfl h).bind fun _ s t h => (alike_payload h).bind fun pay s t h => (alike_payloadBE32 h).bind fun w s t h => (alike_payloadBE32 h).bind fun hh s t h =>
    (alike_readByte h).bind fun d s t h => (alike_readByte h).bind fun cc s t h => (alike_readByte h).bind fun cm s t h => (alike_readByte h).bind fun fm s t h => (alike_readByte h).bind fun il s t h =>
    (alike_require Iff.rfl h).bind fun _ s t h => (alike_require Iff.rfl h).bind fun _ s t h => (alike_require Iff.rfl h).bind fun _ s t h => ?_
  have e : t.cfgMaxPixels = s.cfgMaxPixels := by obtain ⟨a, b, c, cr, rfl, -⟩ := h; rfl
  rw [e]
  refine (alike_require Iff.rfl h).bind fun _ s t h => ?_
  obtain ⟨a, b, c, cr, rfl, h1, h3, h2⟩ := h; exact .ok _ ⟨a, b, c, cr, rfl, h1, h3, h2⟩

theorem alike_ihdr (h : Alike τ s t) : AlikeOut τ (execIhdr s) (execIhdr t) := by
  have e : t.pstate = s.pstate := by obtain ⟨a, b, c, cr, rfl, -⟩ := h; rfl
  unfold execIhdr
  rw [e]
  apply alike_finish
  split
  · refine (alike_header h).bind fun _ s t h => ?_
    obtain ⟨a, b, c, cr, rfl, h1, h3, h2⟩ := h; exact .ok _ ⟨a, b, c, cr, rfl, h1, h3, h2⟩
  · exact alike_raise (alike_closeIdat h)

theorem alike_plte (h : Alike τ s t) : AlikeOut τ (execPlte s) (execPlte t) := by
  replace h := alike_closeIdat h
  unfold execPlte
  generalize closeIdatRun s = s at *
  generalize closeIdatRun t = t at *
  dsimp only
  apply alike_finish
  have h0 := h
  obtain ⟨a, b, c, cr, rfl, h1, h3, h2⟩ := h
  refine alike_require_bind (p := fun s => s.seenIdat = false) Iff.rfl h0 ?_
  refine alike_require_bind (p := fun s => s.ihCtype = 3) Iff.rfl h0 ?_
  refine alike_require_bind (p := fun s => s.havePlte = false) Iff.rfl h0 ?_
  refine alike_require_bind (p := fun s => s.ckLen ≠ 0 ∧ s.ckLen.toNat % 3 = 0 ∧ s.ckLen.toNat ≤ 768) Iff.rfl h0 ?_
  refine (alike_payload h0).bind fun pay s t h => ?_
  obtain ⟨a, b, c, cr, rfl, h1, h3, h2⟩ := h; exact .ok _ ⟨a, b, c, cr, rfl, h1, h3, h2⟩

theorem alike_table (h : Alike τ s t) : AlikeRes (Alike τ) (transparencyTable s) (transparencyTable t) := by
  have h0 := h
  obtain ⟨a, b, c, cr, rfl, h1, h3, h2⟩ := h
  unfold transparencyTable
  dsimp only
  split
  · refine (alike_require Iff.rfl h0).bind fun _ s t h => (alike_payload h).bind fun pay s t h => (alike_payloadBE16 h).bind fun _ s t h => ?_
    obtain ⟨a, b, c, cr, rfl, h1, h3, h2⟩ := h; exact .ok _ ⟨a, b, c, cr, rfl, h1, h3, h2⟩
  split
  · refine (alike_require Iff.rfl h0).bind fun _ s t h => (alike_payload h).bind fun pay s t h => (alike_payloadBE16 h).bind fun _ s t h => (alike_payloadBE16 h).bind fun _ s t h => (alike_payloadBE16 h).bind fun _ s t h => ?_
    obtain ⟨a, b, c, cr, rfl, h1, h3, h2⟩ := h; exact .ok _ ⟨a, b, c, cr, rfl, h1, h3, h2⟩
  split
  · refine (alike_require Iff.rfl h0).bind fun _ s t h => (alike_payload h).bind fun pay s t h => ?_
    obtain ⟨a, b, c, cr, rfl, h1, h3, h2⟩ := h; exact .ok _ ⟨a, b, c, cr, rfl, h1, h3, h2⟩
  · exact .ok _ h0

theorem alike_trns (h : Alike τ s t) : AlikeOut τ (execTrns s) (execTrns t) := by
  replace h := alike_closeIdat h
  unfold execTrns
  generalize closeIdatRun s = s at *
  generalize closeIdatRun t = t at *
  dsimp only
  apply alike_finish
  have h0 := h
  obtain ⟨a, b, c, cr, rfl, h1, h3, h2⟩ := h
  refine alike_require_bind (p := fun s => s.seenIdat = false) Iff.rfl h0 ?_
  refine alike_require_bind (p := fun s => s.haveTrns = false) Iff.rfl h0 ?_
  refine alike_require_bind (p := fun s => ¬ (s.ihCtype = 3 ∧ s.havePlte = false)) Iff.rfl h0 ?_
  refine alike_require_bind (p := fun s => s.ihCtype ≠ 4 ∧ s.ihCtype ≠ 6) Iff.rfl h0 ?_
  refine (alike_table h0).bind fun pay s t h => ?_
  obtain ⟨a, b, c, cr, rfl, h1, h3, h2⟩ := h; exact .ok _ ⟨a, b, c, cr, rfl, h1, h3, h2⟩

theorem alike_idat (h : Alike τ s t) : AlikeOut τ (execIdat s) (execIdat t) := by
  apply alike_finish
  have h0 := h
  obtain ⟨a, b, c, cr, rfl, h1, h3, h2⟩ := h
  refine alike_require_bind (p := fun s => s.idatClosed = false) Iff.rfl h0 ?_
  refine alike_require_bind (p := fun s => ¬ (s.ihCtype = 3 ∧ s.havePlte = false)) Iff.rfl h0 ?_
  refine (alike_payload h0).bind fun pay s t h => ?_
  obtain ⟨a, b, c, cr, rfl, h1, h3, h2⟩ := h; exact .ok _ ⟨a, b, c, cr, rfl, h1, h3, h2⟩

theorem alike_iend (h : Alike τ s t) : AlikeOut τ (execIend s) (execIend t) := by
  replace h := alike_closeIdat h
  unfold execIend
  generalize closeIdatRun s = s at *
  generalize closeIdatRun t = t at *
  dsimp only
  apply alike_finish
  have h0 := h
  obtain ⟨a, b, c, cr, rfl, h1, h3, h2⟩ := h
  exact alike_require_bind (p := fun s => s.ckLen = 0) Iff.rfl h0 (.ok _ ⟨a, b, c, cr, rfl, h1, h3, h2⟩)

/-- Every chunk element. -/
theorem alike_chunk {type : Word} (h : Alike τ s t) : AlikeOut τ (exec (decodeChunkType type) s) (exec (decodeChunkType type) t) := by
  unfold decodeChunkType
  repeat' split
  · exact alike_ihdr h
  · exact alike_plte h
  · exact alike_trns h
  · exact alike_idat h
  · exact alike_iend h
  · exact .next (alike_closeIdat h)
  · exact alike_finish (α := Unit) (alike_raise (alike_closeIdat h))

theorem alike_zhdr (h : Alike τ s t) : AlikeOut τ (execZhdr s) (execZhdr t) := by
  refine alike_finish ((alike_getbits 8 h).bind fun _ s t h => (alike_getbits 8 h).bind fun _ s t h => (alike_require Iff.rfl h).bind fun _ s t h => (alike_require Iff.rfl h).bind fun _ s t h =>
    (alike_require Iff.rfl h).bind fun _ s t h => (alike_require Iff.rfl h).bind fun _ s t h => ?_)
  obtain ⟨a, b, c, cr, rfl, h1, h3, h2⟩ := h; exact .ok _ ⟨a, b, c, cr, rfl, (fun h => by cases h), h3, h2⟩

theorem alike_align (h : Alike τ s t) : Alike τ (alignByte s) (alignByte t) := by
  obtain ⟨a, b, c, cr, rfl, h1, h3, h2⟩ := h; exact ⟨a, b, c, cr, rfl, h1, h3, h2⟩

theorem alike_ztrl (h : Alike τ s t) : AlikeOut τ (execZtrl s) (execZtrl t) := by
  refine alike_finish ((alike_getbits 8 (alike_align h)).bind fun b0 s t h => (alike_getbits 8 h).bind fun b1 s t h => (alike_getbits 8 h).bind fun b2 s t h => (alike_getbits 8 h).bind fun b3 s t h => ?_)
  have h0 := h
  obtain ⟨a, b, c, cr, rfl, h1, h3, h2⟩ := h
  exact alike_require_bind (p := fun s => s.cfgVerifyAdler = false ∨ trailerValue b0 b1 b2 b3 = adlerValue s.adlerA s.adlerB) Iff.rfl h0 (.ok _ ⟨a, b, c, cr, rfl, (fun h => by cases h), h3, h2⟩)

theorem alike_stored {f : Bool} (h : Alike τ s t) : AlikeOut τ (execBlkStored f s) (execBlkStored f t) :=
  alike_finish ((alike_getbits 16 (alike_align (alike_enterBlock h))).bind fun _ _ _ h => (alike_getbits 16 h).bind fun _ _ _ h => (alike_require Iff.rfl h).bind fun _ _ _ h =>
    (alike_storedBytes _ h).bind fun _ _ _ h => alike_ok (alike_endBlock h))

/-- `BLK.FIXED`: the free values it takes are the only difference. -/
theorem alike_fixed {f : Bool} (h : Alike τ s t) : AlikeOut τ (execBlkFixed f s) (execBlkFixed f t) := by
  obtain ⟨a, b, c, cr, rfl, h1, h3, h2⟩ := h
  exact .next ⟨a, b + 1, freeClLens b, cr, rfl, (fun h => by cases h), h3, fun h => ⟨by rw [(h2 h).1], by rw [(h2 h).1], (h2 h).2.2⟩⟩

theorem alike_rsvd {f : Bool} (h : Alike τ s t) : AlikeOut τ (execBlkRsvd f s) (execBlkRsvd f t) := alike_finish (α := Unit) (alike_raise (alike_enterBlock h))

/-- `CL_LEN` is the same. -/
abbrev Same (τ : Prop) (s t : State) : Prop := Alike τ s t ∧ t.clLen = s.clLen

/-- Two results over states that agree in `CL_LEN` where they completed. -/
inductive SameRes (τ : Prop) : Res Unit → Res Unit → Prop
  | ok {s t : State} (h : Same τ s t) : SameRes τ (.ok () s) (.ok () t)
  | raise (k : FaultKind) {s t : State} (h : Alike τ s t) : SameRes τ (.raise k s) (.raise k t)

/-- The code-length-code lengths, over equal files. -/
theorem same_readCl : ∀ (l : List Nat) {s t : State}, Same τ s t → SameRes τ (readClLens l s) (readClLens l t)
  | [], _, _, h => .ok h
  | sym :: rest, s, t, ⟨h, e⟩ => by
    rw [readClLens, readClLens]
    rcases getbits_cases 3 s with ⟨v, hv, hg⟩ | ⟨u, p, hg, hu⟩
    · obtain ⟨a, b, c, cr, rfl, h1, h3, h2⟩ := h
      have hg' := getbits_ok (s := { s with faultOffset := a, freeCount := b, clLen := c, currow := cr }) hv
      rw [hg, hg', bind_ok, bind_ok]
      dsimp only at e ⊢
      subst e
      exact same_readCl rest ⟨⟨a, b, _, cr, rfl, fun _ => rfl, h3, fun h => ⟨(h2 h).1, rfl, (h2 h).2.2⟩⟩, rfl⟩
    · have := alike_getbits 3 h
      rw [hg] at this ⊢
      generalize getbits 3 t = q at *
      cases this with
      | raise _ h => exact .raise _ h

/-- `BLK.DYN`: it rewrites `CL_LEN` before it reads it. -/
theorem alike_dyn {f : Bool} (h : Alike τ s t) : AlikeOut τ (execBlkDyn f s) (execBlkDyn f t) := by
  apply alike_finish
  refine (alike_getbits 5 (alike_enterBlock h)).bind fun x s t h => ?_
  refine (alike_getbits 5 (by obtain ⟨a, b, c, cr, rfl, h1, h3, h2⟩ := h; exact ⟨a, b, c, cr, rfl, h1, h3, h2⟩)).bind fun y s t h => ?_
  refine (alike_getbits 4 (by obtain ⟨a, b, c, cr, rfl, h1, h3, h2⟩ := h; exact ⟨a, b, c, cr, rfl, h1, h3, h2⟩)).bind fun z s t h => ?_
  have e : t.hlit = s.hlit := by obtain ⟨a, b, c, cr, rfl, -⟩ := h; rfl
  rw [e]
  refine (alike_require Iff.rfl (by obtain ⟨a, b, c, cr, rfl, h1, h3, h2⟩ := h; exact ⟨a, b, c, cr, rfl, h1, h3, h2⟩)).bind fun _ s t h => ?_
  have e : s.hclen = t.hclen := by obtain ⟨a, b, c, cr, rfl, -⟩ := h; rfl
  have k : ∀ l l' : List Nat, l = l' → SameRes τ (readClLens l { s with clLen := List.replicate 19 0 }) (readClLens l' { t with clLen := List.replicate 19 0 }) := by
    rintro l _ rfl
    exact same_readCl l (by obtain ⟨a, b, c, cr, rfl, h1, h3, h2⟩ := h; exact ⟨⟨a, b, _, cr, rfl, fun _ => rfl, h3, fun h => ⟨(h2 h).1, rfl, (h2 h).2.2⟩⟩, rfl⟩)
  specialize k (clOrder.take s.hclen) (clOrder.take t.hclen) (by rw [e])
  generalize readClLens (clOrder.take s.hclen) { s with clLen := List.replicate 19 0 } = r at *
  generalize readClLens (clOrder.take t.hclen) { t with clLen := List.replicate 19 0 } = q at *
  cases k with
  | raise k h => exact .raise k h
  | @ok s1 t1 g =>
  obtain ⟨g, eg⟩ := g
  show AlikeRes (Alike τ) ((checkCode s1.clLen .cl s1).bind _) ((checkCode t1.clLen .cl t1).bind _)
  rw [eg]
  unfold checkCode
  by_cases p1 : codeSpace s1.clLen ≤ 2 ^ 15
  · rw [require_pos p1, require_pos p1, bind_ok, bind_ok]
    by_cases p2 : codeSpace s1.clLen = 2 ^ 15 ∨ codeSpace s1.clLen = 0 ∨ (CodeKind.cl ≠ .cl ∧ singleOneBitCode s1.clLen = true)
    · rw [require_pos p2, require_pos p2, bind_ok, bind_ok]
      obtain ⟨a, b, c, cr, rfl, h1, h3, h2⟩ := g
      exact .ok _ ⟨a, b, c, cr, rfl, fun _ => eg, h3, h2⟩
    · rw [require_neg p2, require_neg p2]; exact .raise _ g
  · rw [require_neg p1, require_neg p1]; exact .raise _ g

theorem alike_length {sym : Nat} (h : Alike τ s t) : AlikeRes (Alike τ) (lengthSymbol sym s) (lengthSymbol sym t) := by
  unfold lengthSymbol
  generalize lengthExtra.getD (sym - 257) 0 = n
  generalize lengthBase.getD (sym - 257) 0 = base
  refine (alike_getbits n h).bind fun v s t h => ?_
  generalize base + v = m
  obtain ⟨a, b, c, cr, rfl, h1, h3, h2⟩ := h; exact .ok _ ⟨a, b, c, cr, rfl, (fun h => by cases h), h3, h2⟩

theorem alike_copy {n d : Nat} (h : Alike τ s t) : AlikeRes (Alike τ) (copy n d s) (copy n d t) := by
  have e2 : t.obuf = s.obuf := by obtain ⟨a, b, c, cr, rfl, -⟩ := h; rfl
  unfold copy; rw [e2]
  exact (alike_require Iff.rfl h).bind fun _ s t h => alike_copyBytes _ _ h

theorem alike_distance {sym : Nat} (h : Alike τ s t) : AlikeRes (Alike τ) (distanceSymbol sym s) (distanceSymbol sym t) := by
  unfold distanceSymbol
  generalize distExtra.getD sym 0 = n
  generalize distBase.getD sym 0 = base
  refine (alike_getbits n h).bind fun v s t h => ?_
  have e : t.mlen = s.mlen := by obtain ⟨a, b, c, cr, rfl, -⟩ := h; rfl
  generalize base + v = m
  rw [e]
  refine (alike_copy h).bind fun _ s t h => ?_
  obtain ⟨a, b, c, cr, rfl, h1, h3, h2⟩ := h; exact .ok _ ⟨a, b, c, cr, rfl, (fun h => by cases h), h3, h2⟩

theorem alike_lengthOut {sym : Nat} (h : Alike τ s t) : AlikeOut τ (finish (lengthSymbol sym s)) (finish (lengthSymbol sym t)) := by
  have h' := alike_length (sym := sym) h
  generalize lengthSymbol sym s = r at *
  generalize lengthSymbol sym t = q at *
  exact alike_finish h'

theorem alike_distanceOut {sym : Nat} (h : Alike τ s t) : AlikeOut τ (finish (distanceSymbol sym s)) (finish (distanceSymbol sym t)) := by
  have h' := alike_distance (sym := sym) h
  generalize distanceSymbol sym s = r at *
  generalize distanceSymbol sym t = q at *
  exact alike_finish h'

/-- Every block element. -/
theorem alike_bhdr {v : Nat} {i : Instr} (hv : decode .bhdr v = .ok i) (h : Alike τ s t) : AlikeOut τ (exec i s) (exec i t) := by
  simp only [decode, decodeBlockHeader] at hv
  split at hv
  · split at hv <;> cases hv
    · exact alike_stored h
    · exact alike_fixed h
    · exact alike_dyn h
    · exact alike_rsvd h
  · cases hv

/-- Every literal/length symbol. -/
theorem alike_ll {v : Nat} {i : Instr} (hv : decode .llsym v = .ok i) (h : Alike τ s t) : AlikeOut τ (exec i s) (exec i t) := by
  simp only [decode, decodeLL] at hv
  split at hv
  · cases hv; exact .next (alike_emit h)
  split at hv
  · cases hv; exact .next (alike_endBlock h)
  split at hv
  · rename_i j hj
    cases hv
    have hlt := (List.getElem?_eq_some_iff.1 hj).1
    have hl : v - 257 < 31 := hlt
    clear hlt
    generalize v - 257 = n at *
    rcases Nat.lt_or_ge n 29 with h29 | h29
    · clear hl; interval_cases n
      · cases hj; exact alike_lengthOut (sym := 257) h
      · cases hj; exact alike_lengthOut (sym := 258) h
      · cases hj; exact alike_lengthOut (sym := 259) h
      · cases hj; exact alike_lengthOut (sym := 260) h
      · cases hj; exact alike_lengthOut (sym := 261) h
      · cases hj; exact alike_lengthOut (sym := 262) h
      · cases hj; exact alike_lengthOut (sym := 263) h
      · cases hj; exact alike_lengthOut (sym := 264) h
      · cases hj; exact alike_lengthOut (sym := 265) h
      · cases hj; exact alike_lengthOut (sym := 266) h
      · cases hj; exact alike_lengthOut (sym := 267) h
      · cases hj; exact alike_lengthOut (sym := 268) h
      · cases hj; exact alike_lengthOut (sym := 269) h
      · cases hj; exact alike_lengthOut (sym := 270) h
      · cases hj; exact alike_lengthOut (sym := 271) h
      · cases hj; exact alike_lengthOut (sym := 272) h
      · cases hj; exact alike_lengthOut (sym := 273) h
      · cases hj; exact alike_lengthOut (sym := 274) h
      · cases hj; exact alike_lengthOut (sym := 275) h
      · cases hj; exact alike_lengthOut (sym := 276) h
      · cases hj; exact alike_lengthOut (sym := 277) h
      · cases hj; exact alike_lengthOut (sym := 278) h
      · cases hj; exact alike_lengthOut (sym := 279) h
      · cases hj; exact alike_lengthOut (sym := 280) h
      · cases hj; exact alike_lengthOut (sym := 281) h
      · cases hj; exact alike_lengthOut (sym := 282) h
      · cases hj; exact alike_lengthOut (sym := 283) h
      · cases hj; exact alike_lengthOut (sym := 284) h
      · cases hj; exact alike_lengthOut (sym := 285) h
    · interval_cases n <;> (cases hj; exact alike_finish (α := Unit) (alike_raise h))
  · cases hv

/-- Every distance symbol. -/
theorem alike_d {v : Nat} {i : Instr} (hv : decode .dsym v = .ok i) (h : Alike τ s t) : AlikeOut τ (exec i s) (exec i t) := by
  simp only [decode, decodeDist] at hv
  split at hv
  · rename_i j hj
    cases hv
    have hl : v < 32 := (List.getElem?_eq_some_iff.1 hj).1
    rcases Nat.lt_or_ge v 30 with h29 | h29
    · clear hl; interval_cases v
      · cases hj; exact alike_distanceOut (sym := 0) h
      · cases hj; exact alike_distanceOut (sym := 1) h
      · cases hj; exact alike_distanceOut (sym := 2) h
      · cases hj; exact alike_distanceOut (sym := 3) h
      · cases hj; exact alike_distanceOut (sym := 4) h
      · cases hj; exact alike_distanceOut (sym := 5) h
      · cases hj; exact alike_distanceOut (sym := 6) h
      · cases hj; exact alike_distanceOut (sym := 7) h
      · cases hj; exact alike_distanceOut (sym := 8) h
      · cases hj; exact alike_distanceOut (sym := 9) h
      · cases hj; exact alike_distanceOut (sym := 10) h
      · cases hj; exact alike_distanceOut (sym := 11) h
      · cases hj; exact alike_distanceOut (sym := 12) h
      · cases hj; exact alike_distanceOut (sym := 13) h
      · cases hj; exact alike_distanceOut (sym := 14) h
      · cases hj; exact alike_distanceOut (sym := 15) h
      · cases hj; exact alike_distanceOut (sym := 16) h
      · cases hj; exact alike_distanceOut (sym := 17) h
      · cases hj; exact alike_distanceOut (sym := 18) h
      · cases hj; exact alike_distanceOut (sym := 19) h
      · cases hj; exact alike_distanceOut (sym := 20) h
      · cases hj; exact alike_distanceOut (sym := 21) h
      · cases hj; exact alike_distanceOut (sym := 22) h
      · cases hj; exact alike_distanceOut (sym := 23) h
      · cases hj; exact alike_distanceOut (sym := 24) h
      · cases hj; exact alike_distanceOut (sym := 25) h
      · cases hj; exact alike_distanceOut (sym := 26) h
      · cases hj; exact alike_distanceOut (sym := 27) h
      · cases hj; exact alike_distanceOut (sym := 28) h
      · cases hj; exact alike_distanceOut (sym := 29) h
    · interval_cases v <;> (cases hj; exact alike_finish (α := Unit) (alike_raise h))
  · cases hv

/-- Every code-length symbol. -/
theorem alike_cl {v : Nat} {i : Instr} (hv : decode .clsym v = .ok i) (h : Alike τ s t) : AlikeOut τ (exec i s) (exec i t) := by
  have e2 : t.clSeq = s.clSeq := by obtain ⟨a, b, c, cr, rfl, -⟩ := h; rfl
  simp only [decode, decodeCL] at hv
  repeat' split at hv
  all_goals cases hv
  · obtain ⟨a, b, c, cr, rfl, h1, h3, h2⟩ := h; exact .next ⟨a, b, c, cr, rfl, h1, h3, h2⟩
  · show AlikeOut τ (execClRep s) (execClRep t)
    unfold execClRep; rw [e2]; apply alike_finish
    cases s.clSeq.getLast? with
    | none => exact alike_raise h
    | some v => exact (alike_getbits 2 h).bind fun _ _ _ h => alike_appendLengths h
  · exact alike_finish ((alike_getbits 3 h).bind fun _ _ _ h => alike_appendLengths h)
  · exact alike_finish ((alike_getbits 7 h).bind fun _ _ _ h => alike_appendLengths h)

/-! ### Elements of RECON, and the fetch -/

theorem alike_withBitspp {f g : Nat → Res α} (h : Alike τ s t) (hf : ∀ bits, AlikeRes (Alike τ) (f bits) (g bits)) : AlikeRes (Alike τ) (withBitspp s f) (withBitspp t g) := by
  have e : bitspp t = bitspp s := by obtain ⟨a, b, c, cr, rfl, -⟩ := h; rfl
  unfold withBitspp; rw [e]
  cases bitspp s with
  | some bits => exact hf bits
  | none => exact .stop _

theorem alike_filterRow {ft : Byte} {f : Byte → Byte → Byte → Byte → Byte} (h : Alike τ s t) : AlikeRes (Alike τ) (filterRow ft f s) (filterRow ft f t) := by
  refine alike_withBitspp h fun bits => ?_
  refine AlikeRes.bind ?_ fun raw s t h => ?_
  · obtain ⟨a, b, c, cr, rfl, h1, h3, h2⟩ := h
    unfold rawRow; dsimp only
    split
    · exact .ok _ ⟨a, b, c, cr, rfl, h1, h3, h2⟩
    · exact .stop _
  · obtain ⟨a, b, c, cr, rfl, h1, h3, h2⟩ := h; exact .ok _ ⟨a, b, c, _, rfl, h1, fun _ => rfl, fun h => ⟨(h2 h).1, (h2 h).2.1, rfl⟩⟩

/-- Every filter element. -/
theorem alike_row {v : Nat} {i : Instr} (hv : decode .row v = .ok i) (h : Alike τ s t) : AlikeOut τ (exec i s) (exec i t) := by
  simp only [decode, decodeFilter] at hv
  split at hv
  all_goals first | (cases hv; exact alike_finish (alike_filterRow h)) | skip
  split at hv
  · cases hv
    refine alike_finish (α := Unit) (alike_raise ?_)
    obtain ⟨a, b, c, cr, rfl, h1, h3, h2⟩ := h; exact ⟨a, b, c, cr, rfl, h1, h3, h2⟩
  · cases hv

/-- After a pass no row is being converted. -/
theorem stageAfterPass_ne (p : Fin 8) : stageAfterPass p ≠ .pixel := by revert p; decide

/-- Every pass element. -/
theorem alike_pass {p : Fin 8} (h : Alike τ s t) : AlikeRes (Alike τ) (passElement p s) (passElement p t) := by
  have h0 := h
  obtain ⟨a, b, c, cr, rfl, h1, h3, h2⟩ := h
  refine alike_withBitspp h0 fun bits => ?_
  by_cases hw : passWidth p s = 0 ∨ passHeight p s = 0
  · rw [if_pos hw, if_pos (by exact hw)]; exact .ok _ ⟨a, b, c, cr, rfl, h1, fun h => absurd h (stageAfterPass_ne p), h2⟩
  · rw [if_neg hw, if_neg (by exact hw)]
    exact .ok _ ⟨a, b + 1, c, freeRow b _, rfl, h1, (fun h => by cases h), fun h => ⟨by rw [(h2 h).1]; rfl, (h2 h).2.1, by rw [(h2 h).1]; rfl⟩⟩

/-- `CURROW` is the same. -/
abbrev InRow (τ : Prop) (s t : State) : Prop := Alike τ s t ∧ t.currow = s.currow

theorem alike_sample {d n : Nat} (h : InRow τ s t) : AlikeRes (InRow τ) (sample d n s) (sample d n t) := by
  have e : t.currow = s.currow := h.2
  unfold sample
  rw [e]
  split
  · exact (alike_readByte h).bind fun _ _ _ h => alike_ok h
  split
  · exact (alike_readByte h).bind fun _ s t h => by
      have e : t.currow = s.currow := h.2
      rw [e]
      exact (alike_readByte h).bind fun _ _ _ h => alike_ok h
  · exact (alike_readByte h).bind fun _ _ _ h => alike_ok h

theorem alike_write {p : Rgba} (h : Alike τ s t) : AlikeRes (Alike τ) (writePixel p s) (writePixel p t) := by
  obtain ⟨a, b, c, cr, rfl, h1, h3, h2⟩ := h
  by_cases hw : pixelAddress s + 4 ≤ s.frame.size
  · rw [writePixel, writePixel, if_pos hw, if_pos (by exact hw)]; exact .ok _ ⟨a, b, c, cr, rfl, h1, h3, h2⟩
  · rw [writePixel, writePixel, if_neg hw, if_neg (by exact hw)]; exact .stop _

theorem alike_col (h : InRow τ s t) : t.col = s.col := by obtain ⟨⟨a, b, c, cr, rfl, -⟩, -⟩ := h; rfl

theorem alike_gray {d : Nat} (h : InRow τ s t) : AlikeRes (InRow τ) (convertGray d s) (convertGray d t) := by
  unfold convertGray; rw [alike_col h]
  refine (alike_sample h).bind fun g s t h => ?_
  have h0 := h
  obtain ⟨⟨a, b, c, cr, rfl, -⟩, -⟩ := h; exact .ok _ h0

theorem alike_rgb {d : Nat} (h : InRow τ s t) : AlikeRes (InRow τ) (convertRgb d s) (convertRgb d t) := by
  unfold convertRgb; rw [alike_col h]
  refine (alike_sample h).bind fun r s t h => ?_
  rw [alike_col h]; refine (alike_sample h).bind fun g s t h => ?_
  rw [alike_col h]; refine (alike_sample h).bind fun b' s t h => ?_
  have h0 := h
  obtain ⟨⟨a, b, c, cr, rfl, -⟩, -⟩ := h; exact .ok _ h0

theorem alike_ga {d : Nat} (h : InRow τ s t) : AlikeRes (InRow τ) (convertGrayAlpha d s) (convertGrayAlpha d t) := by
  unfold convertGrayAlpha; rw [alike_col h]
  refine (alike_sample h).bind fun r s t h => ?_
  rw [alike_col h]; exact (alike_sample h).bind fun g s t h => .ok _ h

theorem alike_rgba {d : Nat} (h : InRow τ s t) : AlikeRes (InRow τ) (convertRgba d s) (convertRgba d t) := by
  unfold convertRgba; rw [alike_col h]
  refine (alike_sample h).bind fun r s t h => ?_
  rw [alike_col h]; refine (alike_sample h).bind fun g s t h => ?_
  rw [alike_col h]; refine (alike_sample h).bind fun b' s t h => ?_
  rw [alike_col h]; exact (alike_sample h).bind fun g s t h => .ok _ h

theorem alike_pal {d : Nat} (h : InRow τ s t) : AlikeRes (InRow τ) (convertPalette d s) (convertPalette d t) := by
  unfold convertPalette; rw [alike_col h]
  refine (alike_sample h).bind fun i s t h => ?_
  have e1 : t.pltN = s.pltN := by obtain ⟨⟨a, b, c, cr, rfl, -⟩, -⟩ := h; rfl
  unfold paletteLookup; rw [e1]
  refine (alike_require Iff.rfl h).bind fun _ s t h => ?_
  have e1 : t.plt = s.plt := by obtain ⟨⟨a, b, c, cr, rfl, -⟩, -⟩ := h; rfl
  rw [e1]
  cases s.plt[i]? with
  | none => exact .stop _
  | some c =>
    refine AlikeRes.bind ?_ fun _ s t h => .ok _ h
    have e1 : t.trnsN = s.trnsN := by obtain ⟨⟨a, b, c, cr, rfl, -⟩, -⟩ := h; rfl
    have e2 : t.trnsA = s.trnsA := by obtain ⟨⟨a, b, c, cr, rfl, -⟩, -⟩ := h; rfl
    unfold paletteAlpha; rw [e1, e2]
    split
    · exact alike_readByte h
    · exact .ok _ h

/-- Every conversion. -/
theorem alike_conv {v : Nat} {i : Instr} (hv : decode .depthCtype v = .ok i) (h : InRow τ s t) : AlikeOut τ (exec i s) (exec i t) := by
  simp only [decode, decodeDepthCtype] at hv
  split at hv <;> cases hv
  iterate 5 exact alike_finish (((alike_gray h).mono fun _ _ h => h.1).bind fun _ _ _ h => alike_write h)
  iterate 2 exact alike_finish (((alike_rgb h).mono fun _ _ h => h.1).bind fun _ _ _ h => alike_write h)
  iterate 4 exact alike_finish (((alike_pal h).mono fun _ _ h => h.1).bind fun _ _ _ h => alike_write h)
  iterate 2 exact alike_finish (((alike_ga h).mono fun _ _ h => h.1).bind fun _ _ _ h => alike_write h)
  iterate 2 exact alike_finish (((alike_rgba h).mono fun _ _ h => h.1).bind fun _ _ _ h => alike_write h)

/-- What two fetches give: one element with alike outcomes, alike states, or one stop. -/
inductive AlikeRest (τ : Prop) : Res (Option Instr) → Res (Option Instr) → Prop
  | elem {i : Instr} {s t : State} (h : AlikeOut τ (exec i s) (exec i t)) : AlikeRest τ (.ok (some i) s) (.ok (some i) t)
  | seq {s t : State} (h : Alike τ s t) : AlikeRest τ (.ok none s) (.ok none t)
  | raise (k : FaultKind) {s t : State} (h : Alike τ s t) : AlikeRest τ (.raise k s) (.raise k t)
  | stop (x : Fault) : AlikeRest τ (.stop x) (.stop x)

/-- The fetch, by sequencing. -/
theorem AlikeRes.rest {r q : Res α} {f g : α → State → Res (Option Instr)} (h : AlikeRes (Alike τ) r q) (hf : ∀ v s t, Alike τ s t → AlikeRest τ (f v s) (g v t)) :
    AlikeRest τ (r.bind f) (q.bind g) := by
  cases h with
  | ok v h => exact hf _ _ _ h
  | raise k h => exact .raise k h
  | stop x => exact .stop x

/-- The decoded element. -/
theorem rest_decoded {f : Format} {v : Nat} (hf : ∀ i, decode f v = .ok i → AlikeOut τ (exec i s) (exec i t)) : AlikeRest τ (decoded f v s) (decoded f v t) := by
  unfold decoded
  cases hd : decode f v with
  | ok i => exact .elem (hf i hd)
  | error e => exact .stop _

/-- The step, from its fetch. -/
theorem step_rest (h : AlikeRest τ (fetch s) (fetch t)) : AlikeOut τ (step s) (step t) := by
  unfold step
  generalize fetch s = r at *
  generalize fetch t = q at *
  cases h with
  | elem h => exact h
  | seq h => exact .next h
  | raise k h => exact .next (alike_raiseFault h)
  | stop x => exact .fault x

/-- The fetch of phase CONTAINER. -/
theorem rest_container (h : Alike τ s t) : AlikeRest τ (fetchContainer s) (fetchContainer t) := by
  have e : t.pstate = s.pstate := by obtain ⟨a, b, c, cr, rfl, -⟩ := h; rfl
  unfold fetchContainer; rw [e]
  cases s.pstate with
  | expectSignature => exact .elem (alike_sig h)
  | expectHeader =>
    refine (alike_readChunk h).rest fun _ s t h => ?_
    have e : t.ckType = s.ckType := by obtain ⟨a, b, c, cr, rfl, -⟩ := h; rfl
    rw [e]
    refine (alike_require Iff.rfl h).rest fun _ s t h => ?_
    have e : t.ckType = s.ckType := by obtain ⟨a, b, c, cr, rfl, -⟩ := h; rfl
    rw [e]
    refine rest_decoded fun i hi => ?_
    simp only [decode] at hi
    split at hi <;> cases hi
    exact alike_chunk h
  | readingChunks =>
    refine (alike_readChunk h).rest fun _ s t h => ?_
    have e : t.ckType = s.ckType := by obtain ⟨a, b, c, cr, rfl, -⟩ := h; rfl
    rw [e]
    refine rest_decoded fun i hi => ?_
    simp only [decode] at hi
    split at hi <;> cases hi
    exact alike_chunk h
  | done =>
    have e : atEnd t = atEnd s := by obtain ⟨a, b, c, cr, rfl, -⟩ := h; rfl
    unfold enterInflate; rw [e]
    refine ((alike_require Iff.rfl h).bind fun _ s t h => ?_).rest fun _ s t h => .seq h
    obtain ⟨a, b, c, cr, rfl, h1, h3, h2⟩ := h; exact .ok _ ⟨a, b, c, cr, rfl, (fun h => by cases h), h3, h2⟩

/-- The installation of the codes. -/
theorem alike_install (h : Alike τ s t) : AlikeRes (Alike τ) (installCodes s) (installCodes t) := by
  have h0 : Alike τ (assignLengths s) (assignLengths t) := by obtain ⟨a, b, c, cr, rfl, h1, h3, h2⟩ := h; exact ⟨a, b, c, cr, rfl, h1, h3, h2⟩
  unfold installCodes
  generalize assignLengths s = s at *
  generalize assignLengths t = t at *
  have e : t.llLen = s.llLen := by obtain ⟨a, b, c, cr, rfl, -⟩ := h0; rfl
  rw [e]
  refine (alike_require Iff.rfl h0).bind fun _ s t h => ?_
  have e : t.llLen = s.llLen := by obtain ⟨a, b, c, cr, rfl, -⟩ := h; rfl
  rw [e]
  refine (alike_checkCode h).bind fun _ s t h => ?_
  have e : t.dLen = s.dLen := by obtain ⟨a, b, c, cr, rfl, -⟩ := h; rfl
  rw [e]
  refine (alike_checkCode h).bind fun _ s t h => ?_
  obtain ⟨a, b, c, cr, rfl, h1, h3, h2⟩ := h; exact .ok _ ⟨a, b, c, cr, rfl, (fun h => by cases h), h3, h2⟩

/-- The fetch of phase INFLATE. -/
theorem rest_inflate (h : Alike τ s t) : AlikeRest τ (fetchInflate s) (fetchInflate t) := by
  have h0 := h
  have hi := alike_install h
  obtain ⟨a, b, c, cr, rfl, h1, h3, h2⟩ := h
  unfold fetchInflate
  dsimp only
  split
  · exact .elem (alike_zhdr h0)
  · exact (alike_getbits 3 h0).rest fun v s t h => rest_decoded fun i hi => alike_bhdr hi h
  · rename_i hs
    have hcc := h1 hs
    subst hcc
    split
    · exact (alike_decodeSym h0).rest fun v s t h => rest_decoded fun i hi => alike_cl hi h
    · exact hi.rest fun _ _ _ h => .seq h
  · exact (alike_decodeSym h0).rest fun v s t h => rest_decoded fun i hi => alike_ll hi h
  · exact (alike_decodeSym h0).rest fun v s t h => rest_decoded fun i hi => alike_d hi h
  · exact .elem (alike_ztrl h0)
  · refine AlikeRes.rest (α := Unit) ?_ fun _ _ _ h => .seq h
    refine alike_withBitspp h0 fun bits => ?_
    refine (alike_require (s := { s with phase := .recon, rpos := 0 }) (t := { s with faultOffset := a, freeCount := b, clLen := c, currow := cr, phase := .recon, rpos := 0 }) Iff.rfl ⟨a, b, c, cr, rfl, h1, h3, h2⟩).bind fun _ s t h => ?_
    obtain ⟨a, b, c, cr, rfl, h1, h3, h2⟩ := h; exact .ok _ ⟨a, b, c, cr, rfl, h1, (fun h => by cases h), h2⟩

/-- The fetch of phase RECON. -/
theorem rest_recon (h : Alike τ s t) : AlikeRest τ (fetchRecon s) (fetchRecon t) := by
  have h0 := h
  obtain ⟨a, b, c, cr, rfl, h1, h3, h2⟩ := h
  unfold fetchRecon
  dsimp only
  split
  · exact rest_decoded fun i hi => by
      rename_i p _
      simp only [decode, decodeIlace] at hi
      split at hi <;> cases hi
      fin_cases p <;> exact alike_finish (alike_pass h0)
  · split
    · refine (alike_readByte h0).rest fun ft s t h => rest_decoded fun i hi => alike_row hi ?_
      obtain ⟨a, b, c, cr, rfl, h1, h3, h2⟩ := h; exact ⟨a, b, c, cr, rfl, h1, h3, h2⟩
    · exact .seq ⟨a, b, c, cr, rfl, h1, fun h => absurd h (stageAfterPass_ne _), h2⟩
  · rename_i hs
    have he := h3 hs
    subst he
    split
    · exact rest_decoded fun i hi => alike_conv hi ⟨h0, rfl⟩
    · exact .seq ⟨a, b, c, _, rfl, h1, (fun h => by cases h), h2⟩
  · exact .seq ⟨a, b, c, cr, rfl, h1, h3, h2⟩

end Sys2Proof.Laws
end

