-- ==== Sys2Proof/Laws/Output.lean ====
section
/-! SUPPORT. Appending to `OBUF` (45_inflate_symbols.md R261, R267) and the bytes of a stored block, over whole sequences. -/

namespace Sys2Proof.Laws

open Sys2Proof.Machine Sys2Proof.Safety

/-- Emitting a sequence: it is appended, and the Adler-32 sums run over it. -/
theorem emits_eq (l : List Byte) (s : State) : l.foldl (fun s b => emit b s) s = { s with
    obuf := s.obuf ++ l
    adlerA := (l.foldl (fun ab b => adlerByte ab.1 ab.2 b) (s.adlerA, s.adlerB)).1
    adlerB := (l.foldl (fun ab b => adlerByte ab.1 ab.2 b) (s.adlerA, s.adlerB)).2 } := by
  induction l generalizing s with
  | nil => simp
  | cons b l ih => rw [List.foldl_cons, ih]; simp [emit, adlerUpdate]

/-- The next byte boundary. -/
theorem alignByte_of {s : State} {p : Nat} (h1 : p % 8 = 0) (h2 : s.bp ≤ p) (h3 : p < s.bp + 8) : alignByte s = { s with bp := p } := by
  simp only [alignByte]; congr 1; omega

/-- At a byte boundary a field of eight bits is the byte. -/
theorem fieldAt_byte {z : List Byte} {p : Nat} {b : Byte} (hp : p % 8 = 0) (h : z[p / 8]? = some b) : FieldAt z p 8 b.toNat := by
  refine ⟨b.isLt, fun k hk => ⟨b, ?_, ?_⟩⟩
  · rw [show (p + k) / 8 = p / 8 by omega]; exact h
  · rw [show (p + k) % 8 = k by omega]; rfl

/-- The bytes of a stored block, all there. -/
theorem storedBytes_ok : ∀ (data : List Byte) (s : State) (rest : List Byte), s.bp % 8 = 0 → s.zbuf.drop (s.bp / 8) = data ++ rest →
    storedBytes data.length s = .ok () { data.foldl (fun s b => emit b s) s with bp := s.bp + 8 * data.length } := by
  intro data
  induction data with
  | nil => intro s rest _ _; rfl
  | cons b data ih =>
    intro s rest hp h
    have hb : s.zbuf[s.bp / 8]? = some b := by
      have := congrArg (·[0]?) h; simpa using this
    have hd : s.zbuf.drop ((s.bp + 8) / 8) = data ++ rest := by
      rw [show (s.bp + 8) / 8 = s.bp / 8 + 1 by omega, ← List.drop_drop, h]; rfl
    rw [List.length_cons, storedBytes, getbits_ok (fieldAt_byte hp hb), bind_ok]
    rw [ih (emit (BitVec.ofNat 8 b.toNat) { s with bp := s.bp + 8 }) rest (by show (s.bp + 8) % 8 = 0; omega) hd]
    rw [emits_eq, emits_eq]
    simp only [emit, adlerUpdate, BitVec.ofNat_toNat, BitVec.setWidth_eq, List.foldl_cons, List.append_assoc, List.singleton_append]
    congr 2; omega

/-- One byte of Adler-32, as numbers (R213). -/
theorem adlerByte_toNat (a b : Half) (x : Byte) : (adlerByte a b x).1.toNat = (a.toNat + x.toNat) % 65521 ∧ (adlerByte a b x).2.toNat = (b.toNat + (adlerByte a b x).1.toNat) % 65521 := by
  simp only [adlerByte, adlerMod, BitVec.toNat_ofNat]; omega

/-- A run of code lengths that stays within the counts. -/
theorem appendLengths_ok {r : Nat} {v : CodeLen} {s : State} (h : s.clSeq.length + r ≤ s.hlit + s.hdist) : appendLengths r v s = .ok () { s with clSeq := s.clSeq ++ List.replicate r v } := by
  rw [appendLengths, require_pos h]; rfl

/-- A run of code lengths past the counts. -/
theorem appendLengths_raise {r : Nat} {v : CodeLen} {s : State} (h : s.hlit + s.hdist < s.clSeq.length + r) : appendLengths r v s = .raise .invalidCompressedData s := by
  rw [appendLengths, require_neg (by omega)]; rfl

/-- The byte-serial copy: what it appends repeats the output at the distance. -/
theorem copyBytes_ok (dist : Nat) (h1 : 1 ≤ dist) : ∀ (n : Nat) (s : State), dist ≤ s.obuf.length → ∃ new : List Byte, 
    copyBytes dist n s = .ok () (new.foldl (fun s b => emit b s) s) ∧ new.length = n ∧ ∀ k, k < n → (s.obuf ++ new)[s.obuf.length + k]? = (s.obuf ++ new)[s.obuf.length + k - dist]? := by
  intro n
  induction n with
  | zero => intro s h; exact ⟨[], rfl, rfl, fun k hk => absurd hk (by omega)⟩
  | succ n ih =>
    intro s h
    have hl : s.obuf.length - dist < s.obuf.length := by omega
    obtain ⟨new, hc, hn, hk⟩ := ih (emit s.obuf[s.obuf.length - dist] s) (by show _ ≤ (s.obuf ++ [_]).length; simp; omega)
    refine ⟨s.obuf[s.obuf.length - dist] :: new, ?_, by simp [hn], fun k hk' => ?_⟩
    · rw [copyBytes, readByte_lt hl, bind_ok, hc]; rfl
    · change ∀ k, k < n → ((s.obuf ++ [s.obuf[s.obuf.length - dist]]) ++ new)[(s.obuf ++ [s.obuf[s.obuf.length - dist]]).length + k]? = ((s.obuf ++ [s.obuf[s.obuf.length - dist]]) ++ new)[(s.obuf ++ [s.obuf[s.obuf.length - dist]]).length + k - dist]? at hk
      simp only [List.append_assoc, List.singleton_append, List.length_append, List.length_singleton] at hk
      cases k with
      | zero =>
        rw [List.getElem?_append_right (by omega), List.getElem?_append_left (by omega)]
        simp
      | succ k => have := hk k (by omega); rwa [show s.obuf.length + 1 + k = s.obuf.length + (k + 1) by omega] at this

end Sys2Proof.Laws
end

