-- ==== Sys2Proof/Laws/PerInstr.lean ====
section
/-! SUPPORT. Laws of the instructions as syntax, one lemma per constructor. -/

namespace Sys2Proof.Laws

/-- How many bits the selecting value of a format has (30_encoding.md R101 to R121). -/
def formatBits : Format → Nat
  | .sig => 64
  | .chunk => 32
  | .zhdr => 16
  | .ztrl => 32
  | .bhdr => 3
  | .llsym => 9
  | .dsym => 5
  | .clsym => 5
  | .row => 8
  | .ilace _ => 8
  | .depthCtype => 16
  | .cmd => 0
  | .prim => 0

/-- The selecting value the encoder gives an instruction fits the selecting field of its format. -/
def EncodingFits.Statement (i : Instr) : Prop := ∀ f v, encode i = some (f, v) → v < 2 ^ formatBits f

/-- An instruction without an encoding. -/
theorem EncodingFits.of_none {i : Instr} (h : encode i = none) : EncodingFits.Statement i := by
  intro f v e; rw [h] at e; cases e

/-- An instruction whose encoding is known. -/
theorem EncodingFits.of_some {i : Instr} {f : Format} {v : Nat} (h : encode i = some (f, v)) (hv : v < 2 ^ formatBits f) :
    EncodingFits.Statement i := by
  intro f' v' e; rw [h] at e; cases e; exact hv

theorem EncodingFits.sig : EncodingFits.Statement .sig := of_some rfl (by decide)
theorem EncodingFits.ihdr : EncodingFits.Statement .ihdr := of_some rfl (by decide)
theorem EncodingFits.plte : EncodingFits.Statement .plte := of_some rfl (by decide)
theorem EncodingFits.trns : EncodingFits.Statement .trns := of_some rfl (by decide)
theorem EncodingFits.idat : EncodingFits.Statement .idat := of_some rfl (by decide)
theorem EncodingFits.iend : EncodingFits.Statement .iend := of_some rfl (by decide)
theorem EncodingFits.anc (x0 : Word) : EncodingFits.Statement (.anc x0) := of_some rfl (x0.isLt)
theorem EncodingFits.crit (x0 : Word) : EncodingFits.Statement (.crit x0) := of_some rfl (x0.isLt)
theorem EncodingFits.zhdr : EncodingFits.Statement .zhdr := of_some rfl (by decide)
theorem EncodingFits.ztrl : EncodingFits.Statement .ztrl := of_some rfl (by decide)
theorem EncodingFits.blkStored (x0 : Bool) : EncodingFits.Statement (.blkStored x0) := of_some rfl (by cases x0 <;> decide)
theorem EncodingFits.blkFixed (x0 : Bool) : EncodingFits.Statement (.blkFixed x0) := of_some rfl (by cases x0 <;> decide)
theorem EncodingFits.blkDyn (x0 : Bool) : EncodingFits.Statement (.blkDyn x0) := of_some rfl (by cases x0 <;> decide)
theorem EncodingFits.blkRsvd (x0 : Bool) : EncodingFits.Statement (.blkRsvd x0) := of_some rfl (by cases x0 <;> decide)
theorem EncodingFits.lit (x0 : Byte) : EncodingFits.Statement (.lit x0) := of_some rfl (Nat.lt_trans x0.isLt (by decide))
theorem EncodingFits.eob : EncodingFits.Statement .eob := of_some rfl (by decide)
theorem EncodingFits.len257 : EncodingFits.Statement .len257 := of_some rfl (by decide)
theorem EncodingFits.len258 : EncodingFits.Statement .len258 := of_some rfl (by decide)
theorem EncodingFits.len259 : EncodingFits.Statement .len259 := of_some rfl (by decide)
theorem EncodingFits.len260 : EncodingFits.Statement .len260 := of_some rfl (by decide)
theorem EncodingFits.len261 : EncodingFits.Statement .len261 := of_some rfl (by decide)
theorem EncodingFits.len262 : EncodingFits.Statement .len262 := of_some rfl (by decide)
theorem EncodingFits.len263 : EncodingFits.Statement .len263 := of_some rfl (by decide)
theorem EncodingFits.len264 : EncodingFits.Statement .len264 := of_some rfl (by decide)
theorem EncodingFits.len265 : EncodingFits.Statement .len265 := of_some rfl (by decide)
theorem EncodingFits.len266 : EncodingFits.Statement .len266 := of_some rfl (by decide)
theorem EncodingFits.len267 : EncodingFits.Statement .len267 := of_some rfl (by decide)
theorem EncodingFits.len268 : EncodingFits.Statement .len268 := of_some rfl (by decide)
theorem EncodingFits.len269 : EncodingFits.Statement .len269 := of_some rfl (by decide)
theorem EncodingFits.len270 : EncodingFits.Statement .len270 := of_some rfl (by decide)
theorem EncodingFits.len271 : EncodingFits.Statement .len271 := of_some rfl (by decide)
theorem EncodingFits.len272 : EncodingFits.Statement .len272 := of_some rfl (by decide)
theorem EncodingFits.len273 : EncodingFits.Statement .len273 := of_some rfl (by decide)
theorem EncodingFits.len274 : EncodingFits.Statement .len274 := of_some rfl (by decide)
theorem EncodingFits.len275 : EncodingFits.Statement .len275 := of_some rfl (by decide)
theorem EncodingFits.len276 : EncodingFits.Statement .len276 := of_some rfl (by decide)
theorem EncodingFits.len277 : EncodingFits.Statement .len277 := of_some rfl (by decide)
theorem EncodingFits.len278 : EncodingFits.Statement .len278 := of_some rfl (by decide)
theorem EncodingFits.len279 : EncodingFits.Statement .len279 := of_some rfl (by decide)
theorem EncodingFits.len280 : EncodingFits.Statement .len280 := of_some rfl (by decide)
theorem EncodingFits.len281 : EncodingFits.Statement .len281 := of_some rfl (by decide)
theorem EncodingFits.len282 : EncodingFits.Statement .len282 := of_some rfl (by decide)
theorem EncodingFits.len283 : EncodingFits.Statement .len283 := of_some rfl (by decide)
theorem EncodingFits.len284 : EncodingFits.Statement .len284 := of_some rfl (by decide)
theorem EncodingFits.len285 : EncodingFits.Statement .len285 := of_some rfl (by decide)
theorem EncodingFits.ll286 : EncodingFits.Statement .ll286 := of_some rfl (by decide)
theorem EncodingFits.ll287 : EncodingFits.Statement .ll287 := of_some rfl (by decide)
theorem EncodingFits.dist0 : EncodingFits.Statement .dist0 := of_some rfl (by decide)
theorem EncodingFits.dist1 : EncodingFits.Statement .dist1 := of_some rfl (by decide)
theorem EncodingFits.dist2 : EncodingFits.Statement .dist2 := of_some rfl (by decide)
theorem EncodingFits.dist3 : EncodingFits.Statement .dist3 := of_some rfl (by decide)
theorem EncodingFits.dist4 : EncodingFits.Statement .dist4 := of_some rfl (by decide)
theorem EncodingFits.dist5 : EncodingFits.Statement .dist5 := of_some rfl (by decide)
theorem EncodingFits.dist6 : EncodingFits.Statement .dist6 := of_some rfl (by decide)
theorem EncodingFits.dist7 : EncodingFits.Statement .dist7 := of_some rfl (by decide)
theorem EncodingFits.dist8 : EncodingFits.Statement .dist8 := of_some rfl (by decide)
theorem EncodingFits.dist9 : EncodingFits.Statement .dist9 := of_some rfl (by decide)
theorem EncodingFits.dist10 : EncodingFits.Statement .dist10 := of_some rfl (by decide)
theorem EncodingFits.dist11 : EncodingFits.Statement .dist11 := of_some rfl (by decide)
theorem EncodingFits.dist12 : EncodingFits.Statement .dist12 := of_some rfl (by decide)
theorem EncodingFits.dist13 : EncodingFits.Statement .dist13 := of_some rfl (by decide)
theorem EncodingFits.dist14 : EncodingFits.Statement .dist14 := of_some rfl (by decide)
theorem EncodingFits.dist15 : EncodingFits.Statement .dist15 := of_some rfl (by decide)
theorem EncodingFits.dist16 : EncodingFits.Statement .dist16 := of_some rfl (by decide)
theorem EncodingFits.dist17 : EncodingFits.Statement .dist17 := of_some rfl (by decide)
theorem EncodingFits.dist18 : EncodingFits.Statement .dist18 := of_some rfl (by decide)
theorem EncodingFits.dist19 : EncodingFits.Statement .dist19 := of_some rfl (by decide)
theorem EncodingFits.dist20 : EncodingFits.Statement .dist20 := of_some rfl (by decide)
theorem EncodingFits.dist21 : EncodingFits.Statement .dist21 := of_some rfl (by decide)
theorem EncodingFits.dist22 : EncodingFits.Statement .dist22 := of_some rfl (by decide)
theorem EncodingFits.dist23 : EncodingFits.Statement .dist23 := of_some rfl (by decide)
theorem EncodingFits.dist24 : EncodingFits.Statement .dist24 := of_some rfl (by decide)
theorem EncodingFits.dist25 : EncodingFits.Statement .dist25 := of_some rfl (by decide)
theorem EncodingFits.dist26 : EncodingFits.Statement .dist26 := of_some rfl (by decide)
theorem EncodingFits.dist27 : EncodingFits.Statement .dist27 := of_some rfl (by decide)
theorem EncodingFits.dist28 : EncodingFits.Statement .dist28 := of_some rfl (by decide)
theorem EncodingFits.dist29 : EncodingFits.Statement .dist29 := of_some rfl (by decide)
theorem EncodingFits.dist30 : EncodingFits.Statement .dist30 := of_some rfl (by decide)
theorem EncodingFits.dist31 : EncodingFits.Statement .dist31 := of_some rfl (by decide)
theorem EncodingFits.clLen (x0 : CodeLen) : EncodingFits.Statement (.clLen x0) := of_some rfl (Nat.lt_trans x0.isLt (by decide))
theorem EncodingFits.clRep : EncodingFits.Statement .clRep := of_some rfl (by decide)
theorem EncodingFits.clZ3 : EncodingFits.Statement .clZ3 := of_some rfl (by decide)
theorem EncodingFits.clZ11 : EncodingFits.Statement .clZ11 := of_some rfl (by decide)
theorem EncodingFits.filtNone : EncodingFits.Statement .filtNone := of_some rfl (by decide)
theorem EncodingFits.filtSub : EncodingFits.Statement .filtSub := of_some rfl (by decide)
theorem EncodingFits.filtUp : EncodingFits.Statement .filtUp := of_some rfl (by decide)
theorem EncodingFits.filtAvg : EncodingFits.Statement .filtAvg := of_some rfl (by decide)
theorem EncodingFits.filtPaeth : EncodingFits.Statement .filtPaeth := of_some rfl (by decide)
theorem EncodingFits.filtRsvd (x0 : Byte) : EncodingFits.Statement (.filtRsvd x0) := of_some rfl (x0.isLt)
theorem EncodingFits.ilaceNone : EncodingFits.Statement .ilaceNone := of_some rfl (by decide)
theorem EncodingFits.pass1 : EncodingFits.Statement .pass1 := of_some rfl (by decide)
theorem EncodingFits.pass2 : EncodingFits.Statement .pass2 := of_some rfl (by decide)
theorem EncodingFits.pass3 : EncodingFits.Statement .pass3 := of_some rfl (by decide)
theorem EncodingFits.pass4 : EncodingFits.Statement .pass4 := of_some rfl (by decide)
theorem EncodingFits.pass5 : EncodingFits.Statement .pass5 := of_some rfl (by decide)
theorem EncodingFits.pass6 : EncodingFits.Statement .pass6 := of_some rfl (by decide)
theorem EncodingFits.pass7 : EncodingFits.Statement .pass7 := of_some rfl (by decide)
theorem EncodingFits.cvtG1 : EncodingFits.Statement .cvtG1 := of_some rfl (by decide)
theorem EncodingFits.cvtG2 : EncodingFits.Statement .cvtG2 := of_some rfl (by decide)
theorem EncodingFits.cvtG4 : EncodingFits.Statement .cvtG4 := of_some rfl (by decide)
theorem EncodingFits.cvtG8 : EncodingFits.Statement .cvtG8 := of_some rfl (by decide)
theorem EncodingFits.cvtG16 : EncodingFits.Statement .cvtG16 := of_some rfl (by decide)
theorem EncodingFits.cvtRgb8 : EncodingFits.Statement .cvtRgb8 := of_some rfl (by decide)
theorem EncodingFits.cvtRgb16 : EncodingFits.Statement .cvtRgb16 := of_some rfl (by decide)
theorem EncodingFits.cvtP1 : EncodingFits.Statement .cvtP1 := of_some rfl (by decide)
theorem EncodingFits.cvtP2 : EncodingFits.Statement .cvtP2 := of_some rfl (by decide)
theorem EncodingFits.cvtP4 : EncodingFits.Statement .cvtP4 := of_some rfl (by decide)
theorem EncodingFits.cvtP8 : EncodingFits.Statement .cvtP8 := of_some rfl (by decide)
theorem EncodingFits.cvtGa8 : EncodingFits.Statement .cvtGa8 := of_some rfl (by decide)
theorem EncodingFits.cvtGa16 : EncodingFits.Statement .cvtGa16 := of_some rfl (by decide)
theorem EncodingFits.cvtRgba8 : EncodingFits.Statement .cvtRgba8 := of_some rfl (by decide)
theorem EncodingFits.cvtRgba16 : EncodingFits.Statement .cvtRgba16 := of_some rfl (by decide)
theorem EncodingFits.decode (x0 : List Byte) (x1 : Nat) (x2 : Bool) : EncodingFits.Statement (.decode x0 x1 x2) := of_none rfl
theorem EncodingFits.readExact (x0 : Nat) : EncodingFits.Statement (.readExact x0) := of_none rfl
theorem EncodingFits.readU8 : EncodingFits.Statement .readU8 := of_none rfl
theorem EncodingFits.readU32BE : EncodingFits.Statement .readU32BE := of_none rfl
theorem EncodingFits.atEnd : EncodingFits.Statement .atEnd := of_none rfl
theorem EncodingFits.getbit : EncodingFits.Statement .getbit := of_none rfl
theorem EncodingFits.getbits (x0 : Nat) : EncodingFits.Statement (.getbits x0) := of_none rfl
theorem EncodingFits.alignByte : EncodingFits.Statement .alignByte := of_none rfl
theorem EncodingFits.crcInit : EncodingFits.Statement .crcInit := of_none rfl
theorem EncodingFits.crcUpdate (x0 : Byte) : EncodingFits.Statement (.crcUpdate x0) := of_none rfl
theorem EncodingFits.crcCheck (x0 : Word) : EncodingFits.Statement (.crcCheck x0) := of_none rfl
theorem EncodingFits.adlerInit : EncodingFits.Statement .adlerInit := of_none rfl
theorem EncodingFits.adlerUpdate (x0 : Byte) : EncodingFits.Statement (.adlerUpdate x0) := of_none rfl
theorem EncodingFits.emit (x0 : Byte) : EncodingFits.Statement (.emit x0) := of_none rfl
theorem EncodingFits.buildCode (x0 : List CodeLen) : EncodingFits.Statement (.buildCode x0) := of_none rfl
theorem EncodingFits.checkCode (x0 : List CodeLen) (x1 : CodeKind) : EncodingFits.Statement (.checkCode x0 x1) := of_none rfl
theorem EncodingFits.decodeSym (x0 : List CodeLen) : EncodingFits.Statement (.decodeSym x0) := of_none rfl

end Sys2Proof.Laws
end

