-- ==== Sys2Proof/Laws/Rows.lean ====
section
/-! SUPPORT. Reconstruction of a row (46_scanline.md R296, R306), and the pixel write (47_pixel_convert.md R340), once. -/

namespace Sys2Proof.Laws

open Sys2Proof.Machine Sys2Proof.Safety

/-- Every byte of the reconstructed row is the filter of its raw byte, of the bytes before it and of the row above. -/
theorem unfilter_spec (f : Byte → Byte → Byte → Byte → Byte) (bpp : Nat) (hb : 1 ≤ bpp) (prev : List Byte) : ∀ (rest done : List Byte),
    (unfilter f bpp prev done rest).length = done.length + rest.length ∧
    (∀ k, k < done.length → (unfilter f bpp prev done rest).getD k 0 = done.getD k 0) ∧
    ∀ k, done.length ≤ k → k < done.length + rest.length → (unfilter f bpp prev done rest).getD k 0 =
      f (rest.getD (k - done.length) 0) (leftByte bpp k (unfilter f bpp prev done rest)) (prev.getD k 0) (leftByte bpp k prev) := by
  intro rest
  induction rest with
  | nil => intro done; exact ⟨rfl, fun _ _ => rfl, fun k h1 h2 => absurd h2 (by simp; omega)⟩
  | cons x rest ih =>
    intro done
    rw [unfilter]
    obtain ⟨v, hv⟩ : ∃ v, v = f x (leftByte bpp done.length done) (prev.getD done.length 0) (leftByte bpp done.length prev) := ⟨_, rfl⟩
    rw [← hv]
    obtain ⟨h1, h2, h3⟩ := ih (done ++ [v])
    generalize unfilter f bpp prev (done ++ [v]) rest = R at *
    simp only [List.length_append, List.length_cons, List.length_nil, Nat.zero_add] at *
    refine ⟨by omega, fun k hk => ?_, fun k hk hk' => ?_⟩
    · rw [h2 k (by omega), List.getD_append _ _ _ _ hk]
    · by_cases he : k = done.length
      · subst he
        rw [h2 _ (by omega), List.getD_append_right _ _ _ _ (by omega)]
        simp only [Nat.sub_self, List.getD_cons_zero]
        rw [hv]
        congr 1
        unfold leftByte
        split
        · rw [h2 _ (by omega), List.getD_append _ _ _ _ (by omega)]
        · rfl
      · rw [h3 k (by omega) (by omega)]
        congr 1
        rw [show k - done.length = (k - (done.length + 1)) + 1 by omega, List.getD_cons_succ]

/-- The byte `bpp` places back, as a number. -/
theorem leftByte_toNat (bpp k : Nat) (row : List Byte) : (leftByte bpp k row).toNat = if bpp ≤ k then rowByte row (k - bpp) else 0 := by
  unfold leftByte rowByte; split <;> rfl

/-- The row of a filter element, with its bytes present. -/
theorem filterRow_ok {ft : Byte} {f} {s : State} {bits : Nat} (hb : bitspp s = some bits) 
    (h1 : s.rpos + rowbytesOf bits s.passW.toNat ≤ s.obuf.length) (h2 : s.prev.length = rowbytesOf bits s.passW.toNat) :
    filterRow ft f s = .ok () { s with ft := ft, rpos := s.rpos + rowbytesOf bits s.passW.toNat, currow := unfilter f (bppOf bits) s.prev [] ((s.obuf.drop s.rpos).take (rowbytesOf bits s.passW.toNat)), col := 0, rstage := .pixel } := by
  rw [filterRow, withBitspp, hb]
  dsimp only
  rw [rawRow]
  dsimp only
  rw [if_pos ⟨h1, by omega⟩]
  rfl

/-- One bit of a row. -/
theorem rowBit_eq (row : List Byte) (o : Nat) : rowBit row o = (rowByte row (o / 8) >>> (7 - o % 8)) % 2 := by
  rw [rowBit, rowByte, BitVec.getLsbD, Nat.testBit_eq_decide_div_mod_eq, Nat.shiftRight_eq_div_pow]
  generalize (row.getD (o / 8) 0).toNat / 2 ^ (7 - o % 8) = q
  rcases Nat.mod_two_eq_zero_or_one q with h | h <;> simp [h]

/-- A field of a row that lies in one byte. -/
theorem bitsFrom_byte (row : List Byte) (o : Nat) : ∀ k, o % 8 + k ≤ 8 → bitsFrom row o k = (rowByte row (o / 8) >>> (8 - k - o % 8)) % 2 ^ k := by
  intro k
  induction k with
  | zero => intro _; simp [bitsFrom, Nat.mod_one]
  | succ k ih =>
    intro h
    rw [bitsFrom, ih (by omega), rowBit_eq, show (o + k) / 8 = o / 8 by omega, show 7 - (o + k) % 8 = 8 - (k + 1) - o % 8 by omega]
    rw [show 8 - k - o % 8 = (8 - (k + 1) - o % 8) + 1 by omega, Nat.shiftRight_add]
    generalize rowByte row (o / 8) >>> (8 - (k + 1) - o % 8) = v
    rw [Nat.shiftRight_one, Nat.pow_succ, Nat.mul_comm (2^k) 2, Nat.mod_mul]; omega

/-- A field of a row in two parts. -/
theorem bitsFrom_add (row : List Byte) (o k : Nat) : ∀ m, bitsFrom row o (k + m) = bitsFrom row o k * 2 ^ m + bitsFrom row (o + k) m := by
  intro m
  induction m with
  | zero => simp [bitsFrom]
  | succ m ih => rw [← Nat.add_assoc, bitsFrom, ih, bitsFrom, Nat.pow_succ, Nat.add_assoc o k m]; ring

/-- A byte of a row. -/
theorem rowByte_lt (row : List Byte) (i : Nat) : rowByte row i < 2 ^ 8 := (row.getD i 0).isLt

/-- A field of `k` bits is below `2 ^ k`. -/
theorem bitsFrom_lt (row : List Byte) (o : Nat) : ∀ k, bitsFrom row o k < 2 ^ k := by
  intro k
  induction k with
  | zero => simp [bitsFrom]
  | succ k ih => rw [bitsFrom, Nat.pow_succ]; have : rowBit row (o + k) ≤ 1 := by unfold rowBit; cases ((row.getD ((o+k)/8) 0).getLsbD (7 - (o+k)%8)) <;> simp
                 omega

/-- The pixel write puts four bytes at the pixel, and no other byte changes. -/
theorem writePixel_spec {s : State} {p : Rgba} (h1 : pixelAddress s + 4 ≤ s.frame.size) (h2 : s.frame.wf = true) :
    ∃ t, writePixel p s = .ok () t ∧ PixelWritten s t p.r.toNat p.g.toNat p.b.toNat p.a.toNat := by
  refine ⟨_, by rw [writePixel, if_pos h1], rfl, by simp, ?_, ?_, ?_, ?_, fun a ha => ?_⟩
  · exact congrArg (Option.map _) (read_writes_same (k := 0) h2 (by exact h1) (by simp))
  · exact congrArg (Option.map _) (read_writes_same (k := 1) h2 (by exact h1) (by simp))
  · exact congrArg (Option.map _) (read_writes_same (k := 2) h2 (by exact h1) (by simp))
  · exact congrArg (Option.map _) (read_writes_same (k := 3) h2 (by exact h1) (by simp))
  · exact read_writes_other h2 (by exact h1) ha

end Sys2Proof.Laws
end

