-- ==== Sys2Proof/Tests/Slice0.lean ====
section
/-! SUPPORT. The author's own tests. Expected values are the spec's: the encodings of 30_encoding.md and the vectors of
95_test_vectors.md, which each test names. The second half holds, for every statement with hypotheses, a concrete state and
operands that meet them. -/

namespace Sys2Proof.Tests

set_option Elab.async false

open Sys2Proof.Machine Sys2Proof.Safety Sys2Proof.Laws

/-! ### Helpers -/

/-- A field of the state after an element. -/
def after {α : Type} (o : Result) (f : State → α) : Option α :=
  match o with
  | .next t => some (f t)
  | .fault _ => none
  | .refused _ => none

/-- The kind raised by an element. -/
def raised (o : Result) : Option FaultKind := (after o fun t => t.faultKind).join

/-- A state with an input, in phase CONTAINER. -/
def atInput (bytes : List Byte) : State := { State.reset with phase := .container, pstate := .readingChunks, input := bytes }

/-- A state with a chunk record read. -/
def atChunk (ctype : Byte) (pay : List Byte) : State :=
  { State.reset with
    phase := .container, pstate := .readingChunks, ihCtype := ctype, ckLen := BitVec.ofNat 32 pay.length, ckPay := pay }

/-- A state with compressed data, in phase INFLATE. -/
def atBits (istage : InflateStage) (bytes : List Byte) : State :=
  { State.reset with phase := .inflate, istage := istage, zbuf := bytes }

/-- A state at a row of an 8-bit grayscale image of width `w`. -/
def atRow (w : Word) (prev raw : List Byte) : State :=
  { State.reset with
    phase := .recon, rstage := .row, ihWidth := w, ihHeight := 1, ihDepth := 8, passW := w, passH := 1, prev := prev, obuf := raw }

/-- A state at the first pixel of a one-pixel image whose row is given. -/
def atPixel (depth ctype : Byte) (row : List Byte) : State :=
  { State.reset with
    phase := .recon, rstage := .pixel, ihWidth := 1, ihHeight := 1, ihDepth := depth, ihCtype := ctype, passW := 1, passH := 1,
    currow := row, frame := Memory.alloc 4 }

/-- The four bytes of the first pixel. -/
def firstPixel (t : State) : List (Option Byte) := (List.range 4).map t.frame.read

/-! ### Ill-formed instructions are refused by the check -/

theorem test_wf_anc_critical_type : (Instr.anc 0x41424344).wf = false := by decide
theorem test_wf_anc_known_type : (Instr.anc 0x74524E53).wf = false := by decide
theorem test_wf_crit_ancillary_type : (Instr.crit 0x74455874).wf = false := by decide
theorem test_wf_crit_known_type : (Instr.crit 0x49444154).wf = false := by decide
theorem test_wf_filter_not_reserved : (Instr.filtRsvd 4).wf = false := by decide
theorem test_wf_no_pixels : (Instr.decode [] 0 true).wf = false := by decide
theorem test_wf_too_many_pixels : (Instr.decode [] (2 ^ 30) true).wf = false := by decide
theorem test_wf_seventeen_bits : (Instr.getbits 17).wf = false := by decide
theorem test_wf_long_vector : (Instr.buildCode (List.replicate 289 0)).wf = false := by decide +kernel
theorem test_wf_long_distance_vector : (Instr.checkCode (List.replicate 33 0) .d).wf = false := by decide
theorem test_wf_long_code_length_vector : (Instr.checkCode (List.replicate 20 0) .cl).wf = false := by decide
theorem test_wf_long_symbol_vector : (Instr.decodeSym (List.replicate 289 0)).wf = false := by decide +kernel
theorem test_wf_well_formed : (Instr.anc 0x74455874).wf = true ∧ (Instr.crit 0x41424344).wf = true ∧
    (Instr.filtRsvd 5).wf = true ∧ (Instr.decode [] (2 ^ 30 - 1) true).wf = true ∧ (Instr.getbits 16).wf = true := by decide

/-! ### Words written out from the encodings of 30_encoding.md select the elements they stand for -/

/-- What a list of words selects in a format. -/
def selects (f : Format) (rows : List (Nat × Instr)) : Bool := rows.all fun r => decide ((decode f r.1).toOption = some r.2)

/-- R101, R103, R104: signature and chunk types, the type written byte by byte in ASCII. -/
theorem test_decode_container : selects .sig [(0x89504E470D0A1A0A, .sig)] = true ∧
    selects .chunk [(0x49484452, .ihdr), (0x504C5445, .plte), (0x74524E53, .trns), (0x49444154, .idat), (0x49454E44, .iend),
      (0x74455874, .anc 0x74455874), (0x20000000, .anc 0x20000000), (0x49444174, .crit 0x49444174), (0, .crit 0)] = true := by
  decide

/-- R108, R109, R110: zlib header and trailer; `v[0]` is BFINAL, `v[2:1]` BTYPE. -/
theorem test_decode_blocks : selects .zhdr [(0x7801, .zhdr)] = true ∧ selects .ztrl [(0x00620062, .ztrl)] = true ∧
    selects .bhdr [(0b000, .blkStored false), (0b001, .blkStored true), (0b010, .blkFixed false), (0b011, .blkFixed true),
      (0b100, .blkDyn false), (0b101, .blkDyn true), (0b110, .blkRsvd false), (0b111, .blkRsvd true)] = true := by
  decide

/-- R114: literals, end of block, the first length symbols. -/
theorem test_decode_literals : selects .llsym [(0b000000000, .lit 0), (0b011111111, .lit 255), (0b100000000, .eob),
    (0b100000001, .len257), (0b100000010, .len258), (0b100000011, .len259), (0b100000100, .len260), (0b100000101, .len261),
    (0b100000110, .len262), (0b100000111, .len263), (0b100001000, .len264), (0b100001001, .len265),
    (0b100001010, .len266), (0b100001011, .len267), (0b100001100, .len268)] = true := by decide

/-- R114: the other length symbols and the two reserved ones. -/
theorem test_decode_lengths : selects .llsym [(269, .len269), (270, .len270), (271, .len271), (272, .len272), (273, .len273),
    (274, .len274), (275, .len275), (276, .len276), (277, .len277), (278, .len278), (279, .len279), (280, .len280),
    (281, .len281), (282, .len282), (283, .len283), (284, .len284), (285, .len285), (286, .ll286), (287, .ll287)] = true := by
  decide

/-- R115: the distance symbols. -/
theorem test_decode_distances : selects .dsym [(0b00000, .dist0), (0b00001, .dist1), (0b00010, .dist2), (0b00011, .dist3),
    (0b00100, .dist4), (0b00101, .dist5), (0b00110, .dist6), (0b00111, .dist7), (0b01000, .dist8), (0b01001, .dist9),
    (0b01010, .dist10), (0b01011, .dist11), (0b01100, .dist12), (0b01101, .dist13), (0b01110, .dist14), (0b01111, .dist15)]
      = true ∧
    selects .dsym [(16, .dist16), (17, .dist17), (18, .dist18), (19, .dist19), (20, .dist20), (21, .dist21), (22, .dist22),
    (23, .dist23), (24, .dist24), (25, .dist25), (26, .dist26), (27, .dist27), (28, .dist28), (29, .dist29), (30, .dist30),
    (31, .dist31)] = true := by decide

/-- R116: the code-length symbols. -/
theorem test_decode_code_lengths : selects .clsym [(0, .clLen 0), (15, .clLen 15), (16, .clRep), (17, .clZ3), (18, .clZ11)] = true := by
  decide

/-- R119, R121: filter types and passes. -/
theorem test_decode_rows : selects .row [(0, .filtNone), (1, .filtSub), (2, .filtUp), (3, .filtAvg), (4, .filtPaeth),
    (5, .filtRsvd 5), (255, .filtRsvd 255)] = true ∧ selects (.ilace 0) [(0, .ilaceNone)] = true ∧
    selects (.ilace 1) [(1, .pass1)] = true ∧ selects (.ilace 2) [(1, .pass2)] = true ∧ selects (.ilace 3) [(1, .pass3)] = true ∧
    selects (.ilace 4) [(1, .pass4)] = true ∧ selects (.ilace 5) [(1, .pass5)] = true ∧ selects (.ilace 6) [(1, .pass6)] = true ∧
    selects (.ilace 7) [(1, .pass7)] = true := by decide

/-- R107: the fifteen pairs, depth in the high byte, colour type in the low byte. -/
theorem test_decode_pixels : selects .depthCtype [(0x0100, .cvtG1), (0x0200, .cvtG2), (0x0400, .cvtG4), (0x0800, .cvtG8),
    (0x1000, .cvtG16), (0x0802, .cvtRgb8), (0x1002, .cvtRgb16), (0x0103, .cvtP1), (0x0203, .cvtP2), (0x0403, .cvtP4),
    (0x0803, .cvtP8), (0x0804, .cvtGa8), (0x1004, .cvtGa16), (0x0806, .cvtRgba8), (0x1006, .cvtRgba16)] = true := by decide

/-- Reserved selecting values are no element (R107, R113, R115, R116). -/
theorem test_decode_rejects : (decode .depthCtype 0x0300).toOption = none ∧ (decode .depthCtype 0x1003).toOption = none ∧
    (decode .llsym 288).toOption = none ∧ (decode .dsym 32).toOption = none ∧ (decode .clsym 19).toOption = none ∧
    (decode (.ilace 0) 2).toOption = none ∧ (decode .chunk (2 ^ 32)).toOption = none := by decide

/-- R117: the code word `11000110` is symbol 286, `0000000` is 256, `110010000` is 144. -/
theorem test_fixed_code_words : fixedLLWord 286 = [true, true, false, false, false, true, true, false] ∧
    fixedLLWord 256 = List.replicate 7 false ∧
    fixedLLWord 144 = [true, true, false, false, true, false, false, false, false] ∧
    fixedDistWord 30 = [true, true, true, true, false] := by decide

/-- The words of the opcode table resolve to elements (log entry 9). -/
theorem test_table_words : decodeTableWord 64 0x89504E470D0A1A0A = some .sig ∧ decodeTableWord 32 0x49484452 = some .ihdr ∧
    decodeTableWord 16 261 = some .len261 ∧ decodeTableWord 16 0x1006 = some .cvtRgba16 ∧
    decodeTableWord 8 29 = some .dist29 ∧ decodeTableWord 8 17 = some .clZ3 := by decide

/-- A placed word runs (log entry 9): the step runs the length symbol 265 and a distance symbol is next. -/
theorem test_placed_word : after (step (State.reset.withFetchWord 16 265)) (fun t => (t.mlen, t.istage)) = some (11, .distance) := by
  decide +kernel

/-! ### Readers and checksums (95_test_vectors.md sections 2.1, 2.3, 2.4) -/

theorem test_readExact : after (exec (.readExact 2) (atInput [1, 2, 3])) (fun t => (t.ret, t.cur)) = some (.bytes [1, 2], 2) := by decide
theorem test_readExact_short : raised (exec (.readExact 2) { atInput [1, 2, 3] with cur := 2 }) = some .truncatedInput := by decide
theorem test_readU8 : after (exec .readU8 (atInput [0x7F])) (fun t => t.ret) = some (.nat 127) := by decide
theorem test_readU32BE : after (exec .readU32BE (atInput [0, 0, 1, 0])) (fun t => (t.ret, t.cur)) = some (.nat 256, 4) := by
  decide +kernel
theorem test_atEnd : after (exec .atEnd { atInput [0x7F] with cur := 1 }) (fun t => t.ret) = some (.bool true) := by decide
theorem test_getbits : after (exec (.getbits 5) { atBits .block [0x4B] with bp := 3 }) (fun t => (t.ret, t.bp)) = some (.nat 9, 8) := by
  decide
theorem test_getbits_across : after (exec (.getbits 2) { atBits .block [0x80, 0x01] with bp := 7 }) (fun t => (t.ret, t.bp)) =
    some (.nat 3, 9) := by decide
theorem test_getbit_end : raised (exec .getbit { atBits .block [0x4B] with bp := 8 }) = some .truncatedCompressedData := by decide
theorem test_alignByte : after (exec .alignByte { State.reset with bp := 3 }) (fun t => t.bp) = some 8 ∧
    after (exec .alignByte { State.reset with bp := 16 }) (fun t => t.bp) = some 16 := by decide
theorem test_crcUpdate : after (exec (.crcUpdate 0x49) { State.reset with crcAcc := 0xFFFFFFFF }) (fun t => t.crcAcc) =
    some 0x22FDE946 := by decide
theorem test_crcCheck : after (exec (.crcCheck 0xAE426082) { State.reset with crcAcc := 0x51BD9F7D }) (fun t => t.faultKind) = some none ∧
    raised (exec (.crcCheck 0xAE426083) { State.reset with crcAcc := 0x51BD9F7D }) = some .chunkCorrupt := by decide
theorem test_adlerUpdate : after (exec (.adlerUpdate 0x61) State.reset) (fun t => (t.adlerA, t.adlerB)) = some (98, 98) := by decide

/-! ### Container (section 2.2) -/

theorem test_sig : after (exec .sig (atInput [0x89, 0x50, 0x4E, 0x47, 0x0D, 0x0A, 0x1A, 0x0A])) (fun t => (t.cur, t.pstate)) =
    some (8, .expectHeader) := by decide
theorem test_sig_seven_bytes : raised (exec .sig (atInput [0x89, 0x50, 0x4E, 0x47, 0x0D, 0x0A, 0x1A])) = some .truncatedInput := by decide
theorem test_ihdr : after (exec .ihdr { atChunk 0 [0, 0, 0, 2, 0, 0, 0, 2, 8, 2, 0, 0, 0] with pstate := .expectHeader, cfgMaxPixels := 4 })
    (fun t => (t.ihWidth, t.ihHeight, t.ihDepth, t.ihCtype, t.ihIlace, t.pstate)) = some (2, 2, 8, 2, false, .readingChunks) := by
  decide +kernel
theorem test_ihdr_pair_before_size : raised (exec .ihdr
    { atChunk 0 [0, 1, 0, 0, 0, 1, 0, 0, 3, 0, 0, 0, 0] with pstate := .expectHeader, cfgMaxPixels := 16777216 }) =
      some .unsupportedFormat := by decide +kernel
theorem test_plte : after (exec .plte (atChunk 3 [0xFF, 0, 0, 0, 0xFF, 0])) (fun t => (t.pltN, t.plt.take 3)) =
    some (2, [⟨255, 0, 0⟩, ⟨0, 255, 0⟩, ⟨0, 0, 0⟩]) := by decide +kernel
theorem test_plte_truecolour : raised (exec .plte (atChunk 2 [0xFF, 0, 0])) = some .invalidChunkOrder := by decide
theorem test_trns_gray : after (exec .trns (atChunk 0 [0x00, 0x7F])) (fun t => (t.trnsKey.k0, t.haveTrns)) = some (0x7F, true) := by decide
theorem test_trns_alpha_image : raised (exec .trns (atChunk 4 [0, 1])) = some .malformedChunk := by decide
theorem test_idat : after (exec .idat { atChunk 2 [0x78] with zbuf := [0x01] }) (fun t => (t.zbuf, t.seenIdat)) =
    some ([0x01, 0x78], true) := by decide
theorem test_idat_closed : raised (exec .idat { atChunk 2 [0x78] with seenIdat := true, idatClosed := true }) =
    some .invalidChunkOrder := by decide
theorem test_iend : after (exec .iend { atChunk 2 [] with seenIdat := true }) (fun t => (t.pstate, t.idatClosed)) = some (.done, true) := by
  decide
theorem test_anc_crit : after (exec (.anc 0x74455874) { atChunk 2 [] with seenIdat := true }) (fun t => t.idatClosed) = some true ∧
    raised (exec (.crit 0x41424344) (atChunk 2 [])) = some .unsupportedCriticalChunk := by decide

/-! ### zlib wrapper and blocks (sections 2.4, 2.5) -/

/-- The code-length code of the dynamic block in the tests below. -/
def dynamicCl : List CodeLen := [2, 2, 0, 0, 0, 0, 0, 0, 0, 0, 0, 0, 0, 0, 0, 0, 0, 0, 1]

theorem test_zhdr : after (exec .zhdr (atBits .zhdr [0x08, 0x1D])) (fun t => (t.bp, t.istage)) = some (16, .block) ∧
    raised (exec .zhdr (atBits .zhdr [0x78, 0x00])) = some .invalidCompressedData := by decide
theorem test_zhdr_dictionary : raised (exec .zhdr (atBits .zhdr [0x78, 0x20])) = some .invalidCompressedData := by decide
theorem test_ztrl : after (exec .ztrl { atBits .trailer [0xFC, 0, 0x62, 0, 0x62] with bp := 3, adlerA := 98, adlerB := 98 })
    (fun t => (t.bp, t.istage)) = some (40, .finished) := by decide +kernel
theorem test_ztrl_mismatch : raised (exec .ztrl { atBits .trailer [0, 0x62, 0, 0x63] with adlerA := 98, adlerB := 98 }) =
    some .decompressionChecksumError := by decide +kernel
theorem test_stored : after (exec (.blkStored true) { atBits .block [0x01, 0x02, 0x00, 0xFD, 0xFF, 0x61, 0x62] with bp := 3 })
    (fun t => (t.obuf, t.adlerA, t.istage)) = some ([0x61, 0x62], 196, .trailer) := by decide +kernel
theorem test_stored_complement : raised (exec (.blkStored true) { atBits .block [0x01, 0x02, 0x00, 0xFD, 0xFE, 0x61] with bp := 3 }) =
    some .invalidCompressedData := by decide +kernel
theorem test_fixed : after (exec (.blkFixed false) (atBits .block [])) (fun t => (t.llLen.drop 279, t.btype, t.bfinal)) =
    some ([7, 8, 8, 8, 8, 8, 8, 8, 8], 1, false) := by decide +kernel
/-- The code-length file is rewritten (R245): nothing of an earlier block's lengths is left, and 19 entries are there. -/
theorem test_fixed_clLen : exec (.blkFixed false) { atBits .block [] with clLen := dynamicCl } = exec (.blkFixed false) (atBits .block []) ∧
    after (exec (.blkFixed false) (atBits .block [])) (fun t => t.clLen.length) = some 19 := ⟨rfl, rfl⟩
theorem test_dynamic_hlit : raised (exec (.blkDyn true) { atBits .block [0xF5, 0, 0, 0, 0] with bp := 3 }) =
    some .invalidCompressedData := by decide +kernel
theorem test_dynamic : after (exec (.blkDyn true) { atBits .block [0x05, 0xC0, 0x81, 0x08, 0, 0, 0, 0, 0xA0] with bp := 3 })
    (fun t => (t.hlit, t.hdist, t.hclen, t.clLen)) =
      some (257, 1, 18, [2, 2, 0, 0, 0, 0, 0, 0, 0, 0, 0, 0, 0, 0, 0, 0, 0, 0, 1]) := by decide +kernel
/-- Hand calculation by R241: `count[2..4]` = 1, 5, 2; `next[2..4]` = 0, 2, 14. -/
theorem test_buildCode : after (exec (.buildCode [3, 3, 3, 3, 3, 2, 4, 4]) State.reset) (fun t => t.ret) =
    some (.codes [(3, 2), (3, 3), (3, 4), (3, 5), (3, 6), (2, 0), (4, 14), (4, 15)]) := by decide +kernel
theorem test_checkCode : raised (exec (.checkCode [1] .cl) State.reset) = some .invalidCompressedData ∧
    after (exec (.checkCode [1] .d) State.reset) (fun t => t.faultKind) = some none := by decide +kernel

/-! ### Symbols (section 2.6) -/

theorem test_lit : after (exec (.lit 0x61) State.reset) (fun t => (t.obuf, t.adlerA, t.adlerB)) = some ([0x61], 98, 98) := by decide
theorem test_eob : after (exec .eob { State.reset with bfinal := true }) (fun t => t.istage) = some .trailer := by decide
theorem test_len284 : after (exec .len284 (atBits .huffman [0x1F])) (fun t => (t.mlen, t.bp)) = some (258, 5) ∧
    after (exec .len285 (atBits .huffman [])) (fun t => (t.mlen, t.bp)) = some (258, 0) := by decide +kernel
theorem test_dist0_overlap : after (exec .dist0 { atBits .distance [] with obuf := [0x61], mlen := 4 }) (fun t => t.obuf) =
    some [0x61, 0x61, 0x61, 0x61, 0x61] := by decide +kernel
theorem test_dist2_overlap : after (exec .dist2 { atBits .distance [] with obuf := [0x61, 0x62, 0x63], mlen := 7 }) (fun t => t.obuf) =
    some [0x61, 0x62, 0x63, 0x61, 0x62, 0x63, 0x61, 0x62, 0x63, 0x61] := by decide +kernel
theorem test_dist1_too_far : raised (exec .dist1 { atBits .distance [] with obuf := [0x61], mlen := 3 }) = some .invalidBackReference := by
  decide +kernel
theorem test_dist30 : raised (exec .dist30 (atBits .distance [])) = some .invalidCompressedData := by decide
theorem test_clRep : after (exec .clRep { atBits .codeLengths [3] with clSeq := [8], hlit := 257, hdist := 1 }) (fun t => t.clSeq) =
    some [8, 8, 8, 8, 8, 8, 8] := by decide
theorem test_clZ3_overrun : raised (exec .clZ3 { atBits .codeLengths [0] with clSeq := List.replicate 256 0, hlit := 257, hdist := 1 }) =
    some .invalidCompressedData := by decide +kernel
theorem test_clZ11 : after (exec .clZ11 { atBits .codeLengths [0x7F] with clSeq := [5], hlit := 257, hdist := 1 })
    (fun t => t.clSeq.length) = some 139 := by decide +kernel

/-! ### Rows and passes (section 2.7) -/

theorem test_filtSub : after (exec .filtSub (atRow 4 [0, 0, 0, 0] [0x0A, 0x0A, 0x0A, 0xF0])) (fun t => t.currow) =
    some [0x0A, 0x14, 0x1E, 0x0E] := by decide +kernel
theorem test_filtUp : after (exec .filtUp (atRow 3 [0x0A, 0x14, 0x1E] [0x01, 0x01, 0xFF])) (fun t => t.currow) =
    some [0x0B, 0x15, 0x1D] := by decide +kernel
theorem test_filtAvg : after (exec .filtAvg (atRow 2 [0xFF, 0xFF] [0x01, 0x01])) (fun t => t.currow) = some [0x80, 0xC0] := by decide +kernel
theorem test_filtPaeth : after (exec .filtPaeth (atRow 3 [0x0A, 0x14, 0x32] [0x05, 0x05, 0x05])) (fun t => t.currow) =
    some [0x0F, 0x19, 0x37] := by decide +kernel
theorem test_paeth_ties : paeth 50 60 40 = 60 ∧ paeth 100 50 75 = 75 ∧ paeth 1 0 1 = 0 ∧ paeth 0 255 128 = 128 := by decide
theorem test_filtSub_three_bytes : after (exec .filtSub { atRow 2 [0, 0, 0, 0, 0, 0] [0x10, 0x20, 0x30, 1, 2, 3] with ihCtype := 2 })
    (fun t => t.currow) = some [0x10, 0x20, 0x30, 0x11, 0x22, 0x33] := by decide +kernel
theorem test_filtRsvd : raised (exec (.filtRsvd 0xFF) (atRow 2 [0, 0] [1, 2])) = some .invalidFilterType := by decide
theorem test_pass6_of_two : after (exec .pass6 { State.reset with ihWidth := 2, ihHeight := 2, ihDepth := 8, ihIlace := true })
    (fun t => (t.passW, t.passH, t.rstage)) = some (1, 1, .row) := by decide +kernel
theorem test_pass2_empty : after (exec .pass2 { State.reset with ihWidth := 2, ihHeight := 2, ihDepth := 8, ihIlace := true })
    (fun t => (t.passW, t.rstage)) = some (0, .pass 3) := by decide +kernel

/-! ### Pixels (sections 1 and 2.8) -/

theorem test_cvtG1 : after (exec .cvtG1 { atPixel 1 0 [0xB2] with col := 0 }) firstPixel =
    some [some 255, some 255, some 255, some 255] := by decide +kernel
theorem test_cvtG8_key : after (exec .cvtG8 { atPixel 8 0 [0x7F] with haveTrns := true, trnsKey := ⟨0x7F, 0, 0⟩ }) firstPixel =
    some [some 127, some 127, some 127, some 0] := by decide +kernel
theorem test_cvtRgb8_key : after (exec .cvtRgb8 { atPixel 8 2 [0xFF, 0, 0] with haveTrns := true, trnsKey := ⟨0xFF, 0, 0⟩ }) firstPixel =
    some [some 255, some 0, some 0, some 0] := by decide +kernel
theorem test_cvtP8 : after (exec .cvtP8 { atPixel 8 3 [0] with
    pltN := 2, plt := [⟨255, 0, 0⟩, ⟨0, 255, 0⟩], trnsN := 1, trnsA := [0x80] }) firstPixel =
      some [some 255, some 0, some 0, some 128] := by decide +kernel
theorem test_cvtP8_index : raised (exec .cvtP8 { atPixel 8 3 [2] with pltN := 2, plt := [⟨255, 0, 0⟩, ⟨0, 255, 0⟩] }) =
    some .paletteIndexOutOfRange := by decide +kernel
theorem test_cvtRgba16 : after (exec .cvtRgba16 (atPixel 16 6 [0x11, 0x22, 0x33, 0x44, 0x55, 0x66, 0x77, 0x88])) firstPixel =
    some [some 17, some 51, some 85, some 119] := by decide +kernel
theorem test_cvtGa16 : after (exec .cvtGa16 (atPixel 16 4 [0x12, 0x34, 0xFF, 0xFE])) firstPixel =
    some [some 18, some 18, some 18, some 255] := by decide +kernel

/-! ### Host control -/

theorem test_decode_refused : exec (.decode [] 0 true) State.reset = .refused .maxPixelsOutOfRange ∧
    exec (.decode [] 1 true) (atInput []) = .refused .decodeWhileRunning := ⟨rfl, rfl⟩
theorem test_decode_starts : after (step { State.reset with cmd := some ⟨[1], 7, false⟩ })
    (fun t => (t.phase, t.input, t.cfgMaxPixels, t.cfgVerifyAdler, t.cmd)) = some (.container, [1], 7, false, none) := by decide +kernel
theorem test_reset_memory_wf : State.reset.frame.wf = true ∧ State.reset.out.wf = true := by decide
theorem test_memory_zero_removes : ((Memory.alloc 4).writes 1 [5]).writes 1 [0] = Memory.alloc 4 := by decide

/-! ### Witnesses: the hypotheses of each statement, met together

One theorem for a statement `O<n>`, one conjunct for each of its clauses with hypotheses, at a boundary value where the clause has
one. -/

theorem witness_O1 : (Instr.filtRsvd 5).wf = true ∧ encode (.filtRsvd 5) = some (.row, 5) ∧
    (Instr.anc 0x20000000).wf = true ∧ encode (.anc 0x20000000) = some (.chunk, 0x20000000) := by decide

theorem witness_O2 : (decode .row 255).toOption = some (.filtRsvd 255) ∧ (decode .llsym 287).toOption = some .ll287 ∧
    (decode (.ilace 7) 1).toOption = some .pass7 := by decide

theorem witness_O4 : BitsAt (atBits .huffman [0xE3]).zbuf (atBits .huffman [0xE3]).bp (fixedLLWord 287) ∧
    BitsAt (atBits .huffman [0xFF, 0x01]).zbuf (atBits .huffman [0xFF, 0x01]).bp (fixedLLWord 255) ∧
    BitsAt (atBits .distance [0x1F]).zbuf (atBits .distance [0x1F]).bp (fixedDistWord 31) :=
  ⟨bitsAt_iff.2 (by decide), bitsAt_iff.2 (by decide), bitsAt_iff.2 (by decide)⟩

/-- A vector with a single one-bit code. -/
theorem onlyOneBitCode_one : OnlyOneBitCode [1] := by
  refine ⟨0, rfl, fun other l h hne => ?_⟩
  cases other with
  | zero => exact absurd rfl hne
  | succ n => simp at h

theorem witness_O5 : CodeAccepted [1] .ll ∧ CodeAccepted [1, 1] .cl ∧ ¬ CodeAccepted [2] .ll := by
  refine ⟨.inr (.inr ⟨by decide, .inl rfl, onlyOneBitCode_one⟩), .inl (by decide), ?_⟩
  rintro (h | h | ⟨_, _, sym, h, _⟩)
  · revert h; decide
  · revert h; decide
  · match sym, h with
    | 0, h => simp at h
    | n + 1, h => simp at h

theorem witness_O5_prefix : CodeAccepted [1, 1] .cl ∧ (0 : Nat) < [(1 : CodeLen), 1].length ∧ (1 : Nat) < [(1 : CodeLen), 1].length ∧
    [(1 : CodeLen), 1].getD 0 0 ≠ 0 ∧ [(1 : CodeLen), 1].getD 1 0 ≠ 0 := ⟨.inl (by decide), by decide⟩

theorem witness_O6 : CodeAccepted [1, 1] .cl ∧ (1 : Nat) < [(1 : CodeLen), 1].length ∧ [(1 : CodeLen), 1].getD 1 0 ≠ 0 ∧
    BitsAt (atBits .huffman [1]).zbuf (atBits .huffman [1]).bp
      (codeBits ([(1 : CodeLen), 1].getD 1 0).toNat (canonicalCode [1, 1] 1)) :=
  ⟨.inl (by decide), by decide, by decide, bitsAt_iff.2 (by decide)⟩

theorem witness_O7 : ∀ z : List Byte, z = [0xFF, 0xFF] ∨ z = [0xFF] →
    (atBits .huffman z).bp ≤ 8 * (atBits .huffman z).zbuf.length ∧
    ((atBits .huffman z).bp + 15 ≤ 8 * (atBits .huffman z).zbuf.length ∨
      8 * (atBits .huffman z).zbuf.length < (atBits .huffman z).bp + 15) ∧
    ∀ sym, sym < [(1 : CodeLen)].length → [(1 : CodeLen)].getD sym 0 ≠ 0 →
      ¬ BitsAt (atBits .huffman z).zbuf (atBits .huffman z).bp
        (codeBits ([(1 : CodeLen)].getD sym 0).toNat (canonicalCode [1] sym)) := by
  rintro z (rfl | rfl) <;> refine ⟨by decide, by decide, fun sym h _ => ?_⟩ <;>
    (obtain rfl : sym = 0 := by simpa using h) <;> rw [bitsAt_iff] <;> decide

theorem witness_O8 : (atInput [1, 2]).cur + 2 ≤ (atInput [1, 2]).input.length ∧
    (atInput [1, 2]).input.length < (atInput [1, 2]).cur + 3 ∧ (atInput [1, 2]).input[(atInput [1, 2]).cur]? = some 1 ∧
    (atInput []).cur = (atInput []).input.length ∧ (atInput [1, 2, 3, 4]).input[(atInput [1, 2, 3, 4]).cur + 3]? = some 4 ∧
    (atInput [1, 2, 3]).input.length < (atInput [1, 2, 3]).cur + 4 := by decide

theorem witness_O9 : BitIs (atBits .block [1]).zbuf (atBits .block [1]).bp true ∧
    8 * (atBits .block []).zbuf.length ≤ (atBits .block []).bp ∧
    FieldAt (atBits .block [1, 0x80]).zbuf (atBits .block [1, 0x80]).bp 16 0x8001 ∧
    8 * (atBits .block [1]).zbuf.length < (atBits .block [1]).bp + 9 :=
  ⟨bitIs_iff.2 (by decide), by decide, fieldAt_iff.2 (by decide +kernel), by decide⟩

theorem witness_O10 : { State.reset with crcAcc := 0x51BD9F7D }.crcAcc ^^^ 0xFFFFFFFF = 0xAE426082 ∧
    State.reset.crcAcc ^^^ 0xFFFFFFFF ≠ 0 := by decide

theorem witness_O12 : (0 : Byte) ≠ 1 := by decide

theorem witness_O14 :
    ((atInput [0x89, 0x50, 0x4E, 0x47, 0x0D, 0x0A, 0x1A, 0x0A]).input.drop 0).take 8 =
      [0x89, 0x50, 0x4E, 0x47, 0x0D, 0x0A, 0x1A, 0x0A] ∧
    (atInput [1, 2, 3, 4, 5, 6, 7]).input.length < (atInput [1, 2, 3, 4, 5, 6, 7]).cur + 8 ∧
    ((atInput [0, 0, 0, 0, 0, 0, 0, 0]).input.drop 0).take 8 ≠ [0x89, 0x50, 0x4E, 0x47, 0x0D, 0x0A, 0x1A, 0x0A] := by decide

/-- The end chunk of 95_test_vectors.md section 2.2. -/
def endChunk : List Byte := [0, 0, 0, 0, 0x49, 0x45, 0x4E, 0x44, 0xAE, 0x42, 0x60, 0x82]

theorem witness_O15 : Quiet (atInput endChunk) ∧ (atInput endChunk).phase = .container ∧
    (atInput endChunk).pstate = .readingChunks ∧ (atInput endChunk).cur ≤ (atInput endChunk).input.length ∧
    RecordAt (atInput endChunk) 0 0x49454E44 [] 0xAE426082 ∧
    (0xAE426082 : Word) = crc32 (bytesBE 4 (0x49454E44 : Word).toNat ++ []) ∧
    (decode .chunk (0x49454E44 : Word).toNat).toOption = some .iend ∧
    ({ atInput endChunk with pstate := .expectHeader } : State).pstate = .expectHeader ∧ (0x49454E44 : Word) ≠ 0x49484452 :=
  ⟨⟨rfl, rfl⟩, rfl, rfl, by decide, ⟨rfl, [], by decide +kernel⟩, by decide +kernel, by decide +kernel, rfl, by decide⟩

theorem witness_O15_faults : RecordAt (atInput (endChunk.set 11 0)) 0 0x49454E44 [] 0xAE426000 ∧
    (0xAE426000 : Word) ≠ crc32 (bytesBE 4 (0x49454E44 : Word).toNat ++ []) ∧
    (∃ rest, (atInput (endChunk.set 3 1)).input.drop (atInput (endChunk.set 3 1)).cur = bytesBE 4 (1 : Word).toNat ++ rest) ∧
    (atInput (endChunk.set 3 1)).input.length < (atInput (endChunk.set 3 1)).cur + 12 + (1 : Word).toNat ∧
    (atInput []).input.length < (atInput []).cur + 12 :=
  ⟨⟨rfl, [], by decide +kernel⟩, by decide +kernel, ⟨endChunk.drop 4, by decide +kernel⟩, by decide +kernel, by decide⟩

/-- A state that expects the header chunk and has read one, of a 2x2 truecolour image. -/
def atHeader (bytes : List Byte) (maxPixels : Nat) : State :=
  { atChunk 0 bytes with pstate := .expectHeader, cfgMaxPixels := maxPixels }

theorem witness_O16 : (atHeader [] 4).pstate = .expectHeader ∧ (atHeader [] 4).ckLen ≠ 13 ∧
    (∀ m, m = 3 ∨ m = 4 → (atHeader [0, 0, 0, 2, 0, 0, 0, 2, 8, 2, 0, 0, 1] m).ckLen = 13 ∧
      (atHeader [0, 0, 0, 2, 0, 0, 0, 2, 8, 2, 0, 0, 1] m).ckPay =
        bytesBE 4 (2 : Word).toNat ++ bytesBE 4 (2 : Word).toNat ++ [8, 2, 0, 0, 1]) ∧
    ((8 : Byte), (2 : Byte)) ∈ legalPairTable ∧ ((8 : Byte), (1 : Byte)) ∉ legalPairTable ∧ (1 : Byte) ≤ 1 ∧ ¬ (2 : Byte) ≤ 1 ∧
    (2 : Word).toNat * (2 : Word).toNat ≤ (atHeader [] 4).cfgMaxPixels ∧
    (atHeader [] 3).cfgMaxPixels < (2 : Word).toNat * (2 : Word).toNat := by
  refine ⟨rfl, by decide, ?_, by decide, by decide, by decide, by decide, by decide, by decide⟩
  rintro m (rfl | rfl) <;> decide +kernel

theorem witness_O17 : (atChunk 3 (List.replicate 768 0)).ckPay.length = (atChunk 3 (List.replicate 768 0)).ckLen.toNat ∧
    (atChunk 3 (List.replicate 768 0)).ckLen.toNat ≤ 768 ∧ (atChunk 3 (List.replicate 768 0)).ckLen.toNat % 3 = 0 ∧
    (atChunk 3 []).ckLen = 0 ∧ (atChunk 3 [1, 2, 3, 4]).ckLen.toNat % 3 ≠ 0 ∧ (atChunk 2 [1, 2, 3]).ihCtype ≠ 3 ∧
    (atChunk 3 (List.replicate 771 0)).ckPay.length = (atChunk 3 (List.replicate 771 0)).ckLen.toNat ∧
    768 < (atChunk 3 (List.replicate 771 0)).ckLen.toNat := by decide +kernel

theorem witness_O18 : (atChunk 0 [0, 0x7F]).ckPay.length = (atChunk 0 [0, 0x7F]).ckLen.toNat ∧ (atChunk 0 [0, 0x7F]).ckLen = 2 ∧
    (atChunk 0 [1]).ckLen ≠ 2 ∧ (atChunk 2 [0, 1, 0, 2, 0, 3]).ckLen = 6 ∧ (atChunk 2 [0, 1]).ckLen ≠ 6 ∧
    (atChunk 4 [0, 1]).ihCtype = 4 ∧ (atChunk 3 [0x80]).havePlte = false ∧
    ({ atChunk 3 [0x80] with havePlte := true, pltN := 1 } : State).ckLen.toNat ≤
      ({ atChunk 3 [0x80] with havePlte := true, pltN := 1 } : State).pltN.toNat ∧
    ({ atChunk 3 [0x80, 0xFF] with havePlte := true, pltN := 1 } : State).pltN.toNat <
      ({ atChunk 3 [0x80, 0xFF] with havePlte := true, pltN := 1 } : State).ckLen.toNat := by decide

theorem witness_O18_no_header : (atChunk 1 []).ihCtype ∉ [0, 2, 3, 4, 6] ∧ (atChunk 1 []).seenIdat = false ∧
    (atChunk 1 []).haveTrns = false := by decide

theorem witness_O19 : (atChunk 2 [1]).ckPay.length = (atChunk 2 [1]).ckLen.toNat ∧ (atChunk 2 [1]).idatClosed = false ∧
    (atChunk 2 [1]).ihCtype ≠ 3 ∧ (atChunk 3 [1]).ihCtype = 3 ∧ (atChunk 3 [1]).havePlte = false := by decide

theorem witness_O20 : (atChunk 2 [1]).pstate = .readingChunks ∧ (atChunk 2 [1]).ckLen ≠ 0 ∧ (atChunk 2 []).ckLen = 0 ∧
    (0x74455874 : Word) ∉ ([0x49484452, 0x504C5445, 0x74524E53, 0x49444154, 0x49454E44] : List Word) := by decide

theorem witness_O21 : ∀ c : Nat, c = 0 ∨ c = 1 →
    Quiet { atInput [7] with pstate := .done, cur := c } ∧ ({ atInput [7] with pstate := .done, cur := c } : State).phase = .container ∧
    (c = 1 → ({ atInput [7] with pstate := .done, cur := c } : State).cur = (atInput [7]).input.length) ∧
    (c = 0 → ({ atInput [7] with pstate := .done, cur := c } : State).cur ≠ (atInput [7]).input.length) := by
  rintro c (rfl | rfl) <;> exact ⟨⟨rfl, rfl⟩, rfl, by decide, by decide⟩

theorem witness_O22 : 8 * (atBits .zhdr [0x78]).zbuf.length < (atBits .zhdr [0x78]).bp + 16 ∧
    FieldAt (atBits .zhdr [0x78, 0x01]).zbuf (atBits .zhdr [0x78, 0x01]).bp 8 0x78 ∧
    FieldAt (atBits .zhdr [0x78, 0x01]).zbuf ((atBits .zhdr [0x78, 0x01]).bp + 8) 8 0x01 ∧
    (0x78 % 16 = 8 ∧ 0x78 / 16 ≤ 7 ∧ (0x78 * 256 + 0x01) % 31 = 0 ∧ Nat.testBit 0x01 5 = false) ∧
    FieldAt (atBits .zhdr [0x88, 0x1C]).zbuf (atBits .zhdr [0x88, 0x1C]).bp 8 0x88 ∧ ¬ 0x88 / 16 ≤ 7 :=
  ⟨by decide, fieldAt_iff.2 (by decide), fieldAt_iff.2 (by decide), by decide, fieldAt_iff.2 (by decide), by decide⟩

/-- A state before a trailer that starts at the byte boundary 8. -/
def atTrailer (bytes : List Byte) : State := { atBits .trailer bytes with bp := 1 }

theorem witness_O23 : 8 % 8 = 0 ∧ (atTrailer []).bp ≤ 8 ∧ 8 < (atTrailer []).bp + 8 ∧
    8 * (atTrailer [0, 0, 0, 0]).zbuf.length < 8 + 32 ∧ FieldAt (atTrailer [0, 0, 0, 0, 1]).zbuf 8 8 0 ∧
    FieldAt (atTrailer [0, 0, 0, 0, 1]).zbuf (8 + 24) 8 1 ∧
    0 * 2 ^ 24 + 0 * 2 ^ 16 + 0 * 2 ^ 8 + 1 = (atTrailer []).adlerB.toNat * 65536 + (atTrailer []).adlerA.toNat ∧
    (atTrailer []).cfgVerifyAdler = true ∧ FieldAt (atTrailer [0, 0, 0, 0, 2]).zbuf (8 + 24) 8 2 ∧
    0 * 2 ^ 24 + 0 * 2 ^ 16 + 0 * 2 ^ 8 + 2 ≠ (atTrailer []).adlerB.toNat * 65536 + (atTrailer []).adlerA.toNat :=
  ⟨by decide, by decide, by decide, by decide, fieldAt_iff.2 (by decide), fieldAt_iff.2 (by decide), by decide, by decide,
    fieldAt_iff.2 (by decide), by decide⟩

/-- A state after the block header of a stored block. -/
def atStored (bytes : List Byte) : State := { atBits .block bytes with bp := 3 }

theorem witness_O24 : (atStored []).bp ≤ 8 ∧ 8 < (atStored []).bp + 8 ∧ (atStored [1]).bp ≤ 8 * (atStored [1]).zbuf.length ∧
    8 * (atStored [1, 2, 0, 0xFD]).zbuf.length < 8 + 32 ∧
    FieldAt (atStored [1, 2, 0, 0xFD, 0xFF, 0x61, 0x62]).zbuf 8 16 2 ∧
    FieldAt (atStored [1, 2, 0, 0xFD, 0xFF, 0x61, 0x62]).zbuf (8 + 16) 16 0xFFFD ∧ 2 ^^^ 0xFFFD = 0xFFFF ∧
    (atStored [1, 2, 0, 0xFD, 0xFF, 0x61, 0x62]).zbuf.drop (8 / 8 + 4) = [0x61, 0x62] ++ [] ∧
    8 * (atStored [1, 2, 0, 0xFD, 0xFF, 0x61]).zbuf.length < 8 + 32 + 8 * 2 ∧
    FieldAt (atStored [1, 2, 0, 0xFD, 0xFE]).zbuf (8 + 16) 16 0xFEFD ∧ 2 ^^^ 0xFEFD ≠ 0xFFFF :=
  ⟨by decide, by decide, by decide, by decide, fieldAt_iff.2 (by decide +kernel), fieldAt_iff.2 (by decide +kernel), by decide,
    by decide, by decide, fieldAt_iff.2 (by decide +kernel), by decide⟩

/-- The header of the dynamic block of 95_test_vectors.md section 2.5 with `HCLEN = 18`. -/
def atDynamic : State := { atBits .block [0x05, 0xC0, 0x81, 0x08, 0, 0, 0, 0, 0xA0] with bp := 3 }

theorem witness_O26 : FieldAt atDynamic.zbuf atDynamic.bp 5 0 ∧ FieldAt atDynamic.zbuf (atDynamic.bp + 5) 5 0 ∧
    FieldAt atDynamic.zbuf (atDynamic.bp + 10) 4 14 ∧ dynamicCl.length = 19 ∧
    (∀ i, i < 14 + 4 → FieldAt atDynamic.zbuf (atDynamic.bp + 14 + 3 * i) 3
      (dynamicCl.getD ([16, 17, 18, 0, 8, 7, 9, 6, 10, 5, 11, 4, 12, 3, 13, 2, 14, 1, 15].getD i 0) 0).toNat) ∧
    (∀ i, 14 + 4 ≤ i → i < 19 →
      dynamicCl.getD ([16, 17, 18, 0, 8, 7, 9, 6, 10, 5, 11, 4, 12, 3, 13, 2, 14, 1, 15].getD i 0) 0 = 0) ∧
    CodeAccepted dynamicCl .cl := by
  refine ⟨fieldAt_iff.2 (by decide), fieldAt_iff.2 (by decide), fieldAt_iff.2 (by decide), by decide,
    fun i hi => fieldAt_iff.2 (by revert i; decide +kernel), ?_,
    .inl (by decide)⟩
  intro i h1 h2
  obtain rfl : i = 18 := by omega
  decide

theorem witness_O26_faults : FieldAt (atBits .block [30]).zbuf (atBits .block [30]).bp 5 30 ∧ 286 < 30 + 257 ∧
    atDynamic.bp + 14 ≤ 8 * 3 ∧ 8 * (atDynamic.zbuf.take 3).length < atDynamic.bp + 14 + 3 * (14 + 4) ∧
    8 * (atBits .block [5, 0]).zbuf.length < ({ atBits .block [5, 0] with bp := 3 } : State).bp + 14 ∧
    ¬ CodeAccepted (List.replicate 19 0 |>.set 0 2) .cl := by
  refine ⟨fieldAt_iff.2 (by decide), by decide, by decide, by decide, by decide, ?_⟩
  rintro (h | h | ⟨_, h | h, _⟩)
  · revert h; decide +kernel
  · revert h; decide +kernel
  · cases h
  · cases h

/-- A complete code-length sequence: symbols 0 and 256 with one bit, one distance code of one bit. -/
def installSeq : List CodeLen := 1 :: List.replicate 255 0 ++ [1, 1]

/-- A state whose code-length sequence is complete. -/
def atInstall : State := { atBits .codeLengths [] with hlit := 257, hdist := 1, clSeq := installSeq }

theorem witness_O27 : Quiet atInstall ∧ atInstall.phase = .inflate ∧ atInstall.istage = .codeLengths ∧ atInstall.hlit ≤ 288 ∧
    atInstall.hdist ≤ 32 ∧ atInstall.clSeq.length = atInstall.hlit + atInstall.hdist ∧
    (padLens 288 (installSeq.take 257)).length = 288 ∧ (padLens 32 [1]).length = 32 ∧
    (∀ sym, sym < 288 → (padLens 288 (installSeq.take 257))[sym]? =
      some (if sym < atInstall.hlit then atInstall.clSeq.getD sym 0 else 0)) ∧
    (∀ sym, sym < 32 → (padLens 32 [1])[sym]? =
      some (if sym < atInstall.hdist then atInstall.clSeq.getD (atInstall.hlit + sym) 0 else 0)) ∧
    (padLens 288 (installSeq.take 257)).getD 256 0 ≠ 0 ∧ CodeAccepted (padLens 288 (installSeq.take 257)) .ll ∧
    kraftSum (padLens 32 [1]) = 2 ^ 14 := by
  refine ⟨⟨rfl, rfl⟩, rfl, rfl, by decide, by decide, by decide +kernel, by decide +kernel, by decide +kernel, by decide +kernel,
    by decide +kernel, by decide +kernel, .inl (by decide +kernel), by decide +kernel⟩

theorem witness_O29 : (atBits .codeLengths []).clSeq = [] ∧
    FieldAt ({ atBits .codeLengths [3] with clSeq := [8] } : State).zbuf 0 2 3 ∧ ([8] : List CodeLen) = [] ++ [8] ∧
    [(8 : CodeLen)].length + (3 + 3) ≤ 6 + 1 ∧ 5 + 1 < [(8 : CodeLen)].length + (3 + 3) ∧
    FieldAt (atBits .codeLengths [0x7F]).zbuf 0 7 127 ∧ FieldAt (atBits .codeLengths [0x7F]).zbuf 0 3 7 ∧
    Instr.clZ11 ∈ zeroRunTable.map Prod.fst :=
  ⟨rfl, fieldAt_iff.2 (by decide), rfl, by decide, by decide, fieldAt_iff.2 (by decide), fieldAt_iff.2 (by decide), by decide⟩

theorem witness_O29_short : ([8] : List CodeLen) ≠ [] ∧ (atBits .codeLengths []).bp ≤ 8 * (atBits .codeLengths []).zbuf.length ∧
    8 * (atBits .codeLengths []).zbuf.length < (atBits .codeLengths []).bp + 2 ∧
    8 * (atBits .codeLengths [1]).zbuf.length < ({ atBits .codeLengths [1] with bp := 2 } : State).bp + 7 := by decide

theorem witness_O31 : (Instr.len284, 5, 227) ∈ lengthTable ∧ FieldAt (atBits .huffman [0x1F]).zbuf 0 5 31 ∧
    (Instr.len285, 0, 258) ∈ lengthTable ∧ FieldAt (atBits .huffman []).zbuf 0 0 0 ∧
    (atBits .huffman []).bp ≤ 8 * (atBits .huffman []).zbuf.length ∧ 8 * (atBits .huffman []).zbuf.length < (atBits .huffman []).bp + 5 :=
  ⟨by decide +kernel, fieldAt_iff.2 (by decide), by decide +kernel, fieldAt_iff.2 (by decide), by decide, by decide⟩

theorem witness_O32_O33 : (Instr.dist4, 1, 5) ∈ distanceTable ∧ FieldAt (atBits .distance [1]).zbuf 0 1 1 ∧
    5 + 1 ≤ ({ atBits .distance [1] with obuf := [1, 2, 3, 4, 5, 6], mlen := 3 } : State).obuf.length ∧
    ({ atBits .distance [1] with obuf := [1, 2, 3, 4, 5], mlen := 3 } : State).obuf.length < 5 + 1 ∧
    8 * (atBits .distance []).zbuf.length < (atBits .distance []).bp + 1 ∧ (atBits .distance [1]).obuf = [] :=
  ⟨by decide +kernel, fieldAt_iff.2 (by decide), by decide, by decide, by decide, rfl⟩

theorem witness_O34 : (Instr.filtPaeth, 4) ∈ filterTable ∧ bitspp (atRow 2 [1, 2] [3, 4]) = some 8 ∧
    2 = ((atRow 2 [1, 2] [3, 4]).passW.toNat * 8 + 7) / 8 ∧
    (atRow 2 [1, 2] [3, 4]).rpos + 2 ≤ (atRow 2 [1, 2] [3, 4]).obuf.length ∧ (atRow 2 [1, 2] [3, 4]).prev.length = 2 := by
  decide +kernel

/-- A state at the start of a pass of a 5x5 interlaced image. -/
def atPass : State := { State.reset with ihWidth := 5, ihHeight := 5, ihDepth := 8, ihIlace := true, rstage := .pass 2 }

theorem witness_O35 : bitspp atPass = some 8 ∧ (Instr.pass2, 2, 4, 0, 8, 8) ∈ passTable ∧ passSpan atPass.ihWidth.toNat 4 8 = 1 ∧
    passSpan atPass.ihHeight.toNat 0 8 = 1 ∧
    passSpan ({ atPass with ihWidth := 4 } : State).ihWidth.toNat 4 8 = 0 := by decide +kernel

theorem witness_O36 : (4 : Nat) < atPass.ihWidth.toNat ∧ (4 : Nat) < atPass.ihHeight.toNat := by decide

/-- A state at the end of INFLATE, with the given decompressed stream, of a 2x1 grayscale image. -/
def atInflateEnd (bytes : List Byte) : State :=
  { atBits .finished [] with ihWidth := 2, ihHeight := 1, ihDepth := 8, obuf := bytes }

theorem witness_O37 : ∀ bytes : List Byte, bytes = [0, 1, 2] ∨ bytes = [0, 1] →
    Quiet (atInflateEnd bytes) ∧ (atInflateEnd bytes).phase = .inflate ∧ (atInflateEnd bytes).istage = .finished ∧
    bitspp (atInflateEnd bytes) = some 8 ∧
    3 = ((if (atInflateEnd bytes).ihIlace then [1, 2, 3, 4, 5, 6, 7] else [0]).map fun p : Fin 8 =>
      if passWidth p (atInflateEnd bytes) = 0 ∨ passHeight p (atInflateEnd bytes) = 0 then 0
      else passHeight p (atInflateEnd bytes) * (1 + (passWidth p (atInflateEnd bytes) * 8 + 7) / 8)).sum ∧
    (bytes = [0, 1, 2] → 3 ≤ (atInflateEnd bytes).obuf.length) ∧ (bytes = [0, 1] → (atInflateEnd bytes).obuf.length < 3) := by
  rintro bytes (rfl | rfl) <;> exact ⟨⟨rfl, rfl⟩, rfl, rfl, by decide +kernel, by decide +kernel, by decide, by decide⟩

theorem witness_O38 : Quiet { atPixel 8 0 [0] with col := 1 } ∧ ({ atPixel 8 0 [0] with col := 1 } : State).phase = .recon ∧
    ({ atPixel 8 0 [0] with col := 1 } : State).rstage = .pixel ∧
    ({ atPixel 8 0 [0] with col := 1 } : State).passW.toNat ≤ ({ atPixel 8 0 [0] with col := 1 } : State).col ∧
    Quiet { atPixel 8 0 [0] with rstage := .finished } := ⟨⟨rfl, rfl⟩, rfl, rfl, by decide, ⟨rfl, rfl⟩⟩

/-- O38, the end of a pass: at the boundary `ROW = PASS_H`, in pass 2, which pass 3 follows, and in pass 7, the last. -/
theorem witness_O38_pass : ∀ pass ∈ [(2 : BitVec 3), 7],
    Quiet { atRow 1 [0] [] with row := 1, pass := pass } ∧ ({ atRow 1 [0] [] with row := 1, pass := pass } : State).phase = .recon ∧
    ({ atRow 1 [0] [] with row := 1, pass := pass } : State).rstage = .row ∧
    ({ atRow 1 [0] [] with row := 1, pass := pass } : State).passH.toNat ≤ ({ atRow 1 [0] [] with row := 1, pass := pass } : State).row.toNat ∧
    step { atRow 1 [0] [] with row := 1, pass := pass } =
      .next { atRow 1 [0] [] with row := 1, pass := pass, rstage := if pass = 2 then .pass 3 else .finished } := by
  simp only [List.mem_cons, List.not_mem_nil, or_false]
  rintro pass (rfl | rfl) <;> exact ⟨⟨rfl, rfl⟩, rfl, rfl, by decide, rfl⟩

theorem witness_O39 : ∀ d ∈ [1, 2, 4, 8, 16], (8 / d - 1 + 1) * d ≤ 8 * (atPixel 8 0 [0xB2]).currow.length ∨
    d = 16 ∧ (0 + 1) * d ≤ 8 * (atPixel 16 0 [1, 2]).currow.length := by decide

theorem witness_O40_O41_O42_O43 : PixelReady 1 1 (atPixel 1 0 [0x80]) ∧ PixelReady 16 1 (atPixel 16 0 [1, 2]) ∧
    PixelReady 16 3 (atPixel 16 2 [1, 2, 3, 4, 5, 6]) ∧ PixelReady 8 1 (atPixel 8 3 [1]) ∧
    PixelReady 8 2 (atPixel 8 4 [1, 2]) ∧ PixelReady 16 4 (atPixel 16 6 [1, 2, 3, 4, 5, 6, 7, 8]) := by
  unfold PixelReady; decide +kernel

/-- A palette of two entries, the first with alpha. -/
def atIndex (i : Byte) : State :=
  { atPixel 8 3 [i] with pltN := 2, plt := [⟨255, 0, 0⟩, ⟨0, 255, 0⟩], trnsN := 1, trnsA := [0x80] }

theorem witness_O42 : (0 : Nat) = sampleSpec 8 (atIndex 0).col (atIndex 0).currow ∧ 0 < (atIndex 0).pltN.toNat ∧
    (atIndex 0).plt[0]? = some ⟨255, 0, 0⟩ ∧ 0 < (atIndex 0).trnsN.toNat ∧ (atIndex 0).trnsA[0]? = some 0x80 ∧
    (1 : Nat) = sampleSpec 8 (atIndex 1).col (atIndex 1).currow ∧ (atIndex 1).plt[1]? = some ⟨0, 255, 0⟩ ∧
    (atIndex 1).trnsN.toNat ≤ 1 ∧ (2 : Nat) = sampleSpec 8 (atIndex 2).col (atIndex 2).currow ∧ (atIndex 2).pltN.toNat ≤ 2 := by
  decide +kernel

theorem witness_O44_O45 : ¬ Running State.reset ∧ (1 : Nat) ≤ 2 ^ 30 - 1 ∧ 2 ^ 30 - 1 < 2 ^ 30 ∧ ¬ (1 ≤ 0 ∧ 0 < 2 ^ 30) ∧
    ¬ (1 ≤ 2 ^ 30 ∧ 2 ^ 30 < 2 ^ 30) ∧ Running (atInput []) ∧ ¬ Running { State.reset with phase := .done, obuf := [1] } ∧
    State.reset.cmd = ({ State.reset with phase := .done, obuf := [1] } : State).cmd := by unfold Running; decide

theorem witness_O46 : ({ atInput [1] with resetLine := true } : State).resetLine = true := rfl

theorem witness_O47_O50 : ∃ t, Quiet { atInput [] with pstate := .expectSignature } ∧
    ({ atInput [] with pstate := .expectSignature } : State).phase ≠ .faulted ∧
    step { atInput [] with pstate := .expectSignature } = .next t ∧ t.phase = .faulted ∧ t.faultKind = some .truncatedInput :=
  ⟨_, ⟨rfl, rfl⟩, by decide, rfl, rfl, rfl⟩

theorem witness_O48 : Quiet State.reset ∧ ¬ Running State.reset ∧ Quiet { State.reset with phase := .faulted } ∧
    ¬ Running { State.reset with phase := .faulted } := by unfold Quiet Running; decide

theorem witness_O49_O52 : ∃ t, Quiet (atBits .huffman [0]) ∧ step { atPixel 8 0 [0] with col := 1 } = .next t ∧
    t.phase = ({ atPixel 8 0 [0] with col := 1 } : State).phase ∧ Quiet { atPixel 8 0 [0] with col := 1 } :=
  ⟨endRow { atPixel 8 0 [0] with col := 1 }, ⟨rfl, rfl⟩, by rfl, rfl, ⟨rfl, rfl⟩⟩

theorem witness_O51 : SameButOffset State.reset { State.reset with faultOffset := 7 } ∧
    SameButFree State.reset { State.reset with faultOffset := 7, freeCount := 3, clLen := dynamicCl, currow := [1] } :=
  ⟨rfl, rfl, fun h => absurd h (by decide), fun h => absurd h (by decide)⟩

/-- A state at a literal of a static block. -/
def atLiteral : State := { atBits .huffman [0x0C] with llLen := fixedLLLens }

theorem witness_O53 : Quiet atLiteral ∧ atLiteral.phase = .inflate ∧ atLiteral.istage = .huffman ∧
    decodeSym atLiteral.llLen atLiteral = .ok 0 { atLiteral with bp := 8 } ∧ (decode .llsym 0).toOption = some (.lit 0) ∧
    (atRow 1 [0] [4, 1]).row.toNat < (atRow 1 [0] [4, 1]).passH.toNat ∧ (atRow 1 [0] [4, 1]).obuf[(atRow 1 [0] [4, 1]).rpos]? = some 4 ∧
    (decode .row 4).toOption = some .filtPaeth ∧ (atPixel 8 0 [0]).col < (atPixel 8 0 [0]).passW.toNat ∧
    (decode .depthCtype ((atPixel 8 0 [0]).ihDepth.toNat * 256 + (atPixel 8 0 [0]).ihCtype.toNat)).toOption = some .cvtG8 ∧
    FieldAt (atBits .block [5]).zbuf (atBits .block [5]).bp 3 5 ∧ (decode .bhdr 5).toOption = some (.blkDyn true) ∧
    (decode (.ilace 2) atPass.ihIlace.toNat).toOption = some .pass2 :=
  ⟨⟨rfl, rfl⟩, rfl, rfl, by decide +kernel, by decide, by decide, by decide, by decide, by decide, by decide +kernel,
    fieldAt_iff.2 (by decide), by decide, by decide⟩

theorem witness_O53_code_lengths : Quiet { atBits .codeLengths [1] with clLen := dynamicCl, hlit := 257, hdist := 1 } ∧
    (decodeSym dynamicCl { atBits .codeLengths [1] with clLen := dynamicCl, hlit := 257, hdist := 1 }) =
      .ok 0 { atBits .codeLengths [1] with clLen := dynamicCl, hlit := 257, hdist := 1, bp := 2 } ∧
    (decode .clsym 0).toOption = some (.clLen 0) ∧
    decodeSym fixedDistLens (atBits .distance [0]) = .ok 0 { atBits .distance [0] with bp := 5 } ∧
    (decode .dsym 0).toOption = some .dist0 :=
  ⟨⟨rfl, rfl⟩, by decide +kernel, by decide, by decide +kernel, by decide⟩

/-- O53, the faults of the reads: one bit short of a block header, data that ends inside a symbol, bits that are no symbol. -/
theorem witness_O53_faults : 8 * ({ atBits .block [0] with bp := 6 } : State).zbuf.length < ({ atBits .block [0] with bp := 6 } : State).bp + 3 ∧
    ({ atBits .codeLengths [] with clLen := dynamicCl, hlit := 257, hdist := 1 } : State).clSeq.length < 257 + 1 ∧
    decodeSym dynamicCl { atBits .codeLengths [] with clLen := dynamicCl, hlit := 257, hdist := 1 } =
      .raise .truncatedCompressedData { atBits .codeLengths [] with clLen := dynamicCl, hlit := 257, hdist := 1 } ∧
    decodeSym fixedLLLens (atBits .huffman []) = .raise .truncatedCompressedData (atBits .huffman []) ∧
    decodeSym (atBits .distance [0, 0]).dLen (atBits .distance [0, 0]) =
      .raise .invalidCompressedData { atBits .distance [0, 0] with bp := 15 } :=
  ⟨by decide, by decide, by decide +kernel, by decide +kernel, by decide +kernel⟩

/-- The state in which a decode of an empty stream starts. -/
def started : State := startDecode [] 1 true State.reset

/-- O55 to O60: a running decode that meets every invariant, with nothing at the inputs. -/
theorem witness_O55_to_O60 : Inv started ∧ Quiet started ∧ Running started ∧ ∃ t, step started = .next t := by
  have hh : ¬ HeaderRead started := by unfold HeaderRead; decide
  exact ⟨⟨⟨rfl, rfl⟩, ⟨fun _ => ⟨rfl, rfl, rfl, rfl⟩, fun h => absurd h (by decide), fun _ => ⟨rfl, rfl⟩,
    fun h => absurd h (by decide), fun h => absurd h (by decide)⟩,
    ⟨fun _ => Nat.le_refl _, fun h => absurd (.inl rfl) h, fun _ => Nat.zero_le _, fun _ => Nat.zero_le _⟩, fun _ => rfl,
    ⟨fun _ => by decide, fun h => absurd h hh, fun h => absurd h hh⟩,
    ⟨by decide +kernel, by decide +kernel, by decide, by decide, fun _ => rfl, by decide +kernel, by decide, by decide⟩,
    ⟨fun h => absurd h (by decide), fun h => absurd h (by decide)⟩,
    ⟨fun _ _ h => absurd h (by decide), fun _ h => absurd h (by decide), fun _ h => absurd h (by decide)⟩⟩,
    ⟨rfl, rfl⟩, .inl rfl, ⟨_, rfl⟩⟩

end Sys2Proof.Tests
end

section
/-! The statements of 10_state.md: what a step can have done, one constructor per case (`StepKind`), then one preservation lemma
per invariant over these cases. -/

namespace Sys2Proof.StateProofs

open Sys2Proof Sys2Proof.Machine Sys2Proof.Safety Sys2Proof.Laws

/-! ### The cases of a step -/

/-- What a step that answers a next state has done, by case: `Post` with the three ways to a fault as one. -/
inductive StepKind (s : State) : State → Prop
  | reset (line : s.resetLine = true) : StepKind s (hardwareReset s)
  | start {c : Command} (cmd : s.cmd = some c) (range : 1 ≤ c.maxPixels ∧ c.maxPixels < 2 ^ 30) :
      StepKind s (startDecode c.stream c.maxPixels c.verifyAdler { s with cmd := none })
  | wait (idle : ¬ Running s) : StepKind s s
  | container {t : State} (phase : s.phase = .container) (did : ContStep s t) : StepKind s t
  | enterInflate (phase : s.phase = .container) (ended : s.pstate = .done) :
      StepKind s { s with phase := .inflate, bp := 0, istage := .zhdr }
  | inflate {t : State} (phase : s.phase = .inflate) (rel : InflRel s t) (seq : SeqOk s → SeqOk t) : StepKind s t
  | enterRecon {bits : Nat} (phase : s.phase = .inflate) (bitspp : bitspp s = some bits)
      (enough : needBytes bits s ≤ s.obuf.length) : StepKind s (afterEntry s)
  | recon {t : State} (phase : s.phase = .recon) (rel : ReconRel s t) (ready : RI s → RI t) : StepKind s t
  | commit (phase : s.phase = .recon) : StepKind s (commit s)
  | fault {k : FaultKind} {u : State} (running : Running s) (tables : TableInv s → TableInv u) : StepKind s (raiseFault k u)

theorem tableInv_of_reconRel {s t : State} (h : ReconRel s t) : TableInv s → TableInv t := by
  rw [h.frame]; exact tableInv_of rfl rfl rfl rfl rfl rfl rfl rfl

/-- Every step is of one of the kinds. -/
theorem stepKind_of_step {s t : State} (h : step s = .next t) : StepKind s t := by
  rcases post_of_step h with ⟨hr, rfl⟩ | ⟨c, -, hc, hm, rfl⟩ | ⟨-, hn, rfl⟩ | ⟨-, hp, hpost⟩ | ⟨-, hp, hpost⟩ | ⟨-, hp, hpost⟩
  · exact .reset hr
  · exact .start hc hm
  · exact .wait hn
  · rcases hpost with hs | ⟨hd, -, rfl⟩ | ⟨k, u, -, hu, rfl⟩
    · exact .container hp hs
    · exact .enterInflate hp hd
    · exact .fault (.inl hp) hu.tables
  · rcases hpost with ⟨hs, hq, -⟩ | ⟨-, ⟨bits, hb, hn⟩, rfl⟩ | ⟨k, u, ⟨-, hu⟩, rfl⟩ | ⟨-, rfl⟩
    · exact .inflate hp hs hq
    · exact .enterRecon hp hb hn
    · exact .fault (.inr (.inl hp)) hu.tables
    · exact .fault (.inr (.inl hp)) (tableInv_of rfl rfl rfl rfl rfl rfl rfl rfl)
  · rcases hpost with ⟨hs, hri⟩ | ⟨-, rfl⟩ | ⟨k, u, -, hu, rfl⟩
    · exact .recon hp hs fun hr => (hri hr).1
    · exact .commit hp
    · exact .fault (.inr (.inr hp)) (tableInv_of_reconRel hu)

/-! ### Phases in which an invariant says nothing -/

@[simp] theorem reset_phase : State.reset.phase = .idle := rfl

theorem not_running_hardwareReset (s : State) : ¬ Running (hardwareReset s) := by simp [Running]

theorem not_running_commit (s : State) : ¬ Running (commit s) := by simp [Running]

theorem not_running_raiseFault (k : FaultKind) (s : State) : ¬ Running (raiseFault k s) := by simp [Running]

theorem running_of_headerRead {s : State} (h : HeaderRead s) : Running s := by
  rcases h with ⟨h, -⟩ | h
  · exact .inl h
  · exact .inr h

theorem ne_done_of_running {s : State} (h : Running s) : s.phase ≠ .done := by
  rcases h with h | h | h <;> rw [h] <;> decide

theorem ne_faulted_of_running {s : State} (h : Running s) : s.phase ≠ .faulted := by
  rcases h with h | h | h <;> rw [h] <;> decide

theorem cursorInv_of_not_running {s : State} (h : ¬ Running s) (hi : s.input = []) : CursorInv s :=
  ⟨fun hr => absurd hr h, fun _ => hi, fun hp => absurd (.inr (.inl hp)) h, fun hp => absurd (.inr (.inr hp)) h⟩

theorem headerInv_of_not_running {s : State} (h : ¬ Running s) : HeaderInv s :=
  ⟨fun hr => absurd hr h, fun hr => absurd (running_of_headerRead hr) h, fun hr => absurd (running_of_headerRead hr) h⟩

theorem inflateInv_of_phase {s : State} (h : s.phase ≠ .inflate) : InflateInv s :=
  ⟨fun hp => absurd hp h, fun hp => absurd hp h⟩

theorem reconInv_of_phase {s : State} (h : s.phase ≠ .recon) : ReconInv s :=
  ⟨fun _ _ hp => absurd hp h, fun _ hp => absurd hp h, fun _ hp => absurd hp h⟩

/-- In phase INFLATE the stage invariant is `SeqOk`. -/
theorem seqOk_of_inflateInv {s : State} (hp : s.phase = .inflate) (h : InflateInv s) : SeqOk s := ⟨h.counts hp, h.length hp⟩

theorem inflateInv_of_seqOk {s : State} (h : SeqOk s) : InflateInv s := ⟨fun _ => h.counts, fun _ => h.length⟩

/-- In phase CONTAINER the header invariant is `HdrOk`. -/
theorem hdrOk_of_headerInv {s : State} (hp : s.phase = .container) (h : HeaderInv s) : HdrOk s := fun hs => by
  obtain ⟨hw, hh, hc⟩ := h.size (.inl ⟨hp, hs⟩)
  exact ⟨hw, hh, hc, h.pair (.inl ⟨hp, hs⟩)⟩

/-- The host reads no result and no fault while a decode runs; outside phase RECON `FRAME` has no stated size. -/
theorem outputInv_of_running {s : State} (h : Running s) (ho : s.outValid = false ∧ s.outW = 0 ∧ s.outH = 0 ∧ s.out = Memory.empty)
    (hf : s.faultKind = none ∧ s.faultOffset = 0)
    (hs : s.phase = .recon → s.frame.size = s.ihWidth.toNat * s.ihHeight.toNat * 4) : OutputInv s :=
  ⟨fun _ => ho, fun hd => absurd hd (ne_done_of_running h), fun _ => hf, fun hd => absurd hd (ne_faulted_of_running h), hs⟩

/-! ### The states that meet every invariant whatever came before -/

theorem tableInv_reset : TableInv State.reset :=
  ⟨List.length_replicate, List.length_replicate, by decide, by decide, fun _ => rfl, List.length_replicate,
    List.length_replicate, List.length_replicate⟩

/-- Every invariant holds after hardware reset. -/
theorem inv_hardwareReset (s : State) : Inv (hardwareReset s) where
  memory := ⟨rfl, rfl⟩
  output := ⟨fun _ => ⟨rfl, rfl, rfl, rfl⟩, fun h => (nomatch h), fun _ => ⟨rfl, rfl⟩, fun h => (nomatch h), fun h => (nomatch h)⟩
  cursors := cursorInv_of_not_running (not_running_hardwareReset s) rfl
  adler := fun _ => rfl
  header := headerInv_of_not_running (not_running_hardwareReset s)
  tables := tableInv_of (s := State.reset) rfl rfl rfl rfl rfl rfl rfl rfl tableInv_reset
  inflate := inflateInv_of_phase (by simp)
  recon := reconInv_of_phase (by simp)

/-- Every invariant holds after the start step of a command whose ceiling is in range (48_host_control.md R361). -/
theorem inv_startDecode {maxPixels : Nat} (h : 1 ≤ maxPixels ∧ maxPixels < 2 ^ 30) (stream : List Byte) (verify : Bool)
    (s : State) : Inv (startDecode stream maxPixels verify s) := by
  have hrun : Running (startDecode stream maxPixels verify s) := .inl rfl
  have hread : ¬ HeaderRead (startDecode stream maxPixels verify s) := by simp [HeaderRead]
  exact {
    memory := ⟨rfl, rfl⟩
    output := outputInv_of_running hrun ⟨rfl, rfl, rfl, rfl⟩ ⟨rfl, rfl⟩ (fun h => (nomatch h))
    cursors := ⟨fun _ => Nat.zero_le _, fun hn => absurd hrun hn, fun hp => (nomatch hp), fun hp => (nomatch hp)⟩
    adler := fun _ => rfl
    header := ⟨fun _ => h, fun hr => absurd hr hread, fun hr => absurd hr hread⟩
    tables := tableInv_of (s := State.reset) rfl rfl rfl rfl rfl rfl rfl rfl tableInv_reset
    inflate := inflateInv_of_phase (by simp)
    recon := reconInv_of_phase (by simp) }

/-! ### One preservation lemma per invariant -/

theorem StepKind.memoryInv {s t : State} (h : StepKind s t) (hi : MemoryInv s) : MemoryInv t := by
  cases h with
  | reset => exact (inv_hardwareReset s).memory
  | start _ range => exact (inv_startDecode range ..).memory
  | wait => exact hi
  | container _ did => rw [did.rel.frame]; exact ⟨hi.frame, hi.out⟩
  | enterInflate => exact ⟨hi.frame, hi.out⟩
  | inflate _ rel => rw [rel.frame]; exact ⟨hi.frame, hi.out⟩
  | enterRecon => exact ⟨rfl, hi.out⟩
  | recon _ rel => exact ⟨rel.wf hi.frame, by rw [rel.frame]; exact hi.out⟩
  | commit => exact ⟨hi.frame, hi.frame⟩
  | fault => exact ⟨rfl, rfl⟩

theorem StepKind.outputInv {s t : State} (h : StepKind s t) (hi : OutputInv s) : OutputInv t := by
  have hout : Running s → s.outValid = false ∧ s.outW = 0 ∧ s.outH = 0 ∧ s.out = Memory.empty :=
    fun hr => hi.noResult (ne_done_of_running hr)
  have hfault : Running s → s.faultKind = none ∧ s.faultOffset = 0 := fun hr => hi.noFault (ne_faulted_of_running hr)
  cases h with
  | reset => exact (inv_hardwareReset s).output
  | start _ range => exact (inv_startDecode range ..).output
  | wait => exact hi
  | container phase did =>
    have hr : Running s := .inl phase
    rw [did.rel.frame]
    exact outputInv_of_running hr (hout hr) (hfault hr) fun hp => by cases phase.symm.trans hp
  | enterInflate phase =>
    have hr : Running s := .inl phase
    exact outputInv_of_running (.inr (.inl rfl)) (hout hr) (hfault hr) (fun hp => (nomatch hp))
  | inflate phase rel =>
    have hr : Running s := .inr (.inl phase)
    rw [rel.frame]
    exact outputInv_of_running hr (hout hr) (hfault hr) hi.frame
  | enterRecon phase =>
    have hr : Running s := .inr (.inl phase)
    exact outputInv_of_running (.inr (.inr rfl)) (hout hr) (hfault hr) fun _ => rfl
  | recon phase rel =>
    have hr : Running s := .inr (.inr phase)
    have hsize : t.frame.size = s.ihWidth.toNat * s.ihHeight.toNat * 4 := rel.size.trans (hi.frame phase)
    rw [rel.frame]
    exact outputInv_of_running hr (hout hr) (hfault hr) fun _ => hsize
  | commit phase =>
    exact ⟨fun hd => absurd rfl hd, fun _ => ⟨rfl, hi.frame phase⟩, fun _ => hfault (.inr (.inr phase)),
      fun hp => (nomatch hp), fun hp => (nomatch hp)⟩
  | fault =>
    exact ⟨fun _ => ⟨rfl, rfl, rfl, rfl⟩, fun hp => (nomatch hp), fun hn => absurd rfl hn, fun _ => Option.some_ne_none _,
      fun hp => (nomatch hp)⟩

/-- In phase RECON the bound on `RPOS` rests on `RI`, which counts the bytes still needed. -/
theorem StepKind.cursorInv {s t : State} (h : StepKind s t) (hi : CursorInv s) (hri : s.phase = .recon → RI s) :
    CursorInv t := by
  cases h with
  | reset => exact (inv_hardwareReset s).cursors
  | start _ range => exact (inv_startDecode range ..).cursors
  | wait => exact hi
  | container phase did =>
    have hr : Running s := .inl phase
    have hcur := did.rel.bound (hi.cur hr)
    rw [did.rel.frame]
    exact ⟨fun _ => hcur, hi.givenBack, fun hp => (nomatch phase.symm.trans hp), fun hp => (nomatch phase.symm.trans hp)⟩
  | enterInflate phase =>
    have hr : Running s := .inl phase
    exact ⟨fun _ => hi.cur hr, fun hn => absurd (.inr (.inl rfl)) hn, fun _ => Nat.zero_le _, fun hp => (nomatch hp)⟩
  | inflate phase rel =>
    have hbp := rel.bound (hi.bp phase)
    rw [rel.frame]
    exact ⟨hi.cur, hi.givenBack, fun _ => hbp, fun hp => (nomatch phase.symm.trans hp)⟩
  | enterRecon phase =>
    have hr : Running s := .inr (.inl phase)
    exact ⟨fun _ => hi.cur hr, fun hn => absurd (.inr (.inr rfl)) hn, fun hp => (nomatch hp), fun _ => Nat.zero_le _⟩
  | recon phase rel ready =>
    have hrpos := (ready (hri phase)).rpos
    rw [rel.frame] at hrpos ⊢
    exact ⟨hi.cur, hi.givenBack, hi.bp, fun _ => hrpos⟩
  | commit => exact cursorInv_of_not_running (not_running_commit s) rfl
  | fault => exact cursorInv_of_not_running (not_running_raiseFault _ _) rfl

theorem StepKind.adlerInv {s t : State} (h : StepKind s t) (hi : AdlerInv s) : AdlerInv t := by
  cases h with
  | reset => exact (inv_hardwareReset s).adler
  | start _ range => exact (inv_startDecode range ..).adler
  | wait => exact hi
  | container _ did => rw [did.rel.frame]; exact hi
  | enterInflate phase => exact fun _ => hi (ne_faulted_of_running (.inl phase))
  | inflate phase rel =>
    obtain ⟨new, hobuf, hsums⟩ := rel.out
    intro _
    rw [hsums, hobuf, hi (ne_faulted_of_running (.inr (.inl phase)))]
    exact List.foldl_append.symm
  | enterRecon phase => exact fun _ => hi (ne_faulted_of_running (.inr (.inl phase)))
  | recon _ rel => rw [rel.frame]; exact hi
  | commit phase => exact fun _ => hi (ne_faulted_of_running (.inr (.inr phase)))
  | fault => exact fun hn => absurd rfl hn

theorem StepKind.headerInv {s t : State} (h : StepKind s t) (hi : HeaderInv s) : HeaderInv t := by
  cases h with
  | reset => exact (inv_hardwareReset s).header
  | start _ range => exact (inv_startDecode range ..).header
  | wait => exact hi
  | container phase did =>
    have hceiling : Running t → 1 ≤ t.cfgMaxPixels ∧ t.cfgMaxPixels < 2 ^ 30 := by rw [did.rel.frame]; exact hi.ceiling
    have hp : t.phase = .container := did.rel.phase.trans phase
    have hread : HeaderRead t → t.pstate = .readingChunks ∨ t.pstate = .done := by simp [HeaderRead, hp]
    have hdr := did.hdr (hdrOk_of_headerInv phase hi)
    refine ⟨hceiling, fun hr => ?_, fun hr => ?_⟩
    · obtain ⟨hw, hh, hc, -⟩ := hdr (hread hr)
      exact ⟨hw, hh, hc⟩
    · obtain ⟨-, -, -, hpair⟩ := hdr (hread hr)
      exact hpair
  | enterInflate phase ended =>
    have hr : HeaderRead s := .inl ⟨phase, .inr ended⟩
    exact ⟨fun _ => hi.ceiling (.inl phase), fun _ => hi.size hr, fun _ => hi.pair hr⟩
  | inflate phase rel =>
    have hr : HeaderRead s := .inr (.inl phase)
    rw [rel.frame]
    exact ⟨hi.ceiling, fun _ => hi.size hr, fun _ => hi.pair hr⟩
  | enterRecon phase =>
    have hr : HeaderRead s := .inr (.inl phase)
    exact ⟨fun _ => hi.ceiling (running_of_headerRead hr), fun _ => hi.size hr, fun _ => hi.pair hr⟩
  | recon phase rel =>
    have hr : HeaderRead s := .inr (.inr phase)
    rw [rel.frame]
    exact ⟨hi.ceiling, fun _ => hi.size hr, fun _ => hi.pair hr⟩
  | commit => exact headerInv_of_not_running (not_running_commit s)
  | fault => exact headerInv_of_not_running (not_running_raiseFault _ _)

theorem StepKind.tableInv {s t : State} (h : StepKind s t) (hi : TableInv s) : TableInv t := by
  cases h with
  | reset => exact (inv_hardwareReset s).tables
  | start _ range => exact (inv_startDecode range ..).tables
  | wait => exact hi
  | container _ did => exact did.rel.tables hi
  | enterInflate => exact tableInv_of (s := s) rfl rfl rfl rfl rfl rfl rfl rfl hi
  | inflate _ rel => exact rel.tables hi
  | enterRecon => exact tableInv_of (s := s) rfl rfl rfl rfl rfl rfl rfl rfl hi
  | recon _ rel => exact tableInv_of_reconRel rel hi
  | commit => exact tableInv_of (s := s) rfl rfl rfl rfl rfl rfl rfl rfl hi
  | @fault _ u _ tables => exact tableInv_of (s := u) rfl rfl rfl rfl rfl rfl rfl rfl (tables hi)

theorem StepKind.inflateInv {s t : State} (h : StepKind s t) (hi : InflateInv s) : InflateInv t := by
  cases h with
  | reset => exact (inv_hardwareReset s).inflate
  | start _ range => exact (inv_startDecode range ..).inflate
  | wait => exact hi
  | container phase did => exact inflateInv_of_phase (by rw [did.rel.phase, phase]; decide)
  | enterInflate => exact inflateInv_of_seqOk (seqOk_of_stage (by simp) (by simp))
  | inflate phase _ seq => exact inflateInv_of_seqOk (seq (seqOk_of_inflateInv phase hi))
  | enterRecon => exact inflateInv_of_phase (by simp [afterEntry])
  | recon phase rel => exact inflateInv_of_phase (by rw [rel.phase, phase]; decide)
  | commit => exact inflateInv_of_phase (by simp)
  | fault => exact inflateInv_of_phase (by simp)

/-- The passes from the first on are all of them, so that they take `need` bytes (46_scanline.md R293). -/
theorem bytesFrom_firstPass (bits : Nat) (s : State) : bytesFrom bits s (firstPass s).val = needBytes bits s := by
  unfold bytesFrom needBytes firstPass passSteps
  cases s.ihIlace <;> rfl

theorem firstPass_mem_passSteps (s : State) : firstPass s ∈ passSteps s := by
  unfold firstPass passSteps
  cases s.ihIlace <;> decide

/-- Entering RECON, after the length check, leaves the bytes of every pass to be taken (46_scanline.md R294). -/
theorem reconInv_afterEntry {s : State} {bits : Nat} (hb : bitspp s = some bits) (hn : needBytes bits s ≤ s.obuf.length) :
    ReconInv (afterEntry s) where
  pass := fun p b _ hs hb' => by
    obtain rfl : firstPass s = p := ReconStage.pass.inj hs
    obtain rfl : bits = b := Option.some.inj (hb.symm.trans hb')
    refine ⟨firstPass_mem_passSteps s, ?_⟩
    have hbytes : bytesFrom bits (afterEntry s) (firstPass s).val = needBytes bits s := bytesFrom_firstPass bits s
    have hrpos : (afterEntry s).rpos = 0 := rfl
    rw [hbytes, hrpos, Nat.zero_add]
    exact hn
  row := fun _ _ hs => by rcases hs with hs | hs <;> cases hs
  pixel := fun _ _ hs => (nomatch hs)

theorem StepKind.reconInv {s t : State} (h : StepKind s t) (hi : ReconInv s) (hri : s.phase = .recon → RI s) : ReconInv t := by
  cases h with
  | reset => exact (inv_hardwareReset s).recon
  | start _ range => exact (inv_startDecode range ..).recon
  | wait => exact hi
  | container phase did => exact reconInv_of_phase (by rw [did.rel.phase, phase]; decide)
  | enterInflate => exact reconInv_of_phase (by simp)
  | inflate phase rel => exact reconInv_of_phase (by rw [rel.phase, phase]; decide)
  | enterRecon _ hb hn => exact reconInv_afterEntry hb hn
  | recon phase _ ready => exact (ready (hri phase)).recon
  | commit => exact reconInv_of_phase (by simp)
  | fault => exact reconInv_of_phase (by simp)

/-- What RECON relies on is part of the invariant. -/
theorem ri_of_inv {s : State} (h : Inv s) (hp : s.phase = .recon) : RI s :=
  ⟨h.tables, h.header.pair (.inr (.inr hp)), h.output.frame hp, hp, h.recon, h.cursors.rpos hp⟩

/-! ### The invariants after reset and along every step -/

/-- Settles O54: hardware reset of the reset state is the reset state. -/
theorem invAtReset : Obligations.InvAtReset := inv_hardwareReset State.reset

/-- Settles O58, invariant by invariant over the cases of a step; in phase RECON the invariants together are `RI`, which
`recon_step` keeps. -/
theorem invKept : Obligations.InvKept := fun s t hi hstep => by
  have h := stepKind_of_step hstep
  exact {
    memory := h.memoryInv hi.memory
    output := h.outputInv hi.output
    cursors := h.cursorInv hi.cursors (ri_of_inv hi)
    adler := h.adlerInv hi.adler
    header := h.headerInv hi.header
    tables := h.tableInv hi.tables
    inflate := h.inflateInv hi.inflate
    recon := h.reconInv hi.recon (ri_of_inv hi) }

/-! ### What moves forward within a phase -/

/-- Settles O52, by the cases of a step: the relations of the three phases (`ContRel`, `InflRel`, `ReconRel`) say what each phase
writes, and the other cases are excluded by the inputs or leave the phase. -/
theorem forwardOnly : Obligations.ForwardOnly := fun s t q hstep hsame => by
  cases stepKind_of_step hstep with
  | reset line => cases q.2.symm.trans line
  | start cmd => cases q.1.symm.trans cmd
  | wait =>
    exact ⟨le_rfl, le_rfl, le_rfl, rfl, rfl, rfl, List.prefix_rfl, List.prefix_rfl,
      fun _ => ⟨rfl, rfl, rfl, rfl, rfl, rfl, rfl, rfl, rfl, rfl, rfl⟩, fun _ => rfl⟩
  | container phase did =>
    have hcur := did.rel.cur
    have hzbuf := did.rel.zbuf
    rw [did.rel.frame]
    exact ⟨hcur, le_rfl, le_rfl, rfl, rfl, rfl, hzbuf, List.prefix_rfl, fun hn => absurd phase hn, fun _ => rfl⟩
  | enterInflate phase => cases hsame.trans phase
  | inflate phase rel =>
    have hbp := rel.bp
    have hobuf : s.obuf <+: t.obuf := by
      obtain ⟨new, happend, -⟩ := rel.out
      exact ⟨new, happend.symm⟩
    rw [rel.frame]
    exact ⟨le_rfl, hbp, le_rfl, rfl, rfl, rfl, List.prefix_rfl, hobuf,
      fun _ => ⟨rfl, rfl, rfl, rfl, rfl, rfl, rfl, rfl, rfl, rfl, rfl⟩, fun hn => absurd phase hn⟩
  | enterRecon phase => cases hsame.trans phase
  | recon phase rel =>
    have hrpos := rel.rpos
    rw [rel.frame]
    exact ⟨le_rfl, le_rfl, hrpos, rfl, rfl, rfl, List.prefix_rfl, List.prefix_rfl,
      fun _ => ⟨rfl, rfl, rfl, rfl, rfl, rfl, rfl, rfl, rfl, rfl, rfl⟩, fun _ => rfl⟩
  | commit phase => cases hsame.trans phase
  | fault running => exact absurd hsame.symm (ne_faulted_of_running running)

end Sys2Proof.StateProofs
end

section
/-! The driver of each phase (44_inflate_blocks.md R231, R239, R244; 46_scanline.md R290; 47_pixel_convert.md R324) as one equation per
position, and from these the element a step runs. -/

namespace Sys2Proof.StateProofs

open Sys2Proof Sys2Proof.Machine Sys2Proof.Safety Sys2Proof.Laws

/-! ### A selecting value, read and decoded -/

theorem decoded_ok {f : Format} {v : Nat} {i : Instr} (hd : decode f v = .ok i) (s : State) :
    decoded f v s = .ok (some i) s := by
  simp only [decoded, hd]

theorem bind_decoded_ok {r : Res Nat} {f : Format} {v : Nat} {i : Instr} {u : State} (hr : r = .ok v u)
    (hd : decode f v = .ok i) : r.bind (decoded f) = .ok (some i) u := by
  rw [hr, bind_ok, decoded_ok hd]

theorem bind_decoded_raise {r : Res Nat} {f : Format} {k : FaultKind} {u : State} (hr : r = .raise k u) :
    r.bind (decoded f) = .raise k u := by
  rw [hr, bind_raise]

/-- A field whose bits are not all there is `TruncatedCompressedData`, wherever the cursor stands. -/
theorem getbits_missing {n : Nat} {s : State} (hn : 0 < n) (h : 8 * s.zbuf.length < s.bp + n) :
    ∃ u, getbits n s = .raise .truncatedCompressedData u := by
  rcases getbits_cases n s with ⟨v, ⟨-, hbits⟩, -⟩ | ⟨u, -, hu, -⟩
  · have := bitIs_lt (hbits (n - 1) (by omega))
    omega
  · exact ⟨u, hu⟩

/-! ### What the fetch reads, by position -/

theorem fetch_signature {s : State} (q : Quiet s) (hp : s.phase = .container) (hs : s.pstate = .expectSignature) :
    fetch s = .ok (some .sig) s := by
  simp only [fetch_container q hp, fetchContainer, hs]

theorem fetch_zhdr {s : State} (q : Quiet s) (hp : s.phase = .inflate) (hs : s.istage = .zhdr) :
    fetch s = .ok (some .zhdr) s := by
  simp only [fetch_inflate q hp, fetchInflate, hs]

theorem fetch_block {s : State} (q : Quiet s) (hp : s.phase = .inflate) (hs : s.istage = .block) :
    fetch s = (getbits 3 s).bind (decoded .bhdr) := by
  simp only [fetch_inflate q hp, fetchInflate, hs]

theorem fetch_codeLengths {s : State} (q : Quiet s) (hp : s.phase = .inflate) (hs : s.istage = .codeLengths)
    (hlt : s.clSeq.length < s.hlit + s.hdist) : fetch s = (decodeSym s.clLen s).bind (decoded .clsym) := by
  simp only [fetch_inflate q hp, fetchInflate, hs, if_pos hlt]

theorem fetch_huffman {s : State} (q : Quiet s) (hp : s.phase = .inflate) (hs : s.istage = .huffman) :
    fetch s = (decodeSym s.llLen s).bind (decoded .llsym) := by
  simp only [fetch_inflate q hp, fetchInflate, hs]

theorem fetch_distance {s : State} (q : Quiet s) (hp : s.phase = .inflate) (hs : s.istage = .distance) :
    fetch s = (decodeSym s.dLen s).bind (decoded .dsym) := by
  simp only [fetch_inflate q hp, fetchInflate, hs]

theorem fetch_trailer {s : State} (q : Quiet s) (hp : s.phase = .inflate) (hs : s.istage = .trailer) :
    fetch s = .ok (some .ztrl) s := by
  simp only [fetch_inflate q hp, fetchInflate, hs]

theorem fetch_pass {s : State} {p : Fin 8} (q : Quiet s) (hp : s.phase = .recon) (hs : s.rstage = .pass p) :
    fetch s = decoded (.ilace p) s.ihIlace.toNat s := by
  simp only [fetch_recon q hp, fetchRecon, hs, ilaceMethod]

theorem fetch_row {s : State} {ft : Byte} (q : Quiet s) (hp : s.phase = .recon) (hs : s.rstage = .row)
    (hlt : s.row.toNat < s.passH.toNat) (hft : s.obuf[s.rpos]? = some ft) :
    fetch s = decoded .row ft.toNat { s with rpos := s.rpos + 1 } := by
  simp only [fetch_recon q hp, fetchRecon, hs, if_pos hlt, readByte_some hft, bind_ok]

theorem fetch_pixel {s : State} (q : Quiet s) (hp : s.phase = .recon) (hs : s.rstage = .pixel)
    (hlt : s.col < s.passW.toNat) : fetch s = decoded .depthCtype (s.ihDepth.toNat * 256 + s.ihCtype.toNat) s := by
  simp only [fetch_recon q hp, fetchRecon, hs, if_pos hlt, be16]

/-! ### The element a step runs -/

/-- Settles O53: the fetch's equation at each position, with what reading and decoding the selecting value answers. -/
theorem stepRunsDecodedElement : Obligations.StepRunsDecodedElement := by
  refine ⟨fun s c hr hc => step_element (fetch_command hr hc),
    fun s q hp hs => step_element (fetch_signature q hp hs), fun s q hp hs => step_element (fetch_zhdr q hp hs),
    fun s v i q hp hs hf hd => ?block, fun s u v i q hp hs hlt hv hd => ?codeLengths, fun s u v i q hp hs hv hd => ?huffman,
    fun s u v i q hp hs hv hd => ?distance, fun s q hp hs => step_element (fetch_trailer q hp hs),
    fun s p i q hp hs hd => ?pass, fun s ft i q hp hs hlt hft hd => ?row, fun s i q hp hs hlt hd => ?pixel,
    fun s q hp hs hshort => ?blockMissing, fun s u k q hp hs hlt hv => ?codeLengthsRaise, fun s u k q hp hs hv => ?huffmanRaise,
    fun s u k q hp hs hv => ?distanceRaise⟩
  case block => exact step_element ((fetch_block q hp hs).trans (bind_decoded_ok (getbits_ok hf) hd))
  case codeLengths => exact step_element ((fetch_codeLengths q hp hs hlt).trans (bind_decoded_ok hv hd))
  case huffman => exact step_element ((fetch_huffman q hp hs).trans (bind_decoded_ok hv hd))
  case distance => exact step_element ((fetch_distance q hp hs).trans (bind_decoded_ok hv hd))
  case pass => exact step_element ((fetch_pass q hp hs).trans (decoded_ok hd s))
  case row => exact step_element ((fetch_row q hp hs hlt hft).trans (decoded_ok hd _))
  case pixel => exact step_element ((fetch_pixel q hp hs hlt).trans (decoded_ok hd s))
  case blockMissing =>
    obtain ⟨u, hu⟩ := getbits_missing (by decide) hshort
    rw [step_raise ((fetch_block q hp hs).trans (bind_decoded_raise hu))]
    exact raises_next _ u
  case codeLengthsRaise => exact step_raise ((fetch_codeLengths q hp hs hlt).trans (bind_decoded_raise hv))
  case huffmanRaise => exact step_raise ((fetch_huffman q hp hs).trans (bind_decoded_raise hv))
  case distanceRaise => exact step_raise ((fetch_distance q hp hs).trans (bind_decoded_raise hv))

end Sys2Proof.StateProofs
end

section
/-! The encodings of 30_encoding.md: what each format's decoder answers, once, as a lemma about that format; from these, decode
and encode agree in both directions (R100 to R121). -/

namespace Sys2Proof.EncodingProofs

open Sys2Proof Sys2Proof.Machine Sys2Proof.Safety Sys2Proof.Laws

/-! ### Chunk types (R103, R104) -/

theorem isKnownTag_iff {t : Word} :
    isKnownTag t = true ↔ t = tagIHDR ∨ t = tagPLTE ∨ t = tagTRNS ∨ t = tagIDAT ∨ t = tagIEND := by
  simp only [isKnownTag, Bool.or_eq_true, beq_iff_eq, or_assoc]

/-- A type that is none of the five tags is told apart by its ancillary bit. -/
theorem decodeChunkType_unknown {t : Word} (h : isKnownTag t = false) :
    decodeChunkType t = if isAncillary t then .anc t else .crit t := by
  have hne := mt isKnownTag_iff.2 (Bool.eq_false_iff.1 h)
  simp only [not_or] at hne
  obtain ⟨hIHDR, hPLTE, hTRNS, hIDAT, hIEND⟩ := hne
  simp only [decodeChunkType, hIHDR, hPLTE, hTRNS, hIDAT, hIEND, if_false]

/-- A 32-bit type is within the selecting field of its format. -/
theorem decode_chunk_toNat (t : Word) : decode .chunk t.toNat = .ok (decodeChunkType t) := by
  simp only [decode, if_pos t.isLt, BitVec.ofNat_toNat, BitVec.setWidth_eq]

theorem decodeChunkType_encode (t : Word) :
    (decodeChunkType t).wf = true ∧ encode (decodeChunkType t) = some (.chunk, t.toNat) := by
  cases hk : isKnownTag t with
  | true => rcases isKnownTag_iff.1 hk with rfl | rfl | rfl | rfl | rfl <;> exact ⟨rfl, rfl⟩
  | false =>
    rw [decodeChunkType_unknown hk]
    cases ha : isAncillary t <;> simp [Instr.wf, encode, ha, hk]

/-! ### Operands of the elements that carry one -/

theorem decodeLL_lit (v : Byte) : decodeLL v.toNat = .ok (.lit v) := by
  simp only [decodeLL, if_pos v.isLt, BitVec.ofNat_toNat, BitVec.setWidth_eq]

theorem decodeCL_clLen (v : CodeLen) : decodeCL v.toNat = .ok (.clLen v) := by
  simp only [decodeCL, if_pos v.isLt, BitVec.ofNat_toNat, BitVec.setWidth_eq]

/-- A filter byte of 5 and above is reserved (R119). -/
theorem decodeFilter_reserved {ft : Nat} (h5 : 5 ≤ ft) :
    decodeFilter ft = if ft < 256 then .ok (.filtRsvd (BitVec.ofNat 8 ft)) else .error .fieldTooWide := by
  unfold decodeFilter
  split
  case h_6 => rfl
  all_goals omega

/-! ### Decode of encode -/

/-- An element's encoding is one word of one format, so it is enough to decode that word. -/
theorem decode_of_encode_eq {i : Instr} {f f' : Format} {v v' : Nat} (he : encode i = some (f', v'))
    (hd : decode f' v' = .ok i) (h : encode i = some (f, v)) : decode f v = .ok i := by
  rw [he] at h
  cases h
  exact hd

theorem decode_encode {i : Instr} {f : Format} {v : Nat} (hwf : i.wf = true) (h : encode i = some (f, v)) :
    decode f v = .ok i := by
  cases i with
  | anc t =>
    obtain ⟨ha, hk⟩ : isAncillary t = true ∧ isKnownTag t = false := by simpa [Instr.wf] using hwf
    refine decode_of_encode_eq rfl ?_ h
    rw [decode_chunk_toNat, decodeChunkType_unknown hk, if_pos ha]
  | crit t =>
    obtain ⟨ha, hk⟩ : isAncillary t = false ∧ isKnownTag t = false := by simpa [Instr.wf] using hwf
    refine decode_of_encode_eq rfl ?_ h
    rw [decode_chunk_toNat, decodeChunkType_unknown hk, if_neg (by simp [ha])]
  | blkStored final | blkFixed final | blkDyn final | blkRsvd final =>
    exact decode_of_encode_eq rfl (by cases final <;> rfl) h
  | lit value => exact decode_of_encode_eq rfl (decodeLL_lit value) h
  | clLen value => exact decode_of_encode_eq rfl (decodeCL_clLen value) h
  | filtRsvd ft =>
    have h5 : 5 ≤ ft.toNat := of_decide_eq_true hwf
    refine decode_of_encode_eq rfl ?_ h
    rw [decode, decodeFilter_reserved h5, if_pos ft.isLt, BitVec.ofNat_toNat, BitVec.setWidth_eq]
  | decode | readExact | readU8 | readU32BE | atEnd | getbit | getbits | alignByte | crcInit | crcUpdate | crcCheck
  | adlerInit | adlerUpdate | emit | buildCode | checkCode | decodeSym => nomatch h
  | _ => exact decode_of_encode_eq rfl rfl h

/-- Settles O1: every element's own word decodes to it; the elements with an operand by the lemma of their format. -/
theorem decodeOfEncode : Obligations.DecodeOfEncode :=
  fun _ _ _ hwf h => decode_encode hwf h

/-! ### Encode of decode, format by format -/

theorem decodeChunk_encode {v : Nat} {i : Instr} (h : decode .chunk v = .ok i) :
    i.wf = true ∧ encode i = some (.chunk, v) := by
  rw [decode] at h
  split at h
  case isFalse => nomatch h
  case isTrue hlt =>
    cases h
    have := decodeChunkType_encode (BitVec.ofNat 32 v)
    rwa [BitVec.toNat_ofNat, Nat.mod_eq_of_lt hlt] at this

theorem decodeBlockHeader_encode {v : Nat} {i : Instr} (h : decodeBlockHeader v = .ok i) :
    i.wf = true ∧ encode i = some (.bhdr, v) := by
  by_cases hlt : v < 8
  · interval_cases v <;> cases h <;> exact ⟨rfl, rfl⟩
  · rw [decodeBlockHeader, if_neg hlt] at h
    nomatch h

/-- Entry `k` of the list of literal/length symbols from 257 on is the element of symbol `257 + k` (R114). -/
theorem llSymbolsFrom257_encode {k : Nat} {i : Instr} (h : llSymbolsFrom257[k]? = some i) :
    i.wf = true ∧ encode i = some (.llsym, 257 + k) := by
  have hrow : ∀ k : Fin 31, llSymbolsFrom257[k].wf = true ∧
      encode llSymbolsFrom257[k] = some (.llsym, 257 + k.val) := by decide
  obtain ⟨hk, rfl⟩ := List.getElem?_eq_some_iff.1 h
  exact hrow ⟨k, hk⟩

/-- Entry `k` of the list of distance symbols is the element of symbol `k` (R115). -/
theorem distSymbols_encode {k : Nat} {i : Instr} (h : distSymbols[k]? = some i) :
    i.wf = true ∧ encode i = some (.dsym, k) := by
  have hrow : ∀ k : Fin 32, distSymbols[k].wf = true ∧ encode distSymbols[k] = some (.dsym, k.val) := by decide
  obtain ⟨hk, rfl⟩ := List.getElem?_eq_some_iff.1 h
  exact hrow ⟨k, hk⟩

theorem decodeLL_encode {sym : Nat} {i : Instr} (h : decodeLL sym = .ok i) :
    i.wf = true ∧ encode i = some (.llsym, sym) := by
  unfold decodeLL at h
  split at h
  case isTrue hlt =>
    cases h
    exact ⟨rfl, by rw [encode, BitVec.toNat_ofNat, Nat.mod_eq_of_lt hlt]⟩
  case isFalse hge =>
    split at h
    case isTrue heob => cases h; exact ⟨rfl, by rw [encode, heob]⟩
    case isFalse hne =>
      split at h
      case h_1 hrow =>
        cases h
        have := llSymbolsFrom257_encode hrow
        rwa [show 257 + (sym - 257) = sym by omega] at this
      case h_2 => nomatch h

theorem decodeDist_encode {sym : Nat} {i : Instr} (h : decodeDist sym = .ok i) :
    i.wf = true ∧ encode i = some (.dsym, sym) := by
  unfold decodeDist at h
  split at h
  case h_1 hrow => cases h; exact distSymbols_encode hrow
  case h_2 => nomatch h

theorem decodeCL_encode {sym : Nat} {i : Instr} (h : decodeCL sym = .ok i) :
    i.wf = true ∧ encode i = some (.clsym, sym) := by
  by_cases hlt : sym < 19
  · interval_cases sym <;> cases h <;> exact ⟨rfl, rfl⟩
  · simp [decodeCL, show ¬ sym < 16 by omega, show sym ≠ 16 by omega, show sym ≠ 17 by omega,
      show sym ≠ 18 by omega] at h

theorem decodeFilter_encode {ft : Nat} {i : Instr} (h : decodeFilter ft = .ok i) :
    i.wf = true ∧ encode i = some (.row, ft) := by
  by_cases h5 : 5 ≤ ft
  · rw [decodeFilter_reserved h5] at h
    split at h
    case isFalse => nomatch h
    case isTrue hlt =>
      cases h
      have hft : (BitVec.ofNat 8 ft).toNat = ft := by rw [BitVec.toNat_ofNat, Nat.mod_eq_of_lt hlt]
      exact ⟨by simpa only [Instr.wf, hft, decide_eq_true_eq] using h5, by rw [encode, hft]⟩
  · interval_cases ft <;> cases h <;> exact ⟨rfl, rfl⟩

/-- Step 0 is the single pass of method 0, steps 1 to 7 are the passes of method 1 (R121). -/
theorem passInstr_encode (step : Fin 8) :
    (passInstr step).wf = true ∧ encode (passInstr step) = some (.ilace step, if step = 0 then 0 else 1) := by
  revert step
  decide

theorem decodeIlace_encode {step : Fin 8} {method : Nat} {i : Instr} (h : decodeIlace step method = .ok i) :
    i.wf = true ∧ encode i = some (.ilace step, method) := by
  unfold decodeIlace at h
  split at h
  case isFalse => nomatch h
  case isTrue hm =>
    cases h
    have := passInstr_encode step
    rcases hm with ⟨rfl, hs⟩ | ⟨rfl, hs⟩ <;> simpa [hs] using this

theorem decodeDepthCtype_encode {v : Nat} {i : Instr} (h : decodeDepthCtype v = .ok i) :
    i.wf = true ∧ encode i = some (.depthCtype, v) := by
  unfold decodeDepthCtype at h
  split at h <;> cases h <;> exact ⟨rfl, rfl⟩

/-- Settles O2, by the lemma of each format. -/
theorem encodeOfDecode : Obligations.EncodeOfDecode := by
  intro f v i hsig hzhdr hztrl h
  cases f with
  | sig => exact absurd rfl hsig
  | zhdr => exact absurd rfl hzhdr
  | ztrl => exact absurd rfl hztrl
  | chunk => exact decodeChunk_encode h
  | bhdr => exact decodeBlockHeader_encode h
  | llsym => exact decodeLL_encode h
  | dsym => exact decodeDist_encode h
  | clsym => exact decodeCL_encode h
  | row => exact decodeFilter_encode h
  | ilace step => exact decodeIlace_encode h
  | depthCtype => exact decodeDepthCtype_encode h
  | cmd | prim => nomatch h

/-- Settles O3: each word, run through the decoder. -/
theorem decodeSpecWords : Obligations.DecodeSpecWords :=
  ⟨rfl, rfl, rfl, rfl, rfl, rfl, rfl, rfl, rfl, rfl, rfl, rfl⟩

end Sys2Proof.EncodingProofs
end

section
/-! Reading a code word of a canonical code (44_inflate_blocks.md R241, R243), for every length vector whose code words fit, and
from it the fixed code of a static block (30_encoding.md R117). -/

namespace Sys2Proof.EncodingProofs

open Sys2Proof Sys2Proof.Machine Sys2Proof.Safety Sys2Proof.Laws

/-! ### The code table -/

/-- `buildCode` gives a symbol its canonical code word, or nothing where its length is 0 (R241). -/
theorem buildCode_get {lens : List CodeLen} {sym : Nat} (h : sym < lens.length) :
    (buildCode lens)[sym]? =
      some (if lens.getD sym 0 = 0 then (0, 0) else ((lens.getD sym 0).toNat, canonicalCode lens sym)) := by
  have hlen : (nextCodes 0 ((List.range 15).map (codeCount lens))).length = 15 := by simp [nextCodes_length]
  rw [buildCode, assignCodes_get lens _ sym hlen h]
  by_cases hl : lens.getD sym 0 = 0
  · rw [if_pos hl, if_pos hl]
  · have hb := codeLen_pos hl
    have hfirst := nextCodes_get lens 15 0 ((lens.getD sym 0).toNat - 1) (by omega)
    rw [← List.range_eq_range', firstCode, show 0 + ((lens.getD sym 0).toNat - 1) + 1 = (lens.getD sym 0).toNat by omega]
      at hfirst
    rw [if_neg hl, if_neg hl, List.getD_eq_getElem?_getD (l := nextCodes _ _), hfirst, Option.getD_some, canonicalCode]

/-- An entry of the code table with a length in use is the code word of a symbol that has one. -/
theorem buildCode_entry {lens : List CodeLen} {sym : Nat} {e : Nat × Nat} (he : (buildCode lens)[sym]? = some e)
    (hpos : e.1 ≠ 0) : sym < lens.length ∧ lens.getD sym 0 ≠ 0 ∧
      e = ((lens.getD sym 0).toNat, canonicalCode lens sym) := by
  have hsym : sym < lens.length := by
    have := (List.getElem?_eq_some_iff.1 he).1
    rwa [buildCode, assignCodes_length] at this
  rw [buildCode_get hsym] at he
  split at he <;> cases he
  case isTrue => exact absurd rfl hpos
  case isFalse hl => exact ⟨hsym, hl, rfl⟩

/-- The table entry that a length and a value select, as `decodeSym` looks for it (R243). -/
def lookupCode (lens : List CodeLen) (len c : Nat) : Option Nat :=
  (buildCode lens).findIdx? fun e => e.1 == len && e.2 == c

section
variable {lens : List CodeLen} {sym : Nat} (hsym : sym < lens.length) (hl : lens.getD sym 0 ≠ 0)
include hsym hl

/-- The whole code word of a symbol selects that symbol. -/
theorem lookupCode_codeWord : lookupCode lens (lens.getD sym 0).toNat (canonicalCode lens sym) = some sym := by
  have hpos := codeLen_pos hl
  have hget := buildCode_get hsym
  rw [if_neg hl] at hget
  refine findIdx?_unique hget (by simp) fun other e he hmatch => ?_
  obtain ⟨hlen, hcode⟩ : e.1 = _ ∧ e.2 = _ := by simpa only [Bool.and_eq_true, beq_iff_eq] using hmatch
  obtain ⟨hother, -, rfl⟩ := buildCode_entry he (by omega)
  exact canonical_inj lens hother hsym (BitVec.eq_of_toNat_eq hlen) hcode

/-- A code word cut short selects nothing: the code words of its length all lie below it. -/
theorem lookupCode_shortened {d : Nat} (hd : 0 < d) (hdl : d < (lens.getD sym 0).toNat) :
    lookupCode lens ((lens.getD sym 0).toNat - d) (canonicalCode lens sym / 2 ^ d) = none := by
  refine findIdx?_none fun other e he => Bool.eq_false_iff.2 fun hmatch => ?_
  obtain ⟨hlen, hcode⟩ : e.1 = _ ∧ e.2 = _ := by simpa only [Bool.and_eq_true, beq_iff_eq] using hmatch
  obtain ⟨hother, hlo, rfl⟩ := buildCode_entry he (by omega)
  have hbelow := (canonical_lt lens other hother hlo).2
  have hfirst := (canonical_lt lens sym hsym hl).1
  have hshort := firstCode_ge lens (lens.getD other 0).toNat (d - 1)
  rw [show (lens.getD other 0).toNat + (d - 1) + 1 = (lens.getD sym 0).toNat by simp only at hlen; omega,
    show d - 1 + 1 = d by omega] at hshort
  have := (Nat.le_div_iff_mul_le (by positivity)).2 (hshort.trans hfirst)
  simp only at hcode
  omega

end

/-! ### Bits of a code word -/

@[simp] theorem codeBits_length (w v : Nat) : (codeBits w v).length = w := by simp [codeBits]

theorem codeBits_succ (w v : Nat) : codeBits (w + 1) v = v.testBit w :: codeBits w v := by
  simp [codeBits, List.range_succ_eq_map, Nat.sub_sub, Nat.add_comm 1]

theorem bitsAt_cons {z : List Byte} {bp : Nat} {b : Bool} {bits : List Bool} (h : BitsAt z bp (b :: bits)) :
    BitIs z bp b ∧ BitsAt z (bp + 1) bits := by
  refine ⟨h 0 b rfl, fun k c hk => ?_⟩
  have := h (k + 1) c hk
  rwa [← Nat.add_assoc, Nat.add_right_comm] at this

/-- One more bit of a code word, at the end of the bits read so far. -/
theorem two_mul_div_add_testBit (v d : Nat) : 2 * (v / 2 ^ (d + 1)) + (v.testBit d).toNat = v / 2 ^ d := by
  rw [Nat.toNat_testBit, Nat.pow_succ, ← Nat.div_div_eq_div_mul, Nat.div_add_mod]

/-! ### Reading a code word -/

/-- A round of the loop of `decodeSym` whose bit completes a code word. -/
theorem decodeFrom_found {lens : List CodeLen} {n len c sym : Nat} {s : State} {b : Bool} (hb : BitIs s.zbuf s.bp b)
    (h : lookupCode lens (len + 1) (2 * c + b.toNat) = some sym) :
    decodeFrom (buildCode lens) (n + 1) len c s = .ok sym { s with bp := s.bp + 1 } := by
  rw [lookupCode] at h
  rw [decodeFrom, getbit_ok hb, bind_ok, h]

/-- A round of the loop of `decodeSym` after which more bits are needed. -/
theorem decodeFrom_more {lens : List CodeLen} {n len c : Nat} {s : State} {b : Bool} (hb : BitIs s.zbuf s.bp b)
    (h : lookupCode lens (len + 1) (2 * c + b.toNat) = none) :
    decodeFrom (buildCode lens) (n + 1) len c s =
      decodeFrom (buildCode lens) n (len + 1) (2 * c + b.toNat) { s with bp := s.bp + 1 } := by
  rw [lookupCode] at h
  rw [decodeFrom, getbit_ok hb, bind_ok, h]

/-- With the last `d + 1` bits of a code word still to read, the loop reads them and returns the symbol. -/
theorem decodeFrom_codeWord {lens : List CodeLen} {sym : Nat} (hsym : sym < lens.length) (hl : lens.getD sym 0 ≠ 0) :
    ∀ (d n : Nat) (s : State), d < (lens.getD sym 0).toNat → d < n →
      BitsAt s.zbuf s.bp (codeBits (d + 1) (canonicalCode lens sym)) →
      decodeFrom (buildCode lens) n ((lens.getD sym 0).toNat - (d + 1)) (canonicalCode lens sym / 2 ^ (d + 1)) s =
        .ok sym { s with bp := s.bp + (d + 1) } := by
  intro d
  induction d with
  | zero =>
    intro n s hdl hn hbits
    obtain ⟨n, rfl⟩ : ∃ m, n = m + 1 := ⟨n - 1, by omega⟩
    rw [codeBits_succ] at hbits
    refine decodeFrom_found (bitsAt_cons hbits).1 ?_
    rw [two_mul_div_add_testBit, Nat.sub_add_cancel hdl, Nat.pow_zero, Nat.div_one]
    exact lookupCode_codeWord hsym hl
  | succ d ih =>
    intro n s hdl hn hbits
    obtain ⟨n, rfl⟩ : ∃ m, n = m + 1 := ⟨n - 1, by omega⟩
    rw [codeBits_succ] at hbits
    obtain ⟨hb, hrest⟩ := bitsAt_cons hbits
    have hlen : (lens.getD sym 0).toNat - (d + 1 + 1) + 1 = (lens.getD sym 0).toNat - (d + 1) := by omega
    rw [decodeFrom_more hb, two_mul_div_add_testBit, hlen, ih n _ (by omega) (by omega) hrest]
    · simp only [Nat.add_assoc, Nat.add_comm 1]
    · rw [two_mul_div_add_testBit, hlen]
      exact lookupCode_shortened hsym hl d.succ_pos hdl

/-- `decodeSym` reads a symbol from its canonical code word and consumes exactly the word's bits (R243). -/
theorem decodeSym_codeWord {lens : List CodeLen} {sym : Nat} {s : State} (hk : kraftSum lens ≤ 2 ^ 15)
    (hsym : sym < lens.length) (hl : lens.getD sym 0 ≠ 0)
    (hbits : BitsAt s.zbuf s.bp (codeBits (lens.getD sym 0).toNat (canonicalCode lens sym))) :
    decodeSym lens s = .ok sym { s with bp := s.bp + (lens.getD sym 0).toNat } := by
  have hfits := code_fits lens hk sym hsym hl
  have hread := decodeFrom_codeWord hsym hl ((lens.getD sym 0).toNat - 1) 15 s
  have hpos := codeLen_pos hl
  rw [show (lens.getD sym 0).toNat - 1 + 1 = (lens.getD sym 0).toNat by omega, Nat.sub_self, Nat.div_eq_of_lt hfits]
    at hread
  exact hread (by omega) (by omega) hbits

/-! ### The fixed code (R117) -/

/-- Inside a run of symbols of one length the code words count up from the one of the run's first symbol. -/
theorem canonicalCode_run {lens before after : List CodeLen} {len : CodeLen} {n sym : Nat}
    (hlens : lens = before ++ (List.replicate n len ++ after)) (hlo : before.length ≤ sym) (hhi : sym < before.length + n) :
    lens.getD sym 0 = len ∧
    canonicalCode lens sym =
      firstCode lens len.toNat + (before.countP fun l => l == len) + (sym - before.length) := by
  obtain ⟨k, rfl⟩ := Nat.exists_eq_add_of_le hlo
  have hk : k < n := by omega
  have hget : lens.getD (before.length + k) 0 = len := by
    simp [hlens, List.getD_eq_getElem?_getD, List.getElem?_append, hk]
  have htake : lens.take (before.length + k) = before ++ List.replicate k len := by
    rw [hlens, List.take_length_add_append, List.take_append_of_le_length (by simp; omega), List.take_replicate,
      Nat.min_eq_left hk.le]
  refine ⟨hget, ?_⟩
  rw [canonicalCode, hget, htake, List.countP_append, List.countP_replicate, if_pos (beq_self_eq_true len),
    Nat.add_sub_cancel_left, Nat.add_assoc]

theorem kraftSum_fixedLLLens : kraftSum fixedLLLens = 2 ^ 15 := by
  simp [kraftSum, fixedLLLens, -List.reduceReplicate]

theorem kraftSum_fixedDistLens : kraftSum fixedDistLens = 2 ^ 15 := by
  simp [kraftSum, fixedDistLens, -List.reduceReplicate]

/-- The first code words of the fixed literal/length code: 0000000 of 7 bits, 00110000 of 8 bits, 110010000 of 9 bits. -/
theorem firstCode_fixedLLLens :
    firstCode fixedLLLens 7 = 0 ∧ firstCode fixedLLLens 8 = 0x30 ∧ firstCode fixedLLLens 9 = 0x190 := by
  simp [firstCode, fixedLLLens, List.countP_append, List.countP_replicate, -List.reduceReplicate]

/-- The code word of a symbol in a run of the fixed lengths that begins with symbol `start` at the code word `first`. -/
theorem fixedLL_run {sym word : Nat} (before after : List CodeLen) (len : CodeLen) (n start first : Nat)
    (hlens : fixedLLLens = before ++ (List.replicate n len ++ after)) (hpos : len ≠ 0) (hstart : before.length = start)
    (hfirst : firstCode fixedLLLens len.toNat + (before.countP fun l => l == len) = first)
    (hlo : start ≤ sym) (hhi : sym < start + n) (hword : first + (sym - start) = word) :
    fixedLLLens.getD sym 0 ≠ 0 ∧ codeBits (fixedLLLens.getD sym 0).toNat (canonicalCode fixedLLLens sym) =
      codeBits len.toNat word := by
  subst hstart
  obtain ⟨hlen, hcode⟩ := canonicalCode_run hlens hlo hhi
  rw [hlen, hcode, hfirst, hword]
  exact ⟨hpos, rfl⟩

/-- The rule's table of the literal/length code words, run by run, is the canonical code of the fixed lengths. -/
theorem fixedLLWord_eq {sym : Nat} (h : sym < 288) :
    fixedLLLens.getD sym 0 ≠ 0 ∧
    codeBits (fixedLLLens.getD sym 0).toNat (canonicalCode fixedLLLens sym) = fixedLLWord sym := by
  obtain ⟨h7, h8, h9⟩ := firstCode_fixedLLLens
  have hruns : fixedLLLens =
      List.replicate 144 8 ++ (List.replicate 112 9 ++ (List.replicate 24 7 ++ List.replicate 8 8)) := by
    simp only [fixedLLLens, List.append_assoc]
  unfold fixedLLWord
  split_ifs with h144 h256 h280
  · exact fixedLL_run [] _ 8 144 0 0x30 hruns (by decide) rfl (by simp [h8]) (by omega) (by omega) rfl
  · exact fixedLL_run (List.replicate 144 8) _ 9 112 144 0x190 hruns (by decide) (by rw [List.length_replicate])
      (by simp [h9, List.countP_replicate, -List.reduceReplicate]) (by omega) (by omega) (by omega)
  · exact fixedLL_run (List.replicate 144 8 ++ List.replicate 112 9) (List.replicate 8 8) 7 24 256 0
      (by simp only [hruns, List.append_assoc]) (by decide) (by simp only [List.length_append, List.length_replicate])
      (by simp [h7, List.countP_append, List.countP_replicate, -List.reduceReplicate]) (by omega) (by omega) (by omega)
  · exact fixedLL_run (List.replicate 144 8 ++ List.replicate 112 9 ++ List.replicate 24 7) [] 8 8 280 0xC0
      (by simp only [hruns, List.append_assoc, List.append_nil]) (by decide)
      (by simp only [List.length_append, List.length_replicate])
      (by simp [h8, List.countP_append, List.countP_replicate, -List.reduceReplicate]) (by omega) (by omega) (by omega)

theorem firstCode_fixedDistLens : firstCode fixedDistLens 5 = 0 := by
  simp [firstCode, fixedDistLens, List.countP_replicate, -List.reduceReplicate]

/-- The rule's distance code words, each symbol in 5 bits, are the canonical code of the fixed lengths. -/
theorem fixedDistWord_eq {sym : Nat} (h : sym < 32) :
    fixedDistLens.getD sym 0 = 5 ∧ canonicalCode fixedDistLens sym = sym := by
  have hlens : fixedDistLens = [] ++ (List.replicate 32 5 ++ []) := by
    simp only [fixedDistLens, List.append_nil, List.nil_append]
  obtain ⟨hlen, hcode⟩ := canonicalCode_run hlens sym.zero_le (by simpa using h)
  refine ⟨hlen, ?_⟩
  simpa [firstCode_fixedDistLens] using hcode

/-- Settles O4: the fixed lengths are a complete code, and its canonical code words are those of the rule's table. -/
theorem fixedCodeWords : Obligations.FixedCodeWords := by
  refine ⟨fun s sym h hbits => ?literal, fun s sym h hbits => ?distance⟩
  case literal =>
    obtain ⟨hpos, hword⟩ := fixedLLWord_eq h
    have hlength : (fixedLLLens.getD sym 0).toNat = (fixedLLWord sym).length := by rw [← hword, codeBits_length]
    rw [← hlength]
    exact decodeSym_codeWord kraftSum_fixedLLLens.le (by simpa [fixedLLLens, -List.reduceReplicate] using h) hpos
      (hword ▸ hbits)
  case distance =>
    obtain ⟨hlen, hcode⟩ := fixedDistWord_eq h
    have hread := decodeSym_codeWord (s := s) kraftSum_fixedDistLens.le (sym := sym)
      (by simpa [fixedDistLens, -List.reduceReplicate] using h) (by rw [hlen]; decide)
    rw [hlen, hcode] at hread
    exact hread hbits

end Sys2Proof.EncodingProofs
end

section
/-! The readers of 40_stream_reader.md as elements: each element is its operation with the value kept in `ret`, so the laws of the
operations settle the statements (R141 to R148). -/

namespace Sys2Proof.ReaderProofs

open Sys2Proof Sys2Proof.Machine Sys2Proof.Safety Sys2Proof.Laws

/-! ### The elements, by their operations -/

theorem exec_readExact (n : Nat) (s : State) : exec (.readExact n) s = finishRet Ret.bytes (readExact n s) := rfl
theorem exec_readU8 (s : State) : exec .readU8 s = finishRet Ret.nat (readU8 s) := rfl
theorem exec_readU32BE (s : State) : exec .readU32BE s = finishRet Ret.nat (readU32BE s) := rfl
theorem exec_atEnd (s : State) : exec .atEnd s = .next { s with ret := .bool (atEnd s) } := rfl
theorem exec_getbit (s : State) : exec .getbit s = finishRet Ret.nat (getbit s) := rfl
theorem exec_getbits (n : Nat) (s : State) : exec (.getbits n) s = finishRet Ret.nat (getbits n s) := rfl
theorem exec_alignByte (s : State) : exec .alignByte s = .next (alignByte s) := rfl

/-! ### Primitives that raise -/

section
variable {α : Type} {w : α → Ret} {r : Res α} {k : FaultKind}

/-- A primitive whose operation raises, raises. -/
theorem raises_finishRet {u : State} (h : r = .raise k u) : Raises (finishRet w r) k := by
  rw [h, finishRet_raise]
  exact raises_next k u

/-- Fault entry keeps `CUR`, so a primitive whose operation raises where it began leaves the cursor in place. -/
theorem faulted_finishRet_cur {s : State} (h : r = .raise k s) :
    ∃ t, finishRet w r = .next t ∧ Faulted k t ∧ t.cur = s.cur := by
  rw [h, finishRet_raise]
  exact ⟨_, rfl, faulted_raiseFault k s, rfl⟩

end

/-! ### Byte reader -/

/-- The bytes from a position on begin with the byte at that position. -/
theorem drop_eq_cons {l : List Byte} {i : Nat} {b : Byte} (h : l[i]? = some b) : l.drop i = b :: l.drop (i + 1) := by
  rw [List.drop_eq_getElem?_toList_append, h]
  rfl

/-- `readU8` with a byte left. -/
theorem readU8_ok {s : State} {b : Byte} (h : s.input[s.cur]? = some b) :
    readU8 s = .ok b.toNat { s with cur := s.cur + 1 } := by
  have hlt := (List.getElem?_eq_some_iff.1 h).1
  rw [readU8, readExact_ok hlt, bind_ok, drop_eq_cons h, List.take_succ_cons, readByte_some rfl, bind_ok]

/-- `readU8` with no byte left: nothing is consumed. -/
theorem readU8_short {s : State} (h : s.input.length - s.cur < 1) : readU8 s = .raise .truncatedInput s := by
  rw [readU8, readExact_short h, bind_raise]

theorem atEnd_eq_decide (s : State) : atEnd s = decide (s.cur = s.input.length) := beq_eq_decide ..

/-- Settles O8: each primitive by the law of its operation, with the bytes there and with too few left. -/
theorem byteReader : Obligations.ByteReader := by
  refine ⟨fun n s h => ?exact, fun n s hcur hend => ?exactShort, fun s b hb => ?u8, fun s hend => ?u8Short,
    fun s b0 b1 b2 b3 h0 h1 h2 h3 => ?u32, fun s hcur hend => ?u32Short, fun s => ?atEnd⟩
  case exact =>
    refine ⟨(s.input.drop s.cur).take n, ?_, ?_, fun k hk => ?_⟩
    · rw [exec_readExact, readExact_ok h, finishRet_ok]
    · rw [List.length_take, List.length_drop]
      omega
    · rw [List.getElem?_take_of_lt hk, List.getElem?_drop]
  case exactShort => exact faulted_finishRet_cur (readExact_short (by omega))
  case u8 => rw [exec_readU8, readU8_ok hb, finishRet_ok]
  case u8Short => exact faulted_finishRet_cur (readU8_short (by omega))
  case u32 =>
    have hbytes : s.input.drop s.cur = b0 :: b1 :: b2 :: b3 :: s.input.drop (s.cur + 4) := by
      rw [drop_eq_cons h0, drop_eq_cons h1, drop_eq_cons h2, drop_eq_cons h3]
    rw [exec_readU32BE, readU32BE_ok hbytes, finishRet_ok, be32]
  case u32Short => exact faulted_finishRet_cur (readU32BE_short (by omega))
  case atEnd => rw [exec_atEnd, atEnd_eq_decide]

/-! ### Bit reader -/

/-- `alignByte` moves the bit cursor to the first byte boundary at or after it. -/
theorem alignByte_bp_bounds (s : State) :
    (alignByte s).bp % 8 = 0 ∧ s.bp ≤ (alignByte s).bp ∧ (alignByte s).bp < s.bp + 8 := by
  rw [alignByte_bp]
  omega

/-- Settles O9: the bits by the laws of `getbit` and `getbits`, the boundary by the arithmetic of `alignByte`. -/
theorem bitReader : Obligations.BitReader := by
  refine ⟨fun s b hb => ?bit, fun s hend => ?bitEnd, fun s n v hv => ?bits, fun s n hbp hend => ?bitsShort, fun s => ?align⟩
  case bit => rw [exec_getbit, getbit_ok hb, finishRet_ok]
  case bitEnd => exact raises_finishRet (getbit_end hend)
  case bits => rw [exec_getbits, getbits_ok hv, finishRet_ok]
  case bitsShort =>
    obtain ⟨u, hu⟩ := getbits_short hbp hend
    exact raises_finishRet hu
  case align => exact ⟨(alignByte s).bp, exec_alignByte s, alignByte_bp_bounds s⟩

end Sys2Proof.ReaderProofs
end

section
/-! Container elements (41_container.md): an element by the checks it makes in order, then the statements about the signature, the
chunk record and the seven chunk elements. -/

namespace Sys2Proof.ContainerProofs

open Sys2Proof Sys2Proof.Machine Sys2Proof.Safety Sys2Proof.Laws Sys2Proof.StateProofs Sys2Proof.EncodingProofs

/-! ### The elements, by their meanings -/

theorem exec_sig (s : State) : exec .sig s = execSig s := rfl
theorem exec_ihdr (s : State) : exec .ihdr s = execIhdr s := rfl
theorem exec_plte (s : State) : exec .plte s = execPlte s := rfl
theorem exec_trns (s : State) : exec .trns s = execTrns s := rfl
theorem exec_idat (s : State) : exec .idat s = execIdat s := rfl
theorem exec_iend (s : State) : exec .iend s = execIend s := rfl
theorem exec_anc (t : Word) (s : State) : exec (.anc t) s = execAnc t s := rfl

/-! ### Elements that make checks before they write -/

section
variable {α β : Type} {p : Prop} [Decidable p] {k : FaultKind} {s u : State}

/-- A check that passes leaves the rest to do. -/
theorem require_bind_pos (h : p) (k : FaultKind) (s : State) (f : Unit → State → Res β) :
    (require p k s).bind f = f () s := by
  rw [require_pos h, bind_ok]

/-- Nothing is done after a check that fails (00_scope.md R13). -/
theorem require_bind_neg (h : ¬ p) (k : FaultKind) (s : State) (f : Unit → State → Res β) :
    (require p k s).bind f = .raise k s := by
  rw [require_neg h, bind_raise]

/-- An element raises the kind of its first check where that fails, or where the rest raises the same kind. -/
theorem raises_require_bind {f : Unit → State → Res β} (h : p → Raises (finish (f () s)) k) :
    Raises (finish ((require p k s).bind f)) k := by
  by_cases hp : p
  · rw [require_bind_pos hp]
    exact h hp
  · exact raises_finish (require_bind_neg hp ..)

/-- A fault raised in the first part of an element is the element's. -/
theorem raises_bind {r : Res α} {f : α → State → Res β} (h : r = .raise k u) : Raises (finish (r.bind f)) k :=
  raises_finish (bind_eq_raise.2 (.inl h))

end

/-- Before the first image data there is no run to close (R171). -/
theorem closeIdatRun_of_unseen {s : State} (h : s.seenIdat = false) : closeIdatRun s = s := by
  rw [closeIdatRun, h, if_neg Bool.false_ne_true]

/-! ### Signature (R160) -/

/-- `SIG` with eight bytes left compares them with the signature. -/
theorem execSig_compare {s : State} (h : s.cur + 8 ≤ s.input.length) :
    execSig s = finish ((require ((s.input.drop s.cur).take 8 = signature) .invalidSignature
      { s with cur := s.cur + 8 }).bind fun _ s => .ok () { s with pstate := .expectHeader }) := by
  rw [execSig, readExact_ok h, bind_ok]

/-- Settles O14: the eight bytes are there or not, then the comparison of R160. -/
theorem signatureElement : Obligations.SignatureElement := by
  intro s _
  refine ⟨fun hsig => ?pass, fun hshort => ?truncated, fun henough hne => ?mismatch⟩
  case pass =>
    have henough : s.cur + 8 ≤ s.input.length := by
      have hlen := congrArg List.length hsig
      simp only [List.length_take, List.length_drop, List.length_cons, List.length_nil] at hlen
      omega
    exact (execSig_compare henough).trans (congrArg finish (require_bind_pos hsig ..))
  case truncated => exact raises_bind (readExact_short (by omega))
  case mismatch =>
    rw [exec_sig, execSig_compare henough]
    exact raises_bind (require_neg hne ..)

/-! ### The chunk record and the first chunk (R165, R170) -/

section
variable {s u : State} {k : FaultKind} (q : Quiet s) (hp : s.phase = .container)
include q hp

theorem fetch_readingChunks (hs : s.pstate = .readingChunks) :
    fetch s = (readChunk s).bind fun _ s => decoded .chunk s.ckType.toNat s := by
  simp only [fetch_container q hp, fetchContainer, hs]

theorem fetch_expectHeader (hs : s.pstate = .expectHeader) :
    fetch s = (readChunk s).bind fun _ s =>
      (require (s.ckType = tagIHDR) .missingHeader s).bind fun _ s => decoded .chunk s.ckType.toNat s := by
  simp only [fetch_container q hp, fetchContainer, hs]

/-- What `ReadChunk` raises, the step raises, before the type is looked at. -/
theorem raises_step_readChunk (hs : s.pstate = .readingChunks ∨ s.pstate = .expectHeader)
    (hr : readChunk s = .raise k u) : Raises (step s) k := by
  have hf : fetch s = .raise k u := by
    rcases hs with hs | hs
    · rw [fetch_readingChunks q hp hs, hr, bind_raise]
    · rw [fetch_expectHeader q hp hs, hr, bind_raise]
  rw [step_raise hf]
  exact raises_next k u

/-- Where the header is expected, another type is a fault once its record has been read. -/
theorem raises_step_missingHeader (hs : s.pstate = .expectHeader) (hr : readChunk s = .ok () u)
    (ht : u.ckType ≠ tagIHDR) : Raises (step s) .missingHeader := by
  have hf : fetch s = .raise .missingHeader u := by
    rw [fetch_expectHeader q hp hs, hr, bind_ok, require_bind_neg ht]
  rw [step_raise hf]
  exact raises_next _ u

/-- A type in order selects the element that the step runs in the state with the record read. -/
theorem step_chunkElement {i : Instr} (hs : s.pstate = .readingChunks ∨ s.pstate = .expectHeader)
    (hr : readChunk s = .ok () u) (hfirst : s.pstate = .readingChunks ∨ u.ckType = tagIHDR)
    (hi : decode .chunk u.ckType.toNat = .ok i) : step s = exec i u := by
  refine step_element ?_
  by_cases hread : s.pstate = .readingChunks
  · rw [fetch_readingChunks q hp hread, hr, bind_ok, decoded_ok hi]
  · rw [fetch_expectHeader q hp (hs.resolve_left hread), hr, bind_ok, require_bind_pos (hfirst.resolve_left hread),
      decoded_ok hi]

end

/-- A record of fewer than the twelve bytes every record has is not complete (R102). -/
theorem readChunk_lt_twelve {s : State} (h : s.input.length < s.cur + 12) :
    ∃ u, readChunk s = .raise .truncatedInput u := by
  rcases readChunk_cases s with ⟨len, type, pay, crc, hr⟩ | ⟨_, _, _, _, -, -, hu⟩
  · have := recordAt_bound hr
    omega
  · exact ⟨_, hu⟩

/-- Settles O15: what `ReadChunk` answers on a complete and on an incomplete record, then the check of the first chunk's type. -/
theorem chunkRecord : Obligations.ChunkRecord := by
  intro s q hp hs _
  refine ⟨fun len type pay crc hrec => ?record, fun len hlen hshort => ?payload, fun hshort => ?twelve⟩
  case record =>
    have hread := readChunk_record hrec
    refine ⟨fun hbad => ?_, fun hgood => ?_⟩
    · exact raises_step_readChunk q hp hs (hread.trans (if_neg hbad))
    · have hok := hread.trans (if_pos hgood)
      exact ⟨fun he ht => raises_step_missingHeader q hp he hok ht,
        fun hfirst i hi => step_chunkElement q hp hs hok hfirst hi⟩
  case payload =>
    obtain ⟨u, hu⟩ := readChunk_short hlen hshort
    exact raises_step_readChunk q hp hs hu
  case twelve =>
    obtain ⟨u, hu⟩ := readChunk_lt_twelve hshort
    exact raises_step_readChunk q hp hs hu

/-! ### Header chunk (R166) -/

/-- The header chunk handler once the payload's fields are read: the checks after the one on the size, then the registers. -/
def acceptHeader (w h : Nat) (d c cm fm il : Byte) (s : State) : Res Unit :=
  (require (w ≠ 0 ∧ h ≠ 0) .malformedChunk s).bind fun _ s =>
  (require (legalPair d c = true) .unsupportedFormat s).bind fun _ s =>
  (require (cm = 0 ∧ fm = 0 ∧ il.toNat ≤ 1) .unsupportedFormat s).bind fun _ s =>
  (require (w * h ≤ s.cfgMaxPixels) .imageTooLarge s).bind fun _ s =>
  .ok () { s with
    ihWidth := BitVec.ofNat 32 w
    ihHeight := BitVec.ofNat 32 h
    ihDepth := d
    ihCtype := c
    ihIlace := decide (il = 1) }

/-- On a payload of 13 bytes the handler reads its seven fields and goes on with `acceptHeader`. -/
theorem headerHandler_fields {s : State} {w h : Word} {d c cm fm il : Byte} (hlen : s.ckLen = 13)
    (hpay : s.ckPay = bytesBE 4 w.toNat ++ bytesBE 4 h.toNat ++ [d, c, cm, fm, il]) :
    headerHandler s = acceptHeader w.toNat h.toNat d c cm fm il s := by
  have hpayload : payload s = .ok s.ckPay s := payload_ok (by rw [hpay, hlen]; rfl)
  have hw : s.ckPay.drop 0 = bytesBE 4 w.toNat ++ (bytesBE 4 h.toNat ++ [d, c, cm, fm, il]) := by
    rw [hpay, List.drop_zero, List.append_assoc]
  have hh : s.ckPay.drop 4 = bytesBE 4 h.toNat ++ [d, c, cm, fm, il] := drop_of_append hw (bytesBE_length ..)
  have hbyte (i : Nat) : s.ckPay[8 + i]? = [d, c, cm, fm, il][i]? := by
    rw [← List.getElem?_drop, drop_of_append hh (bytesBE_length ..)]
  rw [headerHandler, require_bind_pos hlen, hpayload, bind_ok, payloadBE32_word hw, bind_ok, payloadBE32_word hh, bind_ok,
    readByte_some (hbyte 0), bind_ok, readByte_some (hbyte 1), bind_ok, readByte_some (hbyte 2), bind_ok,
    readByte_some (hbyte 3), bind_ok, readByte_some (hbyte 4), bind_ok, acceptHeader]

theorem execIhdr_expectHeader {s : State} (hs : s.pstate = .expectHeader) :
    execIhdr s = finish ((headerHandler s).bind fun _ s => .ok () { s with pstate := .readingChunks }) := by
  rw [execIhdr, if_pos hs]

section
variable {s : State} {w h : Nat} {d c cm fm il : Byte}

theorem acceptHeader_empty (hsize : ¬ (w ≠ 0 ∧ h ≠ 0)) :
    acceptHeader w h d c cm fm il s = .raise .malformedChunk s := by
  rw [acceptHeader, require_bind_neg hsize]

theorem acceptHeader_illegalPair (hsize : w ≠ 0 ∧ h ≠ 0) (hpair : (d, c) ∉ legalPairTable) :
    acceptHeader w h d c cm fm il s = .raise .unsupportedFormat s := by
  rw [acceptHeader, require_bind_pos hsize, require_bind_neg (mt (legalPair_iff d c).1 hpair)]

theorem acceptHeader_unknownMethod (hsize : w ≠ 0 ∧ h ≠ 0) (hpair : (d, c) ∈ legalPairTable)
    (hmethods : ¬ (cm = 0 ∧ fm = 0 ∧ il.toNat ≤ 1)) : acceptHeader w h d c cm fm il s = .raise .unsupportedFormat s := by
  rw [acceptHeader, require_bind_pos hsize, require_bind_pos ((legalPair_iff d c).2 hpair), require_bind_neg hmethods]

/-- With its other fields accepted, the header passes where the product, not wrapped, is within the ceiling. -/
theorem acceptHeader_ceiling (hsize : w ≠ 0 ∧ h ≠ 0) (hpair : (d, c) ∈ legalPairTable)
    (hmethods : cm = 0 ∧ fm = 0 ∧ il.toNat ≤ 1) :
    acceptHeader w h d c cm fm il s = (require (w * h ≤ s.cfgMaxPixels) .imageTooLarge s).bind fun _ s =>
      .ok () { s with
        ihWidth := BitVec.ofNat 32 w, ihHeight := BitVec.ofNat 32 h, ihDepth := d, ihCtype := c
        ihIlace := decide (il = 1) } := by
  rw [acceptHeader, require_bind_pos hsize, require_bind_pos ((legalPair_iff d c).2 hpair), require_bind_pos hmethods]

end

/-- Settles O16: the five checks in the rule's order, each as what the handler answers where it is the first to fail. -/
theorem headerChunk : Obligations.HeaderChunk := by
  intro s hs
  rw [exec_ihdr, execIhdr_expectHeader hs]
  refine ⟨fun hlen => ?length, fun w h d c cm fm il hlen hpay => ?fields⟩
  case length => exact raises_bind (by rw [headerHandler, require_bind_neg hlen])
  case fields =>
    rw [headerHandler_fields hlen hpay]
    refine ⟨fun hzero => raises_bind (acceptHeader_empty ?zero), fun hw hh => ?_⟩
    case zero => rcases hzero with rfl | rfl <;> simp
    have hsize : w.toNat ≠ 0 ∧ h.toNat ≠ 0 := ⟨BitVec.toNat_ne_iff_ne.2 hw, BitVec.toNat_ne_iff_ne.2 hh⟩
    refine ⟨fun hpair => raises_bind (acceptHeader_illegalPair hsize hpair), fun hpair => ?_⟩
    refine ⟨fun hmethods => raises_bind (acceptHeader_unknownMethod hsize hpair hmethods), fun hmethods => ?_⟩
    rw [acceptHeader_ceiling hsize hpair hmethods]
    refine ⟨fun hlarge => ?_, fun hfits => ?_⟩
    · exact raises_bind (require_bind_neg (Nat.not_le.2 hlarge) ..)
    · rw [require_bind_pos hfits, bind_ok, finish_ok, BitVec.ofNat_toNat, BitVec.ofNat_toNat, BitVec.setWidth_eq,
        BitVec.setWidth_eq]

/-! ### Register files written from the front (R173, R175) -/

section
variable {α : Type} {new old : List α} {i : Nat}

theorem overwriteFront_getElem?_lt (h : i < new.length) : (overwriteFront new old)[i]? = new[i]? :=
  List.getElem?_append_left h

theorem overwriteFront_getElem?_ge (h : new.length ≤ i) : (overwriteFront new old)[i]? = old[i]? := by
  rw [overwriteFront, List.getElem?_append_right h, List.getElem?_drop, Nat.add_sub_cancel' h]

end

/-- Entry `i` of a palette is the bytes `3 * i` to `3 * i + 2` of the payload (R173). -/
theorem rgbTriplets_getElem? : ∀ {l : List Byte} {i : Nat}, i < l.length / 3 →
    (rgbTriplets l)[i]? = some ⟨l.getD (3 * i) 0, l.getD (3 * i + 1) 0, l.getD (3 * i + 2) 0⟩
  | _ :: _ :: _ :: _, 0, _ => rfl
  | r :: g :: b :: rest, i + 1, h => by
    have hrest : i < rest.length / 3 := by
      simp only [List.length_cons] at h
      omega
    simp only [rgbTriplets, List.getElem?_cons_succ, rgbTriplets_getElem? hrest, Nat.mul_succ, List.getD_cons_succ]
  | [], _, h | [_], _, h | [_, _], _, h => by
    simp at h

/-! ### Palette (R173) -/

theorem execPlte_outOfOrder {s : State} (h : s.seenIdat = true ∨ s.ihCtype ≠ 3 ∨ s.havePlte = true) :
    Raises (execPlte s) .invalidChunkOrder := by
  refine raises_require_bind fun hunseen => raises_require_bind fun htype => raises_require_bind fun hfirst => ?_
  rw [closeIdatRun_seenIdat] at hunseen
  rw [closeIdatRun_ihCtype] at htype
  rw [closeIdatRun_havePlte] at hfirst
  rcases h with h | h | h
  · simp [hunseen] at h
  · exact absurd htype h
  · simp [hfirst] at h

/-- `PLTE` in order: the check on the size, then the entries. -/
theorem execPlte_inOrder {s : State} (hunseen : s.seenIdat = false) (htype : s.ihCtype = 3) (hfirst : s.havePlte = false) :
    execPlte s = finish ((require (s.ckLen ≠ 0 ∧ s.ckLen.toNat % 3 = 0 ∧ s.ckLen.toNat ≤ 768) .malformedChunk s).bind
      fun _ s => (payload s).bind fun pay s => .ok () { s with
        pltN := BitVec.ofNat 9 (s.ckLen.toNat / 3), plt := overwriteFront (rgbTriplets pay) s.plt, havePlte := true }) := by
  rw [execPlte, closeIdatRun_of_unseen hunseen, require_bind_pos hunseen,
    require_bind_pos htype, require_bind_pos hfirst]

/-- Settles O17: the order checks, the size check, then the entries the payload's triplets overwrite. -/
theorem paletteChunk : Obligations.PaletteChunk := by
  intro s hpay
  refine ⟨execPlte_outOfOrder, fun hunseen htype hfirst => ?_⟩
  rw [exec_plte, execPlte_inOrder hunseen htype hfirst]
  refine ⟨fun hsize => raises_bind (require_neg (fun ⟨h0, h3, h768⟩ => ?size) ..), fun h0 h3 h768 => ?entries⟩
  case size =>
    rcases hsize with h | h | h
    exacts [h0 h, h h3, Nat.not_lt.2 h768 h]
  case entries =>
    have hn : (BitVec.ofNat 9 (s.ckLen.toNat / 3)).toNat = s.ckLen.toNat / 3 := by
      rw [BitVec.toNat_ofNat]
      omega
    have hlen : (rgbTriplets s.ckPay).length = s.ckLen.toNat / 3 := by rw [rgbTriplets_length', hpay]
    rw [require_bind_pos ⟨h0, h3, h768⟩, payload_ok hpay, bind_ok, finish_ok]
    refine ⟨_, _, rfl, hn, fun i hi => ?_, fun i hi => overwriteFront_getElem?_ge (by omega)⟩
    rw [overwriteFront_getElem?_lt (by omega), rgbTriplets_getElem? (by omega)]

/-! ### Transparency (R175) -/

/-- A key of the payload is its two bytes, the first the more significant (20_memory.md R78). -/
theorem be16_eq_append (b0 b1 : Byte) : BitVec.ofNat 16 (be16 b0 b1) = b0 ++ b1 := by
  apply BitVec.eq_of_toNat_eq
  have := b0.isLt
  have := b1.isLt
  rw [BitVec.toNat_append, ← Nat.shiftLeft_add_eq_or_of_lt b1.isLt, Nat.shiftLeft_eq, BitVec.toNat_ofNat, be16]
  omega

theorem payloadBE16_ok {pay : List Byte} {i : Nat} {b0 b1 : Byte} (h0 : pay[i]? = some b0) (h1 : pay[i + 1]? = some b1)
    (s : State) : payloadBE16 pay i s = .ok (b0 ++ b1) s := by
  rw [payloadBE16, readByte_some h0, bind_ok, readByte_some h1, bind_ok, be16_eq_append]

theorem execTrns_outOfOrder {s : State}
    (h : s.seenIdat = true ∨ s.haveTrns = true ∨ (s.ihCtype = 3 ∧ s.havePlte = false)) :
    Raises (execTrns s) .invalidChunkOrder := by
  refine raises_require_bind fun hunseen => raises_require_bind fun hfirst => raises_require_bind fun hpalette => ?_
  rw [closeIdatRun_seenIdat] at hunseen
  rw [closeIdatRun_haveTrns] at hfirst
  rw [closeIdatRun_ihCtype, closeIdatRun_havePlte] at hpalette
  rcases h with h | h | h
  · simp [hunseen] at h
  · simp [hfirst] at h
  · exact absurd h hpalette

/-- `TRNS` in order: the check on the colour type, then what depends on it, then the flag. -/
theorem execTrns_inOrder {s : State} (hunseen : s.seenIdat = false) (hfirst : s.haveTrns = false)
    (hpalette : ¬ (s.ihCtype = 3 ∧ s.havePlte = false)) :
    execTrns s = finish ((require (s.ihCtype ≠ 4 ∧ s.ihCtype ≠ 6) .malformedChunk s).bind fun _ s =>
      (transparencyTable s).bind fun _ s => .ok () { s with haveTrns := true }) := by
  rw [execTrns, closeIdatRun_of_unseen hunseen, require_bind_pos hunseen,
    require_bind_pos hfirst, require_bind_pos hpalette]

section
variable {s : State}

/-- The gray key (R175). -/
theorem transparencyTable_gray (hc : s.ihCtype = 0) :
    transparencyTable s = (require (s.ckLen = 2) .malformedChunk s).bind fun _ s =>
      (payload s).bind fun pay s => (payloadBE16 pay 0 s).bind fun k0 s =>
      .ok () { s with trnsKey := { s.trnsKey with k0 := k0 } } := by
  rw [transparencyTable, if_pos hc]

/-- The three truecolour keys (R175). -/
theorem transparencyTable_truecolour (hc : s.ihCtype = 2) :
    transparencyTable s = (require (s.ckLen = 6) .malformedChunk s).bind fun _ s =>
      (payload s).bind fun pay s => (payloadBE16 pay 0 s).bind fun k0 s =>
      (payloadBE16 pay 2 s).bind fun k1 s => (payloadBE16 pay 4 s).bind fun k2 s =>
      .ok () { s with trnsKey := ⟨k0, k1, k2⟩ } := by
  rw [transparencyTable, if_neg (by rw [hc]; decide), if_pos hc]

/-- The alpha entries of a palette (R175). -/
theorem transparencyTable_palette (hc : s.ihCtype = 3) :
    transparencyTable s = (require (s.ckLen.toNat ≤ s.pltN.toNat) .malformedChunk s).bind fun _ s =>
      (payload s).bind fun pay s => .ok () { s with
        trnsN := BitVec.ofNat 9 s.ckLen.toNat, trnsA := overwriteFront pay s.trnsA } := by
  rw [transparencyTable, if_neg (by rw [hc]; decide), if_neg (by rw [hc]; decide), if_pos hc]

/-- Any other colour type has no table. -/
theorem transparencyTable_other (h0 : s.ihCtype ≠ 0) (h2 : s.ihCtype ≠ 2) (h3 : s.ihCtype ≠ 3) :
    transparencyTable s = .ok () s := by
  rw [transparencyTable, if_neg h0, if_neg h2, if_neg h3]

end

/-- Settles O18: the position checks, then colour type by colour type the size check and the table. -/
theorem transparencyChunk : Obligations.TransparencyChunk := by
  intro s hpay
  refine ⟨execTrns_outOfOrder, fun hunseen hfirst hpalette => ?_⟩
  rw [exec_trns, execTrns_inOrder hunseen hfirst hpalette]
  refine ⟨fun halpha => raises_bind (require_neg (fun ⟨h4, h6⟩ => halpha.elim h4 h6) ..), fun hgray => ?gray,
    fun hcolour => ?truecolour, fun hother => ?other, fun htype hn => ?palette⟩
  case gray =>
    rw [require_bind_pos (by rw [hgray]; decide), transparencyTable_gray hgray]
    refine ⟨fun hlen => ?_, fun b0 b1 hb hlen => ?_⟩
    · exact raises_bind (require_bind_neg hlen ..)
    · have hbyte (i : Nat) : s.ckPay[i]? = [b0, b1][i]? := by rw [hb]
      rw [require_bind_pos hlen, payload_ok hpay, bind_ok, payloadBE16_ok (hbyte 0) (hbyte 1), bind_ok, bind_ok, finish_ok]
  case truecolour =>
    rw [require_bind_pos (by rw [hcolour]; decide), transparencyTable_truecolour hcolour]
    refine ⟨fun hlen => ?_, fun b0 b1 b2 b3 b4 b5 hb hlen => ?_⟩
    · exact raises_bind (require_bind_neg hlen ..)
    · have hbyte (i : Nat) : s.ckPay[i]? = [b0, b1, b2, b3, b4, b5][i]? := by rw [hb]
      rw [require_bind_pos hlen, payload_ok hpay, bind_ok, payloadBE16_ok (hbyte 0) (hbyte 1), bind_ok,
        payloadBE16_ok (hbyte 2) (hbyte 3), bind_ok, payloadBE16_ok (hbyte 4) (hbyte 5), bind_ok, bind_ok, finish_ok]
  case other =>
    simp only [List.mem_cons, List.not_mem_nil, or_false, not_or] at hother
    obtain ⟨h0, h2, h3, h4, h6⟩ := hother
    rw [require_bind_pos ⟨h4, h6⟩, transparencyTable_other h0 h2 h3, bind_ok, finish_ok]
  case palette =>
    rw [require_bind_pos (by rw [htype]; decide), transparencyTable_palette htype]
    refine ⟨fun hlen => ?_, fun hlen => ?_⟩
    · exact raises_bind (require_bind_neg (Nat.not_le.2 hlen) ..)
    · have htoNat : (BitVec.ofNat 9 s.ckLen.toNat).toNat = s.ckLen.toNat := by
        rw [BitVec.toNat_ofNat]
        omega
      rw [require_bind_pos hlen, payload_ok hpay, bind_ok, bind_ok, finish_ok]
      exact ⟨BitVec.ofNat 9 s.ckLen.toNat, overwriteFront s.ckPay s.trnsA, rfl, htoNat,
        fun i hi => overwriteFront_getElem?_lt (by omega), fun i hi => overwriteFront_getElem?_ge (by omega)⟩

/-! ### Image data (R177) -/

/-- Settles O19: the two order checks, then the payload appended. -/
theorem imageDataChunk : Obligations.ImageDataChunk := by
  intro s hpay
  rw [exec_idat, execIdat]
  refine ⟨fun h => ?outOfOrder, fun hopen hpalette => ?append⟩
  case outOfOrder =>
    refine raises_require_bind fun hopen => raises_require_bind fun hpalette => ?_
    rcases h with h | h
    · simp [hopen] at h
    · exact absurd h hpalette
  case append =>
    rw [require_bind_pos hopen, require_bind_pos hpalette, payload_ok hpay, bind_ok, finish_ok]

/-! ### The remaining chunks (R171, R172, R180, R181) -/

/-- Settles O20: element by element; a type that is none of the five tags is told apart by its ancillary bit. -/
theorem otherChunks : Obligations.OtherChunks := by
  refine ⟨fun s hs => ?ihdr, fun s hlen => ?iendLength, fun s hlen => ?iend, fun t s => ?anc, fun t s => ?crit,
    fun t hunknown => ?unknown⟩
  case ihdr => exact raises_finish (if_neg (by rw [hs]; decide))
  case iendLength => exact raises_bind (require_neg (by rwa [closeIdatRun_ckLen]) ..)
  case iend =>
    rw [exec_iend, execIend, require_bind_pos (by rwa [closeIdatRun_ckLen]), finish_ok,
      closeIdatRun_eq]
  case anc => rw [exec_anc, execAnc, closeIdatRun_eq]
  case crit => exact raises_next _ _
  case unknown =>
    simp only [List.mem_cons, List.not_mem_nil, or_false] at hunknown
    rw [decode_chunk_toNat, decodeChunkType_unknown (Bool.eq_false_iff.2 (mt isKnownTag_iff.1 hunknown)), isAncillary]

/-! ### The end of the container (R183, R363) -/

theorem fetch_containerDone {s : State} (q : Quiet s) (hp : s.phase = .container) (hs : s.pstate = .done) :
    fetch s = (enterInflate s).bind fun _ s => .ok none s := by
  simp only [fetch_container q hp, fetchContainer, hs]

theorem enterInflate_trailing {s : State} (h : s.cur ≠ s.input.length) : enterInflate s = .raise .trailingData s := by
  rw [enterInflate, require_bind_neg (by rwa [atEnd, beq_iff_eq])]

theorem enterInflate_atEnd {s : State} (h : s.cur = s.input.length) :
    enterInflate s = .ok () { s with phase := .inflate, bp := 0, istage := .zhdr } := by
  rw [enterInflate, require_bind_pos (by rwa [atEnd, beq_iff_eq])]

/-- Settles O21: the entry of INFLATE, with a byte left and at the end. -/
theorem endOfContainer : Obligations.EndOfContainer := by
  intro s q hp hs
  have hf := fetch_containerDone q hp hs
  refine ⟨fun hmore => ?trailing, fun hend => ?enter⟩
  case trailing =>
    rw [enterInflate_trailing hmore, bind_raise] at hf
    rw [step_raise hf]
    exact raises_next _ s
  case enter =>
    rw [enterInflate_atEnd hend, bind_ok] at hf
    exact step_sequencer hf

end Sys2Proof.ContainerProofs
end

section
/-! The CRC-32 register (42_crc32.md): the eight-step loop is linear and injective, from which its table form (R202) and the detection
of every change of one byte (R207) follow; then the check values of both checksums (R204, R213). -/

namespace Sys2Proof.ChecksumProofs

open Sys2Proof Sys2Proof.Machine Sys2Proof.Safety Sys2Proof.Laws

/-! ### The elements, by their operations -/

theorem exec_crcInit (s : State) : exec .crcInit s = .next (crcInit s) := rfl
theorem exec_crcUpdate (b : Byte) (s : State) : exec (.crcUpdate b) s = .next (crcUpdate b s) := rfl
theorem exec_crcCheck (e : Word) (s : State) : exec (.crcCheck e) s = finish (crcCheck e s) := rfl

/-! ### One shift of the register -/

/-- A shift moves the register down and adds the polynomial where the bit that left was 1. -/
theorem crcShift_eq (c : Word) : crcShift c = (c >>> 1) ^^^ (if c.getLsbD 0 then crcPoly else 0) := by
  rw [crcShift]
  split
  · rfl
  · rw [BitVec.ofNat_eq_ofNat, BitVec.xor_zero]

theorem crcShift_of_even {c : Word} (h : c.getLsbD 0 = false) : crcShift c = c >>> 1 :=
  if_neg (Bool.eq_false_iff.1 h)

/-- Whether the polynomial is added depends linearly on the bit that leaves, so a shift is linear. -/
theorem crcShift_xor (c d : Word) : crcShift (c ^^^ d) = crcShift c ^^^ crcShift d := by
  have hpoly : ∀ x y : Bool, (if x ^^ y then crcPoly else 0) = (if x then crcPoly else 0) ^^^ (if y then crcPoly else 0) := by
    decide
  simp only [crcShift_eq, BitVec.getLsbD_xor, BitVec.ushiftRight_xor_distrib, hpoly]
  ac_rfl

/-- The polynomial has its top bit set, so the bit that leaves at the bottom stands at the top after the shift. -/
theorem crcShift_getLsbD_top (c : Word) : (crcShift c).getLsbD 31 = c.getLsbD 0 := by
  rw [crcShift_eq, BitVec.getLsbD_xor, BitVec.getLsbD_ushiftRight, BitVec.getLsbD_of_ge c (1 + 31) (by decide)]
  cases c.getLsbD 0 <;> rfl

/-- The top bit of the result tells whether the polynomial was added, so a shift can be undone. -/
theorem crcShift_injective : Function.Injective crcShift := by
  intro c d h
  have hlow : c.getLsbD 0 = d.getLsbD 0 := by rw [← crcShift_getLsbD_top, h, crcShift_getLsbD_top]
  have hhigh : c >>> 1 = d >>> 1 := by
    rw [crcShift_eq, crcShift_eq, hlow] at h
    exact (BitVec.xor_left_inj _).1 h
  refine BitVec.eq_of_getLsbD_eq fun i _ => ?_
  cases i with
  | zero => exact hlow
  | succ i =>
    have hbit := congrArg (BitVec.getLsbD · i) hhigh
    simpa only [BitVec.getLsbD_ushiftRight, Nat.add_comm 1] using hbit

/-! ### The loop -/

theorem crcShifts_eq_iterate (n : Nat) (c : Word) : crcShifts n c = crcShift^[n] c := by
  induction n generalizing c with
  | zero => rfl
  | succ n ih => exact ih (crcShift c)

/-- The model's loop is the rule's, step for step (R202). -/
theorem crcShifts_eq_crcStepSpec (n : Nat) (c : Word) : crcShifts n c = crcStepSpec^[n] c := crcShifts_eq_iterate n c

theorem crcShifts_injective (n : Nat) : Function.Injective (crcShifts n) := by
  rw [funext (crcShifts_eq_iterate n)]
  exact crcShift_injective.iterate n

theorem crcShifts_xor (n : Nat) (c d : Word) : crcShifts n (c ^^^ d) = crcShifts n c ^^^ crcShifts n d := by
  induction n generalizing c d with
  | zero => rfl
  | succ n ih => rw [crcShifts, crcShift_xor, ih]; rfl

/-- While only zeros leave the register, the loop is a plain shift. -/
theorem crcShifts_of_low_zero {n : Nat} {c : Word} (h : ∀ i < n, c.getLsbD i = false) : crcShifts n c = c >>> n := by
  induction n generalizing c with
  | zero => rw [crcShifts, BitVec.ushiftRight_zero]
  | succ n ih =>
    have hlow : ∀ i < n, (c >>> 1).getLsbD i = false := fun i hi => by
      rw [BitVec.getLsbD_ushiftRight]
      exact h (1 + i) (by omega)
    rw [crcShifts, crcShift_of_even (h 0 n.succ_pos), ih hlow, ← BitVec.shiftRight_add, Nat.add_comm]

/-! ### One byte (R202) -/

/-- `b` meets the low byte of the register only. -/
theorem xor_byte_eq_low_xor_high (c : Word) (b : Byte) :
    c ^^^ b.setWidth 32 = (c.setWidth 8 ^^^ b).setWidth 32 ^^^ (c >>> 8) <<< 8 := by
  refine BitVec.eq_of_getLsbD_eq fun i hi => ?_
  simp only [BitVec.getLsbD_xor, BitVec.getLsbD_setWidth, BitVec.getLsbD_shiftLeft, BitVec.getLsbD_ushiftRight]
  by_cases h : i < 8
  · simp [h, hi]
  · simp [h, hi, BitVec.getLsbD_of_ge b i (Nat.not_lt.1 h), Nat.add_sub_cancel' (Nat.not_lt.1 h)]

/-- The upper three bytes come down unchanged: the zeros below them add no polynomial. -/
theorem crcShifts_high_bytes (c : Word) : crcShifts 8 ((c >>> 8) <<< 8) = c >>> 8 := by
  rw [crcShifts_of_low_zero fun i hi => by simp [hi]]
  refine BitVec.eq_of_getLsbD_eq fun i _ => ?_
  by_cases h : 8 + i < 32
  · simp [h]
  · simp [h, BitVec.getLsbD_of_ge c (8 + i) (Nat.not_lt.1 h)]

/-- The table-driven form of the update (R202): the loop is linear, and the two parts of its argument are the table's index and
the upper three bytes. -/
theorem crcByte_eq_table (c : Word) (b : Byte) : crcByte c b = crcTable (c.setWidth 8 ^^^ b) ^^^ (c >>> 8) := by
  rw [crcByte, xor_byte_eq_low_xor_high, crcShifts_xor, crcShifts_high_bytes, crcShifts_eq_crcStepSpec, crcTable]

/-- Settles O10: the update by the loop of `crcByte` and by its table form, the check by its `require`. -/
theorem crcOperations : Obligations.CrcOperations := by
  refine ⟨fun s => exec_crcInit s, fun b s => ⟨?loop, ?table⟩, fun e s => ⟨fun heq => ?pass, fun hne => ?fail⟩, ?entries⟩
  case loop => rw [exec_crcUpdate, crcUpdate, crcByte, crcShifts_eq_crcStepSpec]
  case table => rw [exec_crcUpdate, crcUpdate, crcByte_eq_table]
  case pass => rw [exec_crcCheck, crcCheck, require_pos heq, finish_ok]
  case fail => exact raises_finish (require_neg hne ..)
  case entries => decide

/-! ### A change of one byte (R207) -/

/-- The same byte keeps different registers different. -/
theorem crcByte_injective_register (b : Byte) : Function.Injective (crcByte · b) :=
  fun _ _ h => (BitVec.xor_left_inj _).1 (crcShifts_injective 8 h)

/-- Different bytes make one register different. -/
theorem crcByte_injective_byte (c : Word) : Function.Injective (crcByte c) := by
  intro b b' h
  have hword : b.setWidth 32 = b'.setWidth 32 := (BitVec.xor_right_inj _).1 (crcShifts_injective 8 h)
  simpa using congrArg (BitVec.setWidth 8) hword

/-- The same bytes keep different registers different. -/
theorem foldl_crcByte_injective (l : List Byte) : Function.Injective (l.foldl crcByte) := by
  induction l with
  | nil => exact Function.injective_id
  | cons b l ih => exact ih.comp (crcByte_injective_register b)

/-- Settles O12: the registers are equal up to the changed byte, differ after it, and every later byte keeps them different. -/
theorem crcDetectsOneByte : Obligations.CrcDetectsOneByte := by
  intro before after b b' hne h
  simp only [crc32, List.foldl_append, List.foldl_cons] at h
  have hregister := (BitVec.xor_left_inj _).1 h
  exact hne (crcByte_injective_byte _ (foldl_crcByte_injective after hregister))

/-! ### Check values (R204, R213) -/

/-- Settles O11: both functions computed on the test vectors. -/
theorem checksumValues : Obligations.ChecksumValues := by
  unfold Obligations.ChecksumValues
  decide +kernel

end Sys2Proof.ChecksumProofs
end

section
/-! The zlib wrapper (43_zlib_wrapper.md): the Adler-32 registers as elements and along every step (R211, R212, R218), then the
header and the trailer by the bytes they read and the checks they make (R214 to R216). -/

namespace Sys2Proof.ZlibProofs

open Sys2Proof Sys2Proof.Machine Sys2Proof.Safety Sys2Proof.Laws Sys2Proof.StateProofs Sys2Proof.ContainerProofs

/-! ### The elements, by their meanings -/

theorem exec_adlerInit (s : State) : exec .adlerInit s = .next (adlerInit s) := rfl
theorem exec_adlerUpdate (b : Byte) (s : State) : exec (.adlerUpdate b) s = .next (adlerUpdate b s) := rfl
theorem exec_zhdr (s : State) : exec .zhdr s = execZhdr s := rfl
theorem exec_ztrl (s : State) : exec .ztrl s = execZtrl s := rfl

/-! ### Adler-32 (R211, R212, R218) -/

/-- Both sums stay below the modulus, whatever they were before (R212). -/
theorem adlerByte_range (a b : Half) (x : Byte) :
    (adlerByte a b x).1.toNat ≤ 65520 ∧ (adlerByte a b x).2.toNat ≤ 65520 := by
  obtain ⟨hfirst, hsecond⟩ := adlerByte_toNat a b x
  omega

/-- Settles O13: the sums of one update as numbers, and their range. -/
theorem adlerOperations : Obligations.AdlerOperations := by
  refine ⟨exec_adlerInit, fun b s => ?update⟩
  case update =>
    obtain ⟨hfirst, hsecond⟩ := adlerByte_toNat s.adlerA s.adlerB b
    exact ⟨_, _, exec_adlerUpdate b s, hfirst, hsecond, adlerByte_range ..⟩

/-- Settles O57, by the cases of a step: phase INFLATE runs the sums over the bytes it appends to `OBUF`. -/
theorem adlerInvKept : Obligations.AdlerInvKept := fun _ _ hi hstep => (stepKind_of_step hstep).adlerInv hi

/-! ### Elements that begin with fields of `ZBUF` -/

section
variable {α : Type} {n : Nat} {s : State} {f : Nat → State → Res α}

/-- With the field there, the rest follows with its value, past it. -/
theorem getbits_bind_ok {v : Nat} (h : FieldAt s.zbuf s.bp n v) :
    (getbits n s).bind f = f v { s with bp := s.bp + n } := by
  rw [getbits_ok h, bind_ok]

/-- An element lacks data where the data ends inside its first field. -/
theorem raises_getbits_missing (hn : 0 < n) (h : 8 * s.zbuf.length < s.bp + n) :
    Raises (finish ((getbits n s).bind f)) .truncatedCompressedData := by
  obtain ⟨u, hu⟩ := getbits_missing hn h
  exact raises_bind hu

/-- An element whose rest lacks data after its first field lacks data, the field being there or not. -/
theorem raises_getbits_bind
    (h : ∀ v, Raises (finish (f v { s with bp := s.bp + n })) .truncatedCompressedData) :
    Raises (finish ((getbits n s).bind f)) .truncatedCompressedData := by
  rcases getbits_cases n s with ⟨v, -, hread⟩ | ⟨u, _, hread, -⟩
  · rw [hread, bind_ok]
    exact h v
  · exact raises_bind hread

end

/-! ### Header (R214) -/

/-- `FDICT` is bit 5 of `FLG`. -/
theorem testBit_five_eq_false_iff (flg : Nat) : flg.testBit 5 = false ↔ flg / 32 % 2 = 0 := by
  rw [Nat.testBit_eq_decide_div_mod_eq, decide_eq_false_iff_not]
  exact Nat.mod_two_not_eq_one

/-- `ZHDR` with both bytes there makes the four checks in the rule's order. -/
theorem execZhdr_checks {s : State} {cmf flg : Nat} (hcmf : FieldAt s.zbuf s.bp 8 cmf)
    (hflg : FieldAt s.zbuf (s.bp + 8) 8 flg) :
    execZhdr s = finish (
      (require (cmf % 16 = 8) .invalidCompressedData { s with bp := s.bp + 16 }).bind fun _ s =>
      (require (cmf / 16 ≤ 7) .invalidCompressedData s).bind fun _ s =>
      (require ((cmf * 256 + flg) % 31 = 0) .invalidCompressedData s).bind fun _ s =>
      (require (flg / 32 % 2 = 0) .invalidCompressedData s).bind fun _ s =>
      .ok () { s with istage := .block }) := by
  rw [execZhdr, getbits_bind_ok hcmf, getbits_bind_ok hflg]

/-- Settles O22: the two bytes are there or not, then the first check that fails. -/
theorem zlibHeader : Obligations.ZlibHeader := by
  refine fun s => ⟨fun _ hshort => ?truncated, fun cmf flg hcmf hflg => ⟨fun hvalid => ?pass, fun hinvalid => ?invalid⟩⟩
  case truncated => exact raises_getbits_bind fun _ => raises_getbits_missing (by decide) hshort
  case pass =>
    obtain ⟨hcm, hcinfo, hfcheck, hfdict⟩ := hvalid
    rw [exec_zhdr, execZhdr_checks hcmf hflg, require_bind_pos hcm, require_bind_pos hcinfo, require_bind_pos hfcheck,
      require_bind_pos ((testBit_five_eq_false_iff flg).1 hfdict), finish_ok]
  case invalid =>
    rw [exec_zhdr, execZhdr_checks hcmf hflg]
    refine raises_require_bind fun hcm => raises_require_bind fun hcinfo => raises_require_bind fun hfcheck =>
      raises_bind (require_neg (fun hfdict => ?_) ..)
    exact hinvalid ⟨hcm, hcinfo, hfcheck, (testBit_five_eq_false_iff flg).2 hfdict⟩

/-! ### Trailer (R215, R216) -/

section
variable {s : State} {p : Nat} (hboundary : alignByte s = { s with bp := p })
include hboundary

/-- `ZTRL` with the four bytes there makes its one check. -/
theorem execZtrl_check {b0 b1 b2 b3 : Nat} (h0 : FieldAt s.zbuf p 8 b0) (h1 : FieldAt s.zbuf (p + 8) 8 b1)
    (h2 : FieldAt s.zbuf (p + 16) 8 b2) (h3 : FieldAt s.zbuf (p + 24) 8 b3) :
    execZtrl s = finish (
      (require (s.cfgVerifyAdler = false ∨ trailerValue b0 b1 b2 b3 = adlerValue s.adlerA s.adlerB)
        .decompressionChecksumError { s with bp := p + 32 }).bind fun _ s => .ok () { s with istage := .finished }) := by
  rw [execZtrl, hboundary, getbits_bind_ok h0, getbits_bind_ok h1, getbits_bind_ok h2, getbits_bind_ok h3]

/-- `ZTRL` needs all four bytes, compared or not (R216). -/
theorem raises_execZtrl_short (hshort : 8 * s.zbuf.length < p + 32) :
    Raises (execZtrl s) .truncatedCompressedData := by
  rw [execZtrl, hboundary]
  exact raises_getbits_bind fun _ => raises_getbits_bind fun _ => raises_getbits_bind fun _ =>
    raises_getbits_missing (by decide) hshort

end

/-- Settles O23: from the byte boundary on the four bytes are there or not, then the comparison of R216. -/
theorem zlibTrailer : Obligations.ZlibTrailer := by
  intro s p hmod hle hlt
  have hboundary := alignByte_of hmod hle hlt
  refine ⟨fun _ hshort => raises_execZtrl_short hboundary hshort,
    fun b0 b1 b2 b3 h0 h1 h2 h3 => ⟨fun hmatch => ?pass, fun hverify hne => ?mismatch⟩⟩
  case pass => exact (execZtrl_check hboundary h0 h1 h2 h3).trans (congrArg finish (require_bind_pos hmatch ..))
  case mismatch =>
    rw [exec_ztrl, execZtrl_check hboundary h0 h1 h2 h3]
    refine raises_bind (require_neg (fun hmatch => ?_) ..)
    rcases hmatch with hoff | heq
    · exact Bool.false_ne_true (hoff.symm.trans hverify)
    · exact hne heq

end Sys2Proof.ZlibProofs
end

section
/-! Canonical Huffman codes (44_inflate_blocks.md R241 to R243): the code words of one code, the accepted length vectors, and what
`decodeSym` answers where a code word is next and where none is. -/

namespace Sys2Proof.HuffmanProofs

open Sys2Proof Sys2Proof.Machine Sys2Proof.Safety Sys2Proof.Laws Sys2Proof.EncodingProofs Sys2Proof.ReaderProofs

/-! ### The elements, by their meanings -/

theorem exec_buildCode (lens : List CodeLen) (s : State) :
    exec (.buildCode lens) s = .next { s with ret := .codes (buildCode lens) } := rfl
theorem exec_checkCode (lens : List CodeLen) (kind : CodeKind) (s : State) :
    exec (.checkCode lens kind) s = finish (checkCode lens kind s) := rfl
theorem exec_decodeSym (lens : List CodeLen) (s : State) :
    exec (.decodeSym lens) s = finishRet Ret.nat (decodeSym lens s) := rfl

/-! ### A code word that is next is read back (R243) -/

/-- Settles O6: the loop of `decodeSym` reads the code word bit by bit, and no shorter beginning of it is a code word. -/
theorem canonicalCodeDecodes : Obligations.CanonicalCodeDecodes := fun lens kind s sym haccepted hsym hl hbits => by
  rw [exec_decodeSym, decodeSym_codeWord (accepted_kraft haccepted) hsym hl hbits, finishRet_ok]

/-! ### No code word begins with another (R241) -/

/-- The table entry that a length in use and a value select is the code word of a symbol. -/
theorem lookupCode_eq_some {lens : List CodeLen} {len c sym : Nat} (h : lookupCode lens len c = some sym) (hlen : len ≠ 0) :
    sym < lens.length ∧ lens.getD sym 0 ≠ 0 ∧ (lens.getD sym 0).toNat = len ∧ canonicalCode lens sym = c := by
  obtain ⟨hi, hmatch, -⟩ := List.findIdx?_eq_some_iff_getElem.1 h
  simp only [Bool.and_eq_true, beq_iff_eq] at hmatch
  obtain ⟨rfl, rfl⟩ := hmatch
  obtain ⟨hsym, hl, he⟩ := buildCode_entry (List.getElem?_eq_getElem hi) hlen
  exact ⟨hsym, hl, (congrArg Prod.fst he).symm, (congrArg Prod.snd he).symm⟩

/-- A code word that fits its length begins with the code word of no other symbol: cut to the length of that word, it selects
nothing, or its own symbol where nothing is cut off. -/
theorem codeWord_not_prefix {lens : List CodeLen} {sym other : Nat} (hk : kraftSum lens ≤ 2 ^ 15) (hsym : sym < lens.length)
    (hother : other < lens.length) (hne : sym ≠ other) (hl : lens.getD sym 0 ≠ 0) (hlo : lens.getD other 0 ≠ 0) :
    ¬ codeBits (lens.getD sym 0).toNat (canonicalCode lens sym) <+:
      codeBits (lens.getD other 0).toNat (canonicalCode lens other) := by
  intro hprefix
  have hfits := code_fits lens hk sym hsym hl
  have hfitso := code_fits lens hk other hother hlo
  have hselect := lookupCode_codeWord hsym hl
  have hselecto := lookupCode_codeWord hother hlo
  have hshort := fun d => lookupCode_shortened hother hlo (d := d)
  have hle : (lens.getD sym 0).toNat ≤ (lens.getD other 0).toNat := by simpa using hprefix.length_le
  have hpos := (codeLen_pos hl).1
  obtain ⟨d, hd⟩ := Nat.exists_eq_add_of_le hle
  have hcut : canonicalCode lens sym = canonicalCode lens other / 2 ^ d := by
    refine codeBits_inj _ _ _ hfits (Nat.div_lt_of_lt_mul ?_) ?_
    · rwa [← Nat.pow_add, Nat.add_comm, ← hd]
    · rw [List.prefix_iff_eq_take.1 hprefix, codeBits_length, codeBits_take _ _ _ hle, hd, Nat.add_sub_cancel_left]
  rw [hcut, show (lens.getD sym 0).toNat = (lens.getD other 0).toNat - d by omega] at hselect
  rcases Nat.eq_zero_or_pos d with rfl | hd0
  · rw [Nat.sub_zero, Nat.pow_zero, Nat.div_one, hselecto] at hselect
    exact hne (Option.some.inj hselect).symm
  · rw [hshort d hd0 (by omega)] at hselect
    cases hselect

/-! ### The accepted length vectors (R242) -/

/-- The two requirements of `checkCode` together are the acceptance of R242. -/
theorem codeAccepted_iff (lens : List CodeLen) (kind : CodeKind) :
    CodeAccepted lens kind ↔ codeSpace lens ≤ 2 ^ 15 ∧
      (codeSpace lens = 2 ^ 15 ∨ codeSpace lens = 0 ∨ (kind ≠ .cl ∧ singleOneBitCode lens = true)) := by
  have hkind : kind ≠ .cl ↔ kind = .ll ∨ kind = .d := by cases kind <;> decide
  rw [CodeAccepted, codeSpace_eq, single_iff, hkind]
  constructor
  · rintro (hfull | hempty | ⟨hle, hsingle⟩)
    · exact ⟨hfull.le, .inl hfull⟩
    · exact ⟨by omega, .inr (.inl hempty)⟩
    · exact ⟨hle, .inr (.inr hsingle)⟩
  · rintro ⟨hle, hfull | hempty | hsingle⟩
    · exact .inl hfull
    · exact .inr (.inl hempty)
    · exact .inr (.inr ⟨hle, hsingle⟩)

theorem checkCode_ok {lens : List CodeLen} {kind : CodeKind} (h : CodeAccepted lens kind) (s : State) :
    checkCode lens kind s = .ok () s := by
  obtain ⟨hle, hcase⟩ := (codeAccepted_iff lens kind).1 h
  rw [checkCode, require_pos hle, bind_ok, require_pos hcase]

theorem checkCode_raise {lens : List CodeLen} {kind : CodeKind} (h : ¬ CodeAccepted lens kind) (s : State) :
    checkCode lens kind s = .raise .invalidCompressedData s := by
  rw [codeAccepted_iff, not_and] at h
  by_cases hle : codeSpace lens ≤ 2 ^ 15
  · rw [checkCode, require_pos hle, bind_ok, require_neg (h hle)]
  · rw [checkCode, require_neg hle, bind_raise]

/-- Settles O5: the entries of the code table, no code word the beginning of another by the lookup of a shortened one, and the
two requirements of `checkCode`. -/
theorem codeConstruction : Obligations.CodeConstruction := by
  refine ⟨fun lens s => ?table, fun lens kind sym other haccepted hsym hother hne hl hlo => ?prefixFree,
    fun lens kind s => ⟨fun haccepted => ?accepted, fun hrejected => ?rejected⟩⟩
  case table => exact ⟨buildCode lens, exec_buildCode lens s, assignCodes_length .., fun sym hsym => buildCode_get hsym⟩
  case prefixFree => exact codeWord_not_prefix (accepted_kraft haccepted) hsym hother hne hl hlo
  case accepted => rw [exec_checkCode, checkCode_ok haccepted, finish_ok]
  case rejected => exact raises_finish (checkCode_raise hrejected s)

/-! ### Bits that begin with no code word (R243) -/

theorem codeBits_append_bit (w v : Nat) (b : Bool) : codeBits (w + 1) (2 * v + b.toNat) = codeBits w v ++ [b] := by
  have hhigh : (2 * v + b.toNat) / 2 = v := by have := b.toNat_le; omega
  have hlow : (2 * v + b.toNat).testBit 0 = b := by cases b <;> simp
  refine List.ext_getElem? fun k => ?_
  rcases Nat.lt_trichotomy k w with hk | rfl | hk
  · rw [codeBits_get _ _ _ (by omega), List.getElem?_append_left (by simpa using hk), codeBits_get _ _ _ hk,
      show w + 1 - 1 - k = w - 1 - k + 1 by omega, Nat.testBit_add_one, hhigh]
  · rw [codeBits_get _ _ _ k.lt_succ_self, show k + 1 - 1 - k = 0 by omega, hlow]
    simp
  · rw [List.getElem?_eq_none (by simpa using hk), List.getElem?_eq_none (by simpa using hk)]

theorem bitsAt_append_bit {z : List Byte} {p : Nat} {bits : List Bool} {b : Bool} (h : BitsAt z p bits)
    (hb : BitIs z (p + bits.length) b) : BitsAt z p (bits ++ [b]) := by
  intro k c hk
  rcases Nat.lt_or_ge k bits.length with hlt | hge
  · exact h k c (by rwa [List.getElem?_append_left hlt] at hk)
  · rw [List.getElem?_append_right hge, List.getElem?_singleton] at hk
    split at hk <;> cases hk
    rwa [show k = bits.length by omega]

/-- No code word of the code stands at the position. -/
def NoCodeWordAt (lens : List CodeLen) (z : List Byte) (p : Nat) : Prop :=
  ∀ sym, sym < lens.length → lens.getD sym 0 ≠ 0 →
    ¬ BitsAt z p (codeBits (lens.getD sym 0).toNat (canonicalCode lens sym))

/-- Bits that stand where no code word does select nothing. -/
theorem lookupCode_of_noCodeWordAt {lens : List CodeLen} {z : List Byte} {p len c : Nat} (hno : NoCodeWordAt lens z p)
    (hlen : len ≠ 0) (hbits : BitsAt z p (codeBits len c)) : lookupCode lens len c = none := by
  cases hlookup : lookupCode lens len c with
  | none => rfl
  | some sym =>
    obtain ⟨hsym, hl, rfl, rfl⟩ := lookupCode_eq_some hlookup hlen
    exact absurd hbits (hno sym hsym hl)

/-- With `len` bits of value `c` read from a position where no code word stands, the loop reads on to its last length, or to the
end of the data. -/
theorem decodeFrom_noCodeWord {lens : List CodeLen} {p : Nat} :
    ∀ (n len c : Nat) (s : State), NoCodeWordAt lens s.zbuf p → s.bp = p + len → s.bp ≤ 8 * s.zbuf.length →
      BitsAt s.zbuf p (codeBits len c) →
      ∃ u, decodeFrom (buildCode lens) n len c s =
        .raise (if s.bp + n ≤ 8 * s.zbuf.length then .invalidCompressedData else .truncatedCompressedData) u := by
  intro n
  induction n with
  | zero => exact fun len c s _ _ hend _ => ⟨s, by rw [decodeFrom, Nat.add_zero, if_pos hend]⟩
  | succ n ih =>
    intro len c s hno hbp hend hbits
    rcases getbit_cases s with ⟨b, hb, -⟩ | ⟨hover, hget⟩
    · have hmore : BitsAt s.zbuf p (codeBits (len + 1) (2 * c + b.toNat)) := by
        rw [codeBits_append_bit]
        exact bitsAt_append_bit hbits (by rwa [codeBits_length, ← hbp])
      rw [decodeFrom_more hb (lookupCode_of_noCodeWordAt hno len.succ_ne_zero hmore), ← Nat.add_assoc, Nat.add_right_comm]
      exact ih (len + 1) _ { s with bp := s.bp + 1 } hno (by simp only [hbp, Nat.add_assoc]) (bitIs_lt hb) hmore
    · exact ⟨s, by rw [decodeFrom, hget, bind_raise, if_neg (by omega)]⟩

/-- `decodeSym` where no code word is next. -/
theorem decodeSym_noCodeWord {lens : List CodeLen} {s : State} (hend : s.bp ≤ 8 * s.zbuf.length)
    (hno : NoCodeWordAt lens s.zbuf s.bp) :
    ∃ u, decodeSym lens s =
      .raise (if s.bp + 15 ≤ 8 * s.zbuf.length then .invalidCompressedData else .truncatedCompressedData) u :=
  decodeFrom_noCodeWord 15 0 0 s hno rfl hend fun _ _ hk => nomatch hk

/-- Settles O7: the loop of `decodeSym` finds nothing at any length, so it ends after 15 bits or at the end of the data. -/
theorem undecodableSymbol : Obligations.UndecodableSymbol := by
  intro lens s hend hno
  obtain ⟨u, hu⟩ := decodeSym_noCodeWord hend hno
  refine ⟨fun hlong => ?exhausted, fun hshort => ?truncated⟩
  case exhausted => exact raises_finishRet (by rw [hu, if_pos hlong])
  case truncated => exact raises_finishRet (by rw [hu, if_neg (Nat.not_le.2 hshort)])

end Sys2Proof.HuffmanProofs
end

section
/-! Deflate blocks (44_inflate_blocks.md R232 to R240): the fields an element reads, the loops of `BLK.STORED` and `BLK.DYN` over
their fields, then the statements about the four block types and about installing the codes; with `BLK.RSVD` the other reserved
elements (R265, R268, R302). -/

namespace Sys2Proof.BlockProofs

open Sys2Proof Sys2Proof.Machine Sys2Proof.Safety Sys2Proof.Laws Sys2Proof.StateProofs Sys2Proof.ContainerProofs
  Sys2Proof.EncodingProofs Sys2Proof.HuffmanProofs Sys2Proof.ZlibProofs

/-! ### The elements, by their meanings -/

theorem exec_blkStored (final : Bool) (s : State) : exec (.blkStored final) s = execBlkStored final s := rfl
theorem exec_blkFixed (final : Bool) (s : State) : exec (.blkFixed final) s = execBlkFixed final s := rfl
theorem exec_blkDyn (final : Bool) (s : State) : exec (.blkDyn final) s = execBlkDyn final s := rfl
theorem exec_blkRsvd (final : Bool) (s : State) :
    exec (.blkRsvd final) s = .next (raiseFault .invalidCompressedData (enterBlock final 3 s)) := rfl
theorem exec_ll286 (s : State) : exec .ll286 s = .next (raiseFault .invalidCompressedData s) := rfl
theorem exec_ll287 (s : State) : exec .ll287 s = .next (raiseFault .invalidCompressedData s) := rfl
theorem exec_dist30 (s : State) : exec .dist30 s = .next (raiseFault .invalidCompressedData s) := rfl
theorem exec_dist31 (s : State) : exec .dist31 s = .next (raiseFault .invalidCompressedData s) := rfl
theorem exec_filtRsvd (ft : Byte) (s : State) :
    exec (.filtRsvd ft) s = .next (raiseFault .invalidFilterType { s with ft := ft }) := rfl

/-! ### Reserved elements (R232, R265, R268, R302) -/

/-- Settles O28: each reserved element is fault entry. -/
theorem reservedElements : Obligations.ReservedElements := by
  intro s
  refine ⟨fun final => ?block, ?ll286, ?ll287, ?dist30, ?dist31, fun ft => ?filter⟩
  case block => exact exec_blkRsvd final s ▸ raises_next ..
  case ll286 => exact exec_ll286 s ▸ raises_next ..
  case ll287 => exact exec_ll287 s ▸ raises_next ..
  case dist30 => exact exec_dist30 s ▸ raises_next ..
  case dist31 => exact exec_dist31 s ▸ raises_next ..
  case filter => exact exec_filtRsvd ft s ▸ raises_next ..

/-! ### Static blocks (R235) -/

/-- The entries of a run of one length. -/
theorem getElem?_run {lens before after : List CodeLen} {len : CodeLen} {n sym : Nat}
    (hlens : lens = before ++ (List.replicate n len ++ after)) (hlo : before.length ≤ sym) (hhi : sym < before.length + n) :
    lens[sym]? = some len := by
  rw [hlens, List.getElem?_append_right hlo, List.getElem?_append_left (by rw [List.length_replicate]; omega),
    List.getElem?_replicate_of_lt (by omega)]

/-- Each entry of the fixed literal/length file is the one of its run. -/
theorem fixedLLLens_entries :
    (∀ sym, sym < 144 → fixedLLLens[sym]? = some 8) ∧ (∀ sym, 144 ≤ sym → sym < 256 → fixedLLLens[sym]? = some 9) ∧
    (∀ sym, 256 ≤ sym → sym < 280 → fixedLLLens[sym]? = some 7) ∧
    (∀ sym, 280 ≤ sym → sym < 288 → fixedLLLens[sym]? = some 8) := by
  have hruns : fixedLLLens =
      List.replicate 144 8 ++ (List.replicate 112 9 ++ (List.replicate 24 7 ++ List.replicate 8 8)) := by
    simp only [fixedLLLens, List.append_assoc]
  refine ⟨fun sym hhi => ?_, fun sym hlo hhi => ?_, fun sym hlo hhi => ?_, fun sym hlo hhi => ?_⟩
  · exact getElem?_run (before := []) hruns sym.zero_le (by simpa using hhi)
  · exact getElem?_run hruns (by rwa [List.length_replicate]) (by rwa [List.length_replicate])
  · exact getElem?_run (before := List.replicate 144 8 ++ List.replicate 112 9) (n := 24) (after := List.replicate 8 8)
      (by rw [hruns, List.append_assoc])
      (by simpa only [List.length_append, List.length_replicate] using hlo)
      (by simpa only [List.length_append, List.length_replicate] using hhi)
  · exact getElem?_run (before := List.replicate 144 8 ++ List.replicate 112 9 ++ List.replicate 24 7) (n := 8) (after := [])
      (by rw [fixedLLLens, List.append_nil])
      (by simpa only [List.length_append, List.length_replicate] using hlo)
      (by simpa only [List.length_append, List.length_replicate] using hhi)

/-- Settles O25: the two fixed files by their runs and Kraft sums, and 19 free values for the third. -/
theorem fixedBlock : Obligations.FixedBlock := by
  obtain ⟨hlow, hnine, hseven, hhigh⟩ := fixedLLLens_entries
  exact ⟨freeClLens, fun n => ⟨freeClLens_length n, fun _ => freeClLens_le⟩, fun s final =>
    ⟨fixedLLLens, fixedDistLens, exec_blkFixed final s, fixedLL_length, fixedDist_length, hlow, hnine, hseven, hhigh,
      fun _ hhi => List.getElem?_replicate_of_lt hhi, kraftSum_fixedLLLens, kraftSum_fixedDistLens⟩⟩

/-! ### Fields of `ZBUF` -/

/-- A field that is there ends inside the data. -/
theorem fieldAt_end {z : List Byte} {bp n v : Nat} (hn : 0 < n) (h : FieldAt z bp n v) : bp + n ≤ 8 * z.length := by
  have := bitIs_lt (h.2 (n - 1) (by omega))
  omega

/-- An operation whose rest lacks data after its first field lacks data, the field being there or not. -/
theorem getbits_bind_truncated {α : Type} {n : Nat} {s : State} {f : Nat → State → Res α}
    (h : ∀ v, FieldAt s.zbuf s.bp n v → ∃ u, f v { s with bp := s.bp + n } = .raise .truncatedCompressedData u) :
    ∃ u, (getbits n s).bind f = .raise .truncatedCompressedData u := by
  rcases getbits_cases n s with ⟨v, hv, hread⟩ | ⟨u, _, hread, -⟩
  · rw [hread, bind_ok]
    exact h v hv
  · exact ⟨u, by rw [hread, bind_raise]⟩

/-! ### Stored blocks (R233, R234) -/

/-- The bytes of a stored block, not all there. -/
theorem storedBytes_truncated : ∀ (n : Nat) (s : State), s.bp ≤ 8 * s.zbuf.length → 8 * s.zbuf.length < s.bp + 8 * n →
    ∃ u, storedBytes n s = .raise .truncatedCompressedData u := by
  intro n
  induction n with
  | zero => exact fun _ hend hshort => absurd hend (Nat.not_le.2 hshort)
  | succ n ih =>
    intro s _ hshort
    refine getbits_bind_truncated fun v hv => ih _ (fieldAt_end (by decide) hv) ?_
    rw [emit_zbuf, emit_bp]
    dsimp only
    omega

section
variable {s : State} {final : Bool} {p : Nat}
  (hboundary : alignByte (enterBlock final 0 s) = { enterBlock final 0 s with bp := p })
include hboundary

/-- `BLK.STORED` needs `LEN` and `NLEN`. -/
theorem raises_execBlkStored_short (hshort : 8 * s.zbuf.length < p + 32) :
    Raises (execBlkStored final s) .truncatedCompressedData := by
  rw [execBlkStored, hboundary]
  exact raises_getbits_bind fun _ => raises_getbits_missing (by decide) hshort

/-- `BLK.STORED` with `LEN` and `NLEN` there makes its one check, then copies. -/
theorem execBlkStored_check {len nlen : Nat} (hlen : FieldAt s.zbuf p 16 len) (hnlen : FieldAt s.zbuf (p + 16) 16 nlen) :
    execBlkStored final s = finish (
      (require (len ^^^ nlen = 0xFFFF) .invalidCompressedData { enterBlock final 0 s with bp := p + 32 }).bind fun _ s =>
      (storedBytes len s).bind fun _ s => .ok () (endBlock s)) := by
  rw [execBlkStored, hboundary, getbits_bind_ok hlen, getbits_bind_ok hnlen]

end

/-- Settles O24: from the byte boundary on the header is there or not, then its check, then the bytes, all there or not. -/
theorem storedBlock : Obligations.StoredBlock := by
  intro s final p hmod hle hlt
  have hboundary := alignByte_of (s := enterBlock final 0 s) hmod hle hlt
  refine ⟨fun _ hshort => raises_execBlkStored_short hboundary hshort, fun len nlen hlen hnlen => ?_⟩
  rw [exec_blkStored, execBlkStored_check hboundary hlen hnlen]
  refine ⟨fun hcheck => ?mismatch, fun hcheck hshort => ?truncated, fun hcheck data rest hdata hbytes => ?copied⟩
  case mismatch => exact raises_bind (require_neg hcheck ..)
  case truncated =>
    rw [require_bind_pos hcheck]
    have hend : p + 16 + 16 ≤ 8 * s.zbuf.length := fieldAt_end (by decide) hnlen
    obtain ⟨u, hu⟩ := storedBytes_truncated len { enterBlock final 0 s with bp := p + 32 } hend hshort
    exact raises_bind hu
  case copied =>
    subst hdata
    have hcopy := storedBytes_ok data { enterBlock final 0 s with bp := p + 32 } rest (by dsimp only; omega)
      (by rw [← hbytes]; dsimp only; congr 1; omega)
    rw [require_bind_pos hcheck, hcopy, bind_ok, finish_ok, emits_eq]
    rfl

/-! ### Dynamic blocks: counts and code-length code (R236, R237) -/

/-- The loop over the code-length code, with every other entry of the file in place already, leaves the lengths that stand in the
data. -/
theorem readClLens_ok {cl : List CodeLen} : ∀ (syms : List Nat) (s : State), s.clLen.length = cl.length →
    (∀ i, i < syms.length → FieldAt s.zbuf (s.bp + 3 * i) 3 (cl.getD (syms.getD i 0) 0).toNat) →
    (∀ sym, sym ∉ syms → s.clLen.getD sym 0 = cl.getD sym 0) →
    readClLens syms s = .ok () { s with bp := s.bp + 3 * syms.length, clLen := cl } := by
  intro syms
  induction syms with
  | nil =>
    intro s hlength _ hother
    have hcl : s.clLen = cl := List.ext_getElem hlength fun sym h h' => by
      simpa only [List.getD_eq_getElem _ _ h, List.getD_eq_getElem _ _ h'] using hother sym List.not_mem_nil
    rw [← hcl]
    rfl
  | cons sym rest ih =>
    intro s hlength hfields hother
    have hfirst := hfields 0 (Nat.succ_pos _)
    rw [readClLens, getbits_bind_ok hfirst, List.getD_cons_zero, BitVec.ofNat_toNat, BitVec.setWidth_eq, ih]
    · simp only [List.length_cons, Nat.mul_succ, Nat.add_assoc, Nat.add_comm 3]
    · rwa [List.length_set]
    · intro i hi
      have := hfields (i + 1) (Nat.succ_lt_succ hi)
      rwa [List.getD_cons_succ, Nat.mul_succ, Nat.add_comm (3 * i), ← Nat.add_assoc] at this
    · intro other hrest
      rw [List.getD_eq_getElem?_getD, List.getElem?_set]
      split_ifs with heq hlt
      · rw [heq]; rfl
      · exact (List.getD_eq_default _ _ (by dsimp only at hlt; omega)).symm
      · exact hother other (by simp [hrest, Ne.symm heq])

/-- The lengths of the code-length code, not all there. -/
theorem readClLens_truncated : ∀ (syms : List Nat) (s : State), s.bp ≤ 8 * s.zbuf.length →
    8 * s.zbuf.length < s.bp + 3 * syms.length → ∃ u, readClLens syms s = .raise .truncatedCompressedData u := by
  intro syms
  induction syms with
  | nil => exact fun _ hend hshort => absurd hend (Nat.not_le.2 hshort)
  | cons sym rest ih =>
    intro s _ hshort
    refine getbits_bind_truncated fun v hv => ih _ (fieldAt_end (by decide) hv) ?_
    rw [List.length_cons] at hshort
    dsimp only
    omega

/-- The order of R237 has each of the 19 code-length symbols. -/
theorem exists_clOrder_eq : ∀ sym, sym < 19 → ∃ i, i < 19 ∧ clOrder[i]? = some sym := by decide

/-- From a cleared file, the first lengths in the rule's order give the file that has them and no other. -/
theorem readClLens_clOrder {cl : List CodeLen} {n : Nat} {s : State} (hn : n ≤ 19) (hclear : s.clLen = List.replicate 19 0)
    (hlength : cl.length = 19)
    (hsent : ∀ i, i < n → FieldAt s.zbuf (s.bp + 3 * i) 3 (cl.getD (clOrder.getD i 0) 0).toNat)
    (hunsent : ∀ i, n ≤ i → i < 19 → cl.getD (clOrder.getD i 0) 0 = 0) :
    readClLens (clOrder.take n) s = .ok () { s with bp := s.bp + 3 * n, clLen := cl } := by
  have hsyms : (clOrder.take n).length = n := List.length_take_of_le hn
  have hread := readClLens_ok (cl := cl) (clOrder.take n) s (by rw [hclear, hlength, List.length_replicate])
  rw [hsyms] at hread
  refine hread (fun i hi => ?fields) (fun sym hsym => ?others)
  case fields =>
    rw [List.getD_eq_getElem?_getD (l := List.take _ _), List.getElem?_take_of_lt hi, ← List.getD_eq_getElem?_getD]
    exact hsent i hi
  case others =>
    have hzero : cl.getD sym 0 = 0 := by
      rcases Nat.lt_or_ge sym 19 with hlt | hge
      · obtain ⟨i, hi, hget⟩ := exists_clOrder_eq sym hlt
        have hni : n ≤ i := Nat.le_of_not_lt fun h =>
          hsym (List.mem_of_getElem? ((List.getElem?_take_of_lt h).trans hget))
        simpa only [List.getD_eq_getElem?_getD, hget, Option.getD_some] using hunsent i hni hi
      · exact List.getD_eq_default _ _ (hlength ▸ hge)
    rw [hclear, hzero, List.getD_eq_getElem?_getD, List.getElem?_getD_replicate_default_eq]

/-- The state in which `BLK.DYN` begins on the code-length code: the counts are read and its file is cleared (R236, R237). -/
def atClLens (final : Bool) (hl hd hc : Nat) (s : State) : State :=
  { enterBlock final 2 s with
    bp := s.bp + 14, hlit := hl + 257, hdist := hd + 1, hclen := hc + 4, clLen := List.replicate 19 0 }

section
variable {s : State} {final : Bool} {hl hd hc : Nat} (hhl : FieldAt s.zbuf s.bp 5 hl) (hhd : FieldAt s.zbuf (s.bp + 5) 5 hd)
  (hhc : FieldAt s.zbuf (s.bp + 10) 4 hc)
include hhl hhd hhc

/-- `BLK.DYN` with the three counts there checks the first, then reads the code-length code and checks it. The state is brought
to one record after each count: nested, the records are too large to compare. -/
theorem execBlkDyn_checks :
    execBlkDyn final s = finish (
      (require (hl + 257 ≤ 286) .invalidCompressedData { enterBlock final 2 s with
        bp := s.bp + 14, hlit := hl + 257, hdist := hd + 1, hclen := hc + 4 }).bind fun _ s =>
      (readClLens (clOrder.take s.hclen) { s with clLen := List.replicate 19 0 }).bind fun _ s =>
      (checkCode s.clLen .cl s).bind fun _ s => .ok () { s with clSeq := [], istage := .codeLengths }) := by
  rw [execBlkDyn, getbits_bind_ok (s := enterBlock final 2 s) hhl]
  dsimp only [enterBlock]
  rw [getbits_bind_ok hhd]
  dsimp only
  rw [getbits_bind_ok hhc]

theorem raises_execBlkDyn_hlit (hlit : 286 < hl + 257) : Raises (execBlkDyn final s) .invalidCompressedData := by
  rw [execBlkDyn_checks hhl hhd hhc]
  exact raises_bind (require_neg (Nat.not_le.2 hlit) ..)

/-- `BLK.DYN` with the counts in range. -/
theorem execBlkDyn_clLens (hlit : hl + 257 ≤ 286) :
    execBlkDyn final s = finish (
      (readClLens (clOrder.take (hc + 4)) (atClLens final hl hd hc s)).bind fun _ s =>
      (checkCode s.clLen .cl s).bind fun _ s => .ok () { s with clSeq := [], istage := .codeLengths }) := by
  rw [execBlkDyn_checks hhl hhd hhc, require_bind_pos hlit]
  rfl

end

/-- Settles O26: the counts are there or not, then the first check, the lengths, there or not, and the check of their code. -/
theorem dynamicHeader : Obligations.DynamicHeader := by
  refine ⟨fun s final _ hshort => ?counts, fun s final hl hd hc hhl hhd hhc =>
    ⟨raises_execBlkDyn_hlit hhl hhd hhc, fun hlit => ?_⟩⟩
  case counts =>
    exact raises_getbits_bind fun _ => raises_getbits_bind fun _ => raises_getbits_missing (by decide) hshort
  have hn : hc + 4 ≤ 19 := Nat.add_le_add_right (Nat.le_of_lt_succ hhc.1) 4
  rw [exec_blkDyn, execBlkDyn_clLens hhl hhd hhc hlit]
  refine ⟨fun hend hshort => ?truncated, fun cl hlength hsent hunsent => ?_⟩
  case truncated =>
    obtain ⟨u, hu⟩ := readClLens_truncated (clOrder.take (hc + 4)) (atClLens final hl hd hc s) hend
      ((List.length_take_of_le (l := clOrder) hn).symm ▸ hshort)
    exact raises_bind hu
  rw [readClLens_clOrder hn rfl hlength hsent hunsent, bind_ok]
  refine ⟨fun hrejected => raises_bind (checkCode_raise hrejected _), fun haccepted => ?_⟩
  rw [checkCode_ok haccepted, bind_ok, finish_ok]
  rfl

/-! ### Dynamic blocks: installing the codes (R240) -/

theorem padLens_getElem? {n i : Nat} (l : List CodeLen) (hi : i < n) : (padLens n l)[i]? = some (l.getD i 0) := by
  rw [padLens, List.getElem?_take_of_lt hi]
  rcases Nat.lt_or_ge i l.length with h | h
  · rw [List.getElem?_append_left h, List.getElem?_eq_getElem h, List.getD_eq_getElem _ _ h]
  · rw [List.getElem?_append_right h, List.getElem?_replicate_of_lt (by omega), List.getD_eq_default _ _ h]

/-- The file of `n` entries whose entries are those of a sequence continued with zeros. -/
theorem eq_padLens {n : Nat} {l lens : List CodeLen} (hlength : lens.length = n)
    (h : ∀ i, i < n → lens[i]? = some (l.getD i 0)) : lens = padLens n l := by
  refine List.ext_getElem? fun i => ?_
  rcases Nat.lt_or_ge i n with hi | hi
  · rw [h i hi, padLens_getElem? l hi]
  · rw [List.getElem?_eq_none (hlength ▸ hi), List.getElem?_eq_none (by rwa [padLens_length])]

theorem getD_take (l : List CodeLen) (n i : Nat) : (l.take n).getD i 0 = if i < n then l.getD i 0 else 0 := by
  rw [List.getD_eq_getElem?_getD, List.getElem?_take]
  split_ifs
  · rw [List.getD_eq_getElem?_getD]
  · rfl

theorem installCodes_ok {s : State} (heob : (assignLengths s).llLen.getD 256 0 ≠ 0)
    (hll : CodeAccepted (assignLengths s).llLen .ll) (hd : CodeAccepted (assignLengths s).dLen .d) :
    installCodes s = .ok () { assignLengths s with istage := .huffman } := by
  rw [installCodes, require_bind_pos heob, checkCode_ok hll, bind_ok, checkCode_ok hd, bind_ok]

/-- Whichever of the three checks fails, the fault is the same. -/
theorem installCodes_raise {s : State} (h : (assignLengths s).llLen.getD 256 0 = 0 ∨
    ¬ CodeAccepted (assignLengths s).llLen .ll ∨ ¬ CodeAccepted (assignLengths s).dLen .d) :
    installCodes s = .raise .invalidCompressedData (assignLengths s) := by
  rw [installCodes]
  by_cases heob : (assignLengths s).llLen.getD 256 0 ≠ 0
  case neg => exact require_bind_neg heob ..
  rw [require_bind_pos heob]
  by_cases hll : CodeAccepted (assignLengths s).llLen .ll
  case neg => rw [checkCode_raise hll, bind_raise]
  rw [checkCode_ok hll, bind_ok, checkCode_raise ((h.resolve_left heob).resolve_left (not_not.2 hll)), bind_raise]

/-- With the code-length sequence complete, the fetch installs the codes. -/
theorem fetch_installCodes {s : State} (q : Quiet s) (hp : s.phase = .inflate) (hs : s.istage = .codeLengths)
    (hcomplete : s.clSeq.length = s.hlit + s.hdist) : fetch s = (installCodes s).bind fun _ s => .ok none s := by
  simp only [fetch_inflate q hp, fetchInflate, hs, if_neg (Nat.not_lt.2 hcomplete.ge)]

/-- Settles O27: the two files are the parts of the sequence continued with zeros, and the step makes the three checks on them. -/
protected theorem installCodes : Obligations.InstallCodes := by
  intro s ll d q hp hs _ _ hcomplete hlllength hdlength hllentries hdentries
  obtain rfl : ll = (assignLengths s).llLen := eq_padLens hlllength fun i hi => by rw [hllentries i hi, getD_take]
  obtain rfl : d = (assignLengths s).dLen := eq_padLens hdlength fun i hi => by
    rw [hdentries i hi, getD_take, List.getD_eq_getElem?_getD (l := List.drop _ _), List.getElem?_drop,
      ← List.getD_eq_getElem?_getD]
  have hfetch := fetch_installCodes q hp hs hcomplete
  refine ⟨fun hfail => ?fault, fun heob hll hd => ?pass⟩
  case fault =>
    rw [installCodes_raise hfail, bind_raise] at hfetch
    exact step_raise hfetch ▸ raises_next ..
  case pass =>
    rw [installCodes_ok heob hll hd, bind_ok] at hfetch
    exact step_sequencer hfetch

end Sys2Proof.BlockProofs
end

section
/-! Inflate symbols (45_inflate_symbols.md): the elements of a table by one equation over its rows, what a copy and a run of code
lengths do, then the statements about literals and the end of a block, lengths, distances, and code-length symbols. -/

namespace Sys2Proof.SymbolProofs

open Sys2Proof Sys2Proof.Machine Sys2Proof.Safety Sys2Proof.Laws Sys2Proof.ContainerProofs Sys2Proof.ZlibProofs
  Sys2Proof.BlockProofs

/-! ### The elements, by their meanings -/

theorem exec_lit (b : Byte) (s : State) : exec (.lit b) s = .next (emit b s) := rfl
theorem exec_emit (b : Byte) (s : State) : exec (.emit b) s = .next (emit b s) := rfl
theorem exec_eob (s : State) : exec .eob s = .next (endBlock s) := rfl
theorem exec_clLen (v : CodeLen) (s : State) : exec (.clLen v) s = .next { s with clSeq := s.clSeq ++ [v] } := rfl
theorem exec_clRep (s : State) : exec .clRep s = execClRep s := rfl

/-- Each length element reads the extra bits of its row and adds them to the base of its row (R264): the meanings of the rows are
one list, row for row. -/
theorem exec_of_mem_lengthTable (s : State) : ∀ row ∈ lengthTable, exec row.1 s =
    finish ((getbits row.2.1 s).bind fun e s => .ok () { s with mlen := row.2.2 + e, istage := .distance }) :=
  List.map_inj_left.1 rfl

/-- Each distance element reads the extra bits of its row, adds them to the base of its row, and copies (R266, R267). -/
theorem exec_of_mem_distanceTable (s : State) : ∀ row ∈ distanceTable, exec row.1 s =
    finish ((getbits row.2.1 s).bind fun e s => (copy s.mlen (row.2.2 + e) s).bind fun _ s =>
      .ok () { s with istage := .huffman }) :=
  List.map_inj_left.1 rfl

/-- Every distance is positive. -/
theorem distanceTable_base_pos : ∀ row ∈ distanceTable, 1 ≤ row.2.2 := by decide

/-- A repeat count of `n` extra bits over a base, then as many code lengths (R271 to R273). -/
def countedRun (n base : Nat) (v : CodeLen) (s : State) : Res Unit :=
  (getbits n s).bind fun e s => appendLengths (base + e) v s

/-- Each run of zeros counts by the extra bits and the base of its row (R272, R273). -/
theorem exec_of_mem_zeroRunTable (s : State) : ∀ row ∈ zeroRunTable,
    exec row.1 s = finish (countedRun row.2.1 row.2.2 0 s) :=
  List.map_inj_left.1 rfl

/-- `CL.REP` tests for a last length before it reads (R271). -/
theorem exec_clRep_nil {s : State} (h : s.clSeq = []) : exec .clRep s = .next (raiseFault .invalidCompressedData s) := by
  rw [exec_clRep, execClRep, h]
  rfl

/-- `CL.REP` repeats the last length (R271). -/
theorem exec_clRep_concat {s : State} {sofar : List CodeLen} {last : CodeLen} (h : s.clSeq = sofar ++ [last]) :
    exec .clRep s = finish (countedRun 2 3 last s) := by
  rw [exec_clRep, execClRep, h, List.getLast?_concat]
  rfl

/-! ### Code-length symbols (R270 to R273) -/

section
variable {n base e : Nat} {v : CodeLen} {s : State}

/-- A run that fits is appended. -/
theorem countedRun_ok (hfield : FieldAt s.zbuf s.bp n e) (hfits : s.clSeq.length + (base + e) ≤ s.hlit + s.hdist) :
    countedRun n base v s = .ok () { s with bp := s.bp + n, clSeq := s.clSeq ++ List.replicate (base + e) v } :=
  (getbits_bind_ok hfield).trans (appendLengths_ok hfits)

/-- A run past the counts is rejected after its extra bits. -/
theorem countedRun_overrun (hfield : FieldAt s.zbuf s.bp n e) (hover : s.hlit + s.hdist < s.clSeq.length + (base + e)) :
    countedRun n base v s = .raise .invalidCompressedData { s with bp := s.bp + n } :=
  (getbits_bind_ok hfield).trans (appendLengths_raise hover)

/-- The extra bits of a run, not all there. -/
theorem raises_countedRun_truncated (hend : s.bp ≤ 8 * s.zbuf.length) (hshort : 8 * s.zbuf.length < s.bp + n) :
    Raises (finish (countedRun n base v s)) .truncatedCompressedData :=
  raises_getbits_missing (by omega) hshort

end

/-- Settles O29: one length, or a run that is counted, fits or not. -/
theorem codeLengthSymbols : Obligations.CodeLengthSymbols := by
  refine ⟨exec_clLen, fun s hnil => ?empty, fun s sofar last e hlast hfield => ⟨fun hfits => ?repeated, fun hover => ?overrun⟩,
    fun s hne hend hshort => ?truncated, fun row hrow s hend hshort => ?zerosTruncated,
    fun row hrow s e hfield => ⟨fun hfits => ?zeros, fun hover => ?zerosOverrun⟩⟩
  case empty => exact exec_clRep_nil hnil ▸ raises_next ..
  case repeated => rw [exec_clRep_concat hlast, countedRun_ok hfield hfits, finish_ok]
  case overrun => exact exec_clRep_concat hlast ▸ raises_finish (countedRun_overrun hfield hover)
  case truncated =>
    exact exec_clRep_concat (List.dropLast_concat_getLast hne).symm ▸ raises_countedRun_truncated hend hshort
  case zerosTruncated => exact exec_of_mem_zeroRunTable s row hrow ▸ raises_countedRun_truncated hend hshort
  case zeros => rw [exec_of_mem_zeroRunTable s row hrow, countedRun_ok hfield hfits, finish_ok]
  case zerosOverrun => exact exec_of_mem_zeroRunTable s row hrow ▸ raises_finish (countedRun_overrun hfield hover)

/-! ### Literals and end of block (R261 to R263) -/

/-- Settles O30: both elements are `emit`, whose sums are those of one byte of Adler-32. -/
theorem literalsAndEndOfBlock : Obligations.LiteralsAndEndOfBlock := by
  refine ⟨fun b s => ?_, exec_eob⟩
  obtain ⟨hfirst, hsecond⟩ := adlerByte_toNat s.adlerA s.adlerB b
  exact ⟨_, _, hfirst, hsecond, exec_lit b s, exec_emit b s⟩

/-! ### Lengths (R264) -/

/-- Settles O31: the extra bits of the row are there or not. -/
theorem lengthSymbols : Obligations.LengthSymbols := by
  intro row hrow s
  rw [exec_of_mem_lengthTable s row hrow]
  refine ⟨fun e hfield => ?length, fun hend hshort => ?truncated⟩
  case length => rw [getbits_bind_ok hfield, finish_ok]
  case truncated => exact raises_getbits_missing (by omega) hshort

/-! ### Distances and the copy (R266, R267, R269) -/

/-- The copy with its distance inside the output: the new bytes are appended, each in the Adler-32, and repeat the output at the
distance. -/
theorem copy_ok {length dist : Nat} {s : State} (hpos : 1 ≤ dist) (hinside : dist ≤ s.obuf.length) : ∃ new : List Byte,
    copy length dist s = .ok () { s with
      obuf := s.obuf ++ new
      adlerA := (new.foldl (fun ab b => adlerByte ab.1 ab.2 b) (s.adlerA, s.adlerB)).1
      adlerB := (new.foldl (fun ab b => adlerByte ab.1 ab.2 b) (s.adlerA, s.adlerB)).2 } ∧
    new.length = length ∧
    ∀ k, k < length → (s.obuf ++ new)[s.obuf.length + k]? = (s.obuf ++ new)[s.obuf.length + k - dist]? := by
  obtain ⟨new, hcopy, hlength, hrepeat⟩ := copyBytes_ok dist hpos length s hinside
  exact ⟨new, by rw [copy, require_bind_pos hinside, hcopy, emits_eq], hlength, hrepeat⟩

/-- A copy from beyond the output copies nothing. -/
theorem copy_raise {length dist : Nat} {s : State} (h : s.obuf.length < dist) :
    copy length dist s = .raise .invalidBackReference s := by
  rw [copy, require_bind_neg (Nat.not_le.2 h)]

section
variable {row : Instr × Nat × Nat} (hrow : row ∈ distanceTable) {s : State}
include hrow

/-- A distance beyond the output is rejected after its extra bits. -/
theorem raises_distance_beyond {e : Nat} (hfield : FieldAt s.zbuf s.bp row.2.1 e) (hbeyond : s.obuf.length < row.2.2 + e) :
    Raises (exec row.1 s) .invalidBackReference := by
  rw [exec_of_mem_distanceTable s row hrow, getbits_bind_ok hfield]
  exact raises_bind (copy_raise hbeyond)

/-- The extra bits of a distance, not all there. -/
theorem raises_distance_truncated (hend : s.bp ≤ 8 * s.zbuf.length) (hshort : 8 * s.zbuf.length < s.bp + row.2.1) :
    Raises (exec row.1 s) .truncatedCompressedData := by
  rw [exec_of_mem_distanceTable s row hrow]
  exact raises_getbits_missing (by omega) hshort

end

/-- Settles O32: the distance is beyond the output or the copy appends its bytes. -/
theorem distanceSymbols : Obligations.DistanceSymbols := by
  intro row hrow s e hfield
  refine ⟨raises_distance_beyond hrow hfield, fun hinside => ?copied⟩
  case copied =>
    have hpos : 1 ≤ row.2.2 + e := Nat.le_add_right_of_le (distanceTable_base_pos row hrow)
    obtain ⟨new, hcopy, hlength, hrepeat⟩ :=
      copy_ok (length := s.mlen) (s := { s with bp := s.bp + row.2.1 }) hpos hinside
    refine ⟨new, ?_, hlength, hrepeat⟩
    rw [exec_of_mem_distanceTable s row hrow, getbits_bind_ok hfield, hcopy, bind_ok, finish_ok]

/-- Settles O33: the test of the distance comes last, and with no output every distance fails it. -/
theorem backReferenceFaults : Obligations.BackReferenceFaults := by
  refine ⟨fun row hrow s => ⟨fun e hfield hbeyond => ?beyond, raises_distance_truncated hrow⟩, fun s => ⟨?dist30, ?dist31⟩⟩
  case beyond =>
    refine raises_distance_beyond hrow hfield (hbeyond.elim id fun hempty => ?_)
    have hpos := distanceTable_base_pos row hrow
    rw [hempty, List.length_nil]
    omega
  case dist30 => exact exec_dist30 s ▸ raises_next ..
  case dist31 => exact exec_dist31 s ▸ raises_next ..

end Sys2Proof.SymbolProofs
end

section
/-! Scanline reconstruction (46_scanline.md): the filter equations as numbers (R297 to R301), the pass table and the pass elements
(R292, R295), the grid of each pass and why the grids partition the image (R304), and the steps of the sequencer into RECON,
between rows and passes, and at the commit (R294, R303, R365). -/

namespace Sys2Proof.ScanlineProofs

open Sys2Proof Sys2Proof.Machine Sys2Proof.Safety Sys2Proof.Laws Sys2Proof.StateProofs Sys2Proof.ContainerProofs

/-! ### The filter equations as numbers (R297 to R301) -/

/-- The filter equation of each type, on bytes (30_encoding.md R119). -/
def filterByte : Nat → Byte → Byte → Byte → Byte → Byte
  | 0 => filterNone
  | 1 => filterSub
  | 2 => filterUp
  | 3 => filterAvg
  | _ => filterPaeth

/-- Each filter element reconstructs a row by the equation of its type: the meanings of the rows are one list, row for row. -/
theorem exec_of_mem_filterTable (s : State) : ∀ row ∈ filterTable,
    exec row.1 s = finish (filterRow (BitVec.ofNat 8 row.2) (filterByte row.2) s) :=
  List.map_inj_left.1 rfl

/-- The predictor is chosen by the same three distances, whether as natural numbers or as absolute values (R301). -/
theorem paeth_toNat (a b c : Byte) : (paeth a b c).toNat = (paethSpec a.toNat b.toNat c.toNat).toNat := by
  simp only [paeth, paethSpec, Int.abs_eq_natAbs, Int.ofNat_le]
  split_ifs <;> exact (Int.toNat_natCast _).symm

/-- A byte from the filter equation is the number the rules give. -/
theorem filterByte_toNat (ft : Nat) (x a b c : Byte) :
    (filterByte ft x a b c).toNat = filterSpec ft x.toNat a.toNat b.toNat c.toNat := by
  match ft with
  | 0 => rfl
  | 1 => exact BitVec.toNat_add x a
  | 2 => exact BitVec.toNat_add x b
  | 3 => simp [filterByte, filterAvg, filterSpec]
  | _ + 4 => exact (BitVec.toNat_add x (paeth a b c)).trans (by rw [paeth_toNat]; rfl)

/-! ### A reconstructed row (R296, R306) -/

/-- Byte `k` of the bytes taken from `start` on is byte `start + k` of the buffer. -/
theorem rowByte_take_drop {l : List Byte} {start n k : Nat} (hk : k < n) :
    rowByte ((l.drop start).take n) k = rowByte l (start + k) := by
  simp [rowByte, List.getD_eq_getElem?_getD, hk]

/-- Byte `k` of a reconstructed row, as a number. -/
theorem rowByte_unfilter {ft bpp k : Nat} {prev raw : List Byte} (hbpp : 1 ≤ bpp) (hk : k < raw.length) :
    rowByte (unfilter (filterByte ft) bpp prev [] raw) k = filterSpec ft (rowByte raw k)
      (if bpp ≤ k then rowByte (unfilter (filterByte ft) bpp prev [] raw) (k - bpp) else 0)
      (rowByte prev k) (if bpp ≤ k then rowByte prev (k - bpp) else 0) := by
  obtain ⟨-, -, hbytes⟩ := unfilter_spec (filterByte ft) bpp hbpp prev raw []
  rw [← leftByte_toNat, ← leftByte_toNat, rowByte, hbytes k (Nat.zero_le k) (by simpa using hk), filterByte_toNat]
  rfl

/-- Settles O34: the row is fetched whole, and each byte is the filter of the bytes before it. -/
theorem filterRows : Obligations.FilterRows := by
  intro row hrow s bits rb hbits hrb hraw hprev
  obtain rfl : rb = rowbytesOf bits s.passW.toNat := hrb
  have hlength : ((s.obuf.drop s.rpos).take (rowbytesOf bits s.passW.toNat)).length = rowbytesOf bits s.passW.toNat := by
    rw [List.length_take, List.length_drop]
    omega
  refine ⟨_, by rw [exec_of_mem_filterTable s row hrow, filterRow_ok hbits hraw hprev, finish_ok], ?length, fun k hk => ?byte⟩
  case length => rw [unfilter_length, hlength, List.length_nil, Nat.zero_add]
  case byte =>
    rw [← rowByte_take_drop hk]
    exact rowByte_unfilter (Nat.le_max_left 1 (bits / 8)) (hlength.symm ▸ hk)

/-! ### The pass table and the pass elements (R121, R292, R295) -/

/-- Each row of the pass table names the element and the parameters of its pass. -/
theorem passTable_rows : ∀ row ∈ passTable, row.1 = passInstr row.2.1 ∧
    passParams row.2.1 = ⟨row.2.2.1, row.2.2.2.1, row.2.2.2.2.1, row.2.2.2.2.2⟩ := by decide

theorem passParams_x0_lt_dx : ∀ p : Fin 8, (passParams p).x0 < (passParams p).dx := by decide
theorem passParams_y0_lt_dy : ∀ p : Fin 8, (passParams p).y0 < (passParams p).dy := by decide
theorem passParams_dx_pos (p : Fin 8) : 1 ≤ (passParams p).dx := Nat.zero_lt_of_lt (passParams_x0_lt_dx p)
theorem passParams_dy_pos (p : Fin 8) : 1 ≤ (passParams p).dy := Nat.zero_lt_of_lt (passParams_y0_lt_dy p)

theorem passExtent_eq_passSpan {extent start step : Nat} (hstep : 1 ≤ step) :
    passExtent extent start step = passSpan extent start step := by
  rw [passExtent, passSpan, Nat.add_sub_assoc hstep]

theorem passWidth_eq_passSpan (p : Fin 8) (s : State) :
    passWidth p s = passSpan s.ihWidth.toNat (passParams p).x0 (passParams p).dx :=
  passExtent_eq_passSpan (passParams_dx_pos p)

theorem passHeight_eq_passSpan (p : Fin 8) (s : State) :
    passHeight p s = passSpan s.ihHeight.toNat (passParams p).y0 (passParams p).dy :=
  passExtent_eq_passSpan (passParams_dy_pos p)

/-- The sequence ends after the one pass of method 0 and after the last of method 1 (R304). -/
theorem stageAfterPass_eq : ∀ p : Fin 8, stageAfterPass p = if p = 0 ∨ p = 7 then .finished else .pass (p + 1) := by decide

section
variable {p : Fin 8} {s : State} {bits : Nat} (hbits : bitspp s = some bits)
include hbits

theorem exec_passInstr_empty (h : passWidth p s = 0 ∨ passHeight p s = 0) :
    exec (passInstr p) s = .next { s with rstage := stageAfterPass p } := by
  rw [pass_exec, passElement, withBitspp, hbits]
  simp only [if_pos h, finish_ok]

theorem exec_passInstr_start (h : ¬ (passWidth p s = 0 ∨ passHeight p s = 0)) :
    exec (passInstr p) s = .next (startPass bits p s) := by
  rw [pass_exec, passElement, withBitspp, hbits]
  simp only [if_neg h, finish_ok]

end

/-- Settles O35: the sizes of the pass are the spans of its row of the table, and decide whether it starts or is skipped. -/
theorem passElements : Obligations.PassElements := by
  refine ⟨freeRow, freeRow_length, fun row hrow s bits pw ph hbits hpw hph => ?_⟩
  obtain ⟨hinstr, hparams⟩ := passTable_rows row hrow
  obtain rfl : pw = passWidth row.2.1 s := by rw [hpw, passWidth_eq_passSpan, hparams]
  obtain rfl : ph = passHeight row.2.1 s := by rw [hph, passHeight_eq_passSpan, hparams]
  rw [hinstr]
  refine ⟨fun hw hh => ⟨?start, passWidth_lt row.2.1 s, passHeight_lt row.2.1 s⟩, fun hempty => ?skip⟩
  case start => exact exec_passInstr_start hbits (not_or.2 ⟨hw, hh⟩)
  case skip => rw [exec_passInstr_empty hbits hempty, stageAfterPass_eq]

/-! ### The grids of the passes partition the image (R304) -/

/-- The column `x` and the row `y` of the image are of the grid of the pass. -/
abbrev OnGrid (p : Fin 8) (x y : Nat) : Prop :=
  x % (passParams p).dx = (passParams p).x0 ∧ y % (passParams p).dy = (passParams p).y0

/-- Within its first step a start and an index are the remainder and the quotient. -/
theorem start_add_index_mul_iff {start step i x : Nat} (h : start < step) :
    start + i * step = x ↔ x % step = start ∧ i = x / step := by
  rw [and_comm, eq_comm (a := i), Nat.div_mod_unique (Nat.zero_lt_of_lt h), and_iff_left h, Nat.mul_comm]

/-- Every position of the 8 by 8 tile is of exactly one of the seven passes. -/
theorem existsUnique_pass_tile : ∀ x y : Fin 8, ∃ p ∈ ([1, 2, 3, 4, 5, 6, 7] : List (Fin 8)),
    OnGrid p x y ∧ ∀ q ∈ ([1, 2, 3, 4, 5, 6, 7] : List (Fin 8)), OnGrid q x y → q = p := by decide

/-- The steps of a pass divide the tile. -/
theorem passParams_step_dvd_eight : ∀ p : Fin 8, (passParams p).dx ∣ 8 ∧ (passParams p).dy ∣ 8 := by decide

/-- The grid of a pass repeats with the tile. -/
theorem onGrid_mod_eight (p : Fin 8) (x y : Nat) : OnGrid p (x % 8) (y % 8) ↔ OnGrid p x y := by
  obtain ⟨hdx, hdy⟩ := passParams_step_dvd_eight p
  rw [OnGrid, OnGrid, Nat.mod_mod_of_dvd x hdx, Nat.mod_mod_of_dvd y hdy]

/-- Every position is of the grid of exactly one pass of the sequence. -/
theorem existsUnique_onGrid (s : State) (x y : Nat) :
    ∃ p ∈ passSteps s, OnGrid p x y ∧ ∀ q ∈ passSteps s, OnGrid q x y → q = p := by
  cases hi : s.ihIlace with
  | false =>
    have hsteps : passSteps s = [0] := by rw [passSteps, hi]; rfl
    rw [hsteps]
    exact ⟨0, List.mem_singleton_self 0, ⟨Nat.mod_one x, Nat.mod_one y⟩, fun q hq _ => List.mem_singleton.1 hq⟩
  | true =>
    have hsteps : passSteps s = [1, 2, 3, 4, 5, 6, 7] := by rw [passSteps, hi]; rfl
    rw [hsteps]
    simp only [← onGrid_mod_eight _ x y]
    exact existsUnique_pass_tile ⟨x % 8, Nat.mod_lt x (by decide)⟩ ⟨y % 8, Nat.mod_lt y (by decide)⟩

/-- Settles O36: a pixel of a pass is a position of the grid of the pass, its indices the quotients by the steps; the grids of the
sequence meet every position once. -/
theorem passesCoverImage : Obligations.PassesCoverImage := by
  intro s x y hx hy
  obtain ⟨p, hp, hgrid, honly⟩ := existsUnique_onGrid s x y
  have hcolumn (q : Fin 8) (i : Nat) := start_add_index_mul_iff (i := i) (x := x) (passParams_x0_lt_dx q)
  have hrow (q : Fin 8) (j : Nat) := start_add_index_mul_iff (i := j) (x := y) (passParams_y0_lt_dy q)
  have hxi := (hcolumn p _).2 ⟨hgrid.1, rfl⟩
  have hyj := (hrow p _).2 ⟨hgrid.2, rfl⟩
  refine ⟨p, x / (passParams p).dx, y / (passParams p).dy, ⟨hp, ?width, ?height, hxi, hyj⟩, fun q i j hq _ _ hqi hqj => ?unique⟩
  case width => exact (lt_passExtent (passParams_dx_pos p)).2 (hxi.trans_lt hx)
  case height => exact (lt_passExtent (passParams_dy_pos p)).2 (hyj.trans_lt hy)
  case unique =>
    obtain ⟨hqx, rfl⟩ := (hcolumn q i).1 hqi
    obtain ⟨hqy, rfl⟩ := (hrow q j).1 hqj
    obtain rfl := honly q hq ⟨hqx, hqy⟩
    exact ⟨rfl, rfl, rfl⟩

/-! ### Entering RECON (R293, R294, R364) -/

section
variable {s : State} {bits : Nat} (hbits : bitspp s = some bits)
include hbits

theorem enterRecon_ok (h : needBytes bits s ≤ s.obuf.length) : enterRecon s = .ok () { s with
    phase := .recon
    rpos := 0
    frame := Memory.alloc (s.ihWidth.toNat * s.ihHeight.toNat * 4)
    rstage := .pass (firstPass s) } := by
  rw [enterRecon, withBitspp, hbits]
  exact require_bind_pos h ..

theorem enterRecon_raise (h : s.obuf.length < needBytes bits s) :
    enterRecon s = .raise .truncatedPixelData { s with phase := .recon, rpos := 0 } := by
  rw [enterRecon, withBitspp, hbits]
  exact require_bind_neg (Nat.not_le.2 h) ..

end

theorem fetch_inflateFinished {s : State} (q : Quiet s) (hp : s.phase = .inflate) (hs : s.istage = .finished) :
    fetch s = (enterRecon s).bind fun _ s => .ok none s := by
  simp only [fetch_inflate q hp, fetchInflate, hs]

/-- Settles O37: the length is compared first, and the array that is then allocated reads 0 everywhere. -/
protected theorem enterRecon : Obligations.EnterRecon := by
  intro s bits need q hp hs hbits hneed
  obtain rfl : need = needBytes bits s := hneed
  have hfetch := fetch_inflateFinished q hp hs
  refine ⟨fun hshort => ?short, fun henough => ⟨Memory.alloc _, ?enough, rfl, fun a ha => read_alloc ha⟩⟩
  case short =>
    rw [enterRecon_raise hbits hshort, bind_raise] at hfetch
    exact step_raise hfetch ▸ raises_next ..
  case enough =>
    rw [enterRecon_ok hbits henough, bind_ok] at hfetch
    exact step_sequencer hfetch

/-! ### Between rows, between passes, and the commit (R303, R304, R365, R367) -/

section
variable {s : State} (q : Quiet s) (hp : s.phase = .recon)
include q hp

theorem step_endRow (hs : s.rstage = .pixel) (h : s.passW.toNat ≤ s.col) : step s = .next (endRow s) :=
  step_sequencer (by simp only [fetch_recon q hp, fetchRecon, hs, if_neg (Nat.not_lt.2 h)])

theorem step_endPass (hs : s.rstage = .row) (h : s.passH.toNat ≤ s.row.toNat) : step s = .next (endPass s) :=
  step_sequencer (by simp only [fetch_recon q hp, fetchRecon, hs, if_neg (Nat.not_lt.2 h)])

theorem step_commit (hs : s.rstage = .finished) : step s = .next (commit s) :=
  step_sequencer (by simp only [fetch_recon q hp, fetchRecon, hs])

end

/-- Settles O38: each clause is one step of the sequencer. -/
theorem rowEndAndCommit : Obligations.RowEndAndCommit := by
  refine ⟨fun s q hp hs h => step_endRow q hp hs h, fun s q hp hs h => ?pass, fun s q hp hs => step_commit q hp hs⟩
  case pass =>
    rw [step_endPass q hp hs h, endPass, stageAfterPass_eq]
    simp only [← BitVec.toFin_inj]
    rfl

end Sys2Proof.ScanlineProofs
end

section
/-! Pixel conversion (47_pixel_convert.md): a sample of the row as the bits it stands in (R321), the scaled sample as a number (R323),
what each conversion answers (R325 to R344), and the pixel write that follows it (R340). -/

namespace Sys2Proof.PixelProofs

open Sys2Proof Sys2Proof.Machine Sys2Proof.Safety Sys2Proof.Laws Sys2Proof.ContainerProofs

/-! ### The elements, by their conversions (R107) -/

/-- Each element of colour type 0 is the gray conversion at its depth: the meanings of the rows are one list, row for row. -/
theorem exec_of_mem_grayTable (s : State) : ∀ row ∈ grayTable, exec row.1 s = finish ((convertGray row.2 s).bind writePixel) :=
  List.map_inj_left.1 rfl

theorem exec_of_mem_rgbTable (s : State) : ∀ row ∈ rgbTable, exec row.1 s = finish ((convertRgb row.2 s).bind writePixel) :=
  List.map_inj_left.1 rfl

theorem exec_of_mem_paletteTable (s : State) : ∀ row ∈ paletteTable,
    exec row.1 s = finish ((convertPalette row.2 s).bind writePixel) :=
  List.map_inj_left.1 rfl

theorem exec_of_mem_grayAlphaTable (s : State) : ∀ row ∈ grayAlphaTable,
    exec row.1 s = finish ((convertGrayAlpha row.2 s).bind writePixel) :=
  List.map_inj_left.1 rfl

theorem exec_of_mem_rgbaTable (s : State) : ∀ row ∈ rgbaTable, exec row.1 s = finish ((convertRgba row.2 s).bind writePixel) :=
  List.map_inj_left.1 rfl

theorem depth_of_mem_grayTable : ∀ row ∈ grayTable, row.2 ∈ depths := by decide
theorem depth_of_mem_rgbTable : ∀ row ∈ rgbTable, row.2 ∈ depths := by decide
theorem depth_of_mem_paletteTable : ∀ row ∈ paletteTable, row.2 ∈ depths := by decide
theorem depth_of_mem_grayAlphaTable : ∀ row ∈ grayAlphaTable, row.2 ∈ depths := by decide
theorem depth_of_mem_rgbaTable : ∀ row ∈ rgbaTable, row.2 ∈ depths := by decide

/-! ### Samples (R321) -/

/-- A byte of the row that is present is read, and nothing changes. -/
theorem readByte_bind_ok {β : Type} {row : List Byte} {i : Nat} (h : i < row.length) (s : State) (f : Byte → State → Res β) :
    (readByte row i s).bind f = f (row.getD i 0) s := by
  rw [readByte_lt h, bind_ok, List.getD_eq_getElem row 0 h]

/-- The eight bits from a byte boundary on are the byte. -/
theorem bitsFrom_eight (row : List Byte) (i : Nat) : bitsFrom row (8 * i) 8 = rowByte row i := by
  rw [bitsFrom_byte row (8 * i) 8 (by omega), Nat.mul_div_cancel_left i (by decide), Nat.mul_mod_right, Nat.shiftRight_zero,
    Nat.mod_eq_of_lt (rowByte_lt row i)]

theorem sampleSpec_eight (row : List Byte) (n : Nat) : sampleSpec 8 n row = rowByte row n := by
  rw [sampleSpec, Nat.mul_comm, bitsFrom_eight]

/-- A 16-bit sample is two bytes of the row, the first the most significant. -/
theorem sampleSpec_sixteen (row : List Byte) (n : Nat) :
    sampleSpec 16 n row = rowByte row (2 * n) * 2 ^ 8 + rowByte row (2 * n + 1) := by
  have hbytes : sampleSpec 16 n row = bitsFrom row (8 * (2 * n)) 8 * 2 ^ 8 + bitsFrom row (8 * (2 * n + 1)) 8 := by
    rw [sampleSpec, show n * 16 = 8 * (2 * n) by omega, bitsFrom_add row _ 8 8, Nat.mul_add_one]
  rw [hbytes, bitsFrom_eight, bitsFrom_eight]

/-- A sample below 8 bits does not cross a byte boundary. -/
theorem subByte_fits {d : Nat} (n : Nat) (hd : d = 1 ∨ d = 2 ∨ d = 4) : n * d % 8 + d ≤ 8 := by
  rcases hd with rfl | rfl | rfl <;> omega

/-- A sample of the row is the bits it stands in, and extracting it changes nothing. -/
theorem sample_ok {d n : Nat} {s : State} (hd : d ∈ depths) (h : (n + 1) * d ≤ 8 * s.currow.length) :
    sample d n s = .ok (sampleSpec d n s.currow) s := by
  rw [Nat.add_one_mul] at h
  rw [sample]
  split_ifs with h8 h16
  · subst h8
    rw [readByte_bind_ok (by omega), sampleSpec_eight, rowByte]
  · subst h16
    rw [readByte_bind_ok (by omega), readByte_bind_ok (by omega), sampleSpec_sixteen]
    rfl
  · have hsub : d = 1 ∨ d = 2 ∨ d = 4 := by simpa [h8, h16] using hd
    rw [readByte_bind_ok (by omega), sampleSpec, bitsFrom_byte _ _ _ (subByte_fits n hsub), rowByte]

/-- Settles O39: at 8 bits a sample is a byte, at 16 two bytes, below 8 a field within one byte. -/
theorem sampleBits : Obligations.SampleBits := fun _ hd _ _ h => sample_ok hd h

/-- What follows a sample of the row goes on with its bits. -/
theorem sample_bind_ok {β : Type} {d n : Nat} {s : State} (hd : d ∈ depths) (h : (n + 1) * d ≤ 8 * s.currow.length)
    (f : Nat → State → Res β) : (sample d n s).bind f = f (sampleSpec d n s.currow) s := by
  rw [sample_ok hd h, bind_ok]

/-! ### Channels as numbers (R323, R331, R333) -/

/-- Scaling a sample of `d` bits does not overflow the byte. -/
theorem scale8_toNat {d v : Nat} (hd : d ∈ depths) (hv : v < 2 ^ d) : (scale8 v d).toNat = scaleSpec v d := by
  simp only [List.mem_cons, List.not_mem_nil, or_false] at hd
  rcases hd with rfl | rfl | rfl | rfl | rfl
  · exact Nat.mod_eq_of_lt (by omega)
  · exact Nat.mod_eq_of_lt (by omega)
  · exact Nat.mod_eq_of_lt (by omega)
  · exact Nat.mod_eq_of_lt hv
  · exact (Nat.mod_eq_of_lt (by omega)).trans (Nat.shiftRight_eq_div_pow v 8)

theorem scale8_sampleSpec_toNat {d : Nat} (hd : d ∈ depths) (n : Nat) (row : List Byte) :
    (scale8 (sampleSpec d n row) d).toNat = scaleSpec (sampleSpec d n row) d :=
  scale8_toNat hd (bitsFrom_lt row (n * d) d)

theorem grayAlpha_toNat (g : Nat) (s : State) :
    (grayAlpha g s).toNat = if s.haveTrns = true ∧ g = s.trnsKey.k0.toNat then 0 else 255 :=
  apply_ite BitVec.toNat ..

theorem rgbAlpha_toNat (r g b : Nat) (s : State) : (rgbAlpha r g b s).toNat =
    if s.haveTrns = true ∧ r = s.trnsKey.k0.toNat ∧ g = s.trnsKey.k1.toNat ∧ b = s.trnsKey.k2.toNat then 0 else 255 :=
  apply_ite BitVec.toNat ..

/-! ### The conversions, with the samples of the pixel in the row -/

section
variable {d : Nat} {s : State} (hd : d ∈ depths)
include hd

theorem convertGray_ok (h : Fits 1 d s) : convertGray d s =
    .ok ⟨scale8 (sampleSpec d s.col s.currow) d, scale8 (sampleSpec d s.col s.currow) d,
      scale8 (sampleSpec d s.col s.currow) d, grayAlpha (sampleSpec d s.col s.currow) s⟩ s := by
  rw [convertGray, sample_bind_ok hd (fits_one h)]

theorem convertRgb_ok (h : Fits 3 d s) : convertRgb d s =
    .ok ⟨scale8 (sampleSpec d (3 * s.col) s.currow) d, scale8 (sampleSpec d (3 * s.col + 1) s.currow) d,
      scale8 (sampleSpec d (3 * s.col + 2) s.currow) d, rgbAlpha (sampleSpec d (3 * s.col) s.currow)
        (sampleSpec d (3 * s.col + 1) s.currow) (sampleSpec d (3 * s.col + 2) s.currow) s⟩ s := by
  rw [convertRgb, sample_bind_ok hd (fits_sample (k := 0) h (by decide)), sample_bind_ok hd (fits_sample h (by decide)),
    sample_bind_ok hd (fits_sample h (by decide))]

theorem convertPalette_eq_lookup (h : Fits 1 d s) : convertPalette d s = paletteLookup (sampleSpec d s.col s.currow) s := by
  rw [convertPalette, sample_bind_ok hd (fits_one h)]

theorem convertGrayAlpha_ok (h : Fits 2 d s) : convertGrayAlpha d s =
    .ok ⟨scale8 (sampleSpec d (2 * s.col) s.currow) d, scale8 (sampleSpec d (2 * s.col) s.currow) d,
      scale8 (sampleSpec d (2 * s.col) s.currow) d, scale8 (sampleSpec d (2 * s.col + 1) s.currow) d⟩ s := by
  rw [convertGrayAlpha, sample_bind_ok hd (fits_sample (k := 0) h (by decide)), sample_bind_ok hd (fits_sample h (by decide))]

theorem convertRgba_ok (h : Fits 4 d s) : convertRgba d s =
    .ok ⟨scale8 (sampleSpec d (4 * s.col) s.currow) d, scale8 (sampleSpec d (4 * s.col + 1) s.currow) d,
      scale8 (sampleSpec d (4 * s.col + 2) s.currow) d, scale8 (sampleSpec d (4 * s.col + 3) s.currow) d⟩ s := by
  rw [convertRgba, sample_bind_ok hd (fits_sample (k := 0) h (by decide)), sample_bind_ok hd (fits_sample h (by decide)),
    sample_bind_ok hd (fits_sample h (by decide)), sample_bind_ok hd (fits_sample h (by decide))]

end

/-! ### Palette lookup (R335) -/

/-- An index has the alpha of its transparency entry where the chunk supplied one, and else is opaque. -/
theorem paletteAlpha_ok {i : Nat} {alpha : Byte} {s : State} (hentry : i < s.trnsN.toNat → s.trnsA[i]? = some alpha)
    (hopaque : s.trnsN.toNat ≤ i → alpha = 255) : paletteAlpha i s = .ok alpha s := by
  rw [paletteAlpha]
  split_ifs with hi
  · exact readByte_eq_ok.2 ⟨hentry hi, rfl⟩
  · rw [hopaque (Nat.not_lt.1 hi)]

theorem paletteLookup_ok {i : Nat} {c : Rgb} {alpha : Byte} {s : State} (hi : i < s.pltN.toNat) (hc : s.plt[i]? = some c)
    (ha : paletteAlpha i s = .ok alpha s) : paletteLookup i s = .ok ⟨c.r, c.g, c.b, alpha⟩ s := by
  rw [paletteLookup, require_bind_pos hi, hc]
  dsimp only
  rw [ha, bind_ok]

theorem paletteLookup_raise {i : Nat} {s : State} (hi : s.pltN.toNat ≤ i) :
    paletteLookup i s = .raise .paletteIndexOutOfRange s :=
  require_bind_neg (Nat.not_lt.2 hi) ..

/-! ### The pixel write (R340) -/

/-- A conversion that answers a pixel in the unchanged state is followed by the write of that pixel. -/
theorem pixelWritten_of_convert {r : Res Rgba} {p : Rgba} {s : State} (hr : r = .ok p s)
    (hroom : pixelAddress s + 4 ≤ s.frame.size) (hwf : s.frame.wf = true) :
    ∃ t, finish (r.bind writePixel) = .next t ∧ PixelWritten s t p.r.toNat p.g.toNat p.b.toNat p.a.toNat := by
  obtain ⟨t, hwrite, hwritten⟩ := writePixel_spec (p := p) hroom hwf
  exact ⟨t, by rw [hr, bind_ok, hwrite, finish_ok], hwritten⟩

/-- Settles O40: one sample, scaled for the three colours and compared unscaled with the key. -/
theorem grayPixels : Obligations.GrayPixels := by
  rintro row hrow s ⟨hfits, hroom, hwf⟩
  have hd := depth_of_mem_grayTable row hrow
  rw [exec_of_mem_grayTable s row hrow, ← grayAlpha_toNat, ← scale8_sampleSpec_toNat hd]
  exact pixelWritten_of_convert (convertGray_ok hd hfits) hroom hwf

/-- Settles O41: three samples, each scaled, and together compared unscaled with the key. -/
theorem rgbPixels : Obligations.RgbPixels := by
  rintro row hrow s ⟨hfits, hroom, hwf⟩
  have hd := depth_of_mem_rgbTable row hrow
  simp only [exec_of_mem_rgbTable s row hrow, ← rgbAlpha_toNat, ← scale8_sampleSpec_toNat hd]
  exact pixelWritten_of_convert (convertRgb_ok hd hfits) hroom hwf

/-- Settles O42: the index is compared with the number of entries before anything is looked up or written. -/
theorem palettePixels : Obligations.PalettePixels := by
  rintro row hrow s i ⟨hfits, hroom, hwf⟩ rfl
  have hconvert := convertPalette_eq_lookup (depth_of_mem_paletteTable row hrow) hfits
  rw [exec_of_mem_paletteTable s row hrow]
  refine ⟨fun hout => ?outOfRange, fun c alpha hi hc hentry hopaque => ?entry⟩
  case outOfRange => exact raises_bind (hconvert.trans (paletteLookup_raise hout))
  case entry =>
    exact pixelWritten_of_convert (hconvert.trans (paletteLookup_ok hi hc (paletteAlpha_ok hentry hopaque))) hroom hwf

/-- Settles O43: every channel is a sample of its own, scaled, the alpha too. -/
theorem alphaPixels : Obligations.AlphaPixels := by
  refine ⟨?grayAlpha, ?rgba⟩
  case grayAlpha =>
    rintro row hrow s ⟨hfits, hroom, hwf⟩
    have hd := depth_of_mem_grayAlphaTable row hrow
    simp only [exec_of_mem_grayAlphaTable s row hrow, ← scale8_sampleSpec_toNat hd]
    exact pixelWritten_of_convert (convertGrayAlpha_ok hd hfits) hroom hwf
  case rgba =>
    rintro row hrow s ⟨hfits, hroom, hwf⟩
    have hd := depth_of_mem_rgbaTable row hrow
    simp only [exec_of_mem_rgbaTable s row hrow, ← scale8_sampleSpec_toNat hd]
    exact pixelWritten_of_convert (convertRgba_ok hd hfits) hroom hwf

end Sys2Proof.PixelProofs
end

section
/-! Host control (48_host_control.md): what `DECODE` does where no decode runs (R361), the order of the phases (R362), and the host's view
of each phase (R366). -/

namespace Sys2Proof.HostControlProofs

open Sys2Proof Sys2Proof.Machine Sys2Proof.Safety Sys2Proof.Laws Sys2Proof.StateProofs

/-! ### The order of the phases (R362) -/

/-- Settles O49, by the cases of a step: the three relations of a phase keep it, each sequencing step enters the next one, and
only a running decode faults. -/
theorem phaseSequence : Obligations.PhaseSequence := fun s t q hstep => by
  cases stepKind_of_step hstep with
  | reset line => cases q.2.symm.trans line
  | start cmd => cases q.1.symm.trans cmd
  | wait => exact .inl rfl
  | container _ did => exact .inl did.rel.phase
  | inflate _ rel => exact .inl rel.phase
  | recon _ rel => exact .inl rel.phase
  | enterInflate phase => exact .inr (.inl (by rw [phase]; rfl))
  | enterRecon phase => exact .inr (.inl (by rw [phase]; rfl))
  | commit phase => exact .inr (.inl (by rw [phase]; rfl))
  | fault running => exact .inr (.inr ⟨running, rfl⟩)

/-! ### The host's view (R366) -/

/-- Settles O56, by the cases of a step: commit copies `FRAME`, whose size RECON keeps, and fault entry empties the output. -/
theorem outputInvKept : Obligations.OutputInvKept := fun _ _ hi hstep => (stepKind_of_step hstep).outputInv hi

/-! ### `DECODE` (R361) -/

theorem decodeRuns_iff {s : State} : decodeRuns s = true ↔ Running s := by
  unfold decodeRuns Running
  cases s.phase <;> decide

section
variable {s : State} {maxPixels : Nat} (stream : List Byte) (verify : Bool) (idle : ¬ Running s)
include idle

theorem exec_decode_start (range : 1 ≤ maxPixels ∧ maxPixels < 2 ^ 30) :
    exec (.decode stream maxPixels verify) s = .next (startDecode stream maxPixels verify s) :=
  (if_neg (mt decodeRuns_iff.1 idle)).trans (if_pos range)

theorem exec_decode_outOfRange (range : ¬ (1 ≤ maxPixels ∧ maxPixels < 2 ^ 30)) :
    exec (.decode stream maxPixels verify) s = .refused .maxPixelsOutOfRange :=
  (if_neg (mt decodeRuns_iff.1 idle)).trans (if_neg range)

end

/-- The start step gives every register of the reset table its value (10_state.md R48), whatever the state before. -/
theorem resetValues_startDecode (stream : List Byte) (maxPixels : Nat) (verify : Bool) (s : State) :
    ResetValues (startDecode stream maxPixels verify s) where
  pstate := rfl
  cursors := ⟨rfl, rfl, rfl⟩
  chunk := ⟨rfl, rfl, rfl, rfl⟩
  counts := ⟨rfl, rfl⟩
  flags := ⟨rfl, rfl, rfl, rfl⟩
  buffers := ⟨rfl, rfl, rfl⟩
  adler := ⟨rfl, rfl⟩
  output := ⟨rfl, rfl, rfl, rfl⟩
  fault := ⟨rfl, rfl⟩

/-- Settles O44: the two equations of `DECODE` where no decode runs, and the values of the start state. -/
theorem decodeStart : Obligations.DecodeStart := by
  refine fun stream maxPixels verify s idle => ⟨fun hlow hhigh => ?start, exec_decode_outOfRange stream verify idle⟩
  case start =>
    exact ⟨_, exec_decode_start stream verify idle ⟨hlow, hhigh⟩, rfl, rfl, rfl, rfl, resetValues_startDecode ..⟩

end Sys2Proof.HostControlProofs
end

section
/-! Every step of a running decode answers a next state, and every decode ends (60_exceptions.md R383): what a step of each phase can do
(`cont_step`, `infl_step`, `recon_step`), and what each has less to do after it. -/

namespace Sys2Proof.TotalityProofs

open Sys2Proof Sys2Proof.Machine Sys2Proof.Safety Sys2Proof.Laws Sys2Proof.StateProofs

/-! ### A step of each phase -/

/-- The header that is read has a `BITSPP`, so that phase INFLATE has what it relies on. -/
theorem inflReady_of_inv {s : State} (h : Inv s) (hp : s.phase = .inflate) : InflReady s := by
  obtain ⟨bits, hb⟩ := bitspp_of_pair (h.header.pair (.inr (.inl hp)))
  exact ⟨h.tables.llLen, h.tables.dLen, h.tables.clLen, by simp [hb]⟩

theorem contPost_of_phase {s : State} (q : Quiet s) (hp : s.phase = .container) : ∃ t, step s = .next t ∧ ContPost s t :=
  ends_total (cont_step q hp) not_false

section
variable {s : State} (hi : Inv s) (q : Quiet s)
include hi q

theorem inflPost_of_inv (hp : s.phase = .inflate) : ∃ t, step s = .next t ∧ InflPost s t :=
  ends_total (infl_step q hp) (not_not_intro (inflReady_of_inv hi hp))

theorem reconPost_of_inv (hp : s.phase = .recon) : ∃ t, step s = .next t ∧ ReconPost s t :=
  ends_total (recon_step q hp) (not_not_intro (ri_of_inv hi hp))

end

/-- Settles O59, phase by phase; where no decode runs the step changes nothing. -/
theorem stepNeverStops : Obligations.StepNeverStops := fun s hi q => by
  by_cases hr : Running s
  · rcases hr with hp | hp | hp
    · exact (contPost_of_phase q hp).imp fun _ h => h.1
    · exact (inflPost_of_inv hi q hp).imp fun _ h => h.1
    · exact (reconPost_of_inv hi q hp).imp fun _ h => h.1
  · exact ⟨s, step_sequencer (fetch_waiting q hr)⟩

/-! ### What is left to do -/

/-- The phases a decode is still to end, its own included (48_host_control.md R362). -/
def phasesLeft : Phase → Nat
  | .container => 3
  | .inflate => 2
  | .recon => 1
  | .idle | .done | .faulted => 0

/-- What is left to do in the phase: the bytes of `IN`; the bits of `ZBUF`, with the one step that reads none (the installation of
the codes, 44_inflate_blocks.md R240) counted apart; the rank of the passes, rows and pixels. -/
def workLeft (s : State) : Nat :=
  match s.phase with
  | .container => s.input.length - s.cur
  | .inflate => 2 * (8 * s.zbuf.length - s.bp) + (if s.istage = .codeLengths then 1 else 0)
  | .recon => rank s
  | .idle | .done | .faulted => 0

/-- What is left of the decode: the phases first, then the work of the phase. -/
def toGo (s : State) : Nat × Nat := (phasesLeft s.phase, workLeft s)

section
variable {s : State}

theorem toGo_container (hp : s.phase = .container) : toGo s = (3, s.input.length - s.cur) := by
  simp [toGo, workLeft, phasesLeft, hp]

theorem toGo_inflate (hp : s.phase = .inflate) :
    toGo s = (2, 2 * (8 * s.zbuf.length - s.bp) + (if s.istage = .codeLengths then 1 else 0)) := by
  simp [toGo, workLeft, phasesLeft, hp]

theorem toGo_recon (hp : s.phase = .recon) : toGo s = (1, rank s) := by
  simp [toGo, workLeft, phasesLeft, hp]

end

/-- A step of a running decode brings it closer to its end: it has ended, or it runs on its own with less left to do. -/
def Closer (s t : State) : Prop :=
  Ended t ∨ (Quiet t ∧ Running t ∧ Prod.Lex (· < ·) (· < ·) (toGo t) (toGo s))

theorem ended_raiseFault (k : FaultKind) (s : State) : Ended (raiseFault k s) := .inr rfl

/-! ### Every step leaves less to do -/

section
variable {s t : State}

theorem quiet_of_contRel (h : ContRel s t) (q : Quiet s) : Quiet t := by rw [h.frame]; exact q
theorem quiet_of_inflRel (h : InflRel s t) (q : Quiet s) : Quiet t := by rw [h.frame]; exact q
theorem quiet_of_reconRel (h : ReconRel s t) (q : Quiet s) : Quiet t := by rw [h.frame]; exact q

/-- In CONTAINER every step takes bytes of `IN`, until INFLATE is entered. -/
theorem closer_of_contPost (hi : CursorInv s) (q : Quiet s) (hp : s.phase = .container) (h : ContPost s t) : Closer s t := by
  have hcur := hi.cur (.inl hp)
  rcases h with did | ⟨-, -, rfl⟩ | ⟨k, u, -, -, rfl⟩
  · have hpt := did.rel.phase.trans hp
    have hinput : t.input = s.input := by rw [did.rel.frame]; rfl
    have hmore := did.more hcur
    have hbound := did.rel.bound hcur
    refine .inr ⟨quiet_of_contRel did.rel q, .inl hpt, ?_⟩
    rw [toGo_container hp, toGo_container hpt, hinput]
    exact .right _ (by omega)
  · refine .inr ⟨q, .inr (.inl rfl), ?_⟩
    rw [toGo_container hp, toGo_inflate rfl]
    exact .left _ _ (by decide)
  · exact .inl (ended_raiseFault k u)

/-- In INFLATE every step takes bits of `ZBUF` or installs the codes, until RECON is entered. -/
theorem closer_of_inflPost (hi : CursorInv s) (q : Quiet s) (hp : s.phase = .inflate) (h : InflPost s t) : Closer s t := by
  rcases h with ⟨rel, -, hread⟩ | ⟨-, -, rfl⟩ | ⟨k, u, -, rfl⟩ | ⟨-, rfl⟩
  · have hpt := rel.phase.trans hp
    have hbound := rel.bound (hi.bp hp)
    refine .inr ⟨quiet_of_inflRel rel q, .inr (.inl hpt), ?_⟩
    rw [toGo_inflate hp, toGo_inflate hpt, rel.zbuf]
    refine .right _ ?_
    rcases hread with hbp | ⟨hbp, hs, ht⟩
    · split <;> omega
    · rw [hs, ht, hbp]
      simp
  · refine .inr ⟨q, .inr (.inr rfl), ?_⟩
    rw [toGo_inflate hp, toGo_recon rfl]
    exact .left _ _ (by decide)
  · exact .inl (ended_raiseFault k u)
  · exact .inl (ended_raiseFault _ _)

/-- In RECON every step lowers the rank, until the commit. -/
theorem closer_of_reconPost (hi : RI s) (q : Quiet s) (h : ReconPost s t) : Closer s t := by
  rcases h with ⟨rel, hrank⟩ | ⟨-, rfl⟩ | ⟨k, u, -, -, rfl⟩
  · have hpt := rel.phase.trans hi.phase
    refine .inr ⟨quiet_of_reconRel rel q, .inr (.inr hpt), ?_⟩
    rw [toGo_recon hi.phase, toGo_recon hpt]
    exact .right _ (hrank hi).2
  · exact .inl (.inl rfl)
  · exact .inl (ended_raiseFault k u)

theorem exists_step_closer (hi : Inv s) (q : Quiet s) (hr : Running s) : ∃ t, step s = .next t ∧ Closer s t := by
  rcases hr with hp | hp | hp
  · exact (contPost_of_phase q hp).imp fun _ h => ⟨h.1, closer_of_contPost hi.cursors q hp h.2⟩
  · exact (inflPost_of_inv hi q hp).imp fun _ h => ⟨h.1, closer_of_inflPost hi.cursors q hp h.2⟩
  · exact (reconPost_of_inv hi q hp).imp fun _ h => ⟨h.1, closer_of_reconPost (ri_of_inv hi hp) q h.2⟩

/-! ### The run -/

theorem core_run_succ (h : step s = .next t) (n : Nat) : core.run (n + 1) s = core.run n t := by
  have hcore : core.step s = .next t := h
  simp only [Host.Core.run, hcore]

end

/-- Settles O60, by recursion on what is left to do. -/
theorem decodeEnds : Obligations.DecodeEnds := fun s hi q hr => by
  obtain ⟨t, hstep, hend | ⟨qt, hrt, hless⟩⟩ := exists_step_closer hi q hr
  · exact ⟨1, t, core_run_succ hstep 0, hend⟩
  · obtain ⟨n, u, hrun, hend⟩ := decodeEnds t (invKept s t hi hstep) qt hrt
    exact ⟨n + 1, u, (core_run_succ hstep n).trans hrun, hend⟩
termination_by s => toGo s
decreasing_by exact hless

end Sys2Proof.TotalityProofs
end

section
/-! Fault entry (60_exceptions.md): the ways into FAULTED, with the kind each raises and the phase it is raised in (R380, R390), and
that nothing reads what the spec leaves free (R392). -/

namespace Sys2Proof.ExceptionProofs

open Sys2Proof Sys2Proof.Machine Sys2Proof.Safety Sys2Proof.Laws Sys2Proof.StateProofs

/-! ### The ways into FAULTED -/

/-- The kind is raised where the table of R380 says: in its phase, `TruncatedPixelData` by the length check on the entry to RECON
(46_scanline.md R294). -/
def RaisedAt (k : FaultKind) (s : State) : Prop :=
  (phaseOfKind k = s.phase ∧ k ≠ .truncatedPixelData) ∨ (k = .truncatedPixelData ∧ s.phase = .inflate ∧ s.istage = .finished)

theorem raisedAt_of_inCont {s : State} {k : FaultKind} (hp : s.phase = .container) (hk : InCont k) : RaisedAt k s :=
  .inl ⟨hk.trans hp.symm, by rintro rfl; cases hk⟩

theorem raisedAt_of_inInfl {s : State} {k : FaultKind} (hp : s.phase = .inflate) (hk : InInfl k) : RaisedAt k s :=
  .inl ⟨hk.trans hp.symm, by rintro rfl; cases hk⟩

theorem raisedAt_of_inRecon {s : State} {k : FaultKind} (hp : s.phase = .recon) (hk : InRecon k) : RaisedAt k s :=
  .inl ⟨hk.1.trans hp.symm, hk.2⟩

/-- A step into FAULTED is fault entry, in the phase of the kind. -/
theorem raiseFault_of_step {s t : State} (hs : s.phase ≠ .faulted) (hstep : step s = .next t) (ht : t.phase = .faulted) :
    ∃ k u, t = raiseFault k u ∧ RaisedAt k s := by
  rcases post_of_step hstep with ⟨-, rfl⟩ | ⟨c, -, -, -, rfl⟩ | ⟨-, -, rfl⟩ | ⟨-, hp, hpost⟩ | ⟨-, hp, hpost⟩ | ⟨-, hp, hpost⟩
  · cases ht
  · cases ht
  · exact absurd ht hs
  · rcases hpost with did | ⟨-, -, rfl⟩ | ⟨k, u, hk, -, rfl⟩
    · exact absurd (did.rel.phase.symm.trans ht) hs
    · cases ht
    · exact ⟨k, u, rfl, raisedAt_of_inCont hp hk⟩
  · rcases hpost with ⟨rel, -⟩ | ⟨-, -, rfl⟩ | ⟨k, u, ⟨hk, -⟩, rfl⟩ | ⟨hfin, rfl⟩
    · exact absurd (rel.phase.symm.trans ht) hs
    · cases ht
    · exact ⟨k, u, rfl, raisedAt_of_inInfl hp hk⟩
    · exact ⟨_, _, rfl, .inr ⟨rfl, hp, hfin⟩⟩
  · rcases hpost with ⟨rel, -⟩ | ⟨-, rfl⟩ | ⟨k, u, hk, -, rfl⟩
    · exact absurd (rel.phase.symm.trans ht) hs
    · cases ht
    · exact ⟨k, u, rfl, raisedAt_of_inRecon hp hk⟩

/-! ### Fault entry and the fault kinds (R380, R390, R391) -/

/-- The codes of the table of R380 are 1 to 17. -/
theorem faultKind_code_bounds (k : FaultKind) : 1 ≤ k.code.toNat ∧ k.code.toNat ≤ 17 := by
  cases k <;> decide

/-- Settles O47: every way into FAULTED is `raiseFault`, which writes what the statement lists. -/
theorem faultEntry : Obligations.FaultEntry := fun s t hs hstep ht => by
  obtain ⟨k, u, rfl, -⟩ := raiseFault_of_step hs hstep ht
  obtain ⟨hlow, hhigh⟩ := faultKind_code_bounds k
  exact ⟨⟨k, faulted_raiseFault k u⟩, hlow, hhigh, rfl, rfl, rfl, rfl, rfl, rfl, rfl⟩

/-- Settles O50: the kind the host reads is the one that was raised. -/
theorem faultKindsByPhase : Obligations.FaultKindsByPhase := fun s t k _ hs hstep ht hk => by
  obtain ⟨k', u, rfl, hat⟩ := raiseFault_of_step hs hstep ht
  obtain rfl : k' = k := Option.some.inj hk
  exact hat

/-! ### What is left free is not read (R392) -/

section
variable {τ : Prop} {s t : State}

theorem alike_hardwareReset (h : Alike τ s t) : Alike τ (hardwareReset s) (hardwareReset t) := by
  obtain ⟨a, b, c, cr, rfl, -, -, hτ⟩ := h
  exact ⟨_, b, _, _, rfl, fun _ => rfl, fun _ => rfl, fun h => ⟨(hτ h).1, rfl, rfl⟩⟩

theorem alike_startDecode (stream : List Byte) (maxPixels : Nat) (verify : Bool) (h : Alike τ s t) :
    Alike τ (startDecode stream maxPixels verify s) (startDecode stream maxPixels verify t) := by
  obtain ⟨a, b, c, cr, rfl, -, -, hτ⟩ := h
  exact ⟨_, b, _, _, rfl, fun _ => rfl, fun _ => rfl, fun h => ⟨(hτ h).1, rfl, rfl⟩⟩

/-- `DECODE` starts, or is refused for the one reason, in both states. -/
theorem alike_decode (stream : List Byte) (maxPixels : Nat) (verify : Bool) (h : Alike τ s t) :
    AlikeOut τ (exec (.decode stream maxPixels verify) s) (exec (.decode stream maxPixels verify) t) := by
  have hruns : decodeRuns t = decodeRuns s := by obtain ⟨a, b, c, cr, rfl, -⟩ := h; rfl
  change AlikeOut τ (execDecode stream maxPixels verify s) (execDecode stream maxPixels verify t)
  unfold execDecode
  rw [hruns]
  split
  · exact .refused _
  · split
    · exact .next (alike_startDecode stream maxPixels verify h)
    · exact .refused _

theorem alike_takeCommand (h : Alike τ s t) : Alike τ { s with cmd := none } { t with cmd := none } := by
  obtain ⟨a, b, c, cr, rfl, h⟩ := h
  exact ⟨a, b, c, cr, rfl, h⟩

/-- The fetch looks at the inputs and the phase, which the two states share, and goes on in the same driver. -/
theorem rest_fetch (h : Alike τ s t) : AlikeRest τ (fetch s) (fetch t) := by
  have hshared : t.resetLine = s.resetLine ∧ t.cmd = s.cmd ∧ t.phase = s.phase := by
    obtain ⟨a, b, c, cr, rfl, -⟩ := h
    exact ⟨rfl, rfl, rfl⟩
  obtain ⟨hline, hcmd, hphase⟩ := hshared
  have quiet : Quiet s → Quiet t := fun q => ⟨hcmd.trans q.1, hline.trans q.2⟩
  rcases fetch_by_cases s with ⟨hr, hf⟩ | ⟨hr, c, hc, hf⟩ | ⟨q, hn, hf⟩ | ⟨q, hp, hf⟩ | ⟨q, hp, hf⟩ | ⟨q, hp, hf⟩ <;> rw [hf]
  · rw [fetch_reset (hline.trans hr)]
    exact .seq (alike_hardwareReset h)
  · rw [fetch_command (hline.trans hr) (hcmd.trans hc)]
    exact .elem (alike_decode _ _ _ (alike_takeCommand h))
  · have idle : ¬ Running t := by rwa [Running, hphase]
    rw [fetch_waiting (quiet q) idle]
    exact .seq h
  · rw [fetch_container (quiet q) (hphase.trans hp)]
    exact rest_container h
  · rw [fetch_inflate (quiet q) (hphase.trans hp)]
    exact rest_inflate h
  · rw [fetch_recon (quiet q) (hphase.trans hp)]
    exact rest_recon h

theorem alike_step (h : Alike τ s t) : AlikeOut τ (step s) (step t) := step_rest (rest_fetch h)

theorem alike_true_iff : Alike True s t ↔ SameButOffset s t := by
  constructor
  · rintro ⟨a, b, c, cr, rfl, -, -, hτ⟩
    obtain ⟨rfl, rfl, rfl⟩ := hτ trivial
    rfl
  · intro h
    exact ⟨t.faultOffset, s.freeCount, s.clLen, s.currow, h, fun _ => rfl, fun _ => rfl, fun _ => ⟨rfl, rfl, rfl⟩⟩

theorem alike_false_iff : Alike False s t ↔ SameButFree s t := by
  constructor
  · rintro ⟨a, b, c, cr, rfl, hcl, hrow, -⟩
    exact ⟨rfl, hcl, hrow⟩
  · intro h
    exact ⟨t.faultOffset, t.freeCount, t.clLen, t.currow, h.same, h.clLen, h.currow, False.elim⟩

end

theorem sameOutcome_mono {S S' : State → State → Prop} {o o' : Result} (h : SameOutcome S o o')
    (hs : ∀ s t, S s t → S' s t) : SameOutcome S' o o' := by
  cases h with
  | next h => exact .next (hs _ _ h)
  | fault f => exact .fault f
  | refused r => exact .refused r

/-- Settles O51: both relations are `Alike`, which every step keeps. -/
theorem faultOffsetUnobserved : Obligations.FaultOffsetUnobserved :=
  ⟨fun _ _ h => sameOutcome_mono (alike_step (alike_true_iff.2 h)) fun _ _ => alike_true_iff.1,
    fun _ _ h => sameOutcome_mono (alike_step (alike_false_iff.2 h)) fun _ _ => alike_false_iff.1⟩

end Sys2Proof.ExceptionProofs
end

section
/-! Reset and the idle block (70_reset_and_hazards.md R430 to R432), and the canonical form of the byte arrays. -/

namespace Sys2Proof.ResetProofs

open Sys2Proof Sys2Proof.Machine Sys2Proof.Safety Sys2Proof.Laws Sys2Proof.StateProofs Sys2Proof.HostControlProofs

/-! ### Hardware reset (R430) -/

theorem step_reset {s : State} (h : s.resetLine = true) : step s = .next (hardwareReset s) := step_sequencer (fetch_reset h)

theorem resetValues_hardwareReset (s : State) : ResetValues (hardwareReset s) where
  pstate := rfl
  cursors := ⟨rfl, rfl, rfl⟩
  chunk := ⟨rfl, rfl, rfl, rfl⟩
  counts := ⟨rfl, rfl⟩
  flags := ⟨rfl, rfl, rfl, rfl⟩
  buffers := ⟨rfl, rfl, rfl⟩
  adler := ⟨rfl, rfl⟩
  output := ⟨rfl, rfl, rfl, rfl⟩
  fault := ⟨rfl, rfl⟩

/-- Settles O46: the step is `hardwareReset`, and the reset state is its own hardware reset. -/
theorem hardwareReset : Obligations.HardwareReset :=
  ⟨fun s h => ⟨_, step_reset h, rfl, rfl, resetValues_hardwareReset s⟩, rfl, rfl, resetValues_hardwareReset State.reset⟩

/-! ### Nothing is carried over (R431) -/

theorem exec_decode_running {s : State} (h : Running s) (stream : List Byte) (maxPixels : Nat) (verify : Bool) :
    exec (.decode stream maxPixels verify) s = .refused .decodeWhileRunning :=
  if_pos (decodeRuns_iff.2 h)

/-- The start step reads the inputs and the counter of free values of the state it finds, and nothing else. -/
theorem startDecode_sameButCounter {s s' : State} (hcmd : s.cmd = s'.cmd) (hline : s.resetLine = s'.resetLine)
    (stream : List Byte) (maxPixels : Nat) (verify : Bool) :
    SameButCounter (startDecode stream maxPixels verify s) (startDecode stream maxPixels verify s') := by
  unfold SameButCounter startDecode
  rw [hcmd, hline]

/-- Settles O45: `DECODE` starts or is refused by its arguments alone; the other clauses are the refusal and the step of reset. -/
theorem nothingCarriedOver : Obligations.NothingCarriedOver := by
  refine ⟨fun stream maxPixels verify s s' hs hs' hcmd hline => ?_, fun stream maxPixels verify s h =>
    exec_decode_running h stream maxPixels verify, fun s h => step_reset h⟩
  by_cases range : 1 ≤ maxPixels ∧ maxPixels < 2 ^ 30
  · rw [exec_decode_start stream verify hs range, exec_decode_start stream verify hs' range]
    exact .next (startDecode_sameButCounter hcmd hline stream maxPixels verify)
  · rw [exec_decode_outOfRange stream verify hs range, exec_decode_outOfRange stream verify hs' range]
    exact .refused _

/-! ### Where no decode runs (R432, R393), and the byte arrays -/

/-- Settles O48: the fetch takes no element and changes nothing. -/
theorem waitsForDecode : Obligations.WaitsForDecode := fun _ q h => step_sequencer (fetch_waiting q h)

/-- Settles O55, by the cases of a step. -/
theorem memoryInvKept : Obligations.MemoryInvKept := fun _ _ hi hstep => (stepKind_of_step hstep).memoryInv hi

end Sys2Proof.ResetProofs
end
